-- ==== Sys2Proof/Word.lean ====
section
/-! DEFINITION. The word types of the SAU (spec 10_state R21, 20_memory R50, 40 R100). Bit 0 is the least significant
bit everywhere (00_scope R8). -/

namespace Sys2Proof

/-- A general register's contents, and every command word: 32 bits (R21, R71). -/
abbrev Word := BitVec 32

/-- A byte of memory or of the decimal accumulator (R50, R24). -/
abbrev Byte := BitVec 8

/-- A decimal digit or a sign code: half a byte (R14, R130). -/
abbrev Nibble := BitVec 4

/-- The number of a general register (R20). -/
abbrev RegNum := BitVec 4

/-- The working representation of decimal values: a string of 128 bits with an unsigned and a signed reading (R100). -/
abbrev W128 := BitVec 128

end Sys2Proof
end

