-- ==== Sys2Proof/Syntax.lean ====
section
/-! DEFINITION. The instructions of the block, one constructor per row of spec/opcode_table.json (spec 30_encoding R78),
with the fields of formats M and D (R72, R73); the command a dispatcher presents (R70); why a word is refused (R83). -/

namespace Sys2Proof

/-- The 19 instructions. Format M carries `ind` (CW[31], the indirect flag I), `l` or `r` (CW[23:20], RL), `x` (CW[19:17])
and `addr` (CW[16:0]); fields an instruction ignores (R81) are kept, so that no bit of a word is lost in decoding. -/
inductive Instr where
  /-- FSL, floating subtract long, OP 0x1C (R265). -/
  | fsl (ind : Bool) (r : RegNum) (x : BitVec 3) (addr : BitVec 17)
  /-- FAL, floating add long, OP 0x1D (R264). -/
  | fal (ind : Bool) (r : RegNum) (x : BitVec 3) (addr : BitVec 17)
  /-- FDL, floating divide long, OP 0x1E (R267). -/
  | fdl (ind : Bool) (r : RegNum) (x : BitVec 3) (addr : BitVec 17)
  /-- FML, floating multiply long, OP 0x1F (R266). -/
  | fml (ind : Bool) (r : RegNum) (x : BitVec 3) (addr : BitVec 17)
  /-- FSS, floating subtract short, OP 0x3C (R261). -/
  | fss (ind : Bool) (r : RegNum) (x : BitVec 3) (addr : BitVec 17)
  /-- FAS, floating add short, OP 0x3D (R260). -/
  | fas (ind : Bool) (r : RegNum) (x : BitVec 3) (addr : BitVec 17)
  /-- FDS, floating divide short, OP 0x3E (R263). -/
  | fds (ind : Bool) (r : RegNum) (x : BitVec 3) (addr : BitVec 17)
  /-- FMS, floating multiply short, OP 0x3F (R262). -/
  | fms (ind : Bool) (r : RegNum) (x : BitVec 3) (addr : BitVec 17)
  /-- EBS, edit byte string, OP 0x63, format D: a register number and a signed displacement (R73, R77, R206). -/
  | ebs (r : RegNum) (disp : Int)
  /-- PACK, zoned to packed, OP 0x76 (R200). -/
  | pack (ind : Bool) (l : BitVec 4) (x : BitVec 3) (addr : BitVec 17)
  /-- UNPK, packed to zoned, OP 0x77 (R201). -/
  | unpk (ind : Bool) (l : BitVec 4) (x : BitVec 3) (addr : BitVec 17)
  /-- DS, decimal subtract, OP 0x78 (R163). -/
  | ds (ind : Bool) (l : BitVec 4) (x : BitVec 3) (addr : BitVec 17)
  /-- DA, decimal add, OP 0x79 (R162). -/
  | da (ind : Bool) (l : BitVec 4) (x : BitVec 3) (addr : BitVec 17)
  /-- DD, decimal divide, OP 0x7A (R181). -/
  | dd (ind : Bool) (l : BitVec 4) (x : BitVec 3) (addr : BitVec 17)
  /-- DM, decimal multiply, OP 0x7B (R180). -/
  | dm (ind : Bool) (l : BitVec 4) (x : BitVec 3) (addr : BitVec 17)
  /-- DSA, decimal shift-and-align, OP 0x7C (R182). -/
  | dsa (ind : Bool) (rl : BitVec 4) (x : BitVec 3) (addr : BitVec 17)
  /-- DC, decimal compare, OP 0x7D (R164). -/
  | dc (ind : Bool) (l : BitVec 4) (x : BitVec 3) (addr : BitVec 17)
  /-- DL, decimal load, OP 0x7E (R160). -/
  | dl (ind : Bool) (l : BitVec 4) (x : BitVec 3) (addr : BitVec 17)
  /-- DST, decimal store, OP 0x7F (R161). -/
  | dst (ind : Bool) (l : BitVec 4) (x : BitVec 3) (addr : BitVec 17)
  deriving DecidableEq, Repr

/-- A command: the command word, the effective byte address the dispatcher formed, and the word it fetched for an indirect
DSA (R41, R70). The address port is as wide as the widest ADDR_BITS, 24 (R50, log 7). -/
structure Command where
  cw : Word
  ea : BitVec 24
  opnd : Word
  deriving DecidableEq, Repr

/-- Why a command word spells no instruction (R83). -/
inductive DecodeError where
  /-- CW[30:24] is none of the 19 operation codes of R78. -/
  | unassignedOperationCode (op : BitVec 7)
  /-- CW[30:24] is EBS's 0x63 and CW[31], which must be 0 (R73), is 1. -/
  | editWithBit31
  deriving DecidableEq, Repr

end Sys2Proof
end

