-- ==== Sys2Proof/Config.lean ====
section
/-! DEFINITION. The OPEN parameters of the block (spec 00_scope R7): what an implementation fixes and the spec leaves
open. They are plain data, held in `State.config`, so that every statement holds for every choice of them and the machine
can still be evaluated (log 4). The parameters R7 fixes stand beside the operations that use them: the trap addresses in
Machine/Ops.lean, DEC_REQUIRE_SIGNED, DECA_SPLIT and DECA_DIGITS in Machine/Decimal.lean. -/

namespace Sys2Proof

/-- What becomes of a floating result that is lost to underflow (R236). -/
inductive UflowPolicy where
  /-- The result is zero and the instruction completes. -/
  | trueZero
  /-- The instruction reports underflow. -/
  | zeroWithFlag
  deriving DecidableEq, Repr

/-- UFLOW_POLICY, "an arbitrary function of the two bits" FN and FZ, as the table of its four values (R236). -/
structure UflowTable where
  fn0fz0 : UflowPolicy
  fn1fz0 : UflowPolicy
  fn0fz1 : UflowPolicy
  fn1fz1 : UflowPolicy
  deriving DecidableEq, Repr

/-- The OPEN parameters of R7. -/
structure Config where
  /-- ADDR_BITS less 16, so that 16 ≤ ADDR_BITS ≤ 24 holds of every configuration (R7, R50). -/
  addrExtra : Fin 9
  /-- UFLOW_POLICY (R7, R236). -/
  uflow : UflowTable
  deriving DecidableEq, Repr

/-- ADDR_BITS, the width of a memory byte address (R7). -/
def Config.addrBits (c : Config) : Nat := 16 + c.addrExtra.val

/-- The default of UFLOW_POLICY: FZ alone selects (the table of R236). -/
def UflowTable.default : UflowTable where
  fn0fz0 := .trueZero
  fn1fz0 := .trueZero
  fn0fz1 := .zeroWithFlag
  fn1fz1 := .zeroWithFlag

/-- The configuration State.reset names: ADDR_BITS = 17, the width of the vectors of 95_test_vectors (DESIGN CHOICE,
unsafe, log 4), and the default table of R236. -/
def Config.default : Config where
  addrExtra := 1
  uflow := UflowTable.default

end Sys2Proof
end

