-- ==== Sys2Proof/WellFormed.lean ====
section
/-! DEFINITION. Which instructions and commands the formats of spec 30_encoding can spell. The widths of the format-M
fields and of register numbers are in their types; what a type does not say is checked here. -/

namespace Sys2Proof

/-- EBS's displacement is a signed 20-bit integer, in -524288 .. 524287 (R73, R77); every other field's range is its type's. -/
def Instr.wellFormed : Instr → Bool
  | .ebs _ disp => decide (-524288 ≤ disp) && decide (disp ≤ 524287)
  | .fsl .. | .fal .. | .fdl .. | .fml .. | .fss .. | .fas .. | .fds .. | .fms .. => true
  | .pack .. | .unpk .. | .ds .. | .da .. | .dd .. | .dm .. | .dsa .. | .dc .. | .dl .. | .dst .. => true

/-- A command's effective address is ADDR_BITS wide (R41, R70). -/
def Command.wellFormed (c : Config) (cmd : Command) : Bool := decide (cmd.ea.toNat < 2 ^ c.addrBits)

end Sys2Proof
end

