-- ==== Sys2Proof/Decode.lean ====
section
/-! DEFINITION. Decoding a command word and writing one (spec 30_encoding R71 to R80). -/

namespace Sys2Proof

/-- The indirect flag I, CW[31] (R72). -/
def fieldI (cw : Word) : Bool := cw.getLsbD 31

/-- The operation code OP, CW[30:24] (R72, R73). -/
def fieldOp (cw : Word) : BitVec 7 := cw.extractLsb' 24 7

/-- RL, CW[23:20]: the register number or the operand length (R72, R73). -/
def fieldRL (cw : Word) : BitVec 4 := cw.extractLsb' 20 4

/-- The index field X, CW[19:17] (R72). -/
def fieldX (cw : Word) : BitVec 3 := cw.extractLsb' 17 3

/-- The reference address ADDR, CW[16:0] (R72). -/
def fieldAddr (cw : Word) : BitVec 17 := cw.extractLsb' 0 17

/-- EBS's displacement, `signed_20(CW[19:0])` (R73, R77). -/
def fieldDisp (cw : Word) : Int := (cw.extractLsb' 0 20).toInt

/-- A constructor of a format-M instruction, applied to the fields of a command word (R72). -/
def formatM (mk : Bool → BitVec 4 → BitVec 3 → BitVec 17 → Instr) (cw : Word) : Instr :=
  mk (fieldI cw) (fieldRL cw) (fieldX cw) (fieldAddr cw)

/-- Decoding reads nothing but CW (R80). A word outside the table is refused by name (R83, R84). -/
def decode (cw : Word) : Except DecodeError Instr :=
  match (fieldOp cw).toNat with
  | 0x1C => .ok (formatM .fsl cw)
  | 0x1D => .ok (formatM .fal cw)
  | 0x1E => .ok (formatM .fdl cw)
  | 0x1F => .ok (formatM .fml cw)
  | 0x3C => .ok (formatM .fss cw)
  | 0x3D => .ok (formatM .fas cw)
  | 0x3E => .ok (formatM .fds cw)
  | 0x3F => .ok (formatM .fms cw)
  | 0x63 => if fieldI cw then .error .editWithBit31 else .ok (.ebs (fieldRL cw) (fieldDisp cw))
  | 0x76 => .ok (formatM .pack cw)
  | 0x77 => .ok (formatM .unpk cw)
  | 0x78 => .ok (formatM .ds cw)
  | 0x79 => .ok (formatM .da cw)
  | 0x7A => .ok (formatM .dd cw)
  | 0x7B => .ok (formatM .dm cw)
  | 0x7C => .ok (formatM .dsa cw)
  | 0x7D => .ok (formatM .dc cw)
  | 0x7E => .ok (formatM .dl cw)
  | 0x7F => .ok (formatM .dst cw)
  | _ => .error (.unassignedOperationCode (fieldOp cw))

/-- A format-M command word: I, OP, RL, X, ADDR from bit 31 down (R72). -/
def wordM (op : BitVec 7) (ind : Bool) (rl : BitVec 4) (x : BitVec 3) (addr : BitVec 17) : Word :=
  BitVec.ofBool ind ++ op ++ rl ++ x ++ addr

/-- A format-D command word: a zero bit, OP, R, DISP from bit 31 down (R73). -/
def wordD (op : BitVec 7) (r : BitVec 4) (disp : Int) : Word :=
  (0#1) ++ op ++ r ++ BitVec.ofInt 20 disp

/-- The command word that spells an instruction (R72, R73, R78). -/
def encode : Instr → Word
  | .fsl ind r x addr => wordM 0x1C ind r x addr
  | .fal ind r x addr => wordM 0x1D ind r x addr
  | .fdl ind r x addr => wordM 0x1E ind r x addr
  | .fml ind r x addr => wordM 0x1F ind r x addr
  | .fss ind r x addr => wordM 0x3C ind r x addr
  | .fas ind r x addr => wordM 0x3D ind r x addr
  | .fds ind r x addr => wordM 0x3E ind r x addr
  | .fms ind r x addr => wordM 0x3F ind r x addr
  | .ebs r disp => wordD 0x63 r disp
  | .pack ind l x addr => wordM 0x76 ind l x addr
  | .unpk ind l x addr => wordM 0x77 ind l x addr
  | .ds ind l x addr => wordM 0x78 ind l x addr
  | .da ind l x addr => wordM 0x79 ind l x addr
  | .dd ind l x addr => wordM 0x7A ind l x addr
  | .dm ind l x addr => wordM 0x7B ind l x addr
  | .dsa ind rl x addr => wordM 0x7C ind rl x addr
  | .dc ind l x addr => wordM 0x7D ind l x addr
  | .dl ind l x addr => wordM 0x7E ind l x addr
  | .dst ind l x addr => wordM 0x7F ind l x addr

/-- The columns `match` and `mask` of an instruction's row of the opcode table: a word `CW` spells the instruction when
`CW & mask = match` (R78). -/
def Instr.row : Instr → Word × Word
  | .fsl .. => (0x1C000000, 0x7F000000)
  | .fal .. => (0x1D000000, 0x7F000000)
  | .fdl .. => (0x1E000000, 0x7F000000)
  | .fml .. => (0x1F000000, 0x7F000000)
  | .fss .. => (0x3C000000, 0x7F000000)
  | .fas .. => (0x3D000000, 0x7F000000)
  | .fds .. => (0x3E000000, 0x7F000000)
  | .fms .. => (0x3F000000, 0x7F000000)
  | .ebs .. => (0x63000000, 0xFF000000)
  | .pack .. => (0x76000000, 0x7F000000)
  | .unpk .. => (0x77000000, 0x7F000000)
  | .ds .. => (0x78000000, 0x7F000000)
  | .da .. => (0x79000000, 0x7F000000)
  | .dd .. => (0x7A000000, 0x7F000000)
  | .dm .. => (0x7B000000, 0x7F000000)
  | .dsa .. => (0x7C000000, 0x7F000000)
  | .dc .. => (0x7D000000, 0x7F000000)
  | .dl .. => (0x7E000000, 0x7F000000)
  | .dst .. => (0x7F000000, 0x7F000000)

/-- The host's question: the instruction the decoder reads from the command word whose low `nbits` bits are those of `w`
and whose other bits are 0 (R71: every command word is one 32-bit word). -/
def decodeTableWord (nbits w : Nat) : Option Instr :=
  match decode (BitVec.ofNat 32 (w % 2 ^ nbits)) with
  | .ok i => some i
  | .error _ => none

end Sys2Proof
end

