-- ==== Sys2Proof/Machine/State.lean ====
section
/-! DEFINITION. The state of the machine (spec 10_state, 60_exceptions R284 and R299), why a step stops, and the launch
state. Plain data throughout. -/

namespace Sys2Proof.Machine

/-- Main memory: (address, byte) pairs (R34, R50), in the canonical form `Memory.wf` of Machine/Ops.lean. -/
abbrev Memory := List Host.Cell

/-- The program status doubleword by named field (R28); `rest` is the 39 of its 64 bits that no field names. Positions are
informational (R29, `Psd.word` in Machine/Ops.lean). -/
structure Psd where
  /-- CC1 CC2 CC3 CC4, CC1 the most significant bit (R11, R28). -/
  cc : BitVec 4
  /-- The decimal-exception mask: 1 arms the decimal trap (R28, R152). -/
  dm : Bool
  /-- The floating significance bit, never read by the block (R28, R258). -/
  fs : Bool
  /-- The floating zero policy bit (R28, R236). -/
  fz : Bool
  /-- The floating normalize policy bit (R28, R236). -/
  fn : Bool
  /-- The instruction address, never read or written by the block (R29, R30). -/
  ia : BitVec 17
  /-- Every other bit of the PSD, never read or written by the block (R28). -/
  rest : BitVec 39
  deriving DecidableEq, Repr

/-- The block is busy from the acceptance of a command until it reports completion (R41). -/
inductive BlockStatus where
  | idle
  | busy
  deriving DecidableEq, Repr

/-- How a command ended (R45). The fourth report of R45, `refused`, is the outcome `Host.Outcome.refused` of the step
(R84), so that no state ever holds it. -/
inductive Completion where
  /-- The instruction wrote its condition code and made no trap call. -/
  | done
  /-- The instruction wrote its condition code and called `trap(address)`. -/
  | trapped (address : Nat)
  /-- TRAPFLAG was found set after a memory transaction. -/
  | aborted
  deriving DecidableEq, Repr

/-- What the memory accessor will do with one transaction: an input of the machine (R56, R57, R320(b)). -/
inductive Verdict where
  /-- The transaction takes place and TRAPFLAG is not raised. -/
  | pass
  /-- TRAPFLAG is raised. Whether a flagged store wrote its bytes is the accessor's affair (R57, 93 U10); the data of a
  flagged load is discarded. -/
  | flag (stored : Bool)
  deriving DecidableEq, Repr

/-- One transaction the block made on a port: what a collaborator sees of a command (R40 to R44; log 9). -/
inductive PortEvent where
  /-- `PsdRead()` (R42). -/
  | psdRead
  /-- `RegRead(i)` (R42). -/
  | regRead (i : RegNum)
  /-- A load of `n` bytes at a byte address (R43). -/
  | load (address : Nat) (n : Nat)
  /-- A store of bytes, the first at the address (R43). -/
  | store (address : Nat) (bytes : List Byte)
  /-- `RegWrite(i, v)` (R42). -/
  | regWrite (i : RegNum) (v : Word)
  /-- `CcWrite(cc)` (R42). -/
  | ccWrite (cc : BitVec 4)
  /-- `trap(address)` (R44). -/
  | trap (address : Nat)
  deriving DecidableEq, Repr

/-- Why the machine stops with a fault. The faults of the spec are all next states (R280, R288); only this is left. -/
inductive Fault where
  /-- Raised by `step` alone: a command is pending while the block is busy. "A command is accepted only when the block is
  idle" (R41), and a command runs to its completion within one step, so no run reaches this. Safe: the model stops. -/
  | commandWhileBusy
  deriving DecidableEq, Repr

/-- Why a command is given no meaning. -/
inductive Refusal where
  /-- Raised by `exec`'s arm of an instruction that has no meaning yet (none is left). Safe. -/
  | notModelled (mnemonic : String)
  /-- Raised by `step`: the command word spells no instruction of the block (R83, R84). Safe: the spec asks for it. -/
  | undecodable (why : DecodeError)
  /-- A wide division by zero has no result and "a model treats a call with a zero divisor as a refusal" (R116). Raised by
  DD's meaning after the test that excludes it, so no state reaches it. Safe. -/
  | wideDivisionByZero
  deriving DecidableEq, Repr

/-- Everything the spec gives the machine, and the three fields of the model's own (`config`, `accessor`, `ports`) that its
inputs and outputs need. -/
structure State where
  /-- The OPEN parameters of R7, constant in every run (log 4). -/
  config : Config
  /-- x[0] to x[15] (R20, R21); x[12] to x[15] are the decimal accumulator (R24). -/
  regs : Vector Word 16
  /-- The program status doubleword (R28). -/
  psd : Psd
  /-- Main memory (R34, R50). -/
  mem : Memory
  /-- TRAPFLAG (R32). -/
  trapFlag : Bool
  /-- The run's trap record, oldest first (R284, R299). -/
  trapRecord : List Nat
  /-- Idle or busy (R36, R41). -/
  status : BlockStatus
  /-- The completion report of the last command, none before the first (R45). -/
  completion : Option Completion
  /-- The command on the command port (R41, R70). -/
  command : Command
  /-- The commands the host sequencer has still to present (R299). -/
  program : List Command
  /-- How many commands the block took and gave a meaning to; where one was, the last one's index is one less (R299). A
refused command is not counted: the step that meets it answers `refused` and no next state, so that the index of the last
command presented is then this count itself (DESIGN CHOICE, log 6: R299(5) asks for the index and R84 for a refusal). -/
  presented : Nat
  /-- The accessor's verdicts on the coming memory transactions, first the next one; when none is left every transaction
  passes (log 5). -/
  accessor : List Verdict
  /-- The port transactions made so far, newest first (log 9). -/
  ports : List PortEvent
  deriving DecidableEq, Repr

/-- The launch state this model names. TRAPFLAG 0, the block idle and an empty trap record are the spec's (R36, R299,
R310, R321). Everything else is "unspecified; a model takes them as inputs of the launch state" (R36): the values here
are this model's (DESIGN CHOICE, unsafe: log 1 for the registers, which R36 forbids to be zero; log 2 for the PSD; log 3
for memory; log 4 for the parameters; log 6, 7 and 17 for the sequencer and the ports). -/
def State.reset : State where
  config := Config.default
  regs := Vector.replicate 16 0x01010101
  psd := { cc := 0, dm := false, fs := false, fz := false, fn := false, ia := 0, rest := 0 }
  mem := []
  trapFlag := false
  trapRecord := []
  status := .idle
  completion := none
  command := { cw := 0, ea := 0, opnd := 0 }
  program := []
  presented := 0
  accessor := []
  ports := []

end Sys2Proof.Machine
end

