-- ==== Sys2Proof/Machine/Flags.lean ====
section
/-! DEFINITION. Every condition code the block computes (spec 41 R145 to R151, 43 R182, 44 R207, 46 R254 and R255). A code is
written CC1 CC2 CC3 CC4, CC1 the most significant bit (R11). -/

namespace Sys2Proof.Machine

/-- The condition code of four bits. -/
def ccOf (cc1 cc2 cc3 cc4 : Bool) : BitVec 4 :=
  BitVec.ofBool cc1 ++ BitVec.ofBool cc2 ++ BitVec.ofBool cc3 ++ BitVec.ofBool cc4

/-- CC1 of a condition code. -/
def cc1Of (cc : BitVec 4) : Bool := cc.getLsbD 3

/-- CC2 of a condition code. -/
def cc2Of (cc : BitVec 4) : Bool := cc.getLsbD 2

/-- CC3 of a condition code. -/
def cc3Of (cc : BitVec 4) : Bool := cc.getLsbD 1

/-- CC4 of a condition code. -/
def cc4Of (cc : BitVec 4) : Bool := cc.getLsbD 0

/-- `SignCC(v)`, the pair CC3 CC4: 00 for zero, 01 for negative, 10 for positive (R146). -/
def signCC (v : Int) : BitVec 2 := if v = 0 then 0b00 else if v < 0 then 0b01 else 0b10

/-- The pair CC3 CC4 of a comparison: equal 00, accumulator less 01, accumulator greater 10 (R146, R164). -/
def compareCC : Ordering → BitVec 2
  | .eq => 0b00
  | .lt => 0b01
  | .gt => 0b10

/-- The code of a decimal instruction that completes: `0 : cc2 : pair` (R147). -/
def decimalCC (cc2 : Bool) (pair : BitVec 2) : BitVec 4 := 0#1 ++ BitVec.ofBool cc2 ++ pair

/-- The two decimal faults (R13). -/
inductive DecimalFault where
  | invalidDigit
  | overflow
  deriving DecidableEq, Repr

/-- The code a decimal fault writes: CC1 CC2 say which, CC3 CC4 stay (R150, R151). -/
def decimalFaultCC (kind : DecimalFault) (old : BitVec 4) : BitVec 4 :=
  match kind with
  | .invalidDigit => ccOf true false (cc3Of old) (cc4Of old)
  | .overflow => ccOf false true (cc3Of old) (cc4Of old)

/-- The code of a floating operation that completes, from the word written (R254). -/
def floatCC {width : Nat} (w : BitVec width) : BitVec 4 :=
  if w = 0 then 0b0000 else if w.msb then 0b0001 else 0b0010

/-- The four floating faults; overflow and underflow carry whether the result is negative (R13, R255). -/
inductive FloatFault where
  | overflow (negative : Bool)
  | underflow (negative : Bool)
  | divideByZero
  | nan
  deriving DecidableEq, Repr

/-- The code a floating fault writes (the table of R255). -/
def floatFaultCC : FloatFault → BitVec 4
  | .overflow negative => if negative then 0b0101 else 0b0110
  | .underflow negative => if negative then 0b1101 else 0b1110
  | .divideByZero => 0b0100
  | .nan => 0b0100

end Sys2Proof.Machine
end

