-- ==== Sys2Proof/Machine/Operands.lean ====
section
/-! DEFINITION. Operand forms: bytes and nibbles, byte order, operand length, the counts and displacements of the formats
(spec 00_scope R14, 20_memory R52 and R53, 30_encoding R74 to R77, 41 R130 and R134). -/

namespace Sys2Proof.Machine

/-- The nibbles of a byte string, the high nibble of each byte first (R14). -/
def nibbles : List Byte → List Nibble
  | [] => []
  | b :: bs => b.extractLsb' 4 4 :: b.extractLsb' 0 4 :: nibbles bs

/-- The byte string of a nibble sequence of even length, the inverse of `nibbles` (R14, R141). -/
def packNibbles : List Nibble → List Byte
  | hi :: lo :: rest => (hi ++ lo) :: packNibbles rest
  | _ => []

/-- The zone of a zoned byte, its high nibble (R134). -/
def zoneOf (b : Byte) : Nibble := b.extractLsb' 4 4

/-- The digit of a zoned byte, its low nibble (R134). -/
def digitOf (b : Byte) : Nibble := b.extractLsb' 0 4

/-- The unsigned value of a byte string, its first byte most significant (R52). -/
def bytesToNat (bs : List Byte) : Nat := bs.foldl (fun acc b => acc * 256 + b.toNat) 0

/-- The four bytes of a register, the most significant first (R24). -/
def wordBytes (w : Word) : List Byte :=
  [w.extractLsb' 24 8, w.extractLsb' 16 8, w.extractLsb' 8 8, w.extractLsb' 0 8]

/-- The register that holds four bytes, the most significant first (R24, R52). -/
def bytesWord (bs : List Byte) : Word := BitVec.ofNat 32 (bytesToNat bs)

/-- The length in bytes of a decimal operand: L, and 16 when L is 0 (R74). -/
def operandLength (l : BitVec 4) : Nat := if l = 0 then 16 else l.toNat

/-- An address with its low bits forced to 0: `EA - (EA mod n)` (R53). -/
def alignDown (n a : Nat) : Nat := a - a % n

/-- The low register of a long pair and EBS's second register: `R | 1` (R203, R251). -/
def pairLow (r : RegNum) : RegNum := r ||| 1

/-- An index register's number: X is a 3-bit field (R72). -/
def indexReg (x : BitVec 3) : RegNum := x.setWidth 4

/-- DSA's count: the signed reading of the low 16 bits of operand plus index contribution (R76). -/
def shiftCount (opnd xv : Word) : Int := ((opnd + xv).extractLsb' 0 16).toInt

end Sys2Proof.Machine
end

