-- ==== Sys2Proof/Machine/Ops.lean ====
section
/-! DEFINITION. The named operations over memory, registers and the PSD; the trap call and the two fault procedures; the end
of a command; presenting a command (spec 10_state R40 to R45, 20_memory, 41 R150 to R153, 46 R255, 60_exceptions). -/

namespace Sys2Proof.Machine

/-! ## Memory as data -/

/-- What a byte that nothing has written reads as (R36 gives none; DESIGN CHOICE, unsafe, log 3). -/
def Memory.unwritten : Byte := 0

/-- One byte of memory. -/
def Memory.read : Memory → Nat → Byte
  | [], _ => Memory.unwritten
  | (a', b') :: m, a => if a = a' then b' else Memory.read m a

/-- Memory with one byte changed; the canonical form is kept. -/
def Memory.write : Memory → Nat → Byte → Memory
  | [], a, b => if b = Memory.unwritten then [] else [(a, b)]
  | (a', b') :: m, a, b =>
    if a < a' then (if b = Memory.unwritten then (a', b') :: m else (a, b) :: (a', b') :: m)
    else if a = a' then (if b = Memory.unwritten then m else (a, b) :: m)
    else (a', b') :: Memory.write m a b

/-- Addresses strictly rising from `lo` on and below `hi`, no entry equal to what an unlisted address reads as. -/
def Memory.wfFrom (hi : Nat) : Nat → Memory → Bool
  | _, [] => true
  | lo, (a, b) :: m => decide (lo ≤ a) && decide (a < hi) && decide (b ≠ Memory.unwritten) && Memory.wfFrom hi (a + 1) m

/-- The canonical form of a memory of `2 ^ addrBits` bytes. -/
def Memory.wf (addrBits : Nat) (m : Memory) : Bool := Memory.wfFrom (2 ^ addrBits) 0 m

/-! ## Registers, the accumulator and the PSD -/

/-- `x[i]` (R11). -/
def State.reg (s : State) (i : RegNum) : Word := s.regs[i.toNat]

/-- `RegRead(i)`: one transaction on the register port, without other effect (R42). -/
def State.regRead (s : State) (i : RegNum) : State × Word := ({ s with ports := .regRead i :: s.ports }, s.reg i)

/-- `PsdRead()`: one transaction on the register port, without other effect (R42). -/
def State.psdRead (s : State) : State × Psd := ({ s with ports := .psdRead :: s.ports }, s.psd)

/-- `x[i] <- v`, one `RegWrite` (R11, R42). -/
def State.writeReg (s : State) (i : RegNum) (v : Word) : State :=
  { s with regs := s.regs.set i.toNat v i.isLt, ports := .regWrite i v :: s.ports }

/-- `PSD.CC <- cc`, one `CcWrite` (R35, R42). -/
def State.writeCC (s : State) (cc : BitVec 4) : State :=
  { s with psd := { s.psd with cc := cc }, ports := .ccWrite cc :: s.ports }

/-- DECA, the 16 bytes of registers 12 to 15, most significant first (R24). -/
def State.deca (s : State) : List Byte :=
  wordBytes (s.reg 12) ++ wordBytes (s.reg 13) ++ wordBytes (s.reg 14) ++ wordBytes (s.reg 15)

/-- A read of DECA: four register reads, x[12], x[13], x[14], x[15] (R24; the order DEDUCED, log 9). -/
def State.readDeca (s : State) : State × List Byte :=
  let (s1, w12) := s.regRead 12
  let (s2, w13) := s1.regRead 13
  let (s3, w14) := s2.regRead 14
  let (s4, w15) := s3.regRead 15
  (s4, wordBytes w12 ++ wordBytes w13 ++ wordBytes w14 ++ wordBytes w15)

/-- A write of DECA: four register writes, x[12], x[13], x[14], x[15], in that order (R142). -/
def State.writeDeca (s : State) (bytes : List Byte) : State :=
  (((s.writeReg 12 (bytesWord (bytes.take 4))).writeReg 13 (bytesWord ((bytes.drop 4).take 4))).writeReg 14
    (bytesWord ((bytes.drop 8).take 4))).writeReg 15 (bytesWord ((bytes.drop 12).take 4))

/-- The PSD as a 64-bit word at the positions of R29 (informational: "no rule depends on a position"; log 10). -/
def Psd.word (p : Psd) : BitVec 64 :=
  p.cc ++ p.rest.extractLsb' 38 1 ++ BitVec.ofBool p.fs ++ BitVec.ofBool p.fz ++ BitVec.ofBool p.fn
    ++ p.rest.extractLsb' 36 2 ++ BitVec.ofBool p.dm ++ p.rest.extractLsb' 32 4 ++ p.ia ++ p.rest.extractLsb' 0 32

/-! ## Addresses and the memory port -/

/-- Address arithmetic is modulo `2 ^ ADDR_BITS` (R12, R60). -/
def State.wrap (s : State) (a : Nat) : Nat := a % 2 ^ s.config.addrBits

/-- The command's effective address, ADDR_BITS wide (R70; a wider EA is reduced, log 7). -/
def State.ea (s : State) : Nat := s.wrap s.command.ea.toNat

/-- The low ADDR_BITS bits of a register, an address field of EBS's registers (R203). -/
def State.addrField (s : State) (w : Word) : Nat := s.wrap w.toNat

/-- A register with its low ADDR_BITS bits replaced by an address and the others kept (R203). -/
def State.withAddrField (s : State) (w : Word) (a : Nat) : Word :=
  BitVec.ofNat 32 (w.toNat - w.toNat % 2 ^ s.config.addrBits + s.wrap a)

/-- The accessor's verdict on the next memory transaction (R56, log 5). -/
def State.verdict (s : State) : Verdict := s.accessor.headD .pass

/-- A verdict raises TRAPFLAG (R56). -/
def Verdict.raises : Verdict → Bool
  | .pass => false
  | .flag _ => true

/-- A store under this verdict writes its bytes (R57). -/
def Verdict.stores : Verdict → Bool
  | .pass => true
  | .flag stored => stored

/-- The `n` bytes from an address on, the lowest address first (R14, R60). -/
def State.bytesAt (s : State) (a : Nat) : Nat → List Byte
  | 0 => []
  | n + 1 => s.mem.read (s.wrap a) :: s.bytesAt (a + 1) n

/-- `MemRead(a, n)`: one load of `n` bytes, most significant first (R12, R52). The poll is the caller's `trapFlag`. -/
def State.memRead (s : State) (a n : Nat) : State × List Byte :=
  ({ s with
      trapFlag := s.trapFlag || s.verdict.raises
      accessor := s.accessor.tail
      ports := .load (s.wrap a) n :: s.ports },
    s.bytesAt a n)

/-- Memory with a byte string written from an address on, addresses modulo `2 ^ addrBits` (R52, R60). -/
def Memory.writeBytes (addrBits : Nat) : Memory → Nat → List Byte → Memory
  | m, _, [] => m
  | m, a, b :: bs => Memory.writeBytes addrBits (m.write (a % 2 ^ addrBits) b) (a + 1) bs

/-- `MemWrite(a, n, v)`: one store of the bytes of `v`, most significant first (R12, R52). -/
def State.memWrite (s : State) (a : Nat) (bytes : List Byte) : State :=
  { s with
    mem := if s.verdict.stores then Memory.writeBytes s.config.addrBits s.mem a bytes else s.mem
    trapFlag := s.trapFlag || s.verdict.raises
    accessor := s.accessor.tail
    ports := .store (s.wrap a) bytes :: s.ports }

/-- `ReadOperand(a, n)`: `n` loads of one byte in ascending order, each followed by the poll (R56, R139). The bytes, or none
where a poll found TRAPFLAG set. -/
def State.readOperand (s : State) (a : Nat) : Nat → State × Option (List Byte)
  | 0 => (s, some [])
  | n + 1 =>
    let (s1, b) := s.memRead a 1
    if s1.trapFlag then (s1, none)
    else match s1.readOperand (a + 1) n with
      | (s2, some bs) => (s2, some (b ++ bs))
      | (s2, none) => (s2, none)

/-- One store of one byte for each byte of a string, in ascending order, each followed by the poll (R55, R56). Whether every
poll found TRAPFLAG clear. -/
def State.storeOperand (s : State) (a : Nat) : List Byte → State × Bool
  | [] => (s, true)
  | b :: bs =>
    let s1 := s.memWrite a [b]
    if s1.trapFlag then (s1, false) else s1.storeOperand (a + 1) bs

/-! ## The end of a command -/

/-- What a meaning answers. -/
abbrev Result := Host.Outcome State Fault Refusal

/-- The block reports completion and is idle (R41, R45). -/
def State.complete (s : State) (c : Completion) : Result :=
  .next { s with status := .idle, completion := some c }

/-- The abort: the command ends at once, nothing further is written (R57). -/
def State.abort (s : State) : Result := s.complete .aborted

/-! ## Traps and faults: the one operation that takes an exception -/

/-- TRAP_DECIMAL (R7, R281). -/
def trapDecimal : Nat := 0x45

/-- TRAP_FLOAT (R7, R281). -/
def trapFloat : Nat := 0x44

/-- `Trap(a)`: the trap poster appends the address to the run's trap record and sets TRAPFLAG; nothing else changes (R284). -/
def State.postTrap (s : State) (a : Nat) : State :=
  { s with trapFlag := true, trapRecord := s.trapRecord ++ [a], ports := .trap a :: s.ports }

/-- The last act of a command that traps: the call, then the report `trapped(a)` (R153, R284, R285). There is no entry
sequence and no return inside the block (R289). -/
def State.takeTrap (s : State) (a : Nat) : Result := (s.postTrap a).complete (.trapped a)

/-- The maskable end of a decimal fault: the trap when the sample `dm` of PSD.DM is 1, else `done` (R152). -/
def State.decimalTrap (s : State) (dm : Bool) : Result :=
  if dm then s.takeTrap trapDecimal else s.complete .done

/-- The fault procedure: the `PsdRead` that samples the mask, one `CcWrite`, the trap if armed (R152, R153; that the mask is
read here and not at the start, DESIGN CHOICE, log 9; that the read precedes the write, R35). -/
def State.decimalEnd (s : State) (cc : Psd → BitVec 4) : Result :=
  let (s1, psd) := s.psdRead
  (s1.writeCC (cc psd)).decimalTrap psd.dm

/-- `raise DecimalFault(kind)` (R150, R151). -/
def State.decimalFault (s : State) (kind : DecimalFault) : Result :=
  s.decimalEnd fun psd => decimalFaultCC kind psd.cc

/-- `raise FloatFault(kind)`: no register is written, the code of the table, the unmaskable trap (R255). -/
def State.floatFault (s : State) (kind : FloatFault) : Result :=
  (s.writeCC (floatFaultCC kind)).takeTrap trapFloat

/-! ## The host sequencer -/

/-- The run goes on: no command was presented yet, or the last one ended `done` (R299(3), (4)). -/
def State.running (s : State) : Bool :=
  match s.completion with
  | none => true
  | some .done => true
  | some (.trapped _) => false
  | some .aborted => false

/-- The command is on the port and the block is busy with it (R41, R299(2)). -/
def State.present (s : State) (c : Command) (rest : List Command) : State :=
  { s with status := .busy, command := c, program := rest, presented := s.presented + 1 }

end Sys2Proof.Machine
end

