-- ==== Sys2Proof/Machine/WideInt.lean ====
section
/-! DEFINITION. The wide-integer primitives WIP (spec 40_wide_integer R100 to R117): pure functions of their operands, as
R101 allows; the latches WA, WB and WF are the arguments and results (log 8). -/

namespace Sys2Proof.Machine.W

/-- A result left in WA with the flag latch WF (R101); a flag a primitive does not define is false. -/
structure Result where
  value : W128
  carry : Bool
  ovf : Bool
  deriving DecidableEq, Repr

/-- A quotient (left in WA), a remainder (left in WB) and the overflow flag (R114, R115). -/
structure DivResult where
  quotient : W128
  remainder : W128
  ovf : Bool
  deriving DecidableEq, Repr

/-- A mathematical integer lies outside the signed range of W128 (R106, R107, R112). -/
def outOfSigned (v : Int) : Bool := !(decide (-(2 ^ 127) ≤ v) && decide (v ≤ 2 ^ 127 - 1))

/-- W.FROMU64 (R103). -/
def fromU64 (v : BitVec 64) : W128 := v.setWidth 128

/-- W.FROMS64 (R104). -/
def fromS64 (v : BitVec 64) : W128 := v.signExtend 128

/-- W.TOU64: the low 64 bits, and whether any other bit is set (R105). -/
def toU64 (a : W128) : BitVec 64 × Bool := (a.extractLsb' 0 64, a.extractLsb' 64 64 != 0)

/-- W.ADD (R106). -/
def add (a b : W128) : Result where
  value := a + b
  carry := decide (2 ^ 128 ≤ a.toNat + b.toNat)
  ovf := outOfSigned (a.toInt + b.toInt)

/-- W.SUB; the carry is the unsigned borrow (R107). -/
def sub (a b : W128) : Result where
  value := a - b
  carry := decide (a.toNat < b.toNat)
  ovf := outOfSigned (a.toInt - b.toInt)

/-- W.NEG (R108). -/
def neg (a : W128) : Result where
  value := -a
  carry := false
  ovf := decide (a.toInt = -(2 ^ 127))

/-- W.ABS: the unsigned magnitude of the signed reading, and whether that reading is negative (R109). -/
def abs (a : W128) : W128 × Bool := (if a.msb then -a else a, a.msb)

/-- W.ISZERO (R110). -/
def isZero (a : W128) : Bool := a == 0

/-- W.ISNEG (R110). -/
def isNeg (a : W128) : Bool := a.getLsbD 127

/-- W.MULU (R111). -/
def mulU (a b : W128) : Result where
  value := a * b
  carry := false
  ovf := decide (2 ^ 128 ≤ a.toNat * b.toNat)

/-- W.MULS: the same bits as W.MULU, with the signed overflow (R112). -/
def mulS (a b : W128) : Result where
  value := a * b
  carry := false
  ovf := outOfSigned (a.toInt * b.toInt)

/-- W.MUL10ADD, for a digit `d` ≤ 9 (R113). -/
def mul10add (a : W128) (d : Nibble) : Result where
  value := a * 10 + d.setWidth 128
  carry := false
  ovf := decide (2 ^ 128 ≤ a.toNat * 10 + d.toNat)

/-- W.DIVU (R114); a zero divisor has no result (R116). -/
def divU (a b : W128) : Option DivResult :=
  if b = 0 then none else some { quotient := a / b, remainder := a % b, ovf := false }

/-- W.DIVS, truncating toward zero (R115); a zero divisor has no result (R116). -/
def divS (a b : W128) : Option DivResult :=
  if b = 0 then none
  else some { quotient := a.sdiv b, remainder := a.srem b, ovf := decide (a.toInt = -(2 ^ 127)) && decide (b.toInt = -1) }

/-- W.CMPU (R117). -/
def cmpU (a b : W128) : Ordering := compare a.toNat b.toNat

/-- W.CMPS (R117). -/
def cmpS (a b : W128) : Ordering := compare a.toInt b.toInt

end Sys2Proof.Machine.W
end

