-- ==== Sys2Proof/Machine/Decimal.lean ====
section
/-! DEFINITION. What the decimal instructions share: the checks, the encoder, the accumulator (spec 41_decimal_common R130 to
R144), and the frame of an instruction rule (R154): read, check, compute, write. -/

namespace Sys2Proof.Machine

/-- DEC_REQUIRE_SIGNED: no instruction requires a signed operand (R7, R138). -/
def decRequireSigned : Bool := false

/-! ## DecCheck -/

/-- The check result; when `ok` is false the other two fields have no meaning (R135). -/
structure CheckResult where
  ok : Bool
  unsigned : Bool
  value : W128
  deriving DecidableEq, Repr

/-- A result that is not ok (R135). -/
def CheckResult.bad : CheckResult := { ok := false, unsigned := false, value := 0 }

/-- A nibble is a decimal digit (R136). -/
def isDigit (d : Nibble) : Bool := decide (d.toNat < 10)

/-- A sign code that is plus with the `unsigned` flag: 0xA, 0xE, 0xF (R131). -/
def signUnsigned (s : Nibble) : Bool := s == 0xA || s == 0xE || s == 0xF

/-- A sign code that is minus: 0xB, 0xD (R131). -/
def signMinus (s : Nibble) : Bool := s == 0xB || s == 0xD

/-- The value of a digit sequence, most significant first, built by W.MUL10ADD from 0 (R136). -/
def digitsValue (ds : List Nibble) : W128 := ds.foldl (fun v d => (W.mul10add v d).value) 0

/-- Digits and a sign code, checked and valued: the common end of both scans and of PACK (R136, R137, R200). -/
def checkSigned (ds : List Nibble) (sign : Nibble) (requireSigned : Bool) : CheckResult :=
  if !ds.all isDigit then .bad
  else if sign.toNat < 10 then .bad
  else if signUnsigned sign && requireSigned then .bad
  else
    { ok := true, unsigned := signUnsigned sign
      value := if signMinus sign then (W.neg (digitsValue ds)).value else digitsValue ds }

/-- `DecCheck(bytes, fixed, requireSigned)`: every nibble but the last is a digit, the last is the sign (R136). -/
def decCheckFixed (bytes : List Byte) (requireSigned : Bool) : CheckResult :=
  let ns := nibbles bytes
  checkSigned ns.dropLast (ns.getLastD 0) requireSigned

/-- `DecCheck(bytes, variable, requireSigned)`: the first nibble of 10 or more is the sign, nibbles after it are not examined
(R137). No instruction uses it. -/
def decCheckVariable (bytes : List Byte) (requireSigned : Bool) : CheckResult :=
  let ns := nibbles bytes
  match (ns.dropWhile isDigit).head? with
  | none => .bad
  | some sign => checkSigned (ns.takeWhile isDigit) sign requireSigned

/-- `CheckAcc()`: DECA as a 16-byte fixed-length packed number (R140); `State.withAcc` makes the reads of it. -/
def State.checkAcc (s : State) : CheckResult := decCheckFixed s.deca decRequireSigned

/-! ## Digits, DecSet, EncodePacked -/

/-- The `d` low-order decimal digits of `t`, most significant first, zero filled (R141). -/
def decimalDigits : Nat → Nat → List Nibble
  | 0, _ => []
  | d + 1, t => decimalDigits d (t / 10) ++ [BitVec.ofNat 4 (t % 10)]

/-- `Digits(mag, m, sign)`: a 64-bit magnitude and an optional sign nibble packed into `m` bytes; digits that do not fit are
dropped (R141). -/
def digits (mag : BitVec 64) (m : Nat) (sign : Option Nibble) : List Byte :=
  match sign with
  | some sg => packNibbles (decimalDigits (2 * m - 1) mag.toNat ++ [sg])
  | none => packNibbles (decimalDigits (2 * m) mag.toNat)

/-- The sign nibble the block generates: 0xD for a negative value, else 0xC (R133). -/
def generatedSign (v : Int) : Nibble := if v < 0 then 0xD else 0xC

/-- DECA_SPLIT, the divisor that splits the accumulator value (R7, R142). -/
def decaSplit : W128 := 1000000000000000

/-- DECA_DIGITS, the decimal digits of the accumulator (R7). -/
def decaDigits : Nat := 31

/-- The low 31 digits of a value with its sign: `sgn(v) * (|v| mod 10^31)` (R142, R180). -/
def low31 (v : Int) : Int := v.sign * ((v.natAbs % 10 ^ decaDigits : Nat) : Int)

/-- The 16 bytes `DecSet` writes for a 128-bit signed value, or none where the high part is `10^16` or more (R142). -/
def decImage (v : W128) : Option (List Byte) :=
  let sign : Nibble := if W.isNeg v then 0xD else 0xC
  match W.divU (W.abs v).1 decaSplit with
  | none => none
  | some d =>
    if 10 ^ 16 ≤ d.quotient.toNat then none
    else some (digits (W.toU64 d.quotient).1 8 none ++ digits (W.toU64 d.remainder).1 8 (some sign))

/-- `DecSet(v, true)`: DECA written with the low 31 digits of `v`. The image of a value below `10^31` always exists, so the
alternative `[]` is never taken (R142, R143). -/
def State.decSetLow31 (s : State) (v : Int) : State :=
  s.writeDeca ((decImage (BitVec.ofInt 128 (low31 v))).getD [])

/-- `DecSet(v, suppress)`: DECA written, or none for overflow, where DECA is not written (R142). No caller passes an
unsuppressed value of `2^127` or more (R118). -/
def State.decSet (s : State) (v : Int) (suppress : Bool) : Option State :=
  if suppress then some (s.decSetLow31 v) else (decImage (BitVec.ofInt 128 v)).map s.writeDeca

/-- `EncodePacked(v, m)`: the last `m` bytes of the 16-byte image of `v` (R144). -/
def encodePacked (v : W128) (m : Nat) : List Byte :=
  ((decImage v).getD []).drop (16 - m)

/-! ## The frame of an instruction rule -/

/-- Read `m` bytes at EA, or abort (R57, R139). -/
def State.withOperand (s : State) (m : Nat) (k : State → List Byte → Result) : Result :=
  match s.readOperand s.ea m with
  | (s1, some bytes) => k s1 bytes
  | (s1, none) => s1.abort

/-- Read the packed memory operand and check it; InvalidDigit where it is not a number (R136, R139, R150). -/
def State.withPacked (s : State) (l : BitVec 4) (k : State → W128 → Result) : Result :=
  s.withOperand (operandLength l) fun s1 bytes =>
    let c := decCheckFixed bytes decRequireSigned
    if c.ok then k s1 c.value else s1.decimalFault .invalidDigit

/-- Read the accumulator and check it; InvalidDigit where it is not a number (R140, R150). -/
def State.withAcc (s : State) (k : State → W128 → Result) : Result :=
  let (s1, bytes) := s.readDeca
  let c := decCheckFixed bytes decRequireSigned
  if c.ok then k s1 c.value else s1.decimalFault .invalidDigit

/-- Write the code of a decimal instruction that completes, and end `done` (R147). -/
def State.finishDecimal (s : State) (pair : BitVec 2) : Result := (s.writeCC (decimalCC false pair)).complete .done

/-- Put a result into DECA with its condition code, or raise Overflow (R142, R147, R151). -/
def State.setResult (s : State) (v : Int) : Result :=
  match s.decSet v false with
  | none => s.decimalFault .overflow
  | some s1 => s1.finishDecimal (signCC v)

/-- Store a byte string at EA and write the condition code of the value, or abort (R57, R161, R201). -/
def State.storeResult (s : State) (bytes : List Byte) (v : Int) : Result :=
  match s.storeOperand s.ea bytes with
  | (s1, true) => s1.finishDecimal (signCC v)
  | (s1, false) => s1.abort

end Sys2Proof.Machine
end

