-- ==== Sys2Proof/Machine/DecimalArith.lean ====
section
/-! DEFINITION. DL, DST, DA, DS, DC (spec 42_decimal_arith R160 to R164). -/

namespace Sys2Proof.Machine

/-- DL, decimal load (R160). -/
def execDl (l : BitVec 4) (s : State) : Result :=
  s.withPacked l fun s1 m => s1.setResult m.toInt

/-- DST, decimal store (R161). -/
def execDst (l : BitVec 4) (s : State) : Result :=
  s.withAcc fun s1 v =>
    if 10 ^ (2 * operandLength l - 1) ≤ v.toInt.natAbs then s1.decimalFault .overflow
    else s1.storeResult (encodePacked v (operandLength l)) v.toInt

/-- DA, decimal add: accumulator plus memory operand (R162). -/
def execDa (l : BitVec 4) (s : State) : Result :=
  s.withPacked l fun s1 m => s1.withAcc fun s2 a => s2.setResult (W.add a m).value.toInt

/-- DS, decimal subtract: accumulator minus memory operand (R163). -/
def execDs (l : BitVec 4) (s : State) : Result :=
  s.withPacked l fun s1 m => s1.withAcc fun s2 a => s2.setResult (W.sub a m).value.toInt

/-- DC, decimal compare: only the condition code is written (R164). -/
def execDc (l : BitVec 4) (s : State) : Result :=
  s.withPacked l fun s1 m => s1.withAcc fun s2 a => s2.finishDecimal (compareCC (W.cmpS a m))

end Sys2Proof.Machine
end

