-- ==== Sys2Proof/Machine/DecimalMulDiv.lean ====
section
/-! DEFINITION. DM, DD, DSA (spec 43_decimal_muldiv_shift R180 to R182). -/

namespace Sys2Proof.Machine

/-- DM, decimal multiply: the low 31 digits of the mathematical product, never Overflow (R180; log 13). -/
def execDm (l : BitVec 4) (s : State) : Result :=
  s.withPacked l fun s1 m => s1.withAcc fun s2 a =>
    let product := a.toInt * m.toInt
    (s2.decSetLow31 product).finishDecimal (signCC (low31 product))

/-- The 16 bytes DD writes: remainder in bytes 0 to 7, quotient in bytes 8 to 15, each 15 digits and a sign (R181). -/
def divisionImage (rem q : W128) : List Byte :=
  digits (W.toU64 (W.abs rem).1).1 8 (some (generatedSign rem.toInt)) ++
    digits (W.toU64 (W.abs q).1).1 8 (some (generatedSign q.toInt))

/-- DD, decimal divide (R181). -/
def execDd (l : BitVec 4) (s : State) : Result :=
  s.withPacked l fun s1 m => s1.withAcc fun s2 a =>
    if W.isZero m then s2.decimalFault .overflow
    else match W.divS a m with
      | none => .refused .wideDivisionByZero
      | some d =>
        if 10 ^ 15 ≤ d.quotient.toInt.natAbs ∨ 10 ^ 15 ≤ d.remainder.toInt.natAbs then s2.decimalFault .overflow
        else (s2.writeDeca (divisionImage d.remainder d.quotient)).finishDecimal (signCC d.quotient.toInt)

/-- DSA's operand: CW[16:0] extended with zeros, or OPND when CW[31] is 1 (R76). -/
def dsaOperand (ind : Bool) (addr : BitVec 17) (s : State) : Word :=
  if ind then s.command.opnd else addr.setWidth 32

/-- The read of DSA's index contribution: 0 and no transaction when X is 0, else `x[X]` (R76; before DECA
is read, DEDUCED, log 9). -/
def State.readIndex (s : State) (x : BitVec 3) : State × Word := if x = 0 then (s, 0) else s.regRead (indexReg x)

/-- DSA's index contribution (R76). -/
def dsaIndex (x : BitVec 3) (s : State) : Word := (s.readIndex x).2

/-- A shift of a 31-digit value by `c` digits: the value left, and whether a nonzero digit left the range on the left (R182). -/
def decimalShift (v c : Int) : Int × Bool :=
  if 0 < c then
    if 31 ≤ c then (0, decide (v ≠ 0))
    else
      let t := v.natAbs * 10 ^ c.toNat
      (v.sign * ((t % 10 ^ 31 : Nat) : Int), decide (10 ^ 31 ≤ t))
  else if c < 0 then
    if 31 ≤ -c then (0, false)
    else (v.sign * ((v.natAbs / 10 ^ (-c).toNat : Nat) : Int), false)
  else (v, false)

/-- DSA, decimal shift-and-align: the result is written even when a digit is lost, and then the mask decides on the trap
(R182). -/
def execDsa (ind : Bool) (x : BitVec 3) (addr : BitVec 17) (s : State) : Result :=
  let (s1, xv) := s.readIndex x
  s1.withAcc fun s2 a =>
    let (r, lost) := decimalShift a.toInt (shiftCount (dsaOperand ind addr s) xv)
    let s3 := s2.decSetLow31 r
    if lost then s3.decimalEnd fun _ => decimalCC true (signCC r) else s3.finishDecimal (signCC r)

end Sys2Proof.Machine
end

