-- ==== Sys2Proof/Machine/Double.lean ====
section
/-! DEFINITION. IEEE 754 binary64 values and their arithmetic with round to nearest, ties to even: FP_HOST_ARITH (spec 00_scope R7,
46 R252). A double is held as what its 64 bits say; `Double.ofBits` reads the bits. NaN carries no payload: no rule reads one
(R231, log 19). -/

namespace Sys2Proof.Machine

/-- A binary64 value. `finite neg sig e` is `± sig * 2^e`, normal when `2^52 ≤ sig < 2^53`, subnormal when `0 < sig < 2^52`
and `e = -1074`. -/
inductive Double where
  | nan
  | inf (neg : Bool)
  | zero (neg : Bool)
  | finite (neg : Bool) (sig : Nat) (e : Int)
  deriving DecidableEq, Repr

/-- The value that a 64-bit IEEE pattern stands for. -/
def Double.ofBits (x : BitVec 64) : Double :=
  let neg := x.getLsbD 63
  let ef := (x.extractLsb' 52 11).toNat
  let f := (x.extractLsb' 0 52).toNat
  if ef = 2047 then (if f = 0 then .inf neg else .nan)
  else if ef = 0 then (if f = 0 then .zero neg else .finite neg f (-1074))
  else .finite neg (2 ^ 52 + f) ((ef : Int) - 1075)

/-- A double is +0.0 or -0.0. -/
def Double.isZero : Double → Bool
  | .zero _ => true
  | .nan | .inf _ | .finite .. => false

/-- The sign bit of a double that is not a NaN. -/
def Double.isNegative : Double → Bool
  | .nan => false
  | .inf neg => neg
  | .zero neg => neg
  | .finite neg _ _ => neg

/-- The significand's exponent when `m * 2^e`, `m > 0`, is rounded: 53 bits, or fewer in the subnormal range. -/
def roundExponent (m : Nat) (e : Int) : Int := max (e + (m.log2 : Int) - 52) (-1074)

/-- `m * 2^(-k)` rounded to an integer, to nearest, ties to even, for `k > 0`. -/
def roundShift (m k : Nat) : Nat :=
  let q := m / 2 ^ k
  let r := m % 2 ^ k
  let half := 2 ^ (k - 1)
  if half < r ∨ (r = half ∧ q % 2 = 1) then q + 1 else q

/-- The double nearest to `± m * 2^e`, ties to even (R252). -/
def roundDouble (neg : Bool) (m : Nat) (e : Int) : Double :=
  if m = 0 then .zero neg
  else
    let e2 := roundExponent m e
    let sig := if e2 ≤ e then m * 2 ^ (e - e2).toNat else roundShift m (e2 - e).toNat
    let (sig3, e3) := if sig = 2 ^ 53 then (2 ^ 52, e2 + 1) else (sig, e2)
    if sig3 = 0 then .zero neg
    else if 971 < e3 then .inf neg
    else .finite neg sig3 e3

/-- The sign changed. -/
def Double.negate : Double → Double
  | .nan => .nan
  | .inf neg => .inf !neg
  | .zero neg => .zero !neg
  | .finite neg sig e => .finite (!neg) sig e

/-- A signed integer significand. -/
def signedSig (neg : Bool) (sig : Nat) : Int := if neg then -(sig : Int) else sig

/-- The binary64 sum. -/
def Double.add : Double → Double → Double
  | .nan, _ => .nan
  | _, .nan => .nan
  | .inf a, .inf b => if a = b then .inf a else .nan
  | .inf a, _ => .inf a
  | _, .inf b => .inf b
  | .zero a, .zero b => .zero (a && b)
  | .zero _, y => y
  | x, .zero _ => x
  | .finite na ma ea, .finite nb mb eb =>
    let e := min ea eb
    let sum := signedSig na ma * 2 ^ (ea - e).toNat + signedSig nb mb * 2 ^ (eb - e).toNat
    if sum = 0 then .zero false else roundDouble (decide (sum < 0)) sum.natAbs e

/-- The binary64 difference. -/
def Double.sub (x y : Double) : Double := x.add y.negate

/-- The binary64 product. -/
def Double.mul : Double → Double → Double
  | .nan, _ => .nan
  | _, .nan => .nan
  | .inf _, .zero _ => .nan
  | .zero _, .inf _ => .nan
  | .inf a, .inf b => .inf (a != b)
  | .inf a, .finite nb _ _ => .inf (a != nb)
  | .finite na _ _, .inf b => .inf (na != b)
  | .zero a, .zero b => .zero (a != b)
  | .zero a, .finite nb _ _ => .zero (a != nb)
  | .finite na _ _, .zero b => .zero (na != b)
  | .finite na ma ea, .finite nb mb eb => roundDouble (na != nb) (ma * mb) (ea + eb)

/-- The binary64 quotient. The integer quotient has at least 56 bits and its last bit is set when the division leaves a remainder, so
that rounding it once is rounding the exact quotient. -/
def Double.div : Double → Double → Double
  | .nan, _ => .nan
  | _, .nan => .nan
  | .inf _, .inf _ => .nan
  | .zero _, .zero _ => .nan
  | .inf a, .zero b => .inf (a != b)
  | .inf a, .finite nb _ _ => .inf (a != nb)
  | .finite na _ _, .zero b => .inf (na != b)
  | .finite na _ _, .inf b => .zero (na != b)
  | .zero a, .inf b => .zero (a != b)
  | .zero a, .finite nb _ _ => .zero (a != nb)
  | .finite na ma ea, .finite nb mb eb =>
    let k := mb.log2 + 57
    let n := ma * 2 ^ k
    let sticky := if n % mb = 0 then 0 else 1
    roundDouble (na != nb) (2 * (n / mb) + sticky) (ea - eb - k - 1)

/-- The four operations of the floating unit (R79, R252). -/
inductive FloatOp where
  | subtract
  | add
  | divide
  | multiply
  deriving DecidableEq, Repr

/-- `a op b`, the register operand on the left (R250, R252). -/
def FloatOp.apply : FloatOp → Double → Double → Double
  | .subtract, a, b => a.sub b
  | .add, a, b => a.add b
  | .divide, a, b => a.div b
  | .multiply, a, b => a.mul b

end Sys2Proof.Machine
end

