-- ==== Sys2Proof/Machine/FloatConvert.lean ====
section
/-! DEFINITION. The two floating formats and the two converters (spec 45_float_convert R220 to R238). `width` is 32 or 64. -/

namespace Sys2Proof.Machine

/-- FB, the number of fraction bits (45, introduction). -/
def fractionBits (width : Nat) : Nat := width - 8

/-- The magnitude word `m` of a floating word: its two's complement when the sign bit is 1 (R222, R223). -/
def magnitudeWord {width : Nat} (w : BitVec width) : Nat := if w.msb then 2 ^ width - w.toNat else w.toNat

/-- The characteristic of the magnitude word, 7 bits (R223). -/
def characteristic {width : Nat} (w : BitVec width) : Nat := magnitudeWord w / 2 ^ fractionBits width % 128

/-- The fraction of the magnitude word (R223). -/
def fraction {width : Nat} (w : BitVec width) : Nat := magnitudeWord w % 2 ^ fractionBits width

/-- `SigmaToDouble(w, width)`: +0.0 for the clean zero and a dirty zero; else the value, with the fraction's bits below the top
53 dropped (R224, R226, R227). -/
def sigmaToDouble {width : Nat} (w : BitVec width) : Double :=
  let fr := fraction w
  if fr = 0 then .zero false
  else
    let p := fr.log2
    let e : Int := 4 * ((characteristic w : Int) - 64) - fractionBits width + p
    .finite w.msb (if p ≤ 52 then fr * 2 ^ (52 - p) else fr / 2 ^ (p - 52)) (e - 52)

/-- The status of `DoubleToSigma` (R230). -/
inductive ConvertStatus where
  | ok
  | overflow
  | underflow
  | nan
  deriving DecidableEq, Repr

/-- The largest positive word, the sentinel of R231. -/
def sentinel (width : Nat) : BitVec width := BitVec.ofNat width (2 ^ (width - 1) - 1)

/-- The sentinel with a sign: its complement for a negative result (R231, R233). -/
def signedSentinel (width : Nat) (neg : Bool) : BitVec width := if neg then -sentinel width else sentinel width

/-- The outcome `UFLOW_POLICY(FN, FZ)` (R236). -/
def uflowPolicy (c : Config) (fn fz : Bool) : UflowPolicy :=
  match fn, fz with
  | false, false => c.uflow.fn0fz0
  | true, false => c.uflow.fn1fz0
  | false, true => c.uflow.fn0fz1
  | true, true => c.uflow.fn1fz1

/-- E, the integer with `16^(E-1) ≤ m * 2^e < 16^E`, for `m > 0` (R232). -/
def hexExponent (m : Nat) (e : Int) : Int := (e + (m.log2 : Int)) / 4 + 1

/-- `floor(m * 2^k)` (R232: bits below the fraction are dropped). -/
def floorShift (m : Nat) (k : Int) : Nat := if 0 ≤ k then m * 2 ^ k.toNat else m / 2 ^ (-k).toNat

/-- The resuscitation: one hexadecimal digit dropped for each step of exponent, `n` steps, while the fraction is not 0 (R234). -/
def resuscitate : Nat → Nat → Nat
  | 0, frac => frac
  | n + 1, frac => if frac = 0 then 0 else resuscitate n (frac / 16)

/-- A word from its magnitude: `(E + 64) : frac`, complemented for a negative value (R235). -/
def assemble (width : Nat) (neg : Bool) (e : Int) (frac : Nat) : BitVec width :=
  let m := BitVec.ofNat width ((e + 64).toNat * 2 ^ fractionBits width + frac)
  if neg then -m else m

/-- `DoubleToSigma(x, width, FN, FZ)` (R230 to R235); the policy is that of R236. -/
def doubleToSigma (width : Nat) (policy : UflowPolicy) : Double → BitVec width × ConvertStatus
  | .nan => (sentinel width, .nan)
  | .zero _ => (0, .ok)
  | .inf neg => (signedSentinel width neg, .overflow)
  | .finite neg sig e =>
    let he := hexExponent sig e
    let frac := floorShift sig (e + fractionBits width - 4 * he)
    if 63 < he then (signedSentinel width neg, .overflow)
    else if he < -64 then
      let left := resuscitate (-64 - he).toNat frac
      if left = 0 then
        match policy with
        | .trueZero => (0, .ok)
        | .zeroWithFlag => (0, .underflow)
      else (assemble width neg (-64) left, .ok)
    else (assemble width neg he frac, .ok)

end Sys2Proof.Machine
end

