-- ==== Sys2Proof/Machine/FloatArith.lean ====
section
/-! DEFINITION. The eight floating instructions (spec 46_float_arith R250 to R267). -/

namespace Sys2Proof.Machine

/-- The one `PsdRead` of a floating command, and `UFLOW_POLICY` at the FN and FZ it gives, the only use of the mode bits
(R236, R258). -/
def State.uflow (s : State) : State × UflowPolicy :=
  let (s1, psd) := s.psdRead
  (s1, uflowPolicy s.config psd.fn psd.fz)

/-- The result of an operation on two doubles as a word with its status, or the fault that keeps it from being written: a zero
divisor first (R256), then the statuses of R253 and R255. -/
def floatResult (width : Nat) (op : FloatOp) (policy : UflowPolicy) (a b : Double) : Except FloatFault (BitVec width) :=
  if op = .divide ∧ b.isZero then .error .divideByZero
  else
    let r := op.apply a b
    match doubleToSigma width policy r with
    | (w, .ok) => .ok w
    | (_, .overflow) => .error (.overflow r.isNegative)
    | (_, .underflow) => .error (.underflow r.isNegative)
    | (_, .nan) => .error .nan

/-- The short word at EA with its two low bits forced to 0, one 4-byte load (R53, R250). -/
def State.loadShort (s : State) : State × BitVec 32 :=
  let (s1, bytes) := s.memRead (alignDown 4 s.ea) 4
  (s1, BitVec.ofNat 32 (bytesToNat bytes))

/-- The long word at EA with its three low bits forced to 0, one 8-byte load (R53, R251). -/
def State.loadLong (s : State) : State × BitVec 64 :=
  let (s1, bytes) := s.memRead (alignDown 8 s.ea) 8
  (s1, BitVec.ofNat 64 (bytesToNat bytes))

/-- The long register operand `x[R] : x[R | 1]`, two `RegRead`s (R251). -/
def State.longReg (s : State) (r : RegNum) : State × BitVec 64 :=
  let (s1, high) := s.regRead r
  let (s2, low) := s1.regRead (pairLow r)
  (s2, high ++ low)

/-- A long result: `x[R | 1]` first, then `x[R]`, so that an odd R keeps the high half (R253). -/
def State.writeLong (s : State) (r : RegNum) (w : BitVec 64) : State :=
  (s.writeReg (pairLow r) (w.extractLsb' 0 32)).writeReg r (w.extractLsb' 32 32)

/-- The end of a floating command: the result written and its code, or the fault (R253 to R255). -/
def State.finishFloat {width : Nat} (s : State) (write : State → BitVec width → State) : Except FloatFault (BitVec width) → Result
  | .ok w => ((write s w).writeCC (floatCC w)).complete .done
  | .error kind => s.floatFault kind

/-- A short operation: read the mode, fetch, operate, convert back, write, in the order of R259 (R250, R252 to R256). -/
def floatShort (op : FloatOp) (r : RegNum) (s : State) : Result :=
  let (s1, policy) := s.uflow
  let (s2, a) := s1.regRead r
  let (s3, b) := s2.loadShort
  if s3.trapFlag then s3.abort
  else s3.finishFloat (fun s w => s.writeReg r w) (floatResult 32 op policy (sigmaToDouble a) (sigmaToDouble b))

/-- A long operation, likewise (R251 to R256, R259). -/
def floatLong (op : FloatOp) (r : RegNum) (s : State) : Result :=
  let (s1, policy) := s.uflow
  let (s2, a) := s1.longReg r
  let (s3, b) := s2.loadLong
  if s3.trapFlag then s3.abort
  else s3.finishFloat (fun s w => s.writeLong r w) (floatResult 64 op policy (sigmaToDouble a) (sigmaToDouble b))

/-- FAS, floating add short (R260). -/
def execFas (r : RegNum) (s : State) : Result := floatShort .add r s

/-- FSS, floating subtract short, register minus memory (R261). -/
def execFss (r : RegNum) (s : State) : Result := floatShort .subtract r s

/-- FMS, floating multiply short (R262). -/
def execFms (r : RegNum) (s : State) : Result := floatShort .multiply r s

/-- FDS, floating divide short, register divided by memory (R263). -/
def execFds (r : RegNum) (s : State) : Result := floatShort .divide r s

/-- FAL, floating add long (R264). -/
def execFal (r : RegNum) (s : State) : Result := floatLong .add r s

/-- FSL, floating subtract long, register minus memory (R265). -/
def execFsl (r : RegNum) (s : State) : Result := floatLong .subtract r s

/-- FML, floating multiply long (R266). -/
def execFml (r : RegNum) (s : State) : Result := floatLong .multiply r s

/-- FDL, floating divide long, register divided by memory (R267). -/
def execFdl (r : RegNum) (s : State) : Result := floatLong .divide r s

end Sys2Proof.Machine
end

