-- ==== Sys2Proof/Machine/PackEdit.lean ====
section
/-! DEFINITION. PACK, UNPK, EBS (spec 44_decimal_pack_edit R200, R201, R203 to R208). -/

namespace Sys2Proof.Machine

/-- `DecCheck`'s counterpart for a zoned string: the digits are the low nibbles, the sign is the zone of the last byte, the
other zones are ignored (R134, R200). -/
def zonedCheck (bytes : List Byte) : CheckResult :=
  checkSigned (bytes.map digitOf) (zoneOf (bytes.getLastD 0)) decRequireSigned

/-- PACK, zoned to packed (R200). -/
def execPack (l : BitVec 4) (s : State) : Result :=
  s.withOperand (2 * operandLength l - 1) fun s1 bytes =>
    let c := zonedCheck bytes
    if c.ok then s1.setResult c.value.toInt else s1.decimalFault .invalidDigit

/-- A zoned string of digits with zone 0xF in every byte but the last, whose zone is the sign (R134, R201). -/
def zonedBytes : List Nibble → Nibble → List Byte
  | [], _ => []
  | [d], sign => [sign ++ d]
  | d :: ds, sign => (0xF#4 ++ d) :: zonedBytes ds sign

/-- UNPK, packed to zoned (R201). -/
def execUnpk (l : BitVec 4) (s : State) : Result :=
  s.withAcc fun s1 v =>
    let z := 2 * operandLength l - 1
    if 10 ^ z ≤ v.toInt.natAbs then s1.decimalFault .overflow
    else s1.storeResult (zonedBytes (decimalDigits z v.toInt.natAbs) (generatedSign v.toInt)) v.toInt

/-! ## EBS -/

/-- What EBS carries from one pattern byte to the next (R203, R206). -/
structure EditWork where
  /-- The source address base `sbase`. -/
  sbase : Nat
  /-- The pattern (destination) address `dst`. -/
  dst : Nat
  /-- The pattern bytes still to process, `cnt`. -/
  count : Nat
  /-- The next source digit is the low nibble of its byte. -/
  right : Bool
  /-- The significance indicator. -/
  sig : Bool
  /-- A nonzero digit has been seen in this field. -/
  nz : Bool
  /-- The field's sign was minus. -/
  neg : Bool
  deriving DecidableEq, Repr

/-- What one pattern byte asks for once its source byte is known: the work after it, the byte to store and the mark, or none
for a source nibble that is no digit (R206). -/
structure EditAction where
  work : EditWork
  store : Option Byte
  mark : Option Nat
  deriving DecidableEq, Repr

/-- Digit select 0x20, significance start 0x21 and immediate significance start 0x23 take a source digit (R204). -/
def takesDigit (p : Byte) : Bool := p == 0x20 || p == 0x21 || p == 0x23

/-- The work after a pattern byte is done: one address on, one byte fewer (R206). -/
def EditWork.advance (w : EditWork) (s : State) : EditWork :=
  { w with dst := s.wrap (w.dst + 1), count := w.count - 1 }

/-- A pattern byte that takes the digit `d` of the source byte `sb` (R206). -/
def editDigit (s : State) (fill p sb : Byte) (d : Nibble) (w : EditWork) : EditAction :=
  -- "significance is turned on first" by 0x23
  let starts := p == 0x23 && !w.sig
  let sig1 := w.sig || starts
  let mark1 := if starts then some w.dst else none
  let nz1 := w.nz || d != 0
  -- a leading zero is filled; any other digit is stored, and the first one marks
  let leading := !sig1 && d == 0
  let mark2 := if !leading && !sig1 then some w.dst else mark1
  let sig2 := sig1 || !leading
  -- 0x21 turns significance on from the next byte
  let late := p == 0x21 && !sig2
  let mark3 := if late then some (s.wrap (w.dst + 1)) else mark2
  let sig3 := sig2 || late
  let store := if leading then fill else 0xF#4 ++ d
  let low := digitOf sb
  let w1 := { w with sig := sig3, nz := nz1 }
  let w2 :=
    if w.right then { w1 with right := false, sbase := s.wrap (w.sbase + 1) }
    else if 10 ≤ low.toNat then
      -- the low nibble is the field's sign; a plus sign turns significance off
      if signMinus low then { w1 with sbase := s.wrap (w.sbase + 1), neg := true }
      else { w1 with sbase := s.wrap (w.sbase + 1), neg := false, sig := false }
    else { w1 with right := true }
  { work := w2, store := some store, mark := mark3 }

/-- A pattern byte that takes no digit: the field separator 0x22, or a message byte (R204, R206). -/
def editOther (fill p : Byte) (w : EditWork) : EditAction :=
  if p == 0x22 then { work := { w with sig := false, nz := false, neg := false }, store := some fill, mark := none }
  else { work := w, store := if w.sig then none else some fill, mark := none }

/-- How one turn of EBS's loop ends (R206). -/
inductive EditStep where
  /-- The step is committed. -/
  | committed (w : EditWork)
  /-- A source nibble above 9: the step is not committed. -/
  | invalid
  /-- A poll found TRAPFLAG set: the step is not committed. -/
  | trapPending
  deriving DecidableEq, Repr

/-- Store what a pattern byte asks for, and commit the step unless a poll found TRAPFLAG set (R206). -/
def State.editCommit (s : State) (w : EditWork) (act : EditAction) : State × EditStep :=
  let s1 := match act.store with
    | some b => s.memWrite w.dst [b]
    | none => s
  if act.store.isSome && s1.trapFlag then (s1, .trapPending)
  else
    let s2 := match act.mark with
      | some a => s1.writeReg 1 (s1.withAddrField (s1.reg 1) a)
      | none => s1
    (s2, .committed (act.work.advance s))

/-- One turn of EBS's loop: the pattern byte at `dst`, and for a digit selector the source byte (R206). -/
def State.editStep (s : State) (fill : Byte) (disp : Int) (w : EditWork) : State × EditStep :=
  let (s1, pb) := s.memRead w.dst 1
  if s1.trapFlag then (s1, .trapPending)
  else
    let p := pb.headD 0
    if takesDigit p then
      let source := (((w.sbase : Int) + disp) % (2 ^ s.config.addrBits : Nat)).toNat
      let (s2, sbb) := s1.memRead source 1
      if s2.trapFlag then (s2, .trapPending)
      else
        let sb := sbb.headD 0
        let d := if w.right then digitOf sb else zoneOf sb
        if 10 ≤ d.toNat then (s2, .invalid)
        else s2.editCommit w (editDigit s2 fill p sb d w)
    else s1.editCommit w (editOther fill p w)

/-- How EBS's loop ends (R207). -/
inductive EditEnding where
  | exhausted
  | invalidDigit
  | trapPending
  deriving DecidableEq, Repr

/-- EBS's loop, for at most `n` pattern bytes (R206). -/
def State.editLoop (fill : Byte) (disp : Int) : Nat → State → EditWork → State × EditWork × EditEnding
  | 0, s, w => (s, w, .exhausted)
  | n + 1, s, w =>
    match s.editStep fill disp w with
    | (s1, .committed w1) => State.editLoop fill disp n s1 w1
    | (s1, .invalid) => (s1, w, .invalidDigit)
    | (s1, .trapPending) => (s1, w, .trapPending)

/-- EBS's fill character, `x[R][31:24]`; also the place of the count in `x[R1]` (R203). -/
def topByte (w : Word) : Byte := w.extractLsb' 24 8

/-- A register with its top byte replaced and the others kept (R203). -/
def withTopByte (w : Word) (b : Byte) : Word := b ++ w.extractLsb' 0 24

/-- What EBS takes at its start from x[R], x[R1] and the condition code (R203, R206). -/
def State.editStart (s : State) (xr xr1 : Word) (cc : BitVec 4) : EditWork where
  sbase := s.addrField xr
  dst := s.addrField xr1
  count := (topByte xr1).toNat
  right := cc1Of cc
  sig := cc2Of cc
  nz := cc3Of cc
  neg := cc4Of cc

/-- EBS writes its progress back: x[R] first, then count and address into x[R1] by one write (R207). -/
def State.editWriteBack (s : State) (r : RegNum) (w : EditWork) : State :=
  let s1 := s.writeReg r (s.withAddrField (s.reg r) w.sbase)
  s1.writeReg (pairLow r) (withTopByte (s1.withAddrField (s1.reg (pairLow r)) w.dst) (BitVec.ofNat 8 w.count))

/-- The three endings of EBS (the table of R207); `dm` is the mask as sampled at the start (R152). -/
def State.editFinish (s : State) (r : RegNum) (w : EditWork) (dm : Bool) (ending : EditEnding) : Result :=
  let s1 := s.editWriteBack r w
  match ending with
  | .exhausted => (s1.writeCC (ccOf w.right w.sig w.nz w.neg)).complete .done
  | .invalidDigit => (s1.writeCC (ccOf true false w.nz w.neg)).decimalTrap dm
  | .trapPending => (s1.writeCC (ccOf w.right w.sig w.nz w.neg)).abort

/-- EBS, edit byte string: x[R], x[R1] and the PSD are read at the start (R206, R207; log 16; in that order, the mask
among them, log 9). -/
def execEbs (r : RegNum) (disp : Int) (s : State) : Result :=
  let (s1, xr) := s.regRead r
  let (s2, xr1) := s1.regRead (pairLow r)
  let (s3, psd) := s2.psdRead
  let w0 := s3.editStart xr xr1 psd.cc
  match State.editLoop (topByte xr) disp w0.count s3 w0 with
  | (s4, w1, ending) => s4.editFinish r w1 psd.dm ending

end Sys2Proof.Machine
end

