-- ==== Sys2Proof/Machine/Dispatch.lean ====
section
/-! DEFINITION. One arm per instruction. The fields an instruction ignores (spec 30_encoding R81) are the underscores. -/

namespace Sys2Proof.Machine

def exec (i : Instr) (s : State) : Host.Outcome State Fault Refusal :=
  match i with
  | .fsl _ r _ _ => Sys2Proof.Machine.execFsl r s
  | .fal _ r _ _ => Sys2Proof.Machine.execFal r s
  | .fdl _ r _ _ => Sys2Proof.Machine.execFdl r s
  | .fml _ r _ _ => Sys2Proof.Machine.execFml r s
  | .fss _ r _ _ => Sys2Proof.Machine.execFss r s
  | .fas _ r _ _ => Sys2Proof.Machine.execFas r s
  | .fds _ r _ _ => Sys2Proof.Machine.execFds r s
  | .fms _ r _ _ => Sys2Proof.Machine.execFms r s
  | .ebs r disp => Sys2Proof.Machine.execEbs r disp s
  | .pack _ l _ _ => Sys2Proof.Machine.execPack l s
  | .unpk _ l _ _ => Sys2Proof.Machine.execUnpk l s
  | .ds _ l _ _ => Sys2Proof.Machine.execDs l s
  | .da _ l _ _ => Sys2Proof.Machine.execDa l s
  | .dd _ l _ _ => Sys2Proof.Machine.execDd l s
  | .dm _ l _ _ => Sys2Proof.Machine.execDm l s
  | .dsa ind _ x addr => Sys2Proof.Machine.execDsa ind x addr s
  | .dc _ l _ _ => Sys2Proof.Machine.execDc l s
  | .dl _ l _ _ => Sys2Proof.Machine.execDl l s
  | .dst _ l _ _ => Sys2Proof.Machine.execDst l s

end Sys2Proof.Machine
end

