-- ==== Sys2Proof/Machine/Step.lean ====
section
/-! DEFINITION. One step: the host sequencer presents the next command and the block runs it to its completion (spec
60_exceptions R299, 10_state R41). -/

namespace Sys2Proof.Machine

/-- One step. A run that has stopped, or whose list has ended, stays as it is (R299(4); log 6). A pending command finds the
block idle, or the machine is stuck (R41, log 20). An undecodable word is refused (R84) before
`State.present`, so that `presented` does not count it (DESIGN CHOICE, log 6). -/
def step (s : State) : Host.Outcome State Fault Refusal :=
  if s.running then
    match s.program with
    | [] => .next s
    | c :: rest =>
      if s.status = .busy then .fault .commandWhileBusy
      else match decode c.cw with
        | .error why => .refused (.undecodable why)
        | .ok i => exec i (s.present c rest)
  else .next s

/-- The state with a command word, the low `nbits` bits of `w`, where the next step takes its command: the head of the command
list (with the EA and OPND of the command that stood there, or 0), the block idle and the run going on (log 6). -/
def State.withFetchWord (s : State) (nbits w : Nat) : State :=
  let cw : Word := BitVec.ofNat 32 (w % 2 ^ nbits)
  { s with
    program := match s.program with
      | [] => [{ cw := cw, ea := 0, opnd := 0 }]
      | c :: rest => { c with cw := cw } :: rest
    status := .idle
    completion := if s.running then s.completion else none }

end Sys2Proof.Machine
end

