-- ==== Sys2Proof/Safety.lean ====
section
/-! DEFINITION. The words the statements use: decimal numbers as mathematical integers (spec 41 R130 to R134), when memory accesses
pass (R56, R321), how a command ends (R45, R153, R284), which registers and events an instruction has (R23, R54), and the invariant
of a run. Nothing of the machine is defined from these. -/

/-- The registers of the decimal accumulator (R24). -/
def Sys2Proof.Machine.decaRegs : List Sys2Proof.RegNum := [12, 13, 14, 15]

namespace Sys2Proof

/-! ## Classes of instructions -/

/-- The instruction belongs to the floating unit. -/
def Instr.isFloat : Instr → Bool
  | .fsl .. | .fal .. | .fdl .. | .fml .. | .fss .. | .fas .. | .fds .. | .fms .. => true
  | .ebs .. | .pack .. | .unpk .. | .ds .. | .da .. | .dd .. | .dm .. | .dsa .. | .dc .. | .dl .. | .dst .. => false

/-- EBS. -/
def Instr.isEdit : Instr → Bool
  | .ebs .. => true
  | .fsl .. | .fal .. | .fdl .. | .fml .. | .fss .. | .fas .. | .fds .. | .fms .. => false
  | .pack .. | .unpk .. | .ds .. | .da .. | .dd .. | .dm .. | .dsa .. | .dc .. | .dl .. | .dst .. => false

/-- The instruction stores to memory (R54). -/
def Instr.stores : Instr → Bool
  | .unpk .. | .dst .. | .ebs .. => true
  | .fsl .. | .fal .. | .fdl .. | .fml .. | .fss .. | .fas .. | .fds .. | .fms .. => false
  | .pack .. | .ds .. | .da .. | .dd .. | .dm .. | .dsa .. | .dc .. | .dl .. => false

/-- The registers an instruction reads (the table of R23). -/
def Instr.regsRead : Instr → List RegNum
  | .dst .. | .da .. | .ds .. | .dc .. | .dm .. | .dd .. | .unpk .. => Machine.decaRegs
  | .dsa _ _ x _ => if x = 0 then Machine.decaRegs else x.setWidth 4 :: Machine.decaRegs
  | .fas _ r _ _ | .fss _ r _ _ | .fms _ r _ _ | .fds _ r _ _ => [r]
  | .fal _ r _ _ | .fsl _ r _ _ | .fml _ r _ _ | .fdl _ r _ _ => [r, r ||| 1]
  | .ebs r _ => [r, r ||| 1]
  | .dl .. | .pack .. => []

/-- The registers an instruction may write (the table of R23). -/
def Instr.regsWritten : Instr → List RegNum
  | .dl .. | .da .. | .ds .. | .dm .. | .dd .. | .dsa .. | .pack .. => Machine.decaRegs
  | .fas _ r _ _ | .fss _ r _ _ | .fms _ r _ _ | .fds _ r _ _ => [r]
  | .fal _ r _ _ | .fsl _ r _ _ | .fml _ r _ _ | .fdl _ r _ _ => [r, r ||| 1]
  | .ebs r _ => [r, r ||| 1, 1]
  | .dst .. | .dc .. | .unpk .. => []

/-- The reads of DECA, in order (R24; log 9). -/
def Instr.decaReads : List Machine.PortEvent := Machine.decaRegs.map Machine.PortEvent.regRead

/-- The register-port reads a command makes before its first memory transaction, in order: the mode and the operand of a floating
command (R258, R259), the accumulator of DST and UNPK (R161, R201), the index and the accumulator of DSA (R182), EBS's registers and
PSD (R206); none for an instruction that loads first. -/
def Instr.readsFirst : Instr → List Machine.PortEvent
  | .fas _ r _ _ | .fss _ r _ _ | .fms _ r _ _ | .fds _ r _ _ => [.psdRead, .regRead r]
  | .fal _ r _ _ | .fsl _ r _ _ | .fml _ r _ _ | .fdl _ r _ _ => [.psdRead, .regRead r, .regRead (r ||| 1)]
  | .dst .. | .unpk .. => Instr.decaReads
  | .dsa _ _ x _ => (if x = 0 then [] else [.regRead (x.setWidth 4)]) ++ Instr.decaReads
  | .ebs r _ => [.regRead r, .regRead (r ||| 1), .psdRead]
  | .dl .. | .da .. | .ds .. | .dc .. | .dm .. | .dd .. | .pack .. => []

/-- The instruction with every field it ignores set to zero (R81). -/
def Instr.withoutIgnoredFields : Instr → Instr
  | .fsl _ r _ _ => .fsl false r 0 0
  | .fal _ r _ _ => .fal false r 0 0
  | .fdl _ r _ _ => .fdl false r 0 0
  | .fml _ r _ _ => .fml false r 0 0
  | .fss _ r _ _ => .fss false r 0 0
  | .fas _ r _ _ => .fas false r 0 0
  | .fds _ r _ _ => .fds false r 0 0
  | .fms _ r _ _ => .fms false r 0 0
  | .ebs r disp => .ebs r disp
  | .pack _ l _ _ => .pack false l 0 0
  | .unpk _ l _ _ => .unpk false l 0 0
  | .ds _ l _ _ => .ds false l 0 0
  | .da _ l _ _ => .da false l 0 0
  | .dd _ l _ _ => .dd false l 0 0
  | .dm _ l _ _ => .dm false l 0 0
  | .dsa ind _ x addr => .dsa ind 0 x addr
  | .dc _ l _ _ => .dc false l 0 0
  | .dl _ l _ _ => .dl false l 0 0
  | .dst _ l _ _ => .dst false l 0 0

end Sys2Proof

namespace Sys2Proof.Machine

/-! ## Decimal numbers -/

/-- `Σ d[i] * 10^(k-1-i)` over a digit sequence, most significant first (R132). -/
def digitSum : List Nat → Nat
  | [] => 0
  | d :: ds => d * 10 ^ ds.length + digitSum ds

/-- Digits and a sign code as an integer; none where a digit is above 9 or the sign code below 10 (R131, R132). -/
def signedNumber (ds : List Nat) (sign : Nat) : Option Int :=
  if (∀ d ∈ ds, d < 10) ∧ 10 ≤ sign then
    some (if sign = 0xB ∨ sign = 0xD then -(digitSum ds : Int) else (digitSum ds : Int))
  else none

/-- The value of a packed-decimal byte string; none where it is no number (R130, R131, R132). -/
def packedNumber (bytes : List Byte) : Option Int :=
  let ns := (nibbles bytes).map BitVec.toNat
  signedNumber ns.dropLast (ns.getLastD 0)

/-- The value of a zoned-decimal byte string; none where it is no number (R134). -/
def zonedNumber (bytes : List Byte) : Option Int :=
  signedNumber (bytes.map fun b => (digitOf b).toNat) (zoneOf (bytes.getLastD 0)).toNat

/-- The sign code the block generates (R133). -/
def writtenSign (v : Int) : Nat := if v < 0 then 0xD else 0xC

/-- A packed string that holds a value in the form the block generates (R133). -/
def HoldsPacked (bytes : List Byte) (v : Int) : Prop :=
  packedNumber bytes = some v ∧ ((nibbles bytes).getLastD 0).toNat = writtenSign v

/-- A zoned string that holds a value in the form the block generates: zone 0xF in every byte but the last (R134). -/
def HoldsZoned (bytes : List Byte) (v : Int) : Prop :=
  zonedNumber bytes = some v ∧ (∀ b ∈ bytes.dropLast, zoneOf b = 0xF) ∧ (zoneOf (bytes.getLastD 0)).toNat = writtenSign v

/-- CC for a value: 0000 zero, 0001 negative, 0010 positive (R146, R147). -/
def signCode (v : Int) : BitVec 4 := if v = 0 then 0b0000 else if v < 0 then 0b0001 else 0b0010

/-- CC for a comparison of the accumulator with the operand (R146, R164). -/
def relationCode (a m : Int) : BitVec 4 := if a = m then 0b0000 else if a < m then 0b0001 else 0b0010

/-- CC for a floating word (R254). -/
def wordCode {width : Nat} (w : BitVec width) : BitVec 4 := if w = 0 then 0b0000 else if w.msb then 0b0001 else 0b0010

/-- The last two bits of a code kept, CC1 CC2 replaced (R150, R151). -/
def keepsCC34 (cc12 : BitVec 2) (old : BitVec 4) : BitVec 4 := cc12 ++ old.extractLsb' 0 2

/-- What a shift of `v` by `c` digits leaves, and whether it lost a nonzero digit on the left (the pseudocode of R182). -/
def ShiftRule (v c r : Int) (lost : Prop) : Prop :=
  if 31 ≤ c then r = 0 ∧ (lost ↔ v ≠ 0)
  else if 0 < c then r = v.sign * (((v.natAbs * 10 ^ c.toNat) % 10 ^ 31 : Nat) : Int) ∧ (lost ↔ 10 ^ 31 ≤ v.natAbs * 10 ^ c.toNat)
  else if c = 0 then r = v ∧ ¬ lost
  else if -31 < c then r = v.sign * ((v.natAbs / 10 ^ (-c).toNat : Nat) : Int) ∧ ¬ lost
  else r = 0 ∧ ¬ lost

/-! ## Memory transactions that pass -/

/-- TRAPFLAG is clear and the accessor raises it on none of the next `n` transactions (R56, R321). -/
abbrev State.passes (s : State) (n : Nat) : Prop := s.trapFlag = false ∧ ∀ v ∈ s.accessor.take n, v = Verdict.pass

/-! ## How a command ends -/

/-- What no command changes: the parameters, the command on the port and the sequencer's list; and the block is idle again. -/
structure SameContext (s t : State) : Prop where
  config : t.config = s.config
  command : t.command = s.command
  program : t.program = s.program
  presented : t.presented = s.presented
  idle : t.status = .idle

/-- The command wrote this condition code, changed nothing else of the PSD, made no trap call and ended `done` (R45). -/
structure EndsDone (s t : State) (cc : BitVec 4) : Prop where
  context : SameContext s t
  psd : t.psd = { s.psd with cc := cc }
  completion : t.completion = some .done
  trapFlag : t.trapFlag = s.trapFlag
  trapRecord : t.trapRecord = s.trapRecord

/-- The command wrote this condition code, changed nothing else of the PSD, and called `trap(a)`: the record has the address at its
end and TRAPFLAG is 1 (R45, R284). -/
structure EndsTrapped (s t : State) (cc : BitVec 4) (a : Nat) : Prop where
  context : SameContext s t
  psd : t.psd = { s.psd with cc := cc }
  completion : t.completion = some (.trapped a)
  trapFlag : t.trapFlag = true
  trapRecord : t.trapRecord = s.trapRecord ++ [a]

/-- The end of a decimal fault: the trap at 0x45 when PSD.DM is 1, else `done` (R152). -/
def EndsMaskable (s t : State) (cc : BitVec 4) : Prop :=
  if s.psd.dm then EndsTrapped s t cc 0x45 else EndsDone s t cc

/-- The command ended `aborted`: TRAPFLAG is 1, the PSD and the trap record are as they were (R57). -/
structure EndsAborted (s t : State) : Prop where
  context : SameContext s t
  psd : t.psd = s.psd
  completion : t.completion = some .aborted
  trapFlag : t.trapFlag = true
  trapRecord : t.trapRecord = s.trapRecord

/-- Every register outside a list is as before (R23). -/
def KeepsRegsBut (s t : State) (written : List RegNum) : Prop := ∀ j : RegNum, j ∉ written → t.reg j = s.reg j

/-- Every byte outside the `n` bytes from an address on reads as before (R54). -/
def KeepsMemoryBut (s t : State) (a n : Nat) : Prop :=
  ∀ b : Nat, (∀ k < n, b ≠ s.wrap (a + k)) → t.mem.read b = s.mem.read b

/-- What one-byte stores of `out` from an address on leave when store `k` is the first whose poll finds TRAPFLAG set: the bytes before it
are stored, the bytes after it are as before, and its own byte is one or the other (R57, U10). -/
def StoredUpToFlag (s t : State) (a : Nat) (out : List Byte) : Prop :=
  ∃ k < out.length, (k = 0 ∨ s.passes k) ∧ ¬ s.passes (k + 1) ∧
    (∀ j < k, t.mem.read (s.wrap (a + j)) = out.getD j 0) ∧
    (∀ j < out.length, k < j → t.mem.read (s.wrap (a + j)) = s.mem.read (s.wrap (a + j))) ∧
    (t.mem.read (s.wrap (a + k)) = out.getD k 0 ∨ t.mem.read (s.wrap (a + k)) = s.mem.read (s.wrap (a + k)))

/-- An abort that changed no register and no byte (R57). -/
def AbortsUnchanged (s t : State) : Prop := t.regs = s.regs ∧ t.mem = s.mem ∧ EndsAborted s t

/-- InvalidDigit: CC1 = 1, CC2 = 0, CC3 CC4 kept, no register and no byte changed, the trap if armed (R150). -/
def FaultsInvalidDigit (s t : State) : Prop :=
  t.regs = s.regs ∧ t.mem = s.mem ∧ EndsMaskable s t (keepsCC34 0b10 s.psd.cc)

/-- Overflow: CC1 = 0, CC2 = 1, CC3 CC4 kept, no register and no byte changed, the trap if armed (R151). -/
def FaultsOverflow (s t : State) : Prop :=
  t.regs = s.regs ∧ t.mem = s.mem ∧ EndsMaskable s t (keepsCC34 0b01 s.psd.cc)

/-- A floating fault: no register and no byte changed, the code of the table, the trap at 0x44 (R255). -/
def FaultsFloat (s t : State) (cc : BitVec 4) : Prop := t.regs = s.regs ∧ t.mem = s.mem ∧ EndsTrapped s t cc 0x44

/-- A command that put a value into DECA in generated form, wrote the value's condition code, and changed nothing else (R133, R142,
R147). -/
def SetsAccumulator (s t : State) (v : Int) : Prop :=
  HoldsPacked t.deca v ∧ KeepsRegsBut s t decaRegs ∧ t.mem = s.mem ∧ EndsDone s t (signCode v)

/-! ## Loads, and the instructions of an operation -/

/-- The loads of an instruction that only loads, as addresses and widths in order; none for the others (R53, R54). -/
def State.loadsOf (s : State) : Instr → Option (List (Nat × Nat))
  | .dl _ l _ _ | .da _ l _ _ | .ds _ l _ _ | .dc _ l _ _ | .dm _ l _ _ | .dd _ l _ _ =>
    some ((List.range (operandLength l)).map fun k => (s.wrap (s.ea + k), 1))
  | .pack _ l _ _ => some ((List.range (2 * operandLength l - 1)).map fun k => (s.wrap (s.ea + k), 1))
  | .fas .. | .fss .. | .fms .. | .fds .. => some [(s.ea - s.ea % 4, 4)]
  | .fal .. | .fsl .. | .fml .. | .fdl .. => some [(s.ea - s.ea % 8, 8)]
  | .dsa .. => some []
  | .dst .. | .unpk .. | .ebs .. => none

/-- The short instruction of an operation (R79, R260 to R263). -/
def shortInstr : FloatOp → Bool → RegNum → BitVec 3 → BitVec 17 → Instr
  | .subtract => .fss
  | .add => .fas
  | .divide => .fds
  | .multiply => .fms

/-- The long instruction of an operation (R79, R264 to R267). -/
def longInstr : FloatOp → Bool → RegNum → BitVec 3 → BitVec 17 → Instr
  | .subtract => .fsl
  | .add => .fal
  | .divide => .fdl
  | .multiply => .fml

/-! ## Port events -/

/-- A transaction on the memory port. -/
def PortEvent.isMemory : PortEvent → Bool
  | .load .. | .store .. => true
  | .psdRead | .regRead .. | .regWrite .. | .ccWrite .. | .trap .. => false

/-- A register write. -/
def PortEvent.isRegWrite : PortEvent → Bool
  | .regWrite .. => true
  | .psdRead | .regRead .. | .load .. | .store .. | .ccWrite .. | .trap .. => false

/-- A read of a register or of the PSD. -/
def PortEvent.isRead : PortEvent → Bool
  | .psdRead | .regRead .. => true
  | .load .. | .store .. | .regWrite .. | .ccWrite .. | .trap .. => false

/-- A write of the condition code or a trap call. -/
def PortEvent.isCcOrTrap : PortEvent → Bool
  | .ccWrite .. | .trap .. => true
  | .psdRead | .regRead .. | .load .. | .store .. | .regWrite .. => false

/-- How many of `n` memory transactions in a row are made: all of them, or those up to the first whose poll finds TRAPFLAG set
(R56, R57). -/
def madeOf : List Verdict → Nat → Nat
  | _, 0 => 0
  | [], n + 1 => n + 1
  | .pass :: vs, n + 1 => madeOf vs n + 1
  | .flag _ :: _, _ + 1 => 1

/-- How many of a command's first `n` memory transactions in a row are made from this state. -/
def State.made (s : State) (n : Nat) : Nat := if s.trapFlag then min n 1 else madeOf s.accessor n

/-- A command read these registers, then made these memory transactions in order as far as the first whose poll found TRAPFLAG set, one
verdict each, and after that no memory transaction; it ended aborted exactly where such a poll was, and then it did nothing more
(R54 to R57). -/
def MakesAccesses (s t : State) (reads accesses : List PortEvent) : Prop :=
  ∃ after : List PortEvent, (∀ e ∈ after, e.isMemory = false) ∧
    t.ports = after ++ ((accesses.take (s.made accesses.length)).reverse ++ (reads.reverse ++ s.ports)) ∧
    t.accessor = s.accessor.drop (s.made accesses.length) ∧
    (t.completion = some .aborted ↔ 0 < accesses.length ∧ ¬ s.passes accesses.length) ∧
    (t.completion = some .aborted → after = [])

/-- One-byte stores of a string at EA, in ascending order (R54, R55, R60). -/
def State.storesAt (s : State) (bytes : List Byte) : List PortEvent :=
  (List.range bytes.length).map fun k => .store (s.wrap (s.ea + k)) [bytes.getD k 0]

/-- The port transactions of a floating command, in the order of R259: its reads and its load, then nothing where the poll found TRAPFLAG
set, else the register writes and `CcWrite`, or `CcWrite` and the trap. -/
def FloatEvents (s t : State) (fetch writes : List PortEvent) : Prop :=
  (t.completion = some .aborted ∧ t.ports = fetch.reverse ++ s.ports) ∨
    (t.completion = some .done ∧ t.ports = .ccWrite t.psd.cc :: (writes.reverse ++ (fetch.reverse ++ s.ports))) ∨
    (t.completion = some (.trapped 0x44) ∧ t.ports = .trap 0x44 :: .ccWrite t.psd.cc :: (fetch.reverse ++ s.ports))

/-! ## Changes made from outside, for the statements of what is not read -/

/-- A register changed by the environment. -/
def State.pokeReg (s : State) (j : RegNum) (v : Word) : State := { s with regs := s.regs.set j.toNat v j.isLt }

/-- A change of the next state of a result. -/
def mapNext (f : State → State) : Result → Result
  | .next s => .next (f s)
  | .fault r => .fault r
  | .refused r => .refused r

/-- Two states that differ at most in the record of port events. -/
def SameButPorts (s t : State) : Prop := { s with ports := [] } = { t with ports := [] }

/-- Two results that differ at most in the record of port events. -/
def SameResultButPorts : Result → Result → Prop
  | .next s, .next t => SameButPorts s t
  | .fault a, .fault b => a = b
  | .refused a, .refused b => a = b
  | .next _, .fault _ | .next _, .refused _ | .fault _, .next _ | .fault _, .refused _ | .refused _, .next _
  | .refused _, .fault _ => False

/-! ## One pattern byte of EBS -/

/-- What a pattern byte does, in the words of R204 and R206: the byte stored, the mark, the four state bits after it, and whether
the source address moves on. -/
structure EditEffect where
  store : Option Byte
  mark : Option Nat
  right : Bool
  sig : Bool
  nz : Bool
  neg : Bool
  nextSource : Bool
  deriving DecidableEq, Repr

/-- The pattern bytes that take a source digit (R204). -/
def isSelector (p : Byte) : Bool := p == 0x20 || p == 0x21 || p == 0x23

/-- The digit a selector takes from its source byte (R206). -/
def sourceDigit (right : Bool) (sb : Byte) : Nat := if right then sb.toNat % 16 else sb.toNat / 16

/-- A selector's effect. A digit is stored, not filled, when significance is on, when 0x23 turns it on, or when it is not 0. The mark is
this byte's address where significance comes on with the byte, the next byte's where 0x21 turns it on after a leading zero. The low
nibble is the field's sign when the digit was the high one and the low one is 10 or more. -/
def selectorEffect (fill p sb : Byte) (right sig nz neg : Bool) (dst dstNext : Nat) : EditEffect :=
  let d := sourceDigit right sb
  let low := sb.toNat % 16
  let shown := sig || p == 0x23 || d != 0
  let signHere := !right && decide (10 ≤ low)
  let minus := low == 0xB || low == 0xD
  { store := some (if shown then BitVec.ofNat 8 (0xF0 + d) else fill)
    mark := if sig then none else if shown then some dst else if p == 0x21 then some dstNext else none
    right := !right && !signHere
    sig := if signHere && !minus then false else shown || p == 0x21
    nz := nz || d != 0
    neg := if signHere then minus else neg
    nextSource := right || signHere }

/-- A field separator's or a message byte's effect (R204). -/
def otherEffect (fill p : Byte) (right sig nz neg : Bool) : EditEffect :=
  if p == 0x22 then
    { store := some fill, mark := none, right := right, sig := false, nz := false, neg := false, nextSource := false }
  else
    { store := if sig then none else some fill, mark := none, right := right, sig := sig, nz := nz, neg := neg, nextSource := false }

/-- EBS's pattern address, `x[R1][AB-1:0]` (R203). -/
def State.editDst (s : State) (r : RegNum) : Nat := (s.reg (r ||| 1)).toNat % 2 ^ s.config.addrBits

/-- EBS's source address base, `x[R][AB-1:0]` (R203). -/
def State.editBase (s : State) (r : RegNum) : Nat := (s.reg r).toNat % 2 ^ s.config.addrBits

/-- EBS's count, `x[R1][31:24]` (R203). -/
def State.editCount (s : State) (r : RegNum) : Nat := (s.reg (r ||| 1)).toNat / 2 ^ 24

/-- EBS's fill character, `x[R][31:24]` (R203). -/
def State.editFill (s : State) (r : RegNum) : Byte := BitVec.ofNat 8 ((s.reg r).toNat / 2 ^ 24)

/-- The pattern byte EBS takes next (R206). -/
def State.editPattern (s : State) (r : RegNum) : Byte := s.mem.read (s.editDst r)

/-- The address of the source byte EBS takes next, `(sbase + disp) mod 2^AB` (R203). -/
def State.editSourceAddr (s : State) (r : RegNum) (disp : Int) : Nat :=
  (((s.editBase r : Int) + disp) % ((2 ^ s.config.addrBits : Nat) : Int)).toNat

/-- The source byte EBS takes next (R203). -/
def State.editSource (s : State) (r : RegNum) (disp : Int) : Byte := s.mem.read (s.editSourceAddr r disp)

/-- The state bits of the condition code: right, sig, nz, neg are CC1 to CC4 (R203). -/
def ccBit (cc : BitVec 4) (k : Nat) : Bool := cc.getLsbD (4 - k)

/-- The effect of the pattern byte EBS takes next (R206). -/
def State.editEffect (s : State) (r : RegNum) (disp : Int) : EditEffect :=
  let p := s.editPattern r
  let cc := s.psd.cc
  if isSelector p then
    selectorEffect (s.editFill r) p (s.editSource r disp) (ccBit cc 1) (ccBit cc 2) (ccBit cc 3) (ccBit cc 4) (s.editDst r)
      (s.wrap (s.editDst r + 1))
  else otherEffect (s.editFill r) p (ccBit cc 1) (ccBit cc 2) (ccBit cc 3) (ccBit cc 4)

/-- The digit EBS takes next is a digit, or it takes none (R206). -/
def State.editValid (s : State) (r : RegNum) (disp : Int) : Prop :=
  isSelector (s.editPattern r) = true → sourceDigit (ccBit s.psd.cc 1) (s.editSource r disp) < 10

/-- A word with its low address bits replaced (R203). -/
def State.placeAddr (s : State) (w : Word) (a : Nat) : Word :=
  BitVec.ofNat 32 (w.toNat / 2 ^ s.config.addrBits * 2 ^ s.config.addrBits + a)

/-- The state EBS has reached when one pattern byte is done, as its registers and condition code describe it: mark in x[1], source
address in x[R], count less one and next pattern address in x[R1], the four state bits in the condition code, the byte stored, its
memory transactions made (R203, R206, R207). The registers are written in the order of R207, so that with R odd, 0 or 1 the later write
of a register stands (R208). -/
def State.editedByte (s : State) (r : RegNum) (disp : Int) : State :=
  let e := s.editEffect r disp
  let s1 := match e.mark with
    | some a => s.pokeReg 1 (s.placeAddr (s.reg 1) a)
    | none => s
  let base := if e.nextSource then s.wrap (s.editBase r + 1) else s.editBase r
  let s2 := s1.pokeReg r (s.placeAddr (s.reg r) base)
  let s3 := s2.pokeReg (r ||| 1)
    (BitVec.ofNat 32 ((s.editCount r - 1) * 2 ^ 24 +
      (s.placeAddr (s.reg (r ||| 1)) (s.wrap (s.editDst r + 1))).toNat % 2 ^ 24))
  { s3 with
    psd := { s.psd with cc := BitVec.ofBool e.right ++ BitVec.ofBool e.sig ++ BitVec.ofBool e.nz ++ BitVec.ofBool e.neg }
    mem := match e.store with
      | some b => s.mem.write (s.editDst r) b
      | none => s.mem
    accessor := s.accessor.drop
      (1 + (if isSelector (s.editPattern r) then 1 else 0) + (if e.store.isSome then 1 else 0)) }

/-- The memory transactions and the mark of the pattern byte EBS takes next, in order: the pattern byte, the source byte of a
selector, the store, and the write of the mark (R54, R206). -/
def State.editByteEvents (s : State) (r : RegNum) (disp : Int) : List PortEvent :=
  let e := s.editEffect r disp
  .load (s.editDst r) 1 ::
    ((if isSelector (s.editPattern r) then [.load (s.editSourceAddr r disp) 1] else []) ++
      (match e.store with
        | some b => [.store (s.editDst r) [b]]
        | none => []) ++
      (match e.mark with
        | some a => [.regWrite 1 (s.placeAddr (s.reg 1) a)]
        | none => []))

/-! ## Values of floating words and of doubles -/

/-- The value of a double; 0 where it is none (45, introduction). -/
def doubleValue : Double → ℚ
  | .finite neg sig e => (if neg then -1 else 1) * (sig : ℚ) * (2 : ℚ) ^ e
  | .zero _ | .inf _ | .nan => 0

/-- The magnitude of a floating word as an integer: a negative word is the two's complement of the whole word that holds the
magnitude (R222). -/
def magnitudeOf {width : Nat} (w : BitVec width) : Nat := w.toInt.natAbs

/-- The fraction field of the magnitude, `width - 8` bits (R220, R221, R223). -/
def fractionField {width : Nat} (w : BitVec width) : Nat := magnitudeOf w % 2 ^ (width - 8)

/-- The characteristic field of the magnitude, 7 bits (R220, R221, R223). -/
def characteristicField {width : Nat} (w : BitVec width) : Nat := magnitudeOf w / 2 ^ (width - 8) % 128

/-- `FR * 2^-FB * 16^(CH - 64)` of the magnitude (R220, R221, R223). -/
def wordMagnitude {width : Nat} (w : BitVec width) : ℚ :=
  (fractionField w : ℚ) * (2 : ℚ) ^ (4 * ((characteristicField w : Int) - 64) - ((width : Int) - 8))

/-- The significand of a finite double, 0 for the others. -/
def Double.significand : Double → Nat
  | .finite _ sig _ => sig
  | .zero _ | .inf _ | .nan => 0

/-- A normal double's significand (R226). -/
def NormalSig (sig : Nat) : Prop := 2 ^ 52 ≤ sig ∧ sig < 2 ^ 53

/-- A binary64 number: a zero, or a finite value with a normal or a subnormal significand in the format's range (R252). -/
def IsNumber : Double → Prop
  | .zero _ => True
  | .finite _ sig e => (NormalSig sig ∧ -1074 ≤ e ∧ e ≤ 971) ∨ (0 < sig ∧ sig < 2 ^ 52 ∧ e = -1074)
  | .nan | .inf _ => False

/-- A double is the value of sign `neg` and exact magnitude `x` rounded to nearest, ties to even, in binary64: an infinity from the
midpoint above the largest number on; else a number of that sign, to which no number is nearer, and of two nearest the one whose
significand is even (R252). -/
def IsRounding (neg : Bool) (x : ℚ) (d : Double) : Prop :=
  if ((2 : ℚ) ^ 54 - 1) * 2 ^ 970 ≤ x then d = .inf neg
  else IsNumber d ∧ d.isNegative = neg ∧
    ∀ (sig2 : Nat) (e2 : Int), sig2 < 2 ^ 53 → -1074 ≤ e2 →
      |(|doubleValue d| - x)| ≤ |(sig2 : ℚ) * 2 ^ e2 - x| ∧
      (|(|doubleValue d| - x)| = |(sig2 : ℚ) * 2 ^ e2 - x| →
        |doubleValue d| = (sig2 : ℚ) * 2 ^ e2 ∨ d.significand % 2 = 0)

/-- The exact result of an operation, the register operand on the left (R250, R252). -/
def exactResult : FloatOp → ℚ → ℚ → ℚ
  | .subtract, a, b => a - b
  | .add, a, b => a + b
  | .divide, a, b => a / b
  | .multiply, a, b => a * b

/-- The sign of an exact zero result of two operands with these signs: a sum is -0.0 where both addends are negative zeros, a product
or quotient where the signs differ (IEEE 754; R252). -/
def zeroSign : FloatOp → Bool → Bool → Bool
  | .subtract, na, nb => na && !nb
  | .add, na, nb => na && nb
  | .divide, na, nb => na != nb
  | .multiply, na, nb => na != nb

/-! ## The invariant of a run -/

/-- The trap addresses a completion stands for. -/
def trapsOf : Option Completion → List Nat
  | some (.trapped a) => [a]
  | some .done | some .aborted | none => []

/-- What holds between two steps of a run: memory is in its canonical form, within the address space (R50); the block is idle
(R310); the trap record holds exactly the trap the run stopped at, and that is 0x44 or 0x45 (R281, R299); and the run stopped at a
trap or an abort only with TRAPFLAG set (R57, R284). -/
structure State.Inv (s : State) : Prop where
  memory : s.mem.wf s.config.addrBits = true
  idle : s.status = .idle
  record : s.trapRecord = trapsOf s.completion
  addresses : ∀ a ∈ s.trapRecord, a = 0x44 ∨ a = 0x45
  flagged : s.running = false → s.trapFlag = true

end Sys2Proof.Machine
end

