-- ==== Sys2Proof/Certificates/Slice0/Obligations.lean ====
section
/-! DEFINITION. The statements about this machine. Each docstring names the rules of spec/ it formalises; a statement about a choice of
the model's own names its log entry. -/

open Sys2Proof Sys2Proof.Machine

/-! ## Encoding -/

/-- Every well-formed instruction is read back from the word that spells it, with every field (R72, R73, R77, R78, R80). -/
def Obligations.DecodeReadsBackEncodedInstruction : Prop :=
  ∀ i : Instr, i.wellFormed = true → decode (encode i) = .ok i

/-- A word that decodes is the encoding of what it decodes to, so no bit of it is dropped, and what it decodes to is well formed. -/
def Obligations.EncodeRestoresDecodedWord : Prop :=
  ∀ (cw : Word) (i : Instr), decode cw = .ok i → i.wellFormed = true ∧ encode i = cw

/-- The opcode table decides: a word that agrees with an instruction's row under its mask decodes, to an instruction of that row, and a
word that decodes agrees with its row (R78). -/
def Obligations.DecodeFollowsMatchAndMask : Prop :=
  (∀ (cw : Word) (i : Instr), cw &&& i.row.2 = i.row.1 → ∃ j, decode cw = .ok j ∧ j.row = i.row) ∧
    (∀ (cw : Word) (i : Instr), decode cw = .ok i → cw &&& i.row.2 = i.row.1)

/-- What does not decode: an operation code that R78 does not list, and EBS's code with bit 31 set (R80, R83). -/
def Obligations.DecodeRefusesExactlyUnlistedCodes : Prop :=
  ∀ cw : Word, (∃ why, decode cw = .error why) ↔
    ((fieldOp cw).toNat ∉ [0x1C, 0x1D, 0x1E, 0x1F, 0x3C, 0x3D, 0x3E, 0x3F, 0x63, 0x76, 0x77, 0x78, 0x79, 0x7A, 0x7B, 0x7C, 0x7D,
      0x7E, 0x7F] ∨ ((fieldOp cw).toNat = 0x63 ∧ cw.getLsbD 31 = true))

/-- A few words written out from the formats (the examples of R86 and two of 95_test_vectors). -/
def Obligations.ExampleWordsDecode : Prop :=
  decode 0x7E300100 = .ok (.dl false 3 0 0x100) ∧ decode 0x3D400200 = .ok (.fas false 4 0 0x200) ∧
  decode 0x7C01FFFE = .ok (.dsa false 0 0 0x1FFFE) ∧ decode 0xFC060080 = .ok (.dsa true 0 3 0x80) ∧
  decode 0x63600000 = .ok (.ebs 6 0) ∧ decode 0x636FFFFE = .ok (.ebs 6 (-2)) ∧
  decode 0x1E200100 = .ok (.fdl false 2 0 0x100)

/-- No instruction depends on a field or a port it ignores: not on the fields of CW that R81 lists for it, not on the effective address for
DSA and EBS, not on OPND but for a DSA with CW[31] = 1, and not on CW beyond the decoded fields (R81). -/
def Obligations.IgnoredCommandFieldsDoNotMatter : Prop :=
  (∀ (i : Instr) (s : State), exec i s = exec i.withoutIgnoredFields s) ∧
  ∀ (i : Instr) (s : State) (c : Command),
    ((∀ ind rl x addr, i ≠ .dsa ind rl x addr) → (∀ r disp, i ≠ .ebs r disp) → c.ea = s.command.ea) →
    ((∃ rl x addr, i = .dsa true rl x addr) → c.opnd = s.command.opnd) →
    exec i { s with command := c } = mapNext (fun t => { t with command := c }) (exec i s)

/-! ## The sequencer, reset, the invariant -/

/-- A step runs the decoded instruction: with a command pending, the run going on and the block idle, a step is `exec` of what the
command word decodes to, at the state with that command on the port (R41, R299). -/
def Obligations.StepRunsDecodedCommand : Prop :=
  ∀ (s : State) (c : Command) (rest : List Command) (i : Instr),
    s.running = true → s.program = c :: rest → s.status = .idle → decode c.cw = .ok i →
    step s = exec i { s with status := .busy, command := c, program := rest, presented := s.presented + 1 }

/-- A presented word that does not decode is refused: a refusal of the step, with no next state (R84). -/
def Obligations.UndecodableCommandIsRefused : Prop :=
  ∀ (s : State) (c : Command) (rest : List Command) (why : DecodeError),
    s.running = true → s.program = c :: rest → s.status = .idle → decode c.cw = .error why →
    step s = .refused (.undecodable why)

/-- After `trapped(a)` or `aborted` no further command is presented: the machine stays as it is (R299 (4); that a step then leaves the
state as it is, log 6). -/
def Obligations.StoppedRunPresentsNothing : Prop :=
  ∀ s : State, (∃ a, s.completion = some (.trapped a)) ∨ s.completion = some .aborted → step s = .next s

/-- The launch state's values that the spec gives: TRAPFLAG 0, the block idle, the trap record empty (R299, R310, R321). -/
def Obligations.ResetIsIdleAndUnflagged : Prop :=
  State.reset.trapFlag = false ∧ State.reset.status = .idle ∧ State.reset.trapRecord = []

/-- The invariant of a run holds at reset. -/
def Obligations.ResetSatisfiesInv : Prop := State.reset.Inv

/-- The invariant of a run is kept by every step, from every state that has it. -/
def Obligations.StepKeepsInv : Prop := ∀ s t : State, s.Inv → step s = .next t → t.Inv

/-- No command ends the machine or leaves the block busy: every instruction answers a next state from every state, and the block is idle
in it (R288). -/
def Obligations.EveryInstructionLeavesBlockIdle : Prop :=
  ∀ (i : Instr) (s : State), ∃ t, exec i s = .next t ∧ t.status = .idle

/-- A list of n decodable commands is over after n steps: the list is empty or the run has stopped (R299). One step is one command, and a
list that stops early answers a next state after n steps because a stopped run stays as it is: both are the model's choice (log 6). -/
def Obligations.ProgramEndsWithinItsLength : Prop :=
  ∀ s : State, s.status = .idle → (∀ c ∈ s.program, ∃ i, decode c.cw = .ok i) →
    ∃ t, core.run s.program.length s = .next t ∧ (t.program = [] ∨ t.running = false)

/-! ## What no command does: the frames of all instructions -/

/-- Every command leaves alone the parameters, the command, the list, and every field of the PSD but the condition code. The trap record
stays, or gains 0x44 (floating unit) or 0x45 (decimal unit) with the completion `trapped`. TRAPFLAG is never cleared, and is set after the command
exactly where it was set before, the accessor raised it on a transaction the command made, or the command called the trap; so after `done` it is
as it was, and after `aborted` it is set (R30, R32, R281, R284; the verdicts are the model's input, log 5). -/
def Obligations.CommandFrame : Prop :=
  ∀ (i : Instr) (s t : State), exec i s = .next t →
    SameContext s t ∧ t.psd = { s.psd with cc := t.psd.cc } ∧ (s.trapFlag = true → t.trapFlag = true) ∧
    (∃ n, t.accessor = s.accessor.drop n ∧
      (t.trapFlag = true ↔
        s.trapFlag = true ∨ (∃ v ∈ s.accessor.take n, v ≠ .pass) ∨ ∃ a, t.completion = some (.trapped a))) ∧
    (t.completion = some .done → t.trapFlag = s.trapFlag) ∧ (t.completion = some .aborted → t.trapFlag = true) ∧
    ((t.trapRecord = s.trapRecord ∧ (t.completion = some .done ∨ t.completion = some .aborted)) ∨
      (t.trapFlag = true ∧ ∃ a, a = (if i.isFloat then 0x44 else 0x45) ∧ t.trapRecord = s.trapRecord ++ [a] ∧
        t.completion = some (.trapped a)))

/-- The register frame and independence of R23: a register that an instruction does not list is neither read nor written, so that changing it
before the command gives the same outcome with only that register changed; and a register it may write but does not list as read changes
nothing but itself and the record of port events (log 9). Of the register-port transactions a command makes, every read is of a register it
lists as read and every write of one it lists as written. -/
def Obligations.UnlistedRegisterNeitherReadNorWritten : Prop :=
  (∀ (i : Instr) (s : State) (j : RegNum) (v : Word), j ∉ i.regsRead → j ∉ i.regsWritten →
    exec i (s.pokeReg j v) = mapNext (fun t => t.pokeReg j v) (exec i s)) ∧
  (∀ (i : Instr) (s : State) (j : RegNum) (v : Word), j ∉ i.regsRead →
    mapNext (fun t => { t.pokeReg j 0 with ports := [] }) (exec i (s.pokeReg j v)) =
      mapNext (fun t => { t.pokeReg j 0 with ports := [] }) (exec i s)) ∧
  (∀ (i : Instr) (s t : State), exec i s = .next t → ∃ events : List PortEvent, t.ports = events ++ s.ports ∧
    (∀ j, .regRead j ∈ events → j ∈ i.regsRead) ∧ ∀ j v, .regWrite j v ∈ events → j ∈ i.regsWritten)

/-- A register that an instruction does not write keeps its value, whatever the outcome (R23). -/
def Obligations.UnwrittenRegistersKeepValue : Prop :=
  ∀ (i : Instr) (s t : State), exec i s = .next t → KeepsRegsBut s t i.regsWritten

/-- An instruction that stores nothing leaves all of memory alone, whatever the outcome (R54). -/
def Obligations.NonStoringInstructionKeepsMemory : Prop :=
  ∀ (i : Instr) (s t : State), i.stores = false → exec i s = .next t → t.mem = s.mem ∧ ∀ a, t.mem.read a = s.mem.read a

/-- The memory frame of the storing instructions, whatever the outcome: DST changes at most its n bytes at EA, UNPK its 2n-1 bytes at EA, EBS
the `cnt` pattern bytes at `dst` (R54, R201, R206). -/
def Obligations.StoringInstructionMemoryFrame : Prop :=
  (∀ ind l x addr (s t : State), exec (.dst ind l x addr) s = .next t → KeepsMemoryBut s t s.ea (operandLength l)) ∧
  (∀ ind l x addr (s t : State), exec (.unpk ind l x addr) s = .next t → KeepsMemoryBut s t s.ea (2 * operandLength l - 1)) ∧
  (∀ r disp (s t : State), exec (.ebs r disp) s = .next t → KeepsMemoryBut s t (s.editDst r) (s.editCount r))

/-- What the block does not read of the PSD: FS, IA and the bits no field names, in every instruction; DM in the floating unit, whose faults are not
maskable; FN, with the default UFLOW_POLICY, in every instruction. Changing them changes nothing but themselves (R28, R30, R236, R258, R282). -/
def Obligations.UnreadPsdFieldsDoNotMatter : Prop :=
  ∀ (i : Instr) (s : State) (fs fn dm : Bool) (ia : BitVec 17) (rest : BitVec 39),
    exec i { s with psd := { s.psd with fs := fs, ia := ia, rest := rest } } =
      mapNext (fun t => { t with psd := { t.psd with fs := fs, ia := ia, rest := rest } }) (exec i s) ∧
    (i.isFloat = true →
      exec i { s with psd := { s.psd with dm := dm } } = mapNext (fun t => { t with psd := { t.psd with dm := dm } }) (exec i s)) ∧
    (s.config.uflow = UflowTable.default →
      exec i { s with psd := { s.psd with fn := fn } } = mapNext (fun t => { t with psd := { t.psd with fn := fn } }) (exec i s))

/-- With PSD.DM = 0 no decimal instruction calls the trap: the command ends `done` or `aborted`, and the record stays (R152, R282). -/
def Obligations.UnarmedDecimalUnitNeverTraps : Prop :=
  ∀ (i : Instr) (s t : State), i.isFloat = false → s.psd.dm = false → exec i s = .next t →
    (t.completion = some .done ∨ t.completion = some .aborted) ∧ t.trapRecord = s.trapRecord

/-! ## Port transactions -/

/-- The order of port transactions (events are newest first). A command that ends `done` wrote the condition code exactly once, last; one
that ends `trapped` wrote it exactly once, then called the trap, last and once; an aborted command makes no trap call, and unless it is EBS
no register write and no `CcWrite`; an aborted EBS wrote the condition code exactly once, last (R35, R44, R57, R153, R285). -/
def Obligations.ConditionCodeThenTrapAreLast : Prop :=
  ∀ (i : Instr) (s t : State), exec i s = .next t → ∃ before : List PortEvent,
    (∀ e ∈ before, e.isCcOrTrap = false) ∧
    ((t.completion = some .done ∧ t.ports = .ccWrite t.psd.cc :: (before ++ s.ports)) ∨
     (∃ a, t.completion = some (.trapped a) ∧ t.ports = .trap a :: .ccWrite t.psd.cc :: (before ++ s.ports)) ∨
     (t.completion = some .aborted ∧ i.isEdit = true ∧ t.ports = .ccWrite t.psd.cc :: (before ++ s.ports)) ∨
     (t.completion = some .aborted ∧ i.isEdit = false ∧ t.ports = before ++ s.ports ∧
      ∀ e ∈ before, e.isMemory = true ∨ e.isRead = true))

/-- Every memory transaction of a command other than EBS comes before its first register write and its `CcWrite`: up to the last one there
are only reads of registers and of the PSD beside them (R55). -/
def Obligations.MemoryTransactionsPrecedeWrites : Prop :=
  ∀ (i : Instr) (s t : State), i.isEdit = false → exec i s = .next t → ∃ after accesses : List PortEvent,
    t.ports = after ++ (accesses ++ s.ports) ∧ (∀ e ∈ after, e.isMemory = false) ∧
    ∀ e ∈ accesses, e.isMemory = true ∨ e.isRead = true

/-- Which memory transactions a command other than EBS makes, in order, as far as the accessor lets them pass: the rows of R54. An
instruction that only loads makes its loads (DSA none); DST and UNPK read the accumulator, and where the value is a number that fits they store its
n or 2n-1 bytes at EA, else nothing. For EBS see `EditOfOnePatternByte` and `EditIsByteSerial` (R53, R54, R55, R56, R57). -/
def Obligations.AccessesAreThoseOfTheTable : Prop :=
  (∀ (i : Instr) (s : State) (loads : List (Nat × Nat)), s.loadsOf i = some loads →
    ∃ t, exec i s = .next t ∧ MakesAccesses s t i.readsFirst (loads.map fun p => .load p.1 p.2)) ∧
  (∀ ind l x addr (s : State), ∃ t out, exec (.dst ind l x addr) s = .next t ∧
    MakesAccesses s t Instr.decaReads (s.storesAt out) ∧
    match packedNumber s.deca with
    | none => out = []
    | some v =>
      if 10 ^ (2 * operandLength l - 1) ≤ v.natAbs then out = [] else out.length = operandLength l ∧ HoldsPacked out v) ∧
  (∀ ind l x addr (s : State), ∃ t out, exec (.unpk ind l x addr) s = .next t ∧
    MakesAccesses s t Instr.decaReads (s.storesAt out) ∧
    match packedNumber s.deca with
    | none => out = []
    | some v =>
      if 10 ^ (2 * operandLength l - 1) ≤ v.natAbs then out = [] else out.length = 2 * operandLength l - 1 ∧ HoldsZoned out v)

/-- The order of the port transactions of a floating command: one `PsdRead`, the register reads, one load, the poll; then the register writes and
`CcWrite`, or `CcWrite` and the trap, or, aborted, nothing, with all state as it was. A long result goes into x[R | 1] first, then into x[R] (R259). -/
def Obligations.FloatingPortOrder : Prop :=
  (∀ (op : FloatOp) ind (r : RegNum) x addr (s : State), ∃ t, exec (shortInstr op ind r x addr) s = .next t ∧
    FloatEvents s t [.psdRead, .regRead r, .load (s.ea - s.ea % 4) 4] [.regWrite r (t.reg r)] ∧
    (t.completion = some .aborted → AbortsUnchanged s t)) ∧
  (∀ (op : FloatOp) ind (r : RegNum) x addr (s : State), ∃ t low, exec (longInstr op ind r x addr) s = .next t ∧
    FloatEvents s t [.psdRead, .regRead r, .regRead (r ||| 1), .load (s.ea - s.ea % 8) 8]
      [.regWrite (r ||| 1) low, .regWrite r (t.reg r)] ∧
    (t.completion = some .done → r.toNat % 2 = 0 → low = t.reg (r ||| 1)) ∧
    (t.completion = some .aborted → AbortsUnchanged s t))

/-! ## Aborts -/

/-- An aborted command other than EBS changes no register, and one that stores nothing changes no state at all but what the accessor did to
TRAPFLAG (R57). -/
def Obligations.AbortedCommandChangesNoRegister : Prop :=
  ∀ (i : Instr) (s t : State), i.isEdit = false → exec i s = .next t → t.completion = some .aborted →
    t.regs = s.regs ∧ EndsAborted s t ∧ (i.stores = false → t.mem = s.mem)

/-- Presenting an aborted DST or UNPK again, with TRAPFLAG cleared and every access passing, gives the memory, registers and condition code of
the uninterrupted command (R286, R325), whether or not the flagged store wrote its byte. -/
def Obligations.AbortedStoreCanBePresentedAgain : Prop :=
  ∀ (i : Instr) (s t : State), ((∃ ind l x addr, i = .dst ind l x addr) ∨ (∃ ind l x addr, i = .unpk ind l x addr)) →
    s.mem.wf s.config.addrBits = true → s.trapFlag = false → exec i s = .next t → t.completion = some .aborted →
    ∃ u v, exec i { t with trapFlag := false, accessor := [] } = .next u ∧ exec i { s with accessor := [] } = .next v ∧
      (∀ a, u.mem.read a = v.mem.read a) ∧ u.regs = v.regs ∧ u.psd = v.psd ∧ u.completion = v.completion

/-! ## Decimal load, store, add, subtract, compare -/

/-- DL, the whole rule: an abort with nothing changed unless its n loads pass; InvalidDigit where the operand is no number; else the operand
goes into DECA in generated form, whatever DECA held (R160). -/
def Obligations.DecimalLoad : Prop :=
  (∀ cw : Word, cw &&& 0x7F000000 = 0x7E000000 →
    decode cw = .ok (.dl (fieldI cw) (fieldRL cw) (fieldX cw) (fieldAddr cw))) ∧
  ∀ ind l x addr (s : State), ∃ t, exec (.dl ind l x addr) s = .next t ∧
    if s.passes (operandLength l) then
      match packedNumber (s.bytesAt s.ea (operandLength l)) with
      | none => FaultsInvalidDigit s t
      | some v => SetsAccumulator s t v
    else AbortsUnchanged s t

/-- DST, the whole rule: InvalidDigit where DECA is no number; Overflow where the value needs more than 2n-1 digits; else the n bytes at EA get
the value in generated form, or, where store k is flagged, the k bytes before it stay stored and the command ends aborted (what byte k holds
is the accessor's affair, log 5). No register and no other byte changes (R161). -/
def Obligations.DecimalStore : Prop :=
  (∀ cw : Word, cw &&& 0x7F000000 = 0x7F000000 →
    decode cw = .ok (.dst (fieldI cw) (fieldRL cw) (fieldX cw) (fieldAddr cw))) ∧
  ∀ ind l x addr (s : State), s.mem.wf s.config.addrBits = true → ∃ t, exec (.dst ind l x addr) s = .next t ∧
    match packedNumber s.deca with
    | none => FaultsInvalidDigit s t
    | some v =>
      if 10 ^ (2 * operandLength l - 1) ≤ v.natAbs then FaultsOverflow s t
      else ∃ out : List Byte, out.length = operandLength l ∧ HoldsPacked out v ∧ t.regs = s.regs ∧
        KeepsMemoryBut s t s.ea (operandLength l) ∧
        if s.passes (operandLength l) then t.bytesAt s.ea (operandLength l) = out ∧ EndsDone s t (signCode v)
        else EndsAborted s t ∧ StoredUpToFlag s t s.ea out

/-- DA, the whole rule: the memory operand is checked, then DECA; the sum goes into DECA unless it has 32 digits (R162). -/
def Obligations.DecimalAdd : Prop :=
  (∀ cw : Word, cw &&& 0x7F000000 = 0x79000000 →
    decode cw = .ok (.da (fieldI cw) (fieldRL cw) (fieldX cw) (fieldAddr cw))) ∧
  ∀ ind l x addr (s : State), ∃ t, exec (.da ind l x addr) s = .next t ∧
    if s.passes (operandLength l) then
      match packedNumber (s.bytesAt s.ea (operandLength l)), packedNumber s.deca with
      | some m, some a => if 10 ^ 31 ≤ (a + m).natAbs then FaultsOverflow s t else SetsAccumulator s t (a + m)
      | none, _ | some _, none => FaultsInvalidDigit s t
    else AbortsUnchanged s t

/-- DS, the whole rule: as DA, with the memory operand subtracted from the accumulator (R163). -/
def Obligations.DecimalSubtract : Prop :=
  (∀ cw : Word, cw &&& 0x7F000000 = 0x78000000 →
    decode cw = .ok (.ds (fieldI cw) (fieldRL cw) (fieldX cw) (fieldAddr cw))) ∧
  ∀ ind l x addr (s : State), ∃ t, exec (.ds ind l x addr) s = .next t ∧
    if s.passes (operandLength l) then
      match packedNumber (s.bytesAt s.ea (operandLength l)), packedNumber s.deca with
      | some m, some a => if 10 ^ 31 ≤ (a - m).natAbs then FaultsOverflow s t else SetsAccumulator s t (a - m)
      | none, _ | some _, none => FaultsInvalidDigit s t
    else AbortsUnchanged s t

/-- DC, the whole rule: only the condition code is written, and it compares values (R164). -/
def Obligations.DecimalCompare : Prop :=
  (∀ cw : Word, cw &&& 0x7F000000 = 0x7D000000 →
    decode cw = .ok (.dc (fieldI cw) (fieldRL cw) (fieldX cw) (fieldAddr cw))) ∧
  ∀ ind l x addr (s : State), ∃ t, exec (.dc ind l x addr) s = .next t ∧
    if s.passes (operandLength l) then
      match packedNumber (s.bytesAt s.ea (operandLength l)), packedNumber s.deca with
      | some m, some a => t.regs = s.regs ∧ t.mem = s.mem ∧ EndsDone s t (relationCode a m)
      | none, _ | some _, none => FaultsInvalidDigit s t
    else AbortsUnchanged s t


/-! ## Decimal multiply, divide, shift -/

/-- DM, the whole rule: the low 31 digits of the product with its sign, CC2 = 0 and no trap for its size (R180). -/
def Obligations.DecimalMultiply : Prop :=
  (∀ cw : Word, cw &&& 0x7F000000 = 0x7B000000 →
    decode cw = .ok (.dm (fieldI cw) (fieldRL cw) (fieldX cw) (fieldAddr cw))) ∧
  ∀ ind l x addr (s : State), ∃ t, exec (.dm ind l x addr) s = .next t ∧
    if s.passes (operandLength l) then
      match packedNumber (s.bytesAt s.ea (operandLength l)), packedNumber s.deca with
      | some m, some a => SetsAccumulator s t ((a * m).sign * (((a * m).natAbs % 10 ^ 31 : Nat) : Int))
      | none, _ | some _, none => FaultsInvalidDigit s t
    else AbortsUnchanged s t

/-- DD, the whole rule: Overflow for a zero divisor and for a quotient (toward zero) or remainder of more than 15 digits; else the remainder
in bytes 0 to 7 of DECA, the quotient in bytes 8 to 15, and the quotient's condition code (R181). -/
def Obligations.DecimalDivide : Prop :=
  (∀ cw : Word, cw &&& 0x7F000000 = 0x7A000000 →
    decode cw = .ok (.dd (fieldI cw) (fieldRL cw) (fieldX cw) (fieldAddr cw))) ∧
  ∀ ind l x addr (s : State), ∃ t, exec (.dd ind l x addr) s = .next t ∧
    if s.passes (operandLength l) then
      match packedNumber (s.bytesAt s.ea (operandLength l)), packedNumber s.deca with
      | some m, some a =>
        if m = 0 ∨ 10 ^ 15 ≤ (a.tdiv m).natAbs ∨ 10 ^ 15 ≤ (a - a.tdiv m * m).natAbs then FaultsOverflow s t
        else HoldsPacked (t.deca.take 8) (a - a.tdiv m * m) ∧ HoldsPacked (t.deca.drop 8) (a.tdiv m) ∧
          KeepsRegsBut s t decaRegs ∧ t.mem = s.mem ∧ EndsDone s t (signCode (a.tdiv m))
      | none, _ | some _, none => FaultsInvalidDigit s t
    else AbortsUnchanged s t

/-- DSA, the whole rule: the count is the signed low half of operand plus index (R76); the result is written even when a nonzero digit was lost
on the left, and then CC2 is 1 and the trap follows if armed. No memory transaction is made, whatever TRAPFLAG is (R182). -/
def Obligations.DecimalShift : Prop :=
  (∀ cw : Word, cw &&& 0x7F000000 = 0x7C000000 →
    decode cw = .ok (.dsa (fieldI cw) (fieldRL cw) (fieldX cw) (fieldAddr cw))) ∧
  ∀ ind rl (x : BitVec 3) (addr : BitVec 17) (s : State), ∃ t, exec (.dsa ind rl x addr) s = .next t ∧ t.accessor = s.accessor ∧
    (∃ events, t.ports = events ++ s.ports ∧ ∀ e ∈ events, e.isMemory = false) ∧
    match packedNumber s.deca with
    | none => FaultsInvalidDigit s t
    | some v => ∀ (c r : Int) (lost : Prop),
        c = (((if ind then s.command.opnd else addr.setWidth 32) +
          (if x = 0 then 0 else s.reg (x.setWidth 4))).extractLsb' 0 16).toInt → ShiftRule v c r lost →
        HoldsPacked t.deca r ∧ KeepsRegsBut s t decaRegs ∧ t.mem = s.mem ∧
        (lost → EndsMaskable s t (signCode r ||| 0b0100)) ∧ (¬ lost → EndsDone s t (signCode r))


/-- After DD the accumulator is no 16-byte number, and the variable-length scan of it reads the remainder alone (R184). -/
def Obligations.AccumulatorAfterDivideIsNoNumber : Prop :=
  ∀ ind l x addr (s t : State) (a m : Int), s.passes (operandLength l) →
    packedNumber (s.bytesAt s.ea (operandLength l)) = some m → packedNumber s.deca = some a → m ≠ 0 →
    (a.tdiv m).natAbs < 10 ^ 15 → (a.tmod m).natAbs < 10 ^ 15 → exec (.dd ind l x addr) s = .next t →
    packedNumber t.deca = none ∧ (t.checkAcc).ok = false ∧
      (decCheckVariable t.deca false).ok = true ∧ (decCheckVariable t.deca false).value.toInt = a.tmod m

/-- A shift moves the digit nibbles of DECA with zeros entering at the vacated end: digit k after a left shift by c is digit k + c before,
after a right shift by c digit k - c before (R183). -/
def Obligations.DecimalShiftMovesDigits : Prop :=
  ∀ ind rl (x : BitVec 3) (addr : BitVec 17) (s t : State) (v : Int) (c : Nat), packedNumber s.deca = some v → c < 31 →
    exec (.dsa ind rl x addr) s = .next t → ∀ k < 31,
    (shiftCount (dsaOperand ind addr s) (dsaIndex x s) = (c : Int) →
      (nibbles t.deca).getD k 0 = if k + c < 31 then (nibbles s.deca).getD (k + c) 0 else 0) ∧
    (shiftCount (dsaOperand ind addr s) (dsaIndex x s) = -(c : Int) →
      (nibbles t.deca).getD k 0 = if c ≤ k then (nibbles s.deca).getD (k - c) 0 else 0)

/-! ## Pack, unpack -/

/-- PACK, the whole rule: an abort with nothing changed unless its 2n-1 loads pass; InvalidDigit where the zoned string is no number; else its
value goes into DECA, whatever DECA held (R200). -/
def Obligations.PackZoned : Prop :=
  (∀ cw : Word, cw &&& 0x7F000000 = 0x76000000 →
    decode cw = .ok (.pack (fieldI cw) (fieldRL cw) (fieldX cw) (fieldAddr cw))) ∧
  ∀ ind l x addr (s : State), ∃ t, exec (.pack ind l x addr) s = .next t ∧
    if s.passes (2 * operandLength l - 1) then
      match zonedNumber (s.bytesAt s.ea (2 * operandLength l - 1)) with
      | none => FaultsInvalidDigit s t
      | some v => SetsAccumulator s t v
    else AbortsUnchanged s t

/-- UNPK, the whole rule: as DST, with a zoned string of 2n-1 bytes (R201; log 5). -/
def Obligations.UnpackToZoned : Prop :=
  (∀ cw : Word, cw &&& 0x7F000000 = 0x77000000 →
    decode cw = .ok (.unpk (fieldI cw) (fieldRL cw) (fieldX cw) (fieldAddr cw))) ∧
  ∀ ind l x addr (s : State), s.mem.wf s.config.addrBits = true → ∃ t, exec (.unpk ind l x addr) s = .next t ∧
    match packedNumber s.deca with
    | none => FaultsInvalidDigit s t
    | some v =>
      if 10 ^ (2 * operandLength l - 1) ≤ v.natAbs then FaultsOverflow s t
      else ∃ out : List Byte, out.length = 2 * operandLength l - 1 ∧ HoldsZoned out v ∧ t.regs = s.regs ∧
        KeepsMemoryBut s t s.ea (2 * operandLength l - 1) ∧
        if s.passes (2 * operandLength l - 1) then
          t.bytesAt s.ea (2 * operandLength l - 1) = out ∧ EndsDone s t (signCode v)
        else EndsAborted s t ∧ StoredUpToFlag s t s.ea out


/-- PACK then UNPK with the same length, to any address, gives back the zoned digits, for every length; the zones come back generated, and the
bytes are the original ones exactly where the original was in generated form (R202). -/
def Obligations.PackThenUnpackRestoresDigits : Prop :=
  ∀ ind l x addr (s : State) (v : Int) (ea : BitVec 24), s.mem.wf s.config.addrBits = true →
    s.passes (2 * (2 * operandLength l - 1)) → zonedNumber (s.bytesAt s.ea (2 * operandLength l - 1)) = some v →
    ∃ t u, exec (.pack ind l x addr) s = .next t ∧
      exec (.unpk ind l x addr) { t with command := { t.command with ea := ea } } = .next u ∧
      (∀ k < 2 * operandLength l - 1, digitOf (u.mem.read (s.wrap (ea.toNat + k))) = digitOf (s.mem.read (s.wrap (s.ea + k)))) ∧
      HoldsZoned (u.bytesAt ea.toNat (2 * operandLength l - 1)) v ∧
      (u.bytesAt ea.toNat (2 * operandLength l - 1) = s.bytesAt s.ea (2 * operandLength l - 1) ↔
        HoldsZoned (s.bytesAt s.ea (2 * operandLength l - 1)) v)

/-! ## The decimal routines and the wide-integer unit -/

/-- The fixed-length scan: it succeeds exactly on the numbers of R130 to R132, less those with an unsigned sign code when a signed operand is
required; its signed value is the number; `unsigned` is set exactly for the sign codes 0xA, 0xE, 0xF (R131, R132, R136). -/
def Obligations.FixedScanReadsPackedNumber : Prop :=
  ∀ (bytes : List Byte) (requireSigned : Bool), 1 ≤ bytes.length → bytes.length ≤ 16 →
    let c := decCheckFixed bytes requireSigned
    let unsignedCode := ((nibbles bytes).getLastD 0).toNat ∈ [0xA, 0xE, 0xF]
    (c.ok = true ↔ (packedNumber bytes).isSome = true ∧ ¬ (requireSigned = true ∧ unsignedCode)) ∧
    (c.ok = true → packedNumber bytes = some c.value.toInt ∧ (c.unsigned = true ↔ unsignedCode))

/-- DecSet without suppression overflows exactly from 10^31 on; after it succeeds CheckAcc reads the value back, signed; with suppression it always
succeeds, for every integer, and CheckAcc reads back the low 31 digits (R143). Without suppression the value is a 128-bit one (R142; log 21). -/
def Obligations.AccumulatorSetAndCheckRoundTrip : Prop :=
  ∀ (s : State) (v : Int),
    (v.natAbs < 2 ^ 127 → (s.decSet v false = none ↔ 10 ^ 31 ≤ v.natAbs) ∧
      ∀ t, s.decSet v false = some t → t.checkAcc.ok = true ∧ t.checkAcc.unsigned = false ∧ t.checkAcc.value.toInt = v) ∧
    (∃ t, s.decSet v true = some t ∧ t.checkAcc.ok = true ∧ t.checkAcc.unsigned = false ∧
      t.checkAcc.value.toInt = v.sign * ((v.natAbs % 10 ^ 31 : Nat) : Int))

/-- W.DIVU and W.DIVS: floor division and division toward zero with their remainders; the remainder of W.DIVS has the dividend's sign or is zero; its
one overflow leaves the dividend and 0; a zero divisor has no result (R114, R115, R116). -/
def Obligations.WideDivision : Prop :=
  ∀ a b : W128,
    (b = 0 → W.divU a b = none ∧ W.divS a b = none) ∧
    (b ≠ 0 → ∃ d e, W.divU a b = some d ∧ W.divS a b = some e ∧
      d.quotient.toNat = a.toNat / b.toNat ∧ d.remainder.toNat = a.toNat % b.toNat ∧ d.ovf = false ∧
      (¬ (a.toInt = -(2 ^ 127) ∧ b.toInt = -1) → e.quotient.toInt = a.toInt.tdiv b.toInt ∧
        e.remainder.toInt = a.toInt - e.quotient.toInt * b.toInt ∧ e.remainder.toInt.natAbs < b.toInt.natAbs ∧
        (e.remainder.toInt = 0 ∨ e.remainder.toInt.sign = a.toInt.sign) ∧ e.ovf = false) ∧
      (a.toInt = -(2 ^ 127) ∧ b.toInt = -1 → e.quotient = a ∧ e.remainder = 0 ∧ e.ovf = true))

/-- The wide primitives but division: the wrapped value of each and its flags. W.FROMU64, W.FROMS64, W.TOU64, W.ADD, W.SUB, W.NEG, W.ABS, W.ISZERO,
W.ISNEG, W.MULU, W.MULS, W.MUL10ADD (which never overflows from a value below 10^30 on, and adds one digit), W.CMPU and W.CMPS, which differ
exactly where the top bits do (R103 to R113, R117). -/
def Obligations.WideArithmeticWraps : Prop :=
  ∀ (a b : W128) (d : Nibble) (v : BitVec 64),
    (W.fromU64 v).toNat = v.toNat ∧ (W.fromU64 v).toInt = (v.toNat : Int) ∧ (W.fromS64 v).toInt = v.toInt ∧
    (W.toU64 a).1.toNat = a.toNat % 2 ^ 64 ∧ ((W.toU64 a).2 = true ↔ 2 ^ 64 ≤ a.toNat) ∧
    (W.isZero a = true ↔ a.toNat = 0) ∧ (W.isNeg a = true ↔ a.toInt < 0) ∧
    (W.cmpU a b = .lt ↔ a.toNat < b.toNat) ∧ (W.cmpU a b = .eq ↔ a.toNat = b.toNat) ∧ (W.cmpU a b = .gt ↔ b.toNat < a.toNat) ∧
    (W.cmpS a b = .lt ↔ a.toInt < b.toInt) ∧ (W.cmpS a b = .eq ↔ a.toInt = b.toInt) ∧ (W.cmpS a b = .gt ↔ b.toInt < a.toInt) ∧
    (W.cmpU a b ≠ W.cmpS a b ↔ a.msb ≠ b.msb) ∧
    (W.add a b).value.toNat = (a.toNat + b.toNat) % 2 ^ 128 ∧ ((W.add a b).carry = true ↔ 2 ^ 128 ≤ a.toNat + b.toNat) ∧
    ((W.add a b).ovf = false ↔ (W.add a b).value.toInt = a.toInt + b.toInt) ∧
    (W.sub a b).value.toNat = (2 ^ 128 + a.toNat - b.toNat) % 2 ^ 128 ∧ ((W.sub a b).carry = true ↔ a.toNat < b.toNat) ∧
    ((W.sub a b).ovf = false ↔ (W.sub a b).value.toInt = a.toInt - b.toInt) ∧
    (W.neg a).value.toNat = (2 ^ 128 - a.toNat) % 2 ^ 128 ∧ ((W.neg a).ovf = true ↔ a.toInt = -(2 ^ 127)) ∧
    (W.abs a).1.toNat = a.toInt.natAbs ∧ ((W.abs a).2 = true ↔ a.toInt < 0) ∧
    (W.mulU a b).value.toNat = a.toNat * b.toNat % 2 ^ 128 ∧ ((W.mulU a b).ovf = true ↔ 2 ^ 128 ≤ a.toNat * b.toNat) ∧
    (W.mulS a b).value = (W.mulU a b).value ∧ ((W.mulS a b).ovf = false ↔ (W.mulS a b).value.toInt = a.toInt * b.toInt) ∧
    (d.toNat < 10 → (W.mul10add a d).value.toNat = (a.toNat * 10 + d.toNat) % 2 ^ 128 ∧
      ((W.mul10add a d).ovf = true ↔ 2 ^ 128 ≤ a.toNat * 10 + d.toNat) ∧
      ∀ k ≤ 30, a.toNat < 10 ^ k → (W.mul10add a d).ovf = false ∧ (W.mul10add a d).value.toNat < 10 ^ (k + 1))

/-! ## EBS -/

/-- EBS with a count of 0 makes no memory access and writes back what it read, x[R] first (R207, R208 (a)). -/
def Obligations.EditOfNothingChangesNothing : Prop :=
  ∀ r disp (s : State), s.editCount r = 0 →
    ∃ t, exec (.ebs r disp) s = .next t ∧ t.regs = s.regs ∧ t.mem = s.mem ∧ t.accessor = s.accessor ∧
      EndsDone s t s.psd.cc ∧
      t.ports = .ccWrite s.psd.cc :: .regWrite (r ||| 1) (s.reg (r ||| 1)) :: .regWrite r (s.reg r) ::
        ((Instr.ebs r disp).readsFirst.reverse ++ s.ports)

/-- EBS of one pattern byte, for every R: it completes with the byte stored, the mark, the progress and the condition code that R203, R204
and R206 give the pattern byte, its memory transactions made in the order of R206 and the registers written in that of R207 (R54, R55). -/
def Obligations.EditOfOnePatternByte : Prop :=
  ∀ (r : RegNum) (disp : Int) (s : State), s.passes 3 → s.editCount r = 1 → s.editValid r disp →
    ∃ t, exec (.ebs r disp) s = .next t ∧ t.regs = (s.editedByte r disp).regs ∧ t.mem = (s.editedByte r disp).mem ∧
      EndsDone s t (s.editedByte r disp).psd.cc ∧
      ∃ v, (r.toNat % 2 = 0 → v = t.reg r) ∧
        t.ports = .ccWrite t.psd.cc :: .regWrite (r ||| 1) (t.reg (r ||| 1)) :: .regWrite r v ::
          ((s.editByteEvents r disp).reverse ++ ((Instr.ebs r disp).readsFirst.reverse ++ s.ports))

/-- EBS with R even works one byte at a time: with a byte left to process, it does that byte and then what it would do if presented at the
state that byte leaves (R206, R207). Only the record of port events (log 9) differs, and of it the memory transactions are those of the byte, then
those of the rest (R54, R55). For odd R see `EditUsesOnlyItsOperandWords`. -/
def Obligations.EditIsByteSerial : Prop :=
  ∀ (r : RegNum) (disp : Int) (s : State), r.toNat % 2 = 0 → s.passes 3 → s.editCount r ≠ 0 → s.editValid r disp →
    SameResultButPorts (exec (.ebs r disp) s) (exec (.ebs r disp) (s.editedByte r disp)) ∧
    ∃ t u rest, exec (.ebs r disp) s = .next t ∧ exec (.ebs r disp) (s.editedByte r disp) = .next u ∧
      u.ports.filter PortEvent.isMemory = rest ++ s.ports.filter PortEvent.isMemory ∧
      t.ports.filter PortEvent.isMemory =
        rest ++ (((s.editByteEvents r disp).filter PortEvent.isMemory).reverse ++ s.ports.filter PortEvent.isMemory)

/-- EBS on a source nibble above 9 taken as a digit: the pattern byte and the source byte are loaded, the step changes nothing, CC is 1 0 nz neg, and
the trap follows if armed (R206, R207). -/
def Obligations.EditInvalidDigitEndsEarly : Prop :=
  ∀ (r : RegNum) (disp : Int) (s : State), s.passes 2 → s.editCount r ≠ 0 → ¬ s.editValid r disp →
    ∃ t, exec (.ebs r disp) s = .next t ∧ t.regs = s.regs ∧ t.mem = s.mem ∧ EndsMaskable s t (keepsCC34 0b10 s.psd.cc) ∧
      t.ports.filter PortEvent.isMemory =
        .load (s.editSourceAddr r disp) 1 :: .load (s.editDst r) 1 :: s.ports.filter PortEvent.isMemory

/-- EBS depends on R only through the words in x[R] and x[R | 1]: whatever R is (odd, 0 and 1 among them), it edits, sets the condition code,
ends and leaves x[R | 1] as EBS with an even register above 0 does whose pair holds those two words; so do x[R] for R even, and the mark in
x[1] for R above 1 (R203, R206, R208 (b), (c)). -/
def Obligations.EditUsesOnlyItsOperandWords : Prop :=
  ∀ (r q : RegNum) (disp : Int) (s : State), q.toNat % 2 = 0 → q ≠ 0 →
    ∃ t u, exec (.ebs r disp) s = .next t ∧
      exec (.ebs q disp) ((s.pokeReg q (s.reg r)).pokeReg (q ||| 1) (s.reg (r ||| 1))) = .next u ∧
      t.mem = u.mem ∧ t.psd = u.psd ∧ t.completion = u.completion ∧ t.trapFlag = u.trapFlag ∧ t.trapRecord = u.trapRecord ∧
      t.accessor = u.accessor ∧ t.reg (r ||| 1) = u.reg (q ||| 1) ∧ (r.toNat % 2 = 0 → t.reg r = u.reg q) ∧
      (1 < r.toNat → t.reg 1 = u.reg 1)

/-- An EBS that a pending trap ended goes on where it stopped: presented again with TRAPFLAG cleared, it ends as the uninterrupted command does,
when the flagged access stored nothing (R even; R207, R286; the verdicts are the model's input, log 5). -/
def Obligations.AbortedEditCanBeResumed : Prop :=
  ∀ (r : RegNum) (disp : Int) (s t : State) (n : Nat), r.toNat % 2 = 0 → s.trapFlag = false →
    s.accessor = List.replicate n .pass ++ [.flag false] → exec (.ebs r disp) s = .next t → t.completion = some .aborted →
    SameResultButPorts (exec (.ebs r disp) { t with trapFlag := false }) (exec (.ebs r disp) { s with accessor := [] })

/-! ## Floating formats and converters -/

/-- SigmaToDouble gives +0.0 for a clean or dirty zero, and else a normal double with the word's sign and the word's value, less the bits below
the top 53 of the fraction; a short word loses none. A negative word is the two's complement of the whole magnitude word: the fields are those of the
word's absolute value as a two's-complement integer, the negated word has the negated value, and -1.0 is 0xBEF00000 (R220 to R227). -/
def Obligations.SigmaToDoubleReadsTheFormat : Prop :=
  ∀ (width : Nat) (w : BitVec width), width = 32 ∨ width = 64 →
    (fractionField w = 0 → sigmaToDouble w = .zero false) ∧
    (fractionField w ≠ 0 → sigmaToDouble (-w) = (sigmaToDouble w).negate ∧ ∃ sig e, sigmaToDouble w = .finite w.msb sig e ∧ NormalSig sig ∧
      (sig : ℚ) * 2 ^ e ≤ wordMagnitude w ∧ wordMagnitude w < ((sig : ℚ) + 1) * 2 ^ e ∧
      (width = 32 → (sig : ℚ) * 2 ^ e = wordMagnitude w)) ∧
    sigmaToDouble (0xBEF00000 : BitVec 32) = .finite true (2 ^ 52) (-52)

/-- DoubleToSigma of every double. The special inputs: the sentinel for a NaN, the zero word for +0.0 and -0.0, overflow with the signed sentinel for
an infinity. A finite one, normal or not: overflow with the signed sentinel from 16^63 on; a normalized chopped word from 16^-65 on; an
unnormalized chopped word with characteristic 0 down to 2^-FB * 16^-64; below that the zero word, flagged as UFLOW_POLICY says (R231 to R238). -/
def Obligations.DoubleToSigmaChops : Prop :=
  (∀ (width : Nat) (policy : UflowPolicy), width = 32 ∨ width = 64 →
    doubleToSigma width policy .nan = (BitVec.ofNat width (2 ^ (width - 1) - 1), .nan) ∧
    ∀ neg, doubleToSigma width policy (.zero neg) = (0, .ok) ∧
      doubleToSigma width policy (.inf neg) =
        (BitVec.ofNat width (if neg then 2 ^ (width - 1) + 1 else 2 ^ (width - 1) - 1), .overflow)) ∧
  ∀ (width : Nat) (policy : UflowPolicy) (neg : Bool) (sig : Nat) (e : Int) (w : BitVec width) (st : ConvertStatus),
    width = 32 ∨ width = 64 → 0 < sig → doubleToSigma width policy (.finite neg sig e) = (w, st) →
    if (16 : ℚ) ^ (63 : Int) ≤ (sig : ℚ) * 2 ^ e then
      st = .overflow ∧ w.toNat = (if neg then 2 ^ (width - 1) + 1 else 2 ^ (width - 1) - 1)
    else if (16 : ℚ) ^ (-65 : Int) ≤ (sig : ℚ) * 2 ^ e then
      st = .ok ∧ w.msb = neg ∧ 2 ^ (width - 12) ≤ fractionField w ∧ wordMagnitude w ≤ (sig : ℚ) * 2 ^ e ∧
        (sig : ℚ) * 2 ^ e < wordMagnitude w + 2 ^ (4 * ((characteristicField w : Int) - 64) - ((width : Int) - 8))
    else if (2 : ℚ) ^ (-256 - ((width : Int) - 8)) ≤ (sig : ℚ) * 2 ^ e then
      st = .ok ∧ w.msb = neg ∧ characteristicField w = 0 ∧ fractionField w ≠ 0 ∧ wordMagnitude w ≤ (sig : ℚ) * 2 ^ e ∧
        (sig : ℚ) * 2 ^ e < wordMagnitude w + 2 ^ (-256 - ((width : Int) - 8))
    else w = 0 ∧ st = (match policy with
      | .trueZero => ConvertStatus.ok
      | .zeroWithFlag => ConvertStatus.underflow)

/-- The round trip of the long format: for every normal double with 2^-260 ≤ |x| < 2^252, converting to the long word and back gives x (R239). -/
def Obligations.LongFormatRoundTripsDoubles : Prop :=
  ∀ (policy : UflowPolicy) (neg : Bool) (sig : Nat) (e : Int), NormalSig sig →
    (2 : ℚ) ^ (-260 : Int) ≤ (sig : ℚ) * 2 ^ e → (sig : ℚ) * 2 ^ e < (2 : ℚ) ^ (252 : Int) →
    (doubleToSigma 64 policy (.finite neg sig e)).2 = .ok ∧
      sigmaToDouble (doubleToSigma 64 policy (.finite neg sig e)).1 = .finite neg sig e

/-- The other direction for the short format: every normalized short word comes back from its double, and a dirty zero as the zero word (R239). -/
def Obligations.ShortWordRoundTripsThroughDouble : Prop :=
  ∀ (policy : UflowPolicy) (w : BitVec 32),
    (2 ^ 20 ≤ fractionField w → doubleToSigma 32 policy (sigmaToDouble w) = (w, .ok)) ∧
    (fractionField w = 0 → doubleToSigma 32 policy (sigmaToDouble w) = (0, .ok))

/-! ## Floating arithmetic -/

/-- The common steps of FAS, FSS, FMS, FDS, whole: an abort with nothing changed unless the one load passes; the fault of a zero divisor (clean or
dirty) whatever the dividend; the converter's overflow and underflow with the sign of the result; else x[R] gets the converted result of the
operation on the register (left) and the word at EA with its two low bits 0, and CC its sign (R53, R250, R253 to R256, R260 to R263). -/
def Obligations.ShortFloatingOperation : Prop :=
  (∀ (op : FloatOp) (cw : Word), cw &&& 0x7F000000 = (shortInstr op false 0 0 0).row.1 →
    decode cw = .ok (shortInstr op (fieldI cw) (fieldRL cw) (fieldX cw) (fieldAddr cw))) ∧
  ∀ (op : FloatOp) ind (r : RegNum) x addr (s : State), ∃ t, exec (shortInstr op ind r x addr) s = .next t ∧
    let b : BitVec 32 := BitVec.ofNat 32 (bytesToNat (s.bytesAt (s.ea - s.ea % 4) 4))
    let q := op.apply (sigmaToDouble (s.reg r)) (sigmaToDouble b)
    if s.passes 1 then
      if op = .divide ∧ fractionField b = 0 then FaultsFloat s t 0b0100
      else match doubleToSigma 32 (uflowPolicy s.config s.psd.fn s.psd.fz) q with
        | (w, .ok) => t.reg r = w ∧ KeepsRegsBut s t [r] ∧ t.mem = s.mem ∧ EndsDone s t (wordCode w)
        | (_, .overflow) => FaultsFloat s t (if q.isNegative then 0b0101 else 0b0110)
        | (_, .underflow) => FaultsFloat s t (if q.isNegative then 0b1101 else 0b1110)
        | (_, .nan) => FaultsFloat s t 0b0100
    else AbortsUnchanged s t

/-- The common steps of FAL, FSL, FML, FDL, whole: as the short forms, on the pair x[R] : x[R|1] and the doubleword at EA with its three low bits 0.
With R even the pair gets the result; with R odd the register keeps its high half (R53, R251, R253 to R256, R264 to R268). -/
def Obligations.LongFloatingOperation : Prop :=
  (∀ (op : FloatOp) (cw : Word), cw &&& 0x7F000000 = (longInstr op false 0 0 0).row.1 →
    decode cw = .ok (longInstr op (fieldI cw) (fieldRL cw) (fieldX cw) (fieldAddr cw))) ∧
  ∀ (op : FloatOp) ind (r : RegNum) x addr (s : State), ∃ t, exec (longInstr op ind r x addr) s = .next t ∧
    let b : BitVec 64 := BitVec.ofNat 64 (bytesToNat (s.bytesAt (s.ea - s.ea % 8) 8))
    let q := op.apply (sigmaToDouble (s.reg r ++ s.reg (r ||| 1))) (sigmaToDouble b)
    if s.passes 1 then
      if op = .divide ∧ fractionField b = 0 then FaultsFloat s t 0b0100
      else match doubleToSigma 64 (uflowPolicy s.config s.psd.fn s.psd.fz) q with
        | (w, .ok) => t.reg r = w.extractLsb' 32 32 ∧ (r.toNat % 2 = 0 → t.reg (r ||| 1) = w.extractLsb' 0 32) ∧
            KeepsRegsBut s t [r, r ||| 1] ∧ t.mem = s.mem ∧ EndsDone s t (wordCode w)
        | (_, .overflow) => FaultsFloat s t (if q.isNegative then 0b0101 else 0b0110)
        | (_, .underflow) => FaultsFloat s t (if q.isNegative then 0b1101 else 0b1110)
        | (_, .nan) => FaultsFloat s t 0b0100
    else AbortsUnchanged s t

/-- With the zero divisor taken out, the result of an operation on two converted words is a zero or a normal double, never a NaN, never an infinity,
never subnormal; so no operation raises the NaN fault (R252, R257). -/
def Obligations.FloatingResultsAreZeroOrNormal : Prop :=
  ∀ (width : Nat) (op : FloatOp) (policy : UflowPolicy) (a b : BitVec width), width = 32 ∨ width = 64 →
    ((op = .divide → fractionField b ≠ 0) →
      (∃ neg, op.apply (sigmaToDouble a) (sigmaToDouble b) = .zero neg) ∨
      (∃ neg sig e, op.apply (sigmaToDouble a) (sigmaToDouble b) = .finite neg sig e ∧ NormalSig sig)) ∧
    floatResult width op policy (sigmaToDouble a) (sigmaToDouble b) ≠ .error .nan

/-- `roundDouble` is the IEEE rounding of every exact value `m * 2^e` of either sign: an infinity from the midpoint above the largest number on; else a
number of that sign, with no number nearer to the exact value, and a tie goes to an even significand. From 2^-1022 up to 2^1023 it is a finite
normal double (R252). -/
def Obligations.RoundingIsNearestTiesToEven : Prop :=
  ∀ (neg : Bool) (m : Nat) (e : Int), IsRounding neg ((m : ℚ) * 2 ^ e) (roundDouble neg m e) ∧
    ((2 : ℚ) ^ (-1022 : Int) ≤ (m : ℚ) * 2 ^ e → (m : ℚ) * 2 ^ e ≤ 2 ^ (1023 : Int) →
      ∃ sig e', roundDouble neg m e = .finite neg sig e' ∧ NormalSig sig)

/-- Every floating operation on two numbers is the exact result rounded, the register operand on the left: a + b, a - b, a * b, a / b to the nearest
double, ties to even, with the sign of the exact result, finite and normal in range; an exact zero gives a zero. So is the quotient of any two
finite values (R252). -/
def Obligations.FloatingOperationIsRoundedExactResult : Prop :=
  (∀ (op : FloatOp) (a b : Double), IsNumber a → IsNumber b → (op = .divide → b.isZero = false) →
    let x := exactResult op (doubleValue a) (doubleValue b)
    if x = 0 then op.apply a b = .zero (zeroSign op a.isNegative b.isNegative)
    else IsRounding (decide (x < 0)) |x| (op.apply a b) ∧
      ((2 : ℚ) ^ (-1022 : Int) ≤ |x| → |x| ≤ 2 ^ (1023 : Int) →
        ∃ sig e, op.apply a b = .finite (decide (x < 0)) sig e ∧ NormalSig sig)) ∧
  ∀ (na nb : Bool) (ma mb : Nat) (ea eb : Int), 0 < ma → 0 < mb →
    IsRounding (na != nb) ((ma : ℚ) * 2 ^ ea / ((mb : ℚ) * 2 ^ eb)) (FloatOp.divide.apply (.finite na ma ea) (.finite nb mb eb))

/-- Addition and subtraction never underflow, in either format (R260, R261, R264, R265). -/
def Obligations.SumsNeverUnderflow : Prop :=
  ∀ (width : Nat) (op : FloatOp) (policy : UflowPolicy) (a b : BitVec width) (neg : Bool), width = 32 ∨ width = 64 →
    op = .add ∨ op = .subtract → floatResult width op policy (sigmaToDouble a) (sigmaToDouble b) ≠ .error (.underflow neg)
end

