-- ==== Sys2Proof/Laws/State.lean ====
section
/-! SUPPORT. What each field of a state is after each update: one lemma per field per update, so that no proof unfolds an update. -/

namespace Sys2Proof.Machine

/-! ## `writeReg` -/

@[simp] theorem State.writeReg_config (s : State) (i : RegNum) (v : Word) :
    (s.writeReg i v).config = s.config := rfl
@[simp] theorem State.writeReg_regs (s : State) (i : RegNum) (v : Word) :
    (s.writeReg i v).regs = s.regs.set i.toNat v i.isLt := rfl
@[simp] theorem State.writeReg_psd (s : State) (i : RegNum) (v : Word) :
    (s.writeReg i v).psd = s.psd := rfl
@[simp] theorem State.writeReg_mem (s : State) (i : RegNum) (v : Word) :
    (s.writeReg i v).mem = s.mem := rfl
@[simp] theorem State.writeReg_trapFlag (s : State) (i : RegNum) (v : Word) :
    (s.writeReg i v).trapFlag = s.trapFlag := rfl
@[simp] theorem State.writeReg_trapRecord (s : State) (i : RegNum) (v : Word) :
    (s.writeReg i v).trapRecord = s.trapRecord := rfl
@[simp] theorem State.writeReg_status (s : State) (i : RegNum) (v : Word) :
    (s.writeReg i v).status = s.status := rfl
@[simp] theorem State.writeReg_completion (s : State) (i : RegNum) (v : Word) :
    (s.writeReg i v).completion = s.completion := rfl
@[simp] theorem State.writeReg_command (s : State) (i : RegNum) (v : Word) :
    (s.writeReg i v).command = s.command := rfl
@[simp] theorem State.writeReg_program (s : State) (i : RegNum) (v : Word) :
    (s.writeReg i v).program = s.program := rfl
@[simp] theorem State.writeReg_presented (s : State) (i : RegNum) (v : Word) :
    (s.writeReg i v).presented = s.presented := rfl
@[simp] theorem State.writeReg_accessor (s : State) (i : RegNum) (v : Word) :
    (s.writeReg i v).accessor = s.accessor := rfl
@[simp] theorem State.writeReg_ports (s : State) (i : RegNum) (v : Word) :
    (s.writeReg i v).ports = .regWrite i v :: s.ports := rfl

/-! ## `writeCC` -/

@[simp] theorem State.writeCC_config (s : State) (cc : BitVec 4) :
    (s.writeCC cc).config = s.config := rfl
@[simp] theorem State.writeCC_regs (s : State) (cc : BitVec 4) :
    (s.writeCC cc).regs = s.regs := rfl
@[simp] theorem State.writeCC_psd (s : State) (cc : BitVec 4) :
    (s.writeCC cc).psd = { s.psd with cc := cc } := rfl
@[simp] theorem State.writeCC_mem (s : State) (cc : BitVec 4) :
    (s.writeCC cc).mem = s.mem := rfl
@[simp] theorem State.writeCC_trapFlag (s : State) (cc : BitVec 4) :
    (s.writeCC cc).trapFlag = s.trapFlag := rfl
@[simp] theorem State.writeCC_trapRecord (s : State) (cc : BitVec 4) :
    (s.writeCC cc).trapRecord = s.trapRecord := rfl
@[simp] theorem State.writeCC_status (s : State) (cc : BitVec 4) :
    (s.writeCC cc).status = s.status := rfl
@[simp] theorem State.writeCC_completion (s : State) (cc : BitVec 4) :
    (s.writeCC cc).completion = s.completion := rfl
@[simp] theorem State.writeCC_command (s : State) (cc : BitVec 4) :
    (s.writeCC cc).command = s.command := rfl
@[simp] theorem State.writeCC_program (s : State) (cc : BitVec 4) :
    (s.writeCC cc).program = s.program := rfl
@[simp] theorem State.writeCC_presented (s : State) (cc : BitVec 4) :
    (s.writeCC cc).presented = s.presented := rfl
@[simp] theorem State.writeCC_accessor (s : State) (cc : BitVec 4) :
    (s.writeCC cc).accessor = s.accessor := rfl
@[simp] theorem State.writeCC_ports (s : State) (cc : BitVec 4) :
    (s.writeCC cc).ports = .ccWrite cc :: s.ports := rfl

/-! ## `memWrite` -/

@[simp] theorem State.memWrite_config (s : State) (a : Nat) (bytes : List Byte) :
    (s.memWrite a bytes).config = s.config := rfl
@[simp] theorem State.memWrite_regs (s : State) (a : Nat) (bytes : List Byte) :
    (s.memWrite a bytes).regs = s.regs := rfl
@[simp] theorem State.memWrite_psd (s : State) (a : Nat) (bytes : List Byte) :
    (s.memWrite a bytes).psd = s.psd := rfl
@[simp] theorem State.memWrite_mem (s : State) (a : Nat) (bytes : List Byte) :
    (s.memWrite a bytes).mem = if s.verdict.stores then Memory.writeBytes s.config.addrBits s.mem a bytes else s.mem := rfl
@[simp] theorem State.memWrite_trapFlag (s : State) (a : Nat) (bytes : List Byte) :
    (s.memWrite a bytes).trapFlag = (s.trapFlag || s.verdict.raises) := rfl
@[simp] theorem State.memWrite_trapRecord (s : State) (a : Nat) (bytes : List Byte) :
    (s.memWrite a bytes).trapRecord = s.trapRecord := rfl
@[simp] theorem State.memWrite_status (s : State) (a : Nat) (bytes : List Byte) :
    (s.memWrite a bytes).status = s.status := rfl
@[simp] theorem State.memWrite_completion (s : State) (a : Nat) (bytes : List Byte) :
    (s.memWrite a bytes).completion = s.completion := rfl
@[simp] theorem State.memWrite_command (s : State) (a : Nat) (bytes : List Byte) :
    (s.memWrite a bytes).command = s.command := rfl
@[simp] theorem State.memWrite_program (s : State) (a : Nat) (bytes : List Byte) :
    (s.memWrite a bytes).program = s.program := rfl
@[simp] theorem State.memWrite_presented (s : State) (a : Nat) (bytes : List Byte) :
    (s.memWrite a bytes).presented = s.presented := rfl
@[simp] theorem State.memWrite_accessor (s : State) (a : Nat) (bytes : List Byte) :
    (s.memWrite a bytes).accessor = s.accessor.tail := rfl
@[simp] theorem State.memWrite_ports (s : State) (a : Nat) (bytes : List Byte) :
    (s.memWrite a bytes).ports = .store (s.wrap a) bytes :: s.ports := rfl

/-! ## `postTrap` -/

@[simp] theorem State.postTrap_config (s : State) (a : Nat) :
    (s.postTrap a).config = s.config := rfl
@[simp] theorem State.postTrap_regs (s : State) (a : Nat) :
    (s.postTrap a).regs = s.regs := rfl
@[simp] theorem State.postTrap_psd (s : State) (a : Nat) :
    (s.postTrap a).psd = s.psd := rfl
@[simp] theorem State.postTrap_mem (s : State) (a : Nat) :
    (s.postTrap a).mem = s.mem := rfl
@[simp] theorem State.postTrap_trapFlag (s : State) (a : Nat) :
    (s.postTrap a).trapFlag = true := rfl
@[simp] theorem State.postTrap_trapRecord (s : State) (a : Nat) :
    (s.postTrap a).trapRecord = s.trapRecord ++ [a] := rfl
@[simp] theorem State.postTrap_status (s : State) (a : Nat) :
    (s.postTrap a).status = s.status := rfl
@[simp] theorem State.postTrap_completion (s : State) (a : Nat) :
    (s.postTrap a).completion = s.completion := rfl
@[simp] theorem State.postTrap_command (s : State) (a : Nat) :
    (s.postTrap a).command = s.command := rfl
@[simp] theorem State.postTrap_program (s : State) (a : Nat) :
    (s.postTrap a).program = s.program := rfl
@[simp] theorem State.postTrap_presented (s : State) (a : Nat) :
    (s.postTrap a).presented = s.presented := rfl
@[simp] theorem State.postTrap_accessor (s : State) (a : Nat) :
    (s.postTrap a).accessor = s.accessor := rfl
@[simp] theorem State.postTrap_ports (s : State) (a : Nat) :
    (s.postTrap a).ports = .trap a :: s.ports := rfl

/-! ## `present` -/

@[simp] theorem State.present_config (s : State) (c : Command) (rest : List Command) :
    (s.present c rest).config = s.config := rfl
@[simp] theorem State.present_regs (s : State) (c : Command) (rest : List Command) :
    (s.present c rest).regs = s.regs := rfl
@[simp] theorem State.present_psd (s : State) (c : Command) (rest : List Command) :
    (s.present c rest).psd = s.psd := rfl
@[simp] theorem State.present_mem (s : State) (c : Command) (rest : List Command) :
    (s.present c rest).mem = s.mem := rfl
@[simp] theorem State.present_trapFlag (s : State) (c : Command) (rest : List Command) :
    (s.present c rest).trapFlag = s.trapFlag := rfl
@[simp] theorem State.present_trapRecord (s : State) (c : Command) (rest : List Command) :
    (s.present c rest).trapRecord = s.trapRecord := rfl
@[simp] theorem State.present_status (s : State) (c : Command) (rest : List Command) :
    (s.present c rest).status = .busy := rfl
@[simp] theorem State.present_completion (s : State) (c : Command) (rest : List Command) :
    (s.present c rest).completion = s.completion := rfl
@[simp] theorem State.present_command (s : State) (c : Command) (rest : List Command) :
    (s.present c rest).command = c := rfl
@[simp] theorem State.present_program (s : State) (c : Command) (rest : List Command) :
    (s.present c rest).program = rest := rfl
@[simp] theorem State.present_presented (s : State) (c : Command) (rest : List Command) :
    (s.present c rest).presented = s.presented + 1 := rfl
@[simp] theorem State.present_accessor (s : State) (c : Command) (rest : List Command) :
    (s.present c rest).accessor = s.accessor := rfl
@[simp] theorem State.present_ports (s : State) (c : Command) (rest : List Command) :
    (s.present c rest).ports = s.ports := rfl

/-! ## `pokeReg` -/

@[simp] theorem State.pokeReg_config (s : State) (j : RegNum) (v : Word) :
    (s.pokeReg j v).config = s.config := rfl
@[simp] theorem State.pokeReg_regs (s : State) (j : RegNum) (v : Word) :
    (s.pokeReg j v).regs = s.regs.set j.toNat v j.isLt := rfl
@[simp] theorem State.pokeReg_psd (s : State) (j : RegNum) (v : Word) :
    (s.pokeReg j v).psd = s.psd := rfl
@[simp] theorem State.pokeReg_mem (s : State) (j : RegNum) (v : Word) :
    (s.pokeReg j v).mem = s.mem := rfl
@[simp] theorem State.pokeReg_trapFlag (s : State) (j : RegNum) (v : Word) :
    (s.pokeReg j v).trapFlag = s.trapFlag := rfl
@[simp] theorem State.pokeReg_trapRecord (s : State) (j : RegNum) (v : Word) :
    (s.pokeReg j v).trapRecord = s.trapRecord := rfl
@[simp] theorem State.pokeReg_status (s : State) (j : RegNum) (v : Word) :
    (s.pokeReg j v).status = s.status := rfl
@[simp] theorem State.pokeReg_completion (s : State) (j : RegNum) (v : Word) :
    (s.pokeReg j v).completion = s.completion := rfl
@[simp] theorem State.pokeReg_command (s : State) (j : RegNum) (v : Word) :
    (s.pokeReg j v).command = s.command := rfl
@[simp] theorem State.pokeReg_program (s : State) (j : RegNum) (v : Word) :
    (s.pokeReg j v).program = s.program := rfl
@[simp] theorem State.pokeReg_presented (s : State) (j : RegNum) (v : Word) :
    (s.pokeReg j v).presented = s.presented := rfl
@[simp] theorem State.pokeReg_accessor (s : State) (j : RegNum) (v : Word) :
    (s.pokeReg j v).accessor = s.accessor := rfl
@[simp] theorem State.pokeReg_ports (s : State) (j : RegNum) (v : Word) :
    (s.pokeReg j v).ports = s.ports := rfl

/-! ## `memRead`: the state after it, and the bytes -/

@[simp] theorem State.memRead_config (s : State) (a n : Nat) :
    (s.memRead a n).1.config = s.config := rfl
@[simp] theorem State.memRead_regs (s : State) (a n : Nat) :
    (s.memRead a n).1.regs = s.regs := rfl
@[simp] theorem State.memRead_psd (s : State) (a n : Nat) :
    (s.memRead a n).1.psd = s.psd := rfl
@[simp] theorem State.memRead_mem (s : State) (a n : Nat) :
    (s.memRead a n).1.mem = s.mem := rfl
@[simp] theorem State.memRead_trapFlag (s : State) (a n : Nat) :
    (s.memRead a n).1.trapFlag = (s.trapFlag || s.verdict.raises) := rfl
@[simp] theorem State.memRead_trapRecord (s : State) (a n : Nat) :
    (s.memRead a n).1.trapRecord = s.trapRecord := rfl
@[simp] theorem State.memRead_status (s : State) (a n : Nat) :
    (s.memRead a n).1.status = s.status := rfl
@[simp] theorem State.memRead_completion (s : State) (a n : Nat) :
    (s.memRead a n).1.completion = s.completion := rfl
@[simp] theorem State.memRead_command (s : State) (a n : Nat) :
    (s.memRead a n).1.command = s.command := rfl
@[simp] theorem State.memRead_program (s : State) (a n : Nat) :
    (s.memRead a n).1.program = s.program := rfl
@[simp] theorem State.memRead_presented (s : State) (a n : Nat) :
    (s.memRead a n).1.presented = s.presented := rfl
@[simp] theorem State.memRead_accessor (s : State) (a n : Nat) :
    (s.memRead a n).1.accessor = s.accessor.tail := rfl
@[simp] theorem State.memRead_ports (s : State) (a n : Nat) :
    (s.memRead a n).1.ports = .load (s.wrap a) n :: s.ports := rfl
@[simp] theorem State.memRead_bytes (s : State) (a n : Nat) : (s.memRead a n).2 = s.bytesAt a n := rfl

/-! ## `regRead`: the state after it, and the value -/

@[simp] theorem State.regRead_config (s : State) (i : RegNum) :
    (s.regRead i).1.config = s.config := rfl
@[simp] theorem State.regRead_regs (s : State) (i : RegNum) :
    (s.regRead i).1.regs = s.regs := rfl
@[simp] theorem State.regRead_psd (s : State) (i : RegNum) :
    (s.regRead i).1.psd = s.psd := rfl
@[simp] theorem State.regRead_mem (s : State) (i : RegNum) :
    (s.regRead i).1.mem = s.mem := rfl
@[simp] theorem State.regRead_trapFlag (s : State) (i : RegNum) :
    (s.regRead i).1.trapFlag = s.trapFlag := rfl
@[simp] theorem State.regRead_trapRecord (s : State) (i : RegNum) :
    (s.regRead i).1.trapRecord = s.trapRecord := rfl
@[simp] theorem State.regRead_status (s : State) (i : RegNum) :
    (s.regRead i).1.status = s.status := rfl
@[simp] theorem State.regRead_completion (s : State) (i : RegNum) :
    (s.regRead i).1.completion = s.completion := rfl
@[simp] theorem State.regRead_command (s : State) (i : RegNum) :
    (s.regRead i).1.command = s.command := rfl
@[simp] theorem State.regRead_program (s : State) (i : RegNum) :
    (s.regRead i).1.program = s.program := rfl
@[simp] theorem State.regRead_presented (s : State) (i : RegNum) :
    (s.regRead i).1.presented = s.presented := rfl
@[simp] theorem State.regRead_accessor (s : State) (i : RegNum) :
    (s.regRead i).1.accessor = s.accessor := rfl
@[simp] theorem State.regRead_ports (s : State) (i : RegNum) :
    (s.regRead i).1.ports = .regRead i :: s.ports := rfl
@[simp] theorem State.regRead_value (s : State) (i : RegNum) : (s.regRead i).2 = s.reg i := rfl

/-! ## `psdRead`: the state after it, and the value -/

@[simp] theorem State.psdRead_config (s : State) :
    (s.psdRead).1.config = s.config := rfl
@[simp] theorem State.psdRead_regs (s : State) :
    (s.psdRead).1.regs = s.regs := rfl
@[simp] theorem State.psdRead_psd (s : State) :
    (s.psdRead).1.psd = s.psd := rfl
@[simp] theorem State.psdRead_mem (s : State) :
    (s.psdRead).1.mem = s.mem := rfl
@[simp] theorem State.psdRead_trapFlag (s : State) :
    (s.psdRead).1.trapFlag = s.trapFlag := rfl
@[simp] theorem State.psdRead_trapRecord (s : State) :
    (s.psdRead).1.trapRecord = s.trapRecord := rfl
@[simp] theorem State.psdRead_status (s : State) :
    (s.psdRead).1.status = s.status := rfl
@[simp] theorem State.psdRead_completion (s : State) :
    (s.psdRead).1.completion = s.completion := rfl
@[simp] theorem State.psdRead_command (s : State) :
    (s.psdRead).1.command = s.command := rfl
@[simp] theorem State.psdRead_program (s : State) :
    (s.psdRead).1.program = s.program := rfl
@[simp] theorem State.psdRead_presented (s : State) :
    (s.psdRead).1.presented = s.presented := rfl
@[simp] theorem State.psdRead_accessor (s : State) :
    (s.psdRead).1.accessor = s.accessor := rfl
@[simp] theorem State.psdRead_ports (s : State) :
    (s.psdRead).1.ports = .psdRead :: s.ports := rfl
@[simp] theorem State.psdRead_value (s : State) : (s.psdRead).2 = s.psd := rfl

/-! ## Registers -/

theorem State.reg_def (s : State) (i : RegNum) : s.reg i = s.regs[i.toNat] := rfl

theorem State.reg_congr {s t : State} (h : t.regs = s.regs) (i : RegNum) : t.reg i = s.reg i := by
  simp [State.reg, h]

theorem regs_ext {v w : Vector Word 16} (h : ∀ i : RegNum, v[i.toNat] = w[i.toNat]) : v = w := by
  apply Vector.ext
  intro k hk
  have := h (BitVec.ofNat 4 k)
  simpa [BitVec.toNat_ofNat, Nat.mod_eq_of_lt hk] using this

/-- A register reads what was last written to it, and every other register is as it was. -/
theorem State.reg_writeReg (s : State) (i j : RegNum) (v : Word) :
    (s.writeReg i v).reg j = if j = i then v else s.reg j := by
  simp only [State.reg, State.writeReg_regs, Vector.getElem_set, ← BitVec.toNat_inj]
  by_cases h : j.toNat = i.toNat <;> simp [h, Ne.symm]

theorem State.reg_pokeReg (s : State) (i j : RegNum) (v : Word) :
    (s.pokeReg i v).reg j = if j = i then v else s.reg j := s.reg_writeReg i j v

@[simp] theorem State.reg_writeReg_self (s : State) (i : RegNum) (v : Word) : (s.writeReg i v).reg i = v := by
  simp [State.reg_writeReg]

@[simp] theorem State.reg_writeCC (s : State) (cc : BitVec 4) (j : RegNum) : (s.writeCC cc).reg j = s.reg j := rfl

@[simp] theorem State.reg_regRead (s : State) (i j : RegNum) : (s.regRead i).1.reg j = s.reg j := rfl

@[simp] theorem State.reg_psdRead (s : State) (j : RegNum) : s.psdRead.1.reg j = s.reg j := rfl

@[simp] theorem State.reg_memRead (s : State) (a n : Nat) (j : RegNum) : (s.memRead a n).1.reg j = s.reg j := rfl

@[simp] theorem State.reg_memWrite (s : State) (a : Nat) (bytes : List Byte) (j : RegNum) :
    (s.memWrite a bytes).reg j = s.reg j := rfl

@[simp] theorem State.reg_postTrap (s : State) (a : Nat) (j : RegNum) : (s.postTrap a).reg j = s.reg j := rfl

@[simp] theorem State.reg_present (s : State) (c : Command) (rest : List Command) (j : RegNum) :
    (s.present c rest).reg j = s.reg j := rfl

/-! ## Addresses -/

theorem State.wrap_lt (s : State) (a : Nat) : s.wrap a < 2 ^ s.config.addrBits := Nat.mod_lt _ (by positivity)

theorem State.wrap_congr {s t : State} (h : t.config = s.config) (a : Nat) : t.wrap a = s.wrap a := by simp [State.wrap, h]

@[simp] theorem State.wrap_wrap (s : State) (a : Nat) : s.wrap (s.wrap a) = s.wrap a := Nat.mod_mod _ _

theorem State.ea_congr {s t : State} (h : t.config = s.config) (hc : t.command = s.command) : t.ea = s.ea := by
  simp [State.ea, State.wrap, h, hc]

/-! ## The end of a command -/

/-- What `complete` answers: the state with the block idle and the report. -/
theorem State.complete_eq (s : State) (c : Completion) :
    s.complete c = .next { s with status := .idle, completion := some c } := rfl

end Sys2Proof.Machine
end

