-- ==== Sys2Proof/Laws/Operands.lean ====
section
/-! SUPPORT. Bytes, nibbles, registers as bytes, decimal digits. -/

namespace Sys2Proof.Machine

/-! ## Nibbles and bytes -/

@[simp] theorem nibbles_nil : nibbles [] = [] := rfl

@[simp] theorem nibbles_length (bytes : List Byte) : (nibbles bytes).length = 2 * bytes.length := by
  induction bytes with
  | nil => rfl
  | cons b bs ih => simp [nibbles, ih]; omega

@[simp] theorem nibbles_append (a b : List Byte) : nibbles (a ++ b) = nibbles a ++ nibbles b := by
  induction a with
  | nil => rfl
  | cons x a ih => simp [nibbles, ih]

theorem nibble_high (hi lo : Nibble) : (hi ++ lo).extractLsb' 4 4 = hi := by
  revert hi lo; decide

theorem nibble_low (hi lo : Nibble) : (hi ++ lo).extractLsb' 0 4 = lo := by
  revert hi lo; decide

theorem byte_of_nibbles (b : Byte) : b.extractLsb' 4 4 ++ b.extractLsb' 0 4 = b := by
  apply BitVec.eq_of_getLsbD_eq
  intro i hi
  simp only [BitVec.getLsbD_append, BitVec.getLsbD_extractLsb']
  by_cases h : i < 4
  · simp [h]
  · simp [h, show i - 4 < 4 by omega, show 4 + (i - 4) = i by omega]

/-- Packing a sequence of even length and taking its nibbles gives it back. -/
theorem nibbles_packNibbles (n : Nat) (ns : List Nibble) (h : ns.length = 2 * n) : nibbles (packNibbles ns) = ns := by
  induction n generalizing ns with
  | zero => rw [List.length_eq_zero_iff.1 h]; rfl
  | succ n ih =>
    match ns with
    | [] => simp at h
    | [_] => simp at h; omega
    | hi :: lo :: rest =>
      simp only [List.length_cons] at h
      simp only [packNibbles, nibbles, nibble_high, nibble_low, ih rest (by omega)]

@[simp] theorem packNibbles_nibbles (bytes : List Byte) : packNibbles (nibbles bytes) = bytes := by
  induction bytes with
  | nil => rfl
  | cons b bs ih => simp only [nibbles, packNibbles, byte_of_nibbles, ih]

theorem packNibbles_length (n : Nat) (ns : List Nibble) (h : ns.length = 2 * n) : (packNibbles ns).length = n := by
  have := congrArg List.length (nibbles_packNibbles n ns h)
  rw [nibbles_length, h] at this
  omega

/-- Sequences of even length are packed one after the other. -/
theorem packNibbles_append (n : Nat) (a b : List Nibble) (h : a.length = 2 * n) :
    packNibbles (a ++ b) = packNibbles a ++ packNibbles b := by
  induction n generalizing a with
  | zero => rw [List.length_eq_zero_iff.1 h]; rfl
  | succ n ih =>
    match a with
    | [] => simp at h
    | [_] => simp at h; omega
    | hi :: lo :: rest =>
      simp only [List.length_cons] at h
      simp only [List.cons_append, packNibbles, ih rest (by omega)]

theorem packNibbles_drop (k : Nat) (ns : List Nibble) : packNibbles (ns.drop (2 * k)) = (packNibbles ns).drop k := by
  induction k generalizing ns with
  | zero => simp
  | succ k ih =>
    match ns with
    | [] => simp [packNibbles]
    | [_] => simp [packNibbles, show 2 * (k + 1) = 2 * k + 1 + 1 by omega]
    | hi :: lo :: rest =>
      simp only [show 2 * (k + 1) = 2 * k + 1 + 1 by omega, List.drop_succ_cons, packNibbles, ih]

/-! ## Registers as bytes -/

@[simp] theorem wordBytes_length (w : Word) : (wordBytes w).length = 4 := rfl

theorem bytesWord_wordBytes (w : Word) : bytesWord (wordBytes w) = w := by
  apply BitVec.eq_of_toNat_eq
  simp only [bytesWord, bytesToNat, wordBytes, List.foldl_cons, List.foldl_nil, BitVec.toNat_ofNat, BitVec.extractLsb'_toNat]
  have := w.isLt
  omega

theorem wordBytes_bytesWord (a b c d : Byte) : wordBytes (bytesWord [a, b, c, d]) = [a, b, c, d] := by
  have ha := a.isLt; have hb := b.isLt; have hc := c.isLt; have hd := d.isLt
  simp only [wordBytes, bytesWord, bytesToNat, List.foldl_cons, List.foldl_nil]
  refine List.cons_eq_cons.2 ⟨?_, List.cons_eq_cons.2 ⟨?_, List.cons_eq_cons.2 ⟨?_, List.cons_eq_cons.2 ⟨?_, rfl⟩⟩⟩⟩ <;>
  · apply BitVec.eq_of_toNat_eq
    simp only [BitVec.extractLsb'_toNat, BitVec.toNat_ofNat]
    omega

theorem wordBytes_bytesWord_of_length {bs : List Byte} (h : bs.length = 4) : wordBytes (bytesWord bs) = bs := by
  match bs, h with
  | [a, b, c, d], _ => exact wordBytes_bytesWord a b c d

/-- The accumulator is 16 bytes. -/
@[simp] theorem State.deca_length (s : State) : s.deca.length = 16 := rfl

theorem State.deca_congr {s t : State} (h : t.regs = s.regs) : t.deca = s.deca := by
  simp [State.deca, State.reg, h]

/-- The accumulator reads what was written to it. -/
theorem State.deca_writeDeca (s : State) (bytes : List Byte) (h : bytes.length = 16) : (s.writeDeca bytes).deca = bytes := by
  simp only [State.deca, State.writeDeca, State.reg_writeReg, BitVec.reduceEq, if_true, if_false]
  rw [
    wordBytes_bytesWord_of_length (by simp [h]), wordBytes_bytesWord_of_length (by simp [h]),
    wordBytes_bytesWord_of_length (by simp [h]), wordBytes_bytesWord_of_length (by simp [h])]
  rw [List.append_assoc, List.append_assoc, show (12 : Nat) = 8 + 4 from rfl, ← List.drop_drop]
  have e3 : List.take 4 (List.drop 4 (List.drop 8 bytes)) = List.drop 4 (List.drop 8 bytes) :=
    List.take_of_length_le (by simp [h])
  rw [e3, List.take_append_drop, show (8 : Nat) = 4 + 4 from rfl, ← List.drop_drop, List.take_append_drop, List.take_append_drop]

/-- A write of the accumulator changes no register but 12 to 15. -/
theorem State.reg_writeDeca (s : State) (bytes : List Byte) (j : RegNum) (h : j ∉ decaRegs) : (s.writeDeca bytes).reg j = s.reg j := by
  simp only [decaRegs, List.mem_cons, List.not_mem_nil, or_false, not_or] at h
  simp only [State.writeDeca, State.reg_writeReg, if_neg h.1, if_neg h.2.1, if_neg h.2.2.1, if_neg h.2.2.2]

/-- A write of the accumulator changes registers and the record of port events, nothing else. -/
theorem State.writeDeca_eq (s : State) (bytes : List Byte) :
    s.writeDeca bytes = { s with regs := (s.writeDeca bytes).regs, ports := (s.writeDeca bytes).ports } := rfl

/-! ## Decimal digits -/

@[simp] theorem digitSum_append (a b : List Nat) : digitSum (a ++ b) = digitSum a * 10 ^ b.length + digitSum b := by
  induction a with
  | nil => simp [digitSum]
  | cons x a ih => simp only [List.cons_append, digitSum, List.length_append, ih, pow_add]; ring

theorem digitSum_lt (ds : List Nat) (h : ∀ d ∈ ds, d < 10) : digitSum ds < 10 ^ ds.length := by
  induction ds with
  | nil => simp [digitSum]
  | cons x ds ih =>
    have h1 := ih fun d hd => h d (by simp [hd])
    have h2 := h x (by simp)
    simp only [digitSum, List.length_cons, pow_succ]
    nlinarith [Nat.zero_le (10 ^ ds.length)]

@[simp] theorem decimalDigits_length (d t : Nat) : (decimalDigits d t).length = d := by
  induction d generalizing t with
  | zero => rfl
  | succ d ih => simp [decimalDigits, ih]

/-- The digits of a number are digits. -/
theorem decimalDigits_lt (d t : Nat) : ∀ x ∈ decimalDigits d t, x.toNat < 10 := by
  induction d generalizing t with
  | zero => simp [decimalDigits]
  | succ d ih =>
    intro x hx
    simp only [decimalDigits, List.mem_append, List.mem_singleton] at hx
    rcases hx with hx | rfl
    · exact ih _ x hx
    · simp only [BitVec.toNat_ofNat]; omega

/-- The `d` digits of `t` stand for `t mod 10^d`. -/
theorem digitSum_decimalDigits (d t : Nat) : digitSum ((decimalDigits d t).map BitVec.toNat) = t % 10 ^ d := by
  induction d generalizing t with
  | zero => simp [decimalDigits, digitSum, Nat.mod_one]
  | succ d ih =>
    simp only [decimalDigits, List.map_append, List.map_cons, List.map_nil, digitSum_append, ih, digitSum, List.length_cons,
      List.length_nil, BitVec.toNat_ofNat, Nat.zero_add, pow_one, pow_zero, Nat.mul_one, Nat.add_zero]
    rw [show 10 ^ (d + 1) = 10 * 10 ^ d from Nat.pow_succ', Nat.mod_mul]
    omega

/-- The digits of a number are those of its high part, then those of its low part. -/
theorem decimalDigits_add (d e t : Nat) : decimalDigits (d + e) t = decimalDigits d (t / 10 ^ e) ++ decimalDigits e t := by
  induction e generalizing t with
  | zero => simp [decimalDigits]
  | succ e ih =>
    rw [← Nat.add_assoc, decimalDigits, ih, decimalDigits, List.append_assoc, Nat.div_div_eq_div_mul, pow_succ,
      Nat.mul_comm (10 ^ e) 10]

/-- Digits above the ones asked for do not matter. -/
theorem decimalDigits_mod (d t : Nat) : decimalDigits d (t % 10 ^ d) = decimalDigits d t := by
  induction d generalizing t with
  | zero => rfl
  | succ d ih =>
    rw [decimalDigits, decimalDigits, ← ih (t % 10 ^ (d + 1) / 10), pow_succ, Nat.mul_comm (10 ^ d) 10,
      Nat.mod_mul_right_div_self, Nat.mod_mod, ih, Nat.mod_mul_right_mod]

end Sys2Proof.Machine
end

