-- ==== Sys2Proof/Laws/Memory.lean ====
section
/-! SUPPORT. Memory: a read after a write, the canonical form, equality of memories, byte strings. -/

namespace Sys2Proof.Machine

@[simp] theorem Memory.read_nil (a : Nat) : Memory.read [] a = Memory.unwritten := rfl

/-- A write leaves what every other address reads alone, in every memory. -/
theorem Memory.read_write_ne (m : Memory) {a c : Nat} (b : Byte) (h : c ≠ a) : (m.write a b).read c = m.read c := by
  induction m with
  | nil => unfold Memory.write; split <;> simp [Memory.read, h]
  | cons p m ih =>
    obtain ⟨a', b'⟩ := p
    unfold Memory.write
    split_ifs with h1 h2 h3 h4
    · rfl
    · simp [Memory.read, h]
    · simp [Memory.read, ← h3, h]
    · simp [Memory.read, ← h3, h]
    · simp only [Memory.read, ih]

/-- Below the first address of a canonical memory nothing is listed. -/
theorem Memory.read_of_wfFrom {hi lo a : Nat} {m : Memory} (h : Memory.wfFrom hi lo m = true) (ha : a < lo) :
    m.read a = Memory.unwritten := by
  induction m generalizing lo with
  | nil => rfl
  | cons p m ih =>
    obtain ⟨a', b'⟩ := p
    simp only [Memory.wfFrom, Bool.and_eq_true, decide_eq_true_eq] at h
    have : a ≠ a' := by omega
    simp only [Memory.read, this, if_false]
    exact ih h.2 (by omega)

theorem Memory.read_write_self_of_wfFrom {hi lo : Nat} {m : Memory} (h : Memory.wfFrom hi lo m = true) (a : Nat) (b : Byte) :
    (m.write a b).read a = b := by
  induction m generalizing lo with
  | nil => unfold Memory.write; split <;> simp_all [Memory.read]
  | cons p m ih =>
    obtain ⟨a', b'⟩ := p
    simp only [Memory.wfFrom, Bool.and_eq_true, decide_eq_true_eq] at h
    unfold Memory.write
    split_ifs with h1 h2 h3 h4
    · have h5 : a ≠ a' := by omega
      simp only [Memory.read, h5, if_false, h2]
      exact Memory.read_of_wfFrom h.2 (by omega)
    · simp [Memory.read]
    · rw [h4]
      exact Memory.read_of_wfFrom h.2 (by omega)
    · simp [Memory.read]
    · simp only [Memory.read, h3, if_false]
      exact ih h.2

theorem Memory.wfFrom_mono {hi lo lo' : Nat} {m : Memory} (h : Memory.wfFrom hi lo m = true) (hl : lo' ≤ lo) :
    Memory.wfFrom hi lo' m = true := by
  cases m with
  | nil => rfl
  | cons p m =>
    simp only [Memory.wfFrom, Bool.and_eq_true, decide_eq_true_eq] at h ⊢
    exact ⟨⟨⟨by omega, h.1.1.2⟩, h.1.2⟩, h.2⟩

theorem Memory.write_wfFrom {hi lo : Nat} {m : Memory} (h : Memory.wfFrom hi lo m = true) {a : Nat} (hl : lo ≤ a) (hh : a < hi)
    (b : Byte) : Memory.wfFrom hi lo (m.write a b) = true := by
  induction m generalizing lo with
  | nil => unfold Memory.write; split <;> simp_all [Memory.wfFrom]
  | cons p m ih =>
    obtain ⟨a', b'⟩ := p
    have hc := h
    simp only [Memory.wfFrom, Bool.and_eq_true, decide_eq_true_eq] at h
    unfold Memory.write
    split_ifs with h1 h2 h3 h4
    · exact hc
    · simp only [Memory.wfFrom, Bool.and_eq_true, decide_eq_true_eq]
      exact ⟨⟨⟨hl, hh⟩, h2⟩, ⟨⟨by omega, h.1.1.2⟩, h.1.2⟩, h.2⟩
    · exact Memory.wfFrom_mono h.2 (by omega)
    · simp only [Memory.wfFrom, Bool.and_eq_true, decide_eq_true_eq]
      exact ⟨⟨⟨hl, hh⟩, h4⟩, by rw [h3]; exact h.2⟩
    · simp only [Memory.wfFrom, Bool.and_eq_true, decide_eq_true_eq]
      exact ⟨h.1, ih h.2 (by omega)⟩

/-- A byte reads what was last written to it. -/
theorem Memory.read_write_self {bits : Nat} {m : Memory} (h : m.wf bits = true) (a : Nat) (b : Byte) :
    (m.write a b).read a = b := Memory.read_write_self_of_wfFrom h a b

/-- A write inside the address space keeps the canonical form. -/
theorem Memory.write_wf {bits : Nat} {m : Memory} (h : m.wf bits = true) {a : Nat} (ha : a < 2 ^ bits) (b : Byte) :
    (m.write a b).wf bits = true := Memory.write_wfFrom h (Nat.zero_le _) ha b

/-- Every write of a byte string keeps the canonical form. -/
theorem Memory.writeBytes_wf {bits : Nat} {m : Memory} (h : m.wf bits = true) (a : Nat) (bytes : List Byte) :
    (Memory.writeBytes bits m a bytes).wf bits = true := by
  induction bytes generalizing m a with
  | nil => exact h
  | cons b bs ih => exact ih (Memory.write_wf h (Nat.mod_lt _ (by positivity)) b) _

/-- `MemWrite` keeps the canonical form. -/
theorem State.memWrite_wf {s : State} (h : s.mem.wf s.config.addrBits = true) (a : Nat) (bytes : List Byte) :
    (s.memWrite a bytes).mem.wf s.config.addrBits = true := by
  rw [State.memWrite_mem]
  split
  · exact Memory.writeBytes_wf h a bytes
  · exact h

/-- The launch memory is in canonical form, in every address space. -/
theorem State.reset_mem_wf (bits : Nat) : State.reset.mem.wf bits = true := rfl

theorem Memory.ext_of_wfFrom {hi lo : Nat} {m n : Memory} (hm : Memory.wfFrom hi lo m = true) (hn : Memory.wfFrom hi lo n = true)
    (h : ∀ a, m.read a = n.read a) : m = n := by
  induction m generalizing lo n with
  | nil =>
    cases n with
    | nil => rfl
    | cons p n =>
      obtain ⟨a, b⟩ := p
      simp only [Memory.wfFrom, Bool.and_eq_true, decide_eq_true_eq] at hn
      have := h a
      simp only [Memory.read, if_true] at this
      exact absurd this.symm hn.1.2
  | cons p m ih =>
    obtain ⟨a, b⟩ := p
    have hm' := hm
    simp only [Memory.wfFrom, Bool.and_eq_true, decide_eq_true_eq] at hm
    cases n with
    | nil =>
      have := h a
      simp only [Memory.read, if_true] at this
      exact absurd this hm.1.2
    | cons q n =>
      obtain ⟨c, d⟩ := q
      have hn' := hn
      simp only [Memory.wfFrom, Bool.and_eq_true, decide_eq_true_eq] at hn
      have hac : a = c := by
        rcases Nat.lt_trichotomy a c with hlt | heq | hgt
        · have h1 := h a
          rw [Memory.read_of_wfFrom (lo := c) (hi := hi) (m := (c, d) :: n)
            (by simp only [Memory.wfFrom, Bool.and_eq_true, decide_eq_true_eq]; exact ⟨⟨⟨le_refl _, hn.1.1.2⟩, hn.1.2⟩, hn.2⟩) hlt] at h1
          simp only [Memory.read, if_true] at h1
          exact absurd h1 hm.1.2
        · exact heq
        · have h1 := h c
          rw [Memory.read_of_wfFrom (lo := a) (hi := hi) (m := (a, b) :: m)
            (by simp only [Memory.wfFrom, Bool.and_eq_true, decide_eq_true_eq]; exact ⟨⟨⟨le_refl _, hm.1.1.2⟩, hm.1.2⟩, hm.2⟩) hgt] at h1
          simp only [Memory.read, if_true] at h1
          exact absurd h1.symm hn.1.2
      subst hac
      have hbd : b = d := by simpa [Memory.read] using h a
      subst hbd
      have : m = n := by
        apply ih hm.2 hn.2
        intro k
        by_cases hk : k = a
        · rw [hk, Memory.read_of_wfFrom hm.2 (by omega), Memory.read_of_wfFrom hn.2 (by omega)]
        · simpa [Memory.read, hk] using h k
      rw [this]

/-- Equal memories are equal data: two canonical memories that read alike are the same list. -/
theorem Memory.ext_of_wf {bits : Nat} {m n : Memory} (hm : m.wf bits = true) (hn : n.wf bits = true)
    (h : ∀ a, m.read a = n.read a) : m = n := Memory.ext_of_wfFrom hm hn h

/-! ## Byte strings -/

@[simp] theorem State.bytesAt_length (s : State) (a n : Nat) : (s.bytesAt a n).length = n := by
  induction n generalizing a with
  | zero => rfl
  | succ n ih => simp [State.bytesAt, ih]

theorem State.bytesAt_congr {s t : State} (hc : t.config = s.config) (hm : t.mem = s.mem) (a n : Nat) :
    t.bytesAt a n = s.bytesAt a n := by
  induction n generalizing a with
  | zero => rfl
  | succ n ih => simp [State.bytesAt, State.wrap, hc, hm, ih]

/-- Byte `k` of a byte string is the byte at `a + k`, modulo the address space. -/
theorem State.getElem_bytesAt (s : State) (a n k : Nat) (h : k < (s.bytesAt a n).length) :
    (s.bytesAt a n)[k] = s.mem.read (s.wrap (a + k)) := by
  induction n generalizing a k with
  | zero => simp [State.bytesAt] at h
  | succ n ih =>
    cases k with
    | zero => simp [State.bytesAt]
    | succ k =>
      simp only [State.bytesAt, List.getElem_cons_succ]
      rw [ih, Nat.add_assoc, Nat.add_comm 1 k]

/-- A written byte string leaves every address outside it alone. -/
theorem Memory.read_writeBytes_ne (bits : Nat) (m : Memory) (a : Nat) (bytes : List Byte) (c : Nat)
    (h : ∀ k < bytes.length, c ≠ (a + k) % 2 ^ bits) : (Memory.writeBytes bits m a bytes).read c = m.read c := by
  induction bytes generalizing m a with
  | nil => rfl
  | cons b bs ih =>
    rw [Memory.writeBytes, ih, Memory.read_write_ne _ _ (by simpa using h 0 (by simp))]
    intro k hk
    have := h (k + 1) (by simp; omega)
    rwa [Nat.add_assoc, Nat.add_comm 1 k]

/-- A byte string no longer than the address space reads back as it was written. -/
theorem Memory.read_writeBytes {bits : Nat} {m : Memory} (hm : m.wf bits = true) (a : Nat) (bytes : List Byte)
    (hl : bytes.length ≤ 2 ^ bits) (k : Nat) (hk : k < bytes.length) :
    (Memory.writeBytes bits m a bytes).read ((a + k) % 2 ^ bits) = bytes[k] := by
  induction bytes generalizing m a k with
  | nil => simp at hk
  | cons b bs ih =>
    simp only [List.length_cons] at hl hk
    have hw := Memory.write_wf hm (Nat.mod_lt a (by positivity)) b
    cases k with
    | zero =>
      rw [Memory.writeBytes, Memory.read_writeBytes_ne, Nat.add_zero, Memory.read_write_self hm]
      · rfl
      · intro j hj heq
        rw [Nat.add_zero] at heq
        have h1 : (a + (1 + j)) % 2 ^ bits = (a + 0) % 2 ^ bits := by rw [Nat.add_zero, ← Nat.add_assoc]; exact heq.symm
        have h2 : 1 + j ≡ 0 [MOD 2 ^ bits] := Nat.ModEq.add_left_cancel' a h1
        have h3 := Nat.le_of_dvd (by omega) ((Nat.modEq_zero_iff_dvd).1 h2)
        omega
    | succ k =>
      have := ih hw (a + 1) (by omega) k (by omega)
      rw [Memory.writeBytes, List.getElem_cons_succ, ← this, Nat.add_assoc, Nat.add_comm 1 k]

/-- A byte string that was stored and not flagged away is what the address reads. -/
theorem State.bytesAt_memWrite {s : State} (h : s.mem.wf s.config.addrBits = true) (a : Nat) (bytes : List Byte)
    (hl : bytes.length ≤ 2 ^ s.config.addrBits) (hv : s.verdict.stores = true) :
    (s.memWrite a bytes).bytesAt a bytes.length = bytes := by
  apply List.ext_getElem
  · simp
  · intro k h1 h2
    rw [State.getElem_bytesAt, State.memWrite_mem, if_pos hv]
    exact Memory.read_writeBytes h a bytes hl k h2

end Sys2Proof.Machine
end

