-- ==== Sys2Proof/Laws/Ops.lean ====
section
/-! SUPPORT. Everything each shared operation over memory, traps and completion can do, said once. -/

namespace Sys2Proof.Machine

/-! ## Loads -/

/-- The events of `n` one-byte loads from an address on, newest first. -/
def State.loadEvents (s : State) (a n : Nat) : List PortEvent :=
  ((List.range n).map fun k => PortEvent.load (s.wrap (a + k)) 1).reverse

/-- The state after `n` one-byte loads that pass. -/
def State.afterLoads (s : State) (a n : Nat) : State :=
  { s with accessor := s.accessor.drop n, ports := s.loadEvents a n ++ s.ports }

/-- The state after `n` one-byte loads, the last of which found TRAPFLAG set. -/
def State.flaggedLoads (s : State) (a n : Nat) : State := { s.afterLoads a n with trapFlag := true }

theorem State.loadEvents_succ (s t : State) (h : t.config = s.config) (a n : Nat) :
    s.loadEvents a (n + 1) = t.loadEvents (a + 1) n ++ [.load (s.wrap a) 1] := by
  simp only [State.loadEvents, List.range_succ_eq_map, List.map_cons, List.map_map, List.reverse_cons, Nat.add_zero]
  congr 2
  apply List.map_congr_left
  intro k _
  simp [State.wrap, h, Nat.add_assoc, Nat.add_comm 1 k]

theorem State.passes_succ (s : State) (a n m : Nat) :
    s.passes (n + 1) ↔ s.trapFlag = false ∧ s.verdict.raises = false ∧ (s.memRead a m).1.passes n := by
  simp only [State.passes, State.memRead_trapFlag, State.memRead_accessor, State.verdict]
  cases s.accessor with
  | nil => simp [Verdict.raises]
  | cons v vs => cases v <;> simp +contextual [Verdict.raises]

/-- Transactions that all pass are all made. -/
theorem State.made_of_passes {s : State} {n : Nat} (h : s.passes n) : s.made n = n := by
  have key : ∀ (vs : List Verdict) (k : Nat), (∀ v ∈ vs.take k, v = Verdict.pass) → madeOf vs k = k := by
    intro vs k hk
    induction k generalizing vs with
    | zero => rw [madeOf]
    | succ k ih => cases vs with
      | nil => rfl
      | cons v vs =>
        obtain rfl : v = .pass := hk v (by simp)
        rw [madeOf, ih vs fun w hw => hk w (by simp [hw])]
  rw [State.made, h.1]
  exact key _ _ h.2

/-- A first transaction whose poll finds TRAPFLAG set is the only one made. -/
theorem State.made_of_flagged {s : State} {a m : Nat} (h : (s.memRead a m).1.trapFlag = true) (n : Nat) : s.made (n + 1) = 1 := by
  rw [State.memRead_trapFlag, State.verdict] at h
  rw [State.made]
  cases hs : s.trapFlag with
  | true => simp
  | false => cases hv : s.accessor with
    | nil => simp [hs, hv, Verdict.raises] at h
    | cons v vs => cases v with
      | pass => simp [hs, hv, Verdict.raises] at h
      | flag w => rfl

/-- After a first transaction that passes, one more is made than from the state it leaves. -/
theorem State.made_of_clear {s : State} {a m : Nat} (h : (s.memRead a m).1.trapFlag = false) (n : Nat) :
    s.made (n + 1) = (s.memRead a m).1.made n + 1 := by
  rw [State.memRead_trapFlag, Bool.or_eq_false_iff, State.verdict] at h
  obtain ⟨hs, hv⟩ := h
  have key : ∀ k, madeOf [] k = k := fun k => by cases k <;> rfl
  simp only [State.made, State.memRead_trapFlag, State.memRead_accessor, State.verdict, hs, hv, Bool.or_self, Bool.false_eq_true, if_false]
  cases hc : s.accessor with
  | nil => simp [madeOf, key]
  | cons v vs => cases v with
    | pass => simp [madeOf]
    | flag w => simp [hc, Verdict.raises] at hv

/-- `ReadOperand` when every load passes: the bytes, and only the accessor and the record of events moved on. -/
theorem State.readOperand_of_passes {s : State} {n : Nat} (h : s.passes n) (a : Nat) :
    s.readOperand a n = (s.afterLoads a n, some (s.bytesAt a n)) := by
  induction n generalizing s a with
  | zero => rfl
  | succ n ih =>
    obtain ⟨h1, h2, h3⟩ := (s.passes_succ a n 1).1 h
    simp only [State.readOperand, h1, h2, Bool.or_self, Bool.false_eq_true, if_false, ih h3, State.memRead_bytes,
      State.memRead_trapFlag]
    refine Prod.ext ?_ ?_
    · simp only [State.afterLoads, s.loadEvents_succ (s.memRead a 1).1 rfl a n, State.memRead_accessor, State.memRead_ports,
        List.drop_tail, List.append_assoc, List.singleton_append]
      simp [State.memRead, h1, h2]
    · simp [State.bytesAt, State.bytesAt_congr (s := s) (t := (s.memRead a 1).1) rfl rfl]

/-- `ReadOperand` when some load does not pass: no bytes, after the first load whose poll found TRAPFLAG set. -/
theorem State.readOperand_of_not_passes {s : State} {n : Nat} (h : ¬ s.passes n) (hn : 0 < n) (a : Nat) :
    0 < s.made n ∧ s.made n ≤ n ∧ s.readOperand a n = (s.flaggedLoads a (s.made n), none) := by
  induction n generalizing s a with
  | zero => omega
  | succ n ih =>
    by_cases hf : (s.memRead a 1).1.trapFlag = true
    · rw [State.made_of_flagged hf]
      refine ⟨by omega, by omega, ?_⟩
      simp only [State.readOperand, hf, if_true]
      refine Prod.ext ?_ rfl
      rw [State.memRead_trapFlag] at hf
      simp [State.flaggedLoads, State.afterLoads, State.loadEvents, State.memRead, hf]
    · have hf' : s.trapFlag = false ∧ s.verdict.raises = false := by simpa using hf
      rw [s.passes_succ a n 1] at h
      have h3 : ¬ (s.memRead a 1).1.passes n := fun hp => h ⟨hf'.1, hf'.2, hp⟩
      have hn' : 0 < n := by
        rcases Nat.eq_zero_or_pos n with rfl | hp
        · exact absurd ⟨by simpa using hf, by simp⟩ h3
        · exact hp
      obtain ⟨hk1, hk2, hk3⟩ := ih h3 hn' (a + 1)
      rw [State.made_of_clear (a := a) (m := 1) (by simpa using hf)]
      generalize (s.memRead a 1).1.made n = k at *
      refine ⟨by omega, by omega, ?_⟩
      simp only [State.readOperand, hf, Bool.false_eq_true, if_false, hk3]
      refine Prod.ext ?_ rfl
      simp only [State.flaggedLoads, State.afterLoads, s.loadEvents_succ (s.memRead a 1).1 rfl a k, State.memRead_accessor,
        State.memRead_ports, List.drop_tail, List.append_assoc, List.singleton_append]
      simp [State.memRead]

/-! ## Stores -/

/-- The events of one-byte stores of a string from an address on, newest first. -/
def State.storeEvents (s : State) (a : Nat) : List Byte → List PortEvent
  | [] => []
  | b :: bs => s.storeEvents (a + 1) bs ++ [.store (s.wrap a) [b]]

theorem State.storeEvents_congr {s t : State} (h : t.config = s.config) (a : Nat) (bs : List Byte) :
    t.storeEvents a bs = s.storeEvents a bs := by
  induction bs generalizing a with
  | nil => rfl
  | cons b bs ih => simp [State.storeEvents, ih, State.wrap, h]

/-- The state after the first `k` one-byte stores of a string, of which the first `j` wrote their byte. -/
def State.afterStores (s : State) (a k j : Nat) (bytes : List Byte) : State :=
  { s with
    mem := Memory.writeBytes s.config.addrBits s.mem a (bytes.take j)
    accessor := s.accessor.drop k
    ports := s.storeEvents a (bytes.take k) ++ s.ports }

/-- One-byte stores that pass write the whole string, and nothing else but the accessor and the record of events moves on. -/
theorem State.storeOperand_of_passes {s : State} {bytes : List Byte} (h : s.passes bytes.length) (a : Nat) :
    s.storeOperand a bytes = (s.afterStores a bytes.length bytes.length bytes, true) := by
  induction bytes generalizing s a with
  | nil => rfl
  | cons b bs ih =>
    obtain ⟨h1, h2, h3⟩ := (s.passes_succ a bs.length 1).1 h
    have h4 : s.verdict.stores = true := by
      cases hv : s.verdict with
      | pass => rfl
      | flag w => simp [hv, Verdict.raises] at h2
    have hp : (s.memWrite a [b]).passes bs.length := h3
    simp only [State.storeOperand, State.memWrite_trapFlag, h1, h2, Bool.or_self, Bool.false_eq_true, if_false, ih hp]
    refine Prod.ext ?_ rfl
    simp only [State.afterStores, List.take_length, Memory.writeBytes, State.memWrite_mem, h4, if_true, State.memWrite_config,
      State.memWrite_accessor, State.memWrite_ports, List.length_cons, List.drop_tail,
      State.storeEvents_congr (s := s) (t := s.memWrite a [b]) rfl]
    simp [State.memWrite, State.storeEvents, Memory.writeBytes, h1, h2]

/-- One-byte stores that do not all pass end with the first whose poll found TRAPFLAG set; that one may or may not have written its
byte (U10). -/
theorem State.storeOperand_of_not_passes {s : State} {bytes : List Byte} (h : ¬ s.passes bytes.length) (hn : bytes ≠ []) (a : Nat) :
    0 < s.made bytes.length ∧ s.made bytes.length ≤ bytes.length ∧
      ∃ j, (j = s.made bytes.length ∨ j + 1 = s.made bytes.length) ∧
        s.storeOperand a bytes = ({ s.afterStores a (s.made bytes.length) j bytes with trapFlag := true }, false) := by
  induction bytes generalizing s a with
  | nil => exact absurd rfl hn
  | cons b bs ih =>
    by_cases hf : (s.memWrite a [b]).trapFlag = true
    · have hf2 := hf
      rw [State.memWrite_trapFlag] at hf2
      rw [List.length_cons, State.made_of_flagged (a := a) (m := 1) hf]
      refine ⟨by omega, by omega, ?_⟩
      cases hv : s.verdict.stores with
      | true =>
        refine ⟨1, .inl rfl, ?_⟩
        simp only [State.storeOperand, hf, if_true]
        refine Prod.ext ?_ rfl
        simp [State.afterStores, State.memWrite, State.storeEvents, hv, hf2]
      | false =>
        refine ⟨0, .inr rfl, ?_⟩
        simp only [State.storeOperand, hf, if_true]
        refine Prod.ext ?_ rfl
        simp [State.afterStores, State.memWrite, State.storeEvents, Memory.writeBytes, hv, hf2]
    · have hf' : s.trapFlag = false ∧ s.verdict.raises = false := by simpa using hf
      have h4 : s.verdict.stores = true := by
        cases hv : s.verdict with
        | pass => rfl
        | flag w => simp [hv, Verdict.raises] at hf'
      rw [List.length_cons, s.passes_succ a bs.length 1] at h
      have h3 : ¬ (s.memWrite a [b]).passes bs.length := fun hp => h ⟨hf'.1, hf'.2, hp⟩
      have hn' : bs ≠ [] := by
        rintro rfl
        exact h3 ⟨by simpa using hf, by simp⟩
      obtain ⟨hk1, hk2, j, hj, hk3⟩ := ih h3 hn' (a + 1)
      have hm : s.made (bs.length + 1) = (s.memWrite a [b]).made bs.length + 1 :=
        State.made_of_clear (a := a) (m := 1) (by simpa using hf) bs.length
      rw [List.length_cons, hm]
      generalize (s.memWrite a [b]).made bs.length = k at *
      refine ⟨by omega, by omega, j + 1, by omega, ?_⟩
      simp only [State.storeOperand, hf, Bool.false_eq_true, if_false, hk3]
      refine Prod.ext ?_ rfl
      simp only [State.afterStores, List.take_succ_cons, State.storeEvents, Memory.writeBytes, State.memWrite_mem, h4, if_true,
        State.memWrite_config, State.memWrite_accessor, State.memWrite_ports, List.drop_tail, List.append_assoc,
        List.singleton_append, State.storeEvents_congr (s := s) (t := s.memWrite a [b]) rfl]
      simp [State.memWrite]

/-! ## Ends, traps, faults -/

/-- Two states that a command's end cannot tell apart: the same but for registers, memory, the accessor, the record of events and the
report. What is said of the end seen from the one holds seen from the other. -/
structure SameFront (s s' : State) : Prop where
  config : s'.config = s.config
  command : s'.command = s.command
  program : s'.program = s.program
  presented : s'.presented = s.presented
  psd : s'.psd = s.psd
  trapFlag : s'.trapFlag = s.trapFlag
  trapRecord : s'.trapRecord = s.trapRecord

theorem SameFront.sameContext {s s' t : State} (h : SameFront s s') (k : SameContext s' t) : SameContext s t :=
  ⟨k.config.trans h.config, k.command.trans h.command, k.program.trans h.program, k.presented.trans h.presented, k.idle⟩

theorem SameFront.endsDone {s s' t : State} {cc : BitVec 4} (h : SameFront s s') (k : EndsDone s' t cc) : EndsDone s t cc :=
  ⟨h.sameContext k.context, by rw [k.psd, h.psd], k.completion, k.trapFlag.trans h.trapFlag, k.trapRecord.trans h.trapRecord⟩

theorem SameFront.endsTrapped {s s' t : State} {cc : BitVec 4} {a : Nat} (h : SameFront s s') (k : EndsTrapped s' t cc a) :
    EndsTrapped s t cc a :=
  ⟨h.sameContext k.context, by rw [k.psd, h.psd], k.completion, k.trapFlag, by rw [k.trapRecord, h.trapRecord]⟩

theorem SameFront.endsMaskable {s s' t : State} {cc : BitVec 4} (h : SameFront s s') (k : EndsMaskable s' t cc) :
    EndsMaskable s t cc := by
  rw [EndsMaskable, h.psd] at k
  rw [EndsMaskable]
  split_ifs at k ⊢
  · exact h.endsTrapped k
  · exact h.endsDone k

/-- Events recorded change nothing that the end of a command depends on. -/
theorem State.sameFront_ports (s : State) (ports : List PortEvent) : SameFront s { s with ports := ports } :=
  ⟨rfl, rfl, rfl, rfl, rfl, rfl, rfl⟩

/-- Loads that pass change nothing that the end of a command depends on. -/
theorem State.sameFront_afterLoads (s : State) (a n : Nat) : SameFront s (s.afterLoads a n) := ⟨rfl, rfl, rfl, rfl, rfl, rfl, rfl⟩

theorem State.faultsInvalidDigit_afterLoads {s t : State} {a n : Nat} (h : FaultsInvalidDigit (s.afterLoads a n) t) :
    FaultsInvalidDigit s t := ⟨h.1, h.2.1, (s.sameFront_afterLoads a n).endsMaskable h.2.2⟩

theorem State.faultsOverflow_afterLoads {s t : State} {a n : Nat} (h : FaultsOverflow (s.afterLoads a n) t) : FaultsOverflow s t :=
  ⟨h.1, h.2.1, (s.sameFront_afterLoads a n).endsMaskable h.2.2⟩

theorem State.setsAccumulator_afterLoads {s t : State} {a n : Nat} {v : Int} (h : SetsAccumulator (s.afterLoads a n) t v) :
    SetsAccumulator s t v := ⟨h.1, h.2.1, h.2.2.1, (s.sameFront_afterLoads a n).endsDone h.2.2.2⟩

/-- An abort answers a next state: idle, `aborted`, nothing else changed. -/
theorem State.abort_eq (s : State) : s.abort = .next { s with status := .idle, completion := some .aborted } := rfl

/-- What the trap call and the report of it do. -/
theorem State.takeTrap_eq (s : State) (a : Nat) :
    s.takeTrap a = .next
      { s with
        trapFlag := true
        trapRecord := s.trapRecord ++ [a]
        ports := .trap a :: s.ports
        status := .idle
        completion := some (.trapped a) } := rfl

/-- A condition code written and `done` reported. -/
theorem State.writeCC_complete_spec (s : State) (cc : BitVec 4) :
    ∃ t, (s.writeCC cc).complete .done = .next t ∧ t.regs = s.regs ∧ t.mem = s.mem ∧ t.accessor = s.accessor ∧
      t.ports = .ccWrite cc :: s.ports ∧ EndsDone s t cc :=
  ⟨_, rfl, rfl, rfl, rfl, rfl, ⟨rfl, rfl, rfl, rfl, rfl⟩, rfl, rfl, rfl, rfl⟩

/-- A condition code written, then the maskable decimal trap. -/
theorem State.writeCC_decimalTrap_spec (s : State) (cc : BitVec 4) :
    ∃ t, (s.writeCC cc).decimalTrap s.psd.dm = .next t ∧ t.regs = s.regs ∧ t.mem = s.mem ∧ t.accessor = s.accessor ∧
      t.ports = (if s.psd.dm then [PortEvent.trap 0x45] else []) ++ .ccWrite cc :: s.ports ∧ EndsMaskable s t cc := by
  by_cases h : s.psd.dm = true
  · refine ⟨{ (s.writeCC cc).postTrap 0x45 with status := .idle, completion := some (.trapped 0x45) }, ?_, rfl, rfl, rfl, ?_, ?_⟩
    · rw [State.decimalTrap, if_pos h]; rfl
    · simp [h]
    · rw [EndsMaskable, if_pos h]
      exact ⟨⟨rfl, rfl, rfl, rfl, rfl⟩, rfl, rfl, rfl, rfl⟩
  · refine ⟨{ s.writeCC cc with status := .idle, completion := some .done }, ?_, rfl, rfl, rfl, ?_, ?_⟩
    · rw [State.decimalTrap, if_neg h]; rfl
    · simp [h]
    · rw [EndsMaskable, if_neg h]
      exact ⟨⟨rfl, rfl, rfl, rfl, rfl⟩, rfl, rfl, rfl, rfl⟩

/-- The fault procedure: the mask sampled, a condition code written, then the maskable trap. -/
theorem State.decimalEnd_spec (s : State) (cc : Psd → BitVec 4) :
    ∃ t, s.decimalEnd cc = .next t ∧ t.regs = s.regs ∧ t.mem = s.mem ∧ t.accessor = s.accessor ∧
      t.ports = (if s.psd.dm then [PortEvent.trap 0x45] else []) ++ .ccWrite (cc s.psd) :: .psdRead :: s.ports ∧
      EndsMaskable s t (cc s.psd) := by
  obtain ⟨t, h1, h2, h3, h4, h5, h6⟩ := s.psdRead.1.writeCC_decimalTrap_spec (cc s.psd)
  exact ⟨t, h1, h2, h3, h4, h5, (s.sameFront_ports _).endsMaskable h6⟩

/-- The code of InvalidDigit keeps CC3 and CC4. -/
theorem decimalFaultCC_invalidDigit (old : BitVec 4) : decimalFaultCC .invalidDigit old = keepsCC34 0b10 old := by
  revert old; decide

/-- The code of Overflow keeps CC3 and CC4. -/
theorem decimalFaultCC_overflow (old : BitVec 4) : decimalFaultCC .overflow old = keepsCC34 0b01 old := by
  revert old; decide

/-- `raise DecimalFault(InvalidDigit)`. -/
theorem State.decimalFault_invalidDigit_spec (s : State) :
    ∃ t, s.decimalFault .invalidDigit = .next t ∧ t.accessor = s.accessor ∧ FaultsInvalidDigit s t := by
  obtain ⟨t, h1, h2, h3, h4, -, h6⟩ := s.decimalEnd_spec fun psd => decimalFaultCC .invalidDigit psd.cc
  rw [decimalFaultCC_invalidDigit] at h6
  exact ⟨t, h1, h4, h2, h3, h6⟩

/-- `raise DecimalFault(Overflow)`. -/
theorem State.decimalFault_overflow_spec (s : State) :
    ∃ t, s.decimalFault .overflow = .next t ∧ t.accessor = s.accessor ∧ FaultsOverflow s t := by
  obtain ⟨t, h1, h2, h3, h4, -, h6⟩ := s.decimalEnd_spec fun psd => decimalFaultCC .overflow psd.cc
  rw [decimalFaultCC_overflow] at h6
  exact ⟨t, h1, h4, h2, h3, h6⟩

/-- `raise FloatFault(kind)`. -/
theorem State.floatFault_spec (s : State) (kind : FloatFault) :
    ∃ t, s.floatFault kind = .next t ∧ t.accessor = s.accessor ∧ t.ports = .trap 0x44 :: .ccWrite (floatFaultCC kind) :: s.ports ∧
      FaultsFloat s t (floatFaultCC kind) :=
  ⟨_, rfl, rfl, rfl, rfl, rfl, ⟨rfl, rfl, rfl, rfl, rfl⟩, rfl, rfl, rfl, rfl⟩

end Sys2Proof.Machine
end

