-- ==== Sys2Proof/Laws/Decimal.lean ====
section
/-! SUPPORT. Everything the shared decimal routines can do: the check, the image of the accumulator, and the frame of an instruction
rule. -/

namespace Sys2Proof.Machine

/-! ## The check -/

theorem mul10add_toNat (v : W128) (d : Nibble) : (W.mul10add v d).value.toNat = (v.toNat * 10 + d.toNat) % 2 ^ 128 := by
  have := d.isLt
  have h10 : (10 : W128).toNat = 10 := rfl
  simp only [W.mul10add, BitVec.toNat_add, BitVec.toNat_mul, BitVec.toNat_setWidth, h10]
  omega

theorem foldl_mul10add_toNat (ds : List Nibble) (v : W128) :
    (ds.foldl (fun v d => (W.mul10add v d).value) v).toNat =
      (v.toNat * 10 ^ ds.length + digitSum (ds.map BitVec.toNat)) % 2 ^ 128 := by
  induction ds generalizing v with
  | nil => simp [digitSum, Nat.mod_eq_of_lt v.isLt]
  | cons d ds ih =>
    rw [List.foldl_cons, ih, mul10add_toNat, List.map_cons, digitSum, List.length_cons, List.length_map, Nat.add_mod, Nat.mod_mul_mod,
      ← Nat.add_mod]
    congr 1
    ring

/-- The value W.MUL10ADD builds is the digit sum, modulo `2^128`. -/
theorem digitsValue_toNat (ds : List Nibble) : (digitsValue ds).toNat = digitSum (ds.map BitVec.toNat) % 2 ^ 128 := by
  rw [digitsValue, foldl_mul10add_toNat]; simp

theorem all_isDigit_iff (ds : List Nibble) : ds.all isDigit = true ↔ ∀ d ∈ ds.map BitVec.toNat, d < 10 := by
  simp [isDigit, List.all_eq_true]

theorem signMinus_iff (sg : Nibble) : signMinus sg = true ↔ sg.toNat = 0xB ∨ sg.toNat = 0xD := by
  revert sg; decide

/-- When a check succeeds. -/
theorem checkSigned_ok_iff (ds : List Nibble) (sg : Nibble) (req : Bool) :
    (checkSigned ds sg req).ok = true ↔
      (∀ d ∈ ds.map BitVec.toNat, d < 10) ∧ 10 ≤ sg.toNat ∧ ¬ (signUnsigned sg = true ∧ req = true) := by
  rw [checkSigned, ← all_isDigit_iff]
  by_cases h1 : ds.all isDigit = true
  · by_cases h2 : sg.toNat < 10
    · simp [h1, h2, CheckResult.bad]
    · by_cases h3 : signUnsigned sg = true ∧ req = true
      · simp [h1, h2, h3, CheckResult.bad]
      · have : (signUnsigned sg && req) = false := by
          cases hs : signUnsigned sg <;> cases req <;> simp_all
        simp only [h1, h2, this]
        simp at h3 ⊢
        exact ⟨by omega, h3⟩
  · simp [h1, CheckResult.bad]

/-- What a check that succeeds says of up to 38 digits: the flag and the number. -/
theorem checkSigned_of_ok {ds : List Nibble} {sg : Nibble} {req : Bool} (h : (checkSigned ds sg req).ok = true)
    (hl : ds.length ≤ 38) :
    (checkSigned ds sg req).unsigned = signUnsigned sg ∧
      signedNumber (ds.map BitVec.toNat) sg.toNat = some (checkSigned ds sg req).value.toInt := by
  obtain ⟨h1, h2, h3⟩ := (checkSigned_ok_iff ds sg req).1 h
  have h4 : (signUnsigned sg && req) = false := by cases hs : signUnsigned sg <;> cases req <;> simp_all
  have h5 : ¬ sg.toNat < 10 := by omega
  have hlt : digitSum (ds.map BitVec.toNat) < 2 ^ 127 := by
    have := digitSum_lt _ h1
    rw [List.length_map] at this
    calc _ < 10 ^ ds.length := this
      _ ≤ 10 ^ 38 := Nat.pow_le_pow_right (by omega) hl
      _ < _ := by norm_num
  have hv := digitsValue_toNat ds
  rw [Nat.mod_eq_of_lt (by omega)] at hv
  have hvi : (digitsValue ds).toInt = (digitSum (ds.map BitVec.toNat) : Int) := by
    rw [BitVec.toInt_eq_toNat_of_lt (by omega), hv]
  simp only [checkSigned, (all_isDigit_iff ds).2 h1, h5, h4, Bool.not_true, Bool.false_eq_true, if_false, true_and]
  rw [signedNumber, if_pos ⟨h1, h2⟩]
  by_cases hm : signMinus sg = true
  · rw [if_pos ((signMinus_iff sg).1 hm), if_pos hm, W.neg, BitVec.toInt_neg, hvi, Int.bmod_eq_of_le (by omega) (by omega)]
  · rw [if_neg (fun hc => hm ((signMinus_iff sg).2 hc)), if_neg hm, hvi]

/-- Without the signed requirement a check of up to 38 digits is the number it checks. -/
theorem checkSigned_signedNumber (ds : List Nibble) (sg : Nibble) (hl : ds.length ≤ 38) :
    signedNumber (ds.map BitVec.toNat) sg.toNat =
      if (checkSigned ds sg false).ok then some (checkSigned ds sg false).value.toInt else none := by
  by_cases h : (checkSigned ds sg false).ok = true
  · rw [if_pos h, (checkSigned_of_ok h hl).2]
  · rw [if_neg h, signedNumber, if_neg]
    intro hc
    exact h ((checkSigned_ok_iff ds sg false).2 ⟨hc.1, hc.2, by simp⟩)

theorem map_dropLast_getLastD (ns : List Nibble) :
    (ns.map BitVec.toNat).dropLast = ns.dropLast.map BitVec.toNat ∧ (ns.map BitVec.toNat).getLastD 0 = (ns.getLastD 0).toNat := by
  rcases List.eq_nil_or_concat ns with rfl | ⟨a, b, rfl⟩ <;> simp

/-- The fixed-length check of an operand of at most 16 bytes is its packed number. -/
theorem packedNumber_eq (bytes : List Byte) (hl : bytes.length ≤ 16) :
    packedNumber bytes =
      if (decCheckFixed bytes decRequireSigned).ok then some (decCheckFixed bytes decRequireSigned).value.toInt else none := by
  simp only [packedNumber, (map_dropLast_getLastD _).1, (map_dropLast_getLastD _).2]
  exact checkSigned_signedNumber _ _ (by simp; omega)

/-- The accumulator's check is its packed number. -/
theorem packedNumber_deca (s : State) :
    packedNumber s.deca = if s.checkAcc.ok then some s.checkAcc.value.toInt else none :=
  packedNumber_eq s.deca (by simp)

/-- PACK's check of at most 38 bytes is the zoned number. -/
theorem zonedNumber_eq (bytes : List Byte) (hl : bytes.length ≤ 38) :
    zonedNumber bytes = if (zonedCheck bytes).ok then some (zonedCheck bytes).value.toInt else none := by
  have := checkSigned_signedNumber (bytes.map digitOf) (zoneOf (bytes.getLastD 0)) (by simpa using hl)
  rw [List.map_map] at this
  exact this

/-- A number of `k` digits is below `10^k`. -/
theorem signedNumber_natAbs_lt {ds : List Nat} {sg : Nat} {v : Int} (h : signedNumber ds sg = some v) :
    v.natAbs < 10 ^ ds.length := by
  rw [signedNumber] at h
  split_ifs at h with h1
  · have := digitSum_lt ds h1.1
    obtain rfl := Option.some.inj h
    simpa using this
  · have := digitSum_lt ds h1.1
    obtain rfl := Option.some.inj h
    simpa using this

/-- A packed number of `n` bytes has `2n - 1` digits. -/
theorem packedNumber_natAbs_lt {bytes : List Byte} {v : Int} (h : packedNumber bytes = some v) :
    v.natAbs < 10 ^ (2 * bytes.length - 1) := by
  simpa using signedNumber_natAbs_lt h

/-- A zoned number of `z` bytes has `z` digits. -/
theorem zonedNumber_natAbs_lt {bytes : List Byte} {v : Int} (h : zonedNumber bytes = some v) :
    v.natAbs < 10 ^ bytes.length := by
  simpa using signedNumber_natAbs_lt h

/-! ## Generated forms -/

theorem generatedSign_toNat (v : Int) : (generatedSign v).toNat = writtenSign v := by
  rw [generatedSign, writtenSign]; split <;> rfl

theorem signedNumber_digits (d : Nat) (v : Int) (h : v.natAbs < 10 ^ d) :
    signedNumber ((decimalDigits d v.natAbs).map BitVec.toNat) (generatedSign v).toNat = some v := by
  rw [signedNumber, if_pos, digitSum_decimalDigits, Nat.mod_eq_of_lt h, generatedSign_toNat, writtenSign]
  · by_cases h1 : v < 0
    · simp only [if_pos h1, or_true, if_true]
      congr 1
      omega
    · simp only [if_neg h1]
      rw [if_neg (by decide)]
      congr 1
      omega
  · refine ⟨?_, ?_⟩
    · simpa using decimalDigits_lt d v.natAbs
    · rw [generatedSign_toNat, writtenSign]; split <;> omega

/-- The digits of a value and its generated sign, packed, hold the value. -/
theorem holdsPacked_packNibbles (d : Nat) (v : Int) (h : v.natAbs < 10 ^ (2 * d + 1)) :
    HoldsPacked (packNibbles (decimalDigits (2 * d + 1) v.natAbs ++ [generatedSign v])) v := by
  have hn := nibbles_packNibbles (d + 1) (decimalDigits (2 * d + 1) v.natAbs ++ [generatedSign v]) (by simp; omega)
  constructor
  · simp only [packedNumber, hn, (map_dropLast_getLastD _).1, (map_dropLast_getLastD _).2, List.dropLast_concat, List.getLastD_concat]
    exact signedNumber_digits _ _ h
  · rw [hn, List.getLastD_concat, generatedSign_toNat]

theorem zonedBytes_length (ds : List Nibble) (sg : Nibble) : (zonedBytes ds sg).length = ds.length := by
  induction ds with
  | nil => rfl
  | cons d ds ih => cases ds with
    | nil => rfl
    | cons e ds => simpa [zonedBytes] using ih

theorem zonedBytes_digits (ds : List Nibble) (sg : Nibble) : (zonedBytes ds sg).map digitOf = ds := by
  induction ds with
  | nil => rfl
  | cons d ds ih => cases ds with
    | nil => simp [zonedBytes, digitOf, nibble_low]
    | cons e ds =>
      rw [zonedBytes, List.map_cons, ih, digitOf, nibble_low]
      simp

theorem zonedBytes_zones (ds : List Nibble) (sg : Nibble) (h : ds ≠ []) :
    (∀ b ∈ (zonedBytes ds sg).dropLast, zoneOf b = 0xF) ∧ zoneOf ((zonedBytes ds sg).getLastD 0) = sg := by
  induction ds with
  | nil => exact absurd rfl h
  | cons d ds ih => cases ds with
    | nil => simp [zonedBytes, zoneOf, nibble_high]
    | cons e ds =>
      obtain ⟨h1, h2⟩ := ih (by simp)
      have hne : zonedBytes (e :: ds) sg ≠ [] := by
        intro hc
        have := congrArg List.length hc
        simp [zonedBytes_length] at this
      rw [zonedBytes.eq_3 _ _ _ (by simp), List.dropLast_cons_of_ne_nil hne]
      constructor
      · intro b hb
        rcases List.mem_cons.1 hb with rfl | hb
        · exact nibble_high _ _
        · exact h1 b hb
      · obtain ⟨x, xs, hx⟩ := List.exists_cons_of_ne_nil hne
        rw [hx] at h2 ⊢
        simpa using h2

/-- The digits of a value and its generated sign, zoned, hold the value. -/
theorem holdsZoned_zonedBytes (z : Nat) (hz : 0 < z) (v : Int) (h : v.natAbs < 10 ^ z) :
    HoldsZoned (zonedBytes (decimalDigits z v.natAbs) (generatedSign v)) v := by
  have hne : decimalDigits z v.natAbs ≠ [] := by
    intro hc
    have := congrArg List.length hc
    simp at this
    omega
  obtain ⟨h1, h2⟩ := zonedBytes_zones _ (generatedSign v) hne
  refine ⟨?_, h1, by rw [h2, generatedSign_toNat]⟩
  rw [zonedNumber, h2]
  have := signedNumber_digits z v h
  rw [← zonedBytes_digits (decimalDigits z v.natAbs) (generatedSign v), List.map_map] at this
  exact this

/-! ## The image of the accumulator -/

theorem abs_toNat (a : W128) : (W.abs a).1.toNat = a.toInt.natAbs := by
  have h := a.isLt
  simp only [W.abs, BitVec.msb_eq_decide, decide_eq_true_eq, BitVec.toInt_eq_toNat_cond]
  split_ifs <;> (try rw [BitVec.toNat_neg]) <;> omega

theorem toInt_ofInt128 {v : Int} (h : v.natAbs < 2 ^ 127) : (BitVec.ofInt 128 v).toInt = v := by
  rw [BitVec.toInt_ofInt, Int.bmod_eq_of_le (by omega) (by omega)]

/-- `DecSet`'s image in closed form: none from `10^31` on, else the 31 digits and the generated sign. -/
theorem decImage_eq {v : Int} (h : v.natAbs < 2 ^ 127) :
    decImage (BitVec.ofInt 128 v) =
      if 10 ^ 31 ≤ v.natAbs then none else some (packNibbles (decimalDigits 31 v.natAbs ++ [generatedSign v])) := by
  have hneg : W.isNeg (BitVec.ofInt 128 v) = decide (v < 0) := by
    rw [W.isNeg, show (BitVec.ofInt 128 v).getLsbD 127 = (BitVec.ofInt 128 v).msb by rfl]
    rw [BitVec.msb_eq_toInt, toInt_ofInt128 h]
  have hsign : (if W.isNeg (BitVec.ofInt 128 v) = true then (0xD : Nibble) else 0xC) = generatedSign v := by
    rw [hneg, generatedSign]; simp
  have habs : (W.abs (BitVec.ofInt 128 v)).1.toNat = v.natAbs := by rw [abs_toNat, toInt_ofInt128 h]
  have hq : ((W.abs (BitVec.ofInt 128 v)).1 / decaSplit).toNat = v.natAbs / 10 ^ 15 := by
    rw [BitVec.toNat_udiv, habs]; rfl
  have hr : ((W.abs (BitVec.ofInt 128 v)).1 % decaSplit).toNat = v.natAbs % 10 ^ 15 := by
    rw [BitVec.toNat_umod, habs]; rfl
  have h0 : decaSplit ≠ 0 := by decide
  simp only [decImage, W.divU, h0, if_false, hq, hsign]
  have hiff : 10 ^ 16 ≤ v.natAbs / 10 ^ 15 ↔ 10 ^ 31 ≤ v.natAbs := by
    rw [Nat.le_div_iff_mul_le (by positivity)]; norm_num
  by_cases hc : 10 ^ 31 ≤ v.natAbs
  · rw [if_pos hc, if_pos (hiff.2 hc)]
  · rw [if_neg hc, if_neg (fun hx => hc (hiff.1 hx))]
    refine congrArg some ?_
    have hq2 : (W.toU64 ((W.abs (BitVec.ofInt 128 v)).1 / decaSplit)).1.toNat = v.natAbs / 10 ^ 15 := by
      simp only [W.toU64, BitVec.extractLsb'_toNat, hq]
      omega
    have hr2 : (W.toU64 ((W.abs (BitVec.ofInt 128 v)).1 % decaSplit)).1.toNat = v.natAbs % 10 ^ 15 := by
      simp only [W.toU64, BitVec.extractLsb'_toNat, hr]
      omega
    simp only [digits, hq2, hr2]
    rw [← packNibbles_append 8 _ _ (by simp), ← List.append_assoc, show (2 * 8 - 1 : Nat) = 15 from rfl,
      show (2 * 8 : Nat) = 16 from rfl, decimalDigits_mod, decimalDigits_add 16 15 v.natAbs]

/-- The bytes `DecSet` writes for a value of at most 31 digits hold the value. -/
theorem decImage_holdsPacked {v : Int} (h : v.natAbs < 10 ^ 31) :
    ∃ bytes, decImage (BitVec.ofInt 128 v) = some bytes ∧ bytes.length = 16 ∧ HoldsPacked bytes v := by
  refine ⟨_, by rw [decImage_eq (by omega), if_neg (by omega)], ?_, holdsPacked_packNibbles 15 v h⟩
  exact packNibbles_length 16 _ (by simp)

/-- `EncodePacked` of a value of at most 31 digits: its low `2m - 1` digits and the generated sign. -/
theorem encodePacked_eq {v : W128} (h : v.toInt.natAbs < 10 ^ 31) {m : Nat} (h1 : 1 ≤ m) (h2 : m ≤ 16) :
    encodePacked v m = packNibbles (decimalDigits (2 * m - 1) v.toInt.natAbs ++ [generatedSign v.toInt]) := by
  have hv : v = BitVec.ofInt 128 v.toInt := by simp
  conv_lhs => rw [hv]
  rw [encodePacked, decImage_eq (by omega), if_neg (by omega), Option.getD_some, ← packNibbles_drop,
    show (31 : Nat) = 2 * (16 - m) + (2 * m - 1) by omega, decimalDigits_add, List.append_assoc,
    List.drop_left' (by simp)]

/-! ## The frame of an instruction rule -/

theorem State.withOperand_of_passes {s : State} {m : Nat} (h : s.passes m) (k : State → List Byte → Result) :
    s.withOperand m k = k (s.afterLoads s.ea m) (s.bytesAt s.ea m) := by
  rw [State.withOperand, State.readOperand_of_passes h]

/-- Loads that do not pass abort the command, with nothing changed. -/
theorem State.withOperand_of_not_passes {s : State} {m : Nat} (h : ¬ s.passes m) (hm : 0 < m) (k : State → List Byte → Result) :
    ∃ t, s.withOperand m k = .next t ∧ AbortsUnchanged s t := by
  obtain ⟨-, -, hn⟩ := State.readOperand_of_not_passes h hm s.ea
  refine ⟨{ s.flaggedLoads s.ea (s.made m) with status := .idle, completion := some .aborted }, ?_, rfl, rfl, ⟨rfl, rfl, rfl, rfl, rfl⟩, rfl, rfl,
    rfl, rfl⟩
  rw [State.withOperand, hn]
  rfl

/-- A memory operand whose loads pass: its number goes on, or InvalidDigit. -/
theorem State.withPacked_of_passes {s : State} {l : BitVec 4} (h : s.passes (operandLength l)) (k : State → W128 → Result) :
    s.withPacked l k =
      if (packedNumber (s.bytesAt s.ea (operandLength l))).isSome then
        k (s.afterLoads s.ea (operandLength l)) (decCheckFixed (s.bytesAt s.ea (operandLength l)) decRequireSigned).value
      else (s.afterLoads s.ea (operandLength l)).decimalFault .invalidDigit := by
  have hl : operandLength l ≤ 16 := by
    rw [operandLength]; have := l.isLt; split <;> omega
  rw [State.withPacked, State.withOperand_of_passes h, packedNumber_eq _ (by simpa using hl)]
  by_cases hc : (decCheckFixed (s.bytesAt s.ea (operandLength l)) decRequireSigned).ok = true <;> simp [hc]

theorem operandLength_pos (l : BitVec 4) : 0 < operandLength l := by
  revert l; decide

theorem operandLength_le (l : BitVec 4) : operandLength l ≤ 16 := by
  revert l; decide

theorem State.withPacked_of_not_passes {s : State} {l : BitVec 4} (h : ¬ s.passes (operandLength l)) (k : State → W128 → Result) :
    ∃ t, s.withPacked l k = .next t ∧ AbortsUnchanged s t :=
  State.withOperand_of_not_passes h (operandLength_pos l) _

/-- The state after the four reads of the accumulator. -/
def State.afterDeca (s : State) : State :=
  { s with ports := .regRead 15 :: .regRead 14 :: .regRead 13 :: .regRead 12 :: s.ports }

/-- A read of the accumulator: its bytes, and four events more in the record. -/
theorem State.readDeca_eq (s : State) : s.readDeca = (s.afterDeca, s.deca) := rfl

theorem State.withAcc_eq (s : State) (k : State → W128 → Result) :
    s.withAcc k = if s.checkAcc.ok then k s.afterDeca s.checkAcc.value else s.afterDeca.decimalFault .invalidDigit := rfl

/-- An accumulator that is a number goes on. -/
theorem State.withAcc_of_some {s : State} {v : Int} (h : packedNumber s.deca = some v) (k : State → W128 → Result) :
    s.withAcc k = k s.afterDeca s.checkAcc.value ∧ s.checkAcc.value.toInt = v ∧ v.natAbs < 10 ^ 31 := by
  have hlt := packedNumber_natAbs_lt h
  rw [packedNumber_deca] at h
  by_cases hc : s.checkAcc.ok = true
  · rw [if_pos hc] at h
    exact ⟨by simp [State.withAcc_eq, hc], Option.some.inj h, by simpa using hlt⟩
  · simp [hc] at h

/-- An accumulator that is no number is InvalidDigit. -/
theorem State.withAcc_of_none {s : State} (h : packedNumber s.deca = none) (k : State → W128 → Result) :
    s.withAcc k = s.afterDeca.decimalFault .invalidDigit := by
  rw [packedNumber_deca] at h
  by_cases hc : s.checkAcc.ok = true
  · simp [hc] at h
  · simp [State.withAcc_eq, hc]

theorem decimalCC_signCC (v : Int) : decimalCC false (signCC v) = signCode v := by
  rw [signCC, signCode]; split_ifs <;> rfl

/-- The end of a decimal instruction that completes. -/
theorem State.finishDecimal_spec (s : State) (pair : BitVec 2) :
    ∃ t, s.finishDecimal pair = .next t ∧ t.regs = s.regs ∧ t.mem = s.mem ∧ t.accessor = s.accessor ∧
      t.ports = .ccWrite (decimalCC false pair) :: s.ports ∧ EndsDone s t (decimalCC false pair) :=
  s.writeCC_complete_spec _

/-- A result put into the accumulator, or Overflow. -/
theorem State.setResult_spec (s : State) {v : Int} (h : v.natAbs < 2 ^ 127) :
    ∃ t, s.setResult v = .next t ∧ t.accessor = s.accessor ∧
      if 10 ^ 31 ≤ v.natAbs then FaultsOverflow s t else SetsAccumulator s t v := by
  by_cases hc : 10 ^ 31 ≤ v.natAbs
  · obtain ⟨t, h1, h2, h3⟩ := s.decimalFault_overflow_spec
    refine ⟨t, ?_, h2, by rw [if_pos hc]; exact h3⟩
    rw [State.setResult, State.decSet, if_neg (by decide), decImage_eq h, if_pos hc]
    exact h1
  · obtain ⟨bytes, h1, h2, h3⟩ := decImage_holdsPacked (v := v) (by omega)
    refine ⟨{ (s.writeDeca bytes).writeCC (decimalCC false (signCC v)) with status := .idle, completion := some .done }, ?_, rfl, ?_⟩
    · rw [State.setResult, State.decSet, if_neg (by decide), h1]; rfl
    rw [if_neg hc, SetsAccumulator]
    refine ⟨?_, ?_, rfl, ⟨rfl, rfl, rfl, rfl, rfl⟩, ?_, rfl, rfl, rfl⟩
    · have := State.deca_writeDeca s bytes h2
      rw [← this] at h3
      exact h3
    · intro j hj
      exact s.reg_writeDeca bytes j hj
    · rw [← decimalCC_signCC]; rfl

/-- The accumulator set to the low 31 digits of a value. -/
theorem State.decSetLow31_spec (s : State) (v : Int) :
    HoldsPacked (s.decSetLow31 v).deca (low31 v) ∧ KeepsRegsBut s (s.decSetLow31 v) decaRegs := by
  have hlt : (low31 v).natAbs < 10 ^ 31 := by
    rw [low31, Int.natAbs_mul, Int.natAbs_natCast, decaDigits]
    have h1 : v.sign.natAbs ≤ 1 := by
      rcases Int.sign_trichotomy v with h | h | h <;> simp [h]
    have h2 : v.natAbs % 10 ^ 31 < 10 ^ 31 := Nat.mod_lt _ (by positivity)
    calc _ ≤ 1 * (v.natAbs % 10 ^ 31) := Nat.mul_le_mul_right _ h1
      _ < 10 ^ 31 := by omega
  obtain ⟨bytes, h1, h2, h3⟩ := decImage_holdsPacked hlt
  rw [State.decSetLow31, h1, Option.getD_some, State.deca_writeDeca s bytes h2]
  exact ⟨h3, fun j hj => s.reg_writeDeca bytes j hj⟩

end Sys2Proof.Machine
end

