-- ==== Sys2Proof/Laws/Decode.lean ====
section
/-! SUPPORT. The fields of the words the encoder writes, and a word as its fields. -/

namespace Sys2Proof

theorem toNat_append_eq {m n : Nat} (x : BitVec m) (y : BitVec n) : (x ++ y).toNat = x.toNat * 2 ^ n + y.toNat := by
  rw [BitVec.toNat_append, ← Nat.shiftLeft_add_eq_or_of_lt y.isLt, Nat.shiftLeft_eq]

/-- A format-M word as a number. -/
theorem wordM_toNat (op : BitVec 7) (ind : Bool) (rl : BitVec 4) (x : BitVec 3) (addr : BitVec 17) :
    (wordM op ind rl x addr).toNat =
      ind.toNat * 2 ^ 31 + op.toNat * 2 ^ 24 + rl.toNat * 2 ^ 20 + x.toNat * 2 ^ 17 + addr.toNat := by
  show (BitVec.ofBool ind ++ op ++ rl ++ x ++ addr).toNat = _
  simp only [toNat_append_eq, BitVec.toNat_ofBool]
  omega

/-- A format-D word as a number. -/
theorem wordD_toNat (op : BitVec 7) (r : BitVec 4) (disp : Int) :
    (wordD op r disp).toNat = op.toNat * 2 ^ 24 + r.toNat * 2 ^ 20 + (BitVec.ofInt 20 disp).toNat := by
  show ((0#1) ++ op ++ r ++ BitVec.ofInt 20 disp).toNat = _
  simp only [toNat_append_eq]
  simp
  omega

/-! ## Reading a format-M word -/

theorem fieldOp_wordM (op : BitVec 7) (ind : Bool) (rl : BitVec 4) (x : BitVec 3) (addr : BitVec 17) :
    fieldOp (wordM op ind rl x addr) = op := by
  have h1 := op.isLt; have h2 := rl.isLt; have h3 := x.isLt; have h4 := addr.isLt; have h5 := ind.toNat_lt
  apply BitVec.eq_of_toNat_eq
  rw [fieldOp, BitVec.extractLsb'_toNat, wordM_toNat, Nat.shiftRight_eq_div_pow]
  omega

theorem fieldRL_wordM (op : BitVec 7) (ind : Bool) (rl : BitVec 4) (x : BitVec 3) (addr : BitVec 17) :
    fieldRL (wordM op ind rl x addr) = rl := by
  have h1 := op.isLt; have h2 := rl.isLt; have h3 := x.isLt; have h4 := addr.isLt; have h5 := ind.toNat_lt
  apply BitVec.eq_of_toNat_eq
  rw [fieldRL, BitVec.extractLsb'_toNat, wordM_toNat, Nat.shiftRight_eq_div_pow]
  omega

theorem fieldX_wordM (op : BitVec 7) (ind : Bool) (rl : BitVec 4) (x : BitVec 3) (addr : BitVec 17) :
    fieldX (wordM op ind rl x addr) = x := by
  have h1 := op.isLt; have h2 := rl.isLt; have h3 := x.isLt; have h4 := addr.isLt; have h5 := ind.toNat_lt
  apply BitVec.eq_of_toNat_eq
  rw [fieldX, BitVec.extractLsb'_toNat, wordM_toNat, Nat.shiftRight_eq_div_pow]
  omega

theorem fieldAddr_wordM (op : BitVec 7) (ind : Bool) (rl : BitVec 4) (x : BitVec 3) (addr : BitVec 17) :
    fieldAddr (wordM op ind rl x addr) = addr := by
  have h1 := op.isLt; have h2 := rl.isLt; have h3 := x.isLt; have h4 := addr.isLt; have h5 := ind.toNat_lt
  apply BitVec.eq_of_toNat_eq
  rw [fieldAddr, BitVec.extractLsb'_toNat, wordM_toNat, Nat.shiftRight_eq_div_pow]
  omega

theorem fieldI_wordM (op : BitVec 7) (ind : Bool) (rl : BitVec 4) (x : BitVec 3) (addr : BitVec 17) :
    fieldI (wordM op ind rl x addr) = ind := by
  have h1 := op.isLt; have h2 := rl.isLt; have h3 := x.isLt; have h4 := addr.isLt
  rw [fieldI, BitVec.getLsbD_eq_extractLsb']
  have : ((wordM op ind rl x addr).extractLsb' 31 1).toNat = ind.toNat := by
    rw [BitVec.extractLsb'_toNat, wordM_toNat, Nat.shiftRight_eq_div_pow]
    have h5 := ind.toNat_lt
    omega
  cases ind <;> simp_all [← BitVec.toNat_inj]

/-! ## Reading a format-D word -/

theorem fieldOp_wordD (op : BitVec 7) (r : BitVec 4) (disp : Int) : fieldOp (wordD op r disp) = op := by
  have h1 := op.isLt; have h2 := r.isLt; have h3 := (BitVec.ofInt 20 disp).isLt
  apply BitVec.eq_of_toNat_eq
  rw [fieldOp, BitVec.extractLsb'_toNat, wordD_toNat, Nat.shiftRight_eq_div_pow]
  omega

theorem fieldRL_wordD (op : BitVec 7) (r : BitVec 4) (disp : Int) : fieldRL (wordD op r disp) = r := by
  have h1 := op.isLt; have h2 := r.isLt; have h3 := (BitVec.ofInt 20 disp).isLt
  apply BitVec.eq_of_toNat_eq
  rw [fieldRL, BitVec.extractLsb'_toNat, wordD_toNat, Nat.shiftRight_eq_div_pow]
  omega

theorem fieldI_wordD (op : BitVec 7) (r : BitVec 4) (disp : Int) : fieldI (wordD op r disp) = false := by
  have h1 := op.isLt; have h2 := r.isLt; have h3 := (BitVec.ofInt 20 disp).isLt
  rw [fieldI, BitVec.getLsbD_eq_extractLsb']
  have : ((wordD op r disp).extractLsb' 31 1).toNat = 0 := by
    rw [BitVec.extractLsb'_toNat, wordD_toNat, Nat.shiftRight_eq_div_pow]
    omega
  simp_all [← BitVec.toNat_inj]

/-- A displacement in range is read back. -/
theorem fieldDisp_wordD (op : BitVec 7) (r : BitVec 4) (disp : Int) (h1 : -524288 ≤ disp) (h2 : disp ≤ 524287) :
    fieldDisp (wordD op r disp) = disp := by
  have h3 : (wordD op r disp).extractLsb' 0 20 = BitVec.ofInt 20 disp := by
    have h3 := (BitVec.ofInt 20 disp).isLt
    apply BitVec.eq_of_toNat_eq
    rw [BitVec.extractLsb'_toNat, wordD_toNat, Nat.shiftRight_eq_div_pow]
    omega
  rw [fieldDisp, h3, BitVec.toInt_ofInt, Int.bmod_eq_of_le (by omega) (by omega)]

/-! ## A word as its fields -/

theorem fieldI_toNat (cw : Word) : (fieldI cw).toNat = cw.toNat / 2 ^ 31 := by
  have := cw.isLt
  rw [fieldI, BitVec.getLsbD, Nat.testBit_eq_decide_div_mod_eq]
  by_cases h : cw.toNat / 2 ^ 31 % 2 = 1 <;> simp only [h, decide_true, decide_false, Bool.toNat_true, Bool.toNat_false] <;> omega

/-- Every word is the format-M word of its fields. -/
theorem wordM_fields (cw : Word) : wordM (fieldOp cw) (fieldI cw) (fieldRL cw) (fieldX cw) (fieldAddr cw) = cw := by
  have := cw.isLt
  apply BitVec.eq_of_toNat_eq
  rw [wordM_toNat, fieldI_toNat, fieldOp, fieldRL, fieldX, fieldAddr]
  simp only [BitVec.extractLsb'_toNat, Nat.shiftRight_eq_div_pow]
  omega

/-- Every word with bit 31 clear is the format-D word of its fields. -/
theorem wordD_fields (cw : Word) (h : fieldI cw = false) : wordD (fieldOp cw) (fieldRL cw) (fieldDisp cw) = cw := by
  have := cw.isLt
  have h1 := fieldI_toNat cw
  rw [h, Bool.toNat_false] at h1
  apply BitVec.eq_of_toNat_eq
  rw [wordD_toNat, fieldDisp, BitVec.ofInt_toInt, fieldOp, fieldRL]
  simp only [BitVec.extractLsb'_toNat, Nat.shiftRight_eq_div_pow]
  omega

end Sys2Proof
end

