-- ==== Sys2Proof/Laws/Edit.lean ====
section
/-! SUPPORT. Everything one turn of EBS's loop, the loop and its ending can do. -/

namespace Sys2Proof.Machine

/-- What EBS's loop leaves alone: everything but memory, x[1], TRAPFLAG, the accessor and the record of events; TRAPFLAG is never
cleared and memory keeps its canonical form. -/
structure EditKeeps (s t : State) : Prop where
  config : t.config = s.config
  psd : t.psd = s.psd
  trapRecord : t.trapRecord = s.trapRecord
  status : t.status = s.status
  completion : t.completion = s.completion
  command : t.command = s.command
  program : t.program = s.program
  presented : t.presented = s.presented
  regs : ∀ j : RegNum, j ≠ 1 → t.reg j = s.reg j
  flagged : s.trapFlag = true → t.trapFlag = true
  memory : s.mem.wf s.config.addrBits = true → t.mem.wf s.config.addrBits = true

theorem EditKeeps.refl (s : State) : EditKeeps s s :=
  ⟨rfl, rfl, rfl, rfl, rfl, rfl, rfl, rfl, fun _ _ => rfl, id, id⟩

theorem EditKeeps.trans {s t u : State} (h : EditKeeps s t) (k : EditKeeps t u) : EditKeeps s u :=
  ⟨k.config.trans h.config, k.psd.trans h.psd, k.trapRecord.trans h.trapRecord, k.status.trans h.status,
    k.completion.trans h.completion, k.command.trans h.command, k.program.trans h.program, k.presented.trans h.presented,
    fun j hj => (k.regs j hj).trans (h.regs j hj), fun hf => k.flagged (h.flagged hf),
    fun hm => by have := k.memory (by rw [h.config]; exact h.memory hm); rwa [h.config] at this⟩

theorem EditKeeps.memRead (s : State) (a n : Nat) : EditKeeps s (s.memRead a n).1 :=
  ⟨rfl, rfl, rfl, rfl, rfl, rfl, rfl, rfl, fun _ _ => rfl, fun h => by simp [h], id⟩

theorem EditKeeps.memWrite (s : State) (a : Nat) (bytes : List Byte) : EditKeeps s (s.memWrite a bytes) :=
  ⟨rfl, rfl, rfl, rfl, rfl, rfl, rfl, rfl, fun _ _ => rfl, fun h => by simp [h], fun h => State.memWrite_wf h a bytes⟩

theorem EditKeeps.mark (s : State) (v : Word) : EditKeeps s (s.writeReg 1 v) :=
  ⟨rfl, rfl, rfl, rfl, rfl, rfl, rfl, rfl, fun j hj => by rw [State.reg_writeReg, if_neg hj], id, id⟩

/-- Everything one turn can do: the frame; memory outside the pattern byte; and by its end: a committed step moved one byte on
with TRAPFLAG clear, an invalid digit changed no register and no byte with TRAPFLAG clear, a pending trap changed no register. -/
structure EditStepSpec (s : State) (w : EditWork) (t : State) (e : EditStep) : Prop where
  keeps : EditKeeps s t
  outside : ∀ c, c ≠ s.wrap w.dst → t.mem.read c = s.mem.read c
  committed : ∀ w1, e = .committed w1 → t.trapFlag = false ∧ w1.dst = s.wrap (w.dst + 1) ∧ w1.count = w.count - 1
  invalid : e = .invalid → t.trapFlag = false ∧ t.regs = s.regs ∧ t.mem = s.mem
  trapPending : e = .trapPending → t.trapFlag = true ∧ t.regs = s.regs

theorem memWrite_one_outside (s : State) (a : Nat) (b : Byte) (c : Nat) (h : c ≠ s.wrap a) :
    (s.memWrite a [b]).mem.read c = s.mem.read c := by
  rw [State.memWrite_mem]
  split
  · exact Memory.read_write_ne _ _ h
  · rfl

theorem editDigit_work (s : State) (fill p sb : Byte) (d : Nibble) (w : EditWork) :
    (editDigit s fill p sb d w).work.dst = w.dst ∧ (editDigit s fill p sb d w).work.count = w.count ∧
      (editDigit s fill p sb d w).store.isSome = true := by
  refine ⟨?_, ?_, rfl⟩ <;> · simp only [editDigit]; split_ifs <;> rfl

theorem editOther_work (fill p : Byte) (w : EditWork) :
    (editOther fill p w).work.dst = w.dst ∧ (editOther fill p w).work.count = w.count := by
  rw [editOther]; split <;> exact ⟨rfl, rfl⟩

theorem editCommit_spec {s : State} (hf : s.trapFlag = false) {w : EditWork} {act : EditAction} (hd : act.work.dst = w.dst)
    (hc : act.work.count = w.count) : EditStepSpec s w (s.editCommit w act).1 (s.editCommit w act).2 := by
  obtain ⟨work, store, mark⟩ := act
  cases store with
  | none =>
    cases mark with
    | none =>
      refine ⟨EditKeeps.refl s, fun _ _ => rfl, ?_, ?_, ?_⟩
      · rintro w1 ⟨⟩
        exact ⟨hf, by simp only [EditWork.advance]; rw [← hd], by simp only [EditWork.advance]; rw [← hc]⟩
      all_goals intro he; cases he
    | some a =>
      refine ⟨EditKeeps.mark s _, fun _ _ => rfl, ?_, ?_, ?_⟩
      · rintro w1 ⟨⟩
        exact ⟨hf, by simp only [EditWork.advance]; rw [← hd], by simp only [EditWork.advance]; rw [← hc]⟩
      all_goals intro he; cases he
  | some b =>
    by_cases ht : (s.memWrite w.dst [b]).trapFlag = true
    · have he : s.editCommit w ⟨work, some b, mark⟩ = (s.memWrite w.dst [b], .trapPending) := by
        simp only [State.editCommit, Option.isSome_some, ht, Bool.and_self, if_true]
      rw [he]
      refine ⟨EditKeeps.memWrite _ _ _, fun c hc => memWrite_one_outside s _ b c hc, ?_, ?_, fun _ => ⟨ht, rfl⟩⟩
      all_goals intros; simp_all
    · cases mark with
      | none =>
        have he : s.editCommit w ⟨work, some b, none⟩ = (s.memWrite w.dst [b], .committed (work.advance s)) := by
          simp only [State.editCommit, Option.isSome_some, ht, Bool.and_false, Bool.false_eq_true, if_false]
        rw [he]
        refine ⟨EditKeeps.memWrite _ _ _, fun c hc => memWrite_one_outside s _ b c hc, ?_, ?_, ?_⟩
        · rintro w1 ⟨⟩
          exact ⟨by simpa using ht, by simp only [EditWork.advance]; rw [← hd], by simp only [EditWork.advance]; rw [← hc]⟩
        all_goals intro he; cases he
      | some a =>
        have he : s.editCommit w ⟨work, some b, some a⟩ =
            ((s.memWrite w.dst [b]).writeReg 1 ((s.memWrite w.dst [b]).withAddrField ((s.memWrite w.dst [b]).reg 1) a),
              .committed (work.advance s)) := by
          simp only [State.editCommit, Option.isSome_some, ht, Bool.and_false, Bool.false_eq_true, if_false]
        rw [he]
        refine ⟨(EditKeeps.memWrite s _ _).trans (EditKeeps.mark _ _), fun c hc => memWrite_one_outside s _ b c hc, ?_, ?_, ?_⟩
        · rintro w1 ⟨⟩
          exact ⟨by simpa using ht, by simp only [EditWork.advance]; rw [← hd], by simp only [EditWork.advance]; rw [← hc]⟩
        all_goals intro he; cases he

/-- A step that follows a load whose poll passed. -/
theorem EditStepSpec.after_load {s : State} {a n : Nat} {w : EditWork} {t : State} {e : EditStep}
    (h : EditStepSpec (s.memRead a n).1 w t e) : EditStepSpec s w t e :=
  ⟨(EditKeeps.memRead s a n).trans h.keeps, h.outside, h.committed, h.invalid, h.trapPending⟩

theorem EditStepSpec.flagged_load {s : State} {a n : Nat} {w : EditWork} (h : (s.memRead a n).1.trapFlag = true) :
    EditStepSpec s w (s.memRead a n).1 .trapPending :=
  ⟨EditKeeps.memRead s a n, fun _ _ => rfl, fun _ he => (by cases he), fun he => (by cases he), fun _ => ⟨h, rfl⟩⟩

/-- Everything one turn of EBS's loop can do. -/
theorem State.editStep_spec (s : State) (fill : Byte) (disp : Int) (w : EditWork) :
    EditStepSpec s w (s.editStep fill disp w).1 (s.editStep fill disp w).2 := by
  rw [State.editStep]
  dsimp only
  split
  · rename_i h1
    exact EditStepSpec.flagged_load h1
  rename_i h1
  split
  swap
  · exact EditStepSpec.after_load (editCommit_spec (by simpa using h1) (editOther_work _ _ _).1 (editOther_work _ _ _).2)
  split
  · rename_i h3
    exact (EditStepSpec.flagged_load h3).after_load
  rename_i h3
  generalize (if w.right = true then _ else _ : Nibble) = d
  split
  · refine ⟨(EditKeeps.memRead _ _ _).trans (EditKeeps.memRead _ _ _), fun _ _ => rfl, fun _ he => (by cases he),
      fun _ => ⟨by simpa using h3, rfl, rfl⟩, fun he => by cases he⟩
  · refine EditStepSpec.after_load (EditStepSpec.after_load (editCommit_spec (by simpa using h3) ?_ ?_))
    · exact (editDigit_work _ _ _ _ _ _).1
    · exact (editDigit_work _ _ _ _ _ _).2.1

/-- Everything EBS's loop can do: the frame; memory outside its `n` pattern bytes; TRAPFLAG set exactly where it ended for it. -/
theorem State.editLoop_spec (fill : Byte) (disp : Int) (n : Nat) (s : State) (w : EditWork) (hn : 0 < n ∨ s.trapFlag = false) :
    EditKeeps s (State.editLoop fill disp n s w).1 ∧
      (∀ c, (∀ k < n, c ≠ s.wrap (w.dst + k)) → (State.editLoop fill disp n s w).1.mem.read c = s.mem.read c) ∧
      ((State.editLoop fill disp n s w).2.2 = .trapPending ↔ (State.editLoop fill disp n s w).1.trapFlag = true) := by
  induction n generalizing s w with
  | zero =>
    have hf : s.trapFlag = false := hn.resolve_left (by omega)
    exact ⟨EditKeeps.refl s, fun _ _ => rfl, by simp [State.editLoop, hf]⟩
  | succ n ih =>
    have h := s.editStep_spec fill disp w
    rw [State.editLoop]
    split
    · rename_i s1 w1 he
      rw [he] at h
      obtain ⟨h1, h2, -⟩ := h.committed w1 rfl
      obtain ⟨i1, i2, i3⟩ := ih s1 w1 (.inr h1)
      refine ⟨h.keeps.trans i1, ?_, i3⟩
      intro c hc
      rw [i2, h.outside c (by simpa using hc 0 (by omega))]
      intro k hk
      have := hc (k + 1) (by omega)
      rw [State.wrap_congr h.keeps.config, h2]
      simpa [State.wrap, Nat.add_assoc, Nat.add_comm 1 k] using this
    · rename_i s1 he
      rw [he] at h
      obtain ⟨h1, -, h3⟩ := h.invalid rfl
      exact ⟨h.keeps, fun c _ => by dsimp only; rw [h3], by simpa using h1⟩
    · rename_i s1 he
      rw [he] at h
      obtain ⟨h1, -⟩ := h.trapPending rfl
      exact ⟨h.keeps, fun c hc => h.outside c (by simpa using hc 0 (by omega)), by simpa using h1⟩

/-- Everything the end of EBS can do: progress written back, one condition code, and the ending's trap or report. -/
theorem State.editFinish_spec (s : State) (r : RegNum) (w : EditWork) (ending : EditEnding) (h : ending = .trapPending ↔ s.trapFlag = true) :
    ∃ t, s.editFinish r w s.psd.dm ending = .next t ∧ t.regs = (s.editWriteBack r w).regs ∧ t.mem = s.mem ∧ t.accessor = s.accessor ∧
      (ending = .exhausted → EndsDone s t (ccOf w.right w.sig w.nz w.neg)) ∧
      (ending = .invalidDigit → EndsMaskable s t (ccOf true false w.nz w.neg)) ∧
      (ending = .trapPending → SameContext s t ∧ t.psd = { s.psd with cc := ccOf w.right w.sig w.nz w.neg } ∧
        t.completion = some .aborted ∧ t.trapFlag = true ∧ t.trapRecord = s.trapRecord) := by
  cases ending with
  | exhausted =>
    exact ⟨_, rfl, rfl, rfl, rfl, fun _ => ⟨⟨rfl, rfl, rfl, rfl, rfl⟩, rfl, rfl, rfl, rfl⟩, fun he => (by cases he),
      fun he => (by cases he)⟩
  | invalidDigit =>
    obtain ⟨t, h1, h2, h3, h4, -, h6⟩ := (s.editWriteBack r w).writeCC_decimalTrap_spec (ccOf true false w.nz w.neg)
    exact ⟨t, h1, h2, h3, h4, fun he => (by cases he),
      fun _ => SameFront.endsMaskable (s' := s.editWriteBack r w) ⟨rfl, rfl, rfl, rfl, rfl, rfl, rfl⟩ h6, fun he => (by cases he)⟩
  | trapPending =>
    exact ⟨_, rfl, rfl, rfl, rfl, fun he => (by cases he), fun he => (by cases he),
      fun _ => ⟨⟨rfl, rfl, rfl, rfl, rfl⟩, rfl, rfl, h.1 rfl, rfl⟩⟩

end Sys2Proof.Machine
end

