-- ==== Sys2Proof/Laws/Float.lean ====
section
/-! SUPPORT. The small functions of the converters and of rounding, each said once; the two shapes of a floating instruction. -/

namespace Sys2Proof.Machine

/-! ## Integers and powers of two -/

theorem zpow_toNat {k : Int} (h : 0 ≤ k) : (2 : ℚ) ^ k = 2 ^ k.toNat := by
  conv_lhs => rw [← Int.toNat_of_nonneg h]
  rw [zpow_natCast]

/-- `m * 2^e` lies between the powers of two that its leading bit names. -/
theorem log2_bounds {m : Nat} (hm : 0 < m) (e : Int) :
    (2 : ℚ) ^ (e + (m.log2 : Int)) ≤ (m : ℚ) * 2 ^ e ∧ (m : ℚ) * 2 ^ e < (2 : ℚ) ^ (e + (m.log2 : Int) + 1) := by
  have h1 : 2 ^ m.log2 ≤ m := Nat.log2_self_le (by omega)
  have h2 : m < 2 ^ (m.log2 + 1) := Nat.lt_log2_self
  have hp : (0 : ℚ) < 2 ^ e := by positivity
  constructor
  · rw [zpow_add₀ (by norm_num), zpow_natCast, mul_comm]
    exact mul_le_mul_of_nonneg_right (by exact_mod_cast h1) hp.le
  · rw [add_assoc, zpow_add₀ (by norm_num), mul_comm ((2 : ℚ) ^ e)]
    have : (2 : ℚ) ^ ((m.log2 : Int) + 1) = ((2 ^ (m.log2 + 1) : Nat) : ℚ) := by push_cast; rw [← zpow_natCast]; norm_cast
    rw [this]
    exact mul_lt_mul_of_pos_right (by exact_mod_cast h2) hp

/-- `hexExponent` is the E of `16^(E-1) ≤ m * 2^e < 16^E`. -/
theorem hexExponent_spec {m : Nat} (hm : 0 < m) (e : Int) :
    (16 : ℚ) ^ (hexExponent m e - 1) ≤ (m : ℚ) * 2 ^ e ∧ (m : ℚ) * 2 ^ e < (16 : ℚ) ^ hexExponent m e := by
  obtain ⟨h1, h2⟩ := log2_bounds hm e
  have h16 : ∀ k : Int, (16 : ℚ) ^ k = 2 ^ (4 * k) := fun k => by rw [zpow_mul]; norm_num
  rw [h16, h16]
  constructor
  · exact le_trans (zpow_le_zpow_right₀ (by norm_num) (by rw [hexExponent]; omega)) h1
  · exact lt_of_lt_of_le h2 (zpow_le_zpow_right₀ (by norm_num) (by rw [hexExponent]; omega))

/-- `floorShift m k` is the floor of `m * 2^k`. -/
theorem floorShift_spec (m : Nat) (k : Int) :
    (floorShift m k : ℚ) ≤ (m : ℚ) * 2 ^ k ∧ (m : ℚ) * 2 ^ k < (floorShift m k : ℚ) + 1 := by
  rw [floorShift]
  split_ifs with h
  · rw [zpow_toNat h]
    push_cast
    exact ⟨le_refl _, by linarith⟩
  · have hk : (2 : ℚ) ^ k = 1 / ((2 ^ (-k).toNat : Nat) : ℚ) := by
      push_cast
      rw [← zpow_toNat (by omega), zpow_neg, one_div, inv_inv]
    have hp : (0 : ℚ) < ((2 ^ (-k).toNat : Nat) : ℚ) := by positivity
    rw [hk, mul_one_div]
    constructor
    · exact Nat.cast_div_le
    · rw [div_lt_iff₀ hp]
      have := Nat.lt_div_mul_add (a := m) (b := 2 ^ (-k).toNat) (by positivity)
      have h2 : m < (m / 2 ^ (-k).toNat + 1) * 2 ^ (-k).toNat := by linarith [Nat.add_mul (m / 2 ^ (-k).toNat) 1 (2 ^ (-k).toNat)]
      exact_mod_cast h2

/-- The resuscitation drops `n` hexadecimal digits. -/
theorem resuscitate_eq (n frac : Nat) : resuscitate n frac = frac / 16 ^ n := by
  induction n generalizing frac with
  | zero => simp [resuscitate]
  | succ n ih =>
    rw [resuscitate]
    split_ifs with h
    · simp [h]
    · rw [ih, Nat.div_div_eq_div_mul, ← Nat.pow_succ']

/-- `roundShift m k` is a nearest integer to `m / 2^k`, and the even one of two. -/
theorem roundShift_spec (m k : Nat) (hk : 0 < k) :
    2 * roundShift m k * 2 ^ k ≤ 2 * m + 2 ^ k ∧ 2 * m ≤ 2 * roundShift m k * 2 ^ k + 2 ^ k ∧
      ((2 * m = 2 * roundShift m k * 2 ^ k + 2 ^ k ∨ 2 * roundShift m k * 2 ^ k = 2 * m + 2 ^ k) → roundShift m k % 2 = 0) := by
  obtain ⟨j, rfl⟩ : ∃ j, k = j + 1 := ⟨k - 1, by omega⟩
  have h1 := Nat.div_add_mod m (2 ^ (j + 1))
  have h2 := Nat.mod_lt m (show 0 < 2 ^ (j + 1) by positivity)
  have h3 : 2 ^ (j + 1) = 2 * 2 ^ j := Nat.pow_succ'
  have h4 : 0 < 2 ^ j := by positivity
  rw [roundShift]
  rw [Nat.add_sub_cancel]
  generalize m / 2 ^ (j + 1) = q at *
  generalize m % 2 ^ (j + 1) = r at *
  rw [h3] at *
  generalize 2 ^ j = p at *
  split_ifs with hc
  · have h5 : p ≤ r := by omega
    have e : 2 * (q + 1) * (2 * p) = 2 * (2 * p * q) + 4 * p := by ring
    refine ⟨by omega, by omega, ?_⟩
    omega
  · have h5 : r ≤ p := by omega
    have e : 2 * q * (2 * p) = 2 * (2 * p * q) := by ring
    refine ⟨by omega, by omega, ?_⟩
    omega

/-! ## Words from their fields -/

/-- The magnitude of an assembled word. -/
theorem magnitudeWord_assemble (width : Nat) (hw : 8 < width) (neg : Bool) (e : Int) (frac : Nat) (h1 : -64 ≤ e) (h2 : e ≤ 63)
    (h3 : 0 < frac) (h4 : frac < 2 ^ fractionBits width) :
    magnitudeWord (assemble width neg e frac) = (e + 64).toNat * 2 ^ fractionBits width + frac ∧
      (assemble width neg e frac).msb = neg := by
  have hpow : 2 ^ width = 2 * (128 * 2 ^ fractionBits width) := by
    rw [show width = fractionBits width + 8 by rw [fractionBits]; omega, pow_add, show fractionBits (fractionBits width + 8) = fractionBits width by
      rw [fractionBits]; omega]
    ring
  have hpow1 : 2 ^ (width - 1) = 128 * 2 ^ fractionBits width := by
    have h : 2 ^ width = 2 * 2 ^ (width - 1) := by
      conv_lhs => rw [show width = (width - 1) + 1 by omega, Nat.pow_succ']
    omega
  have hlt : (e + 64).toNat * 2 ^ fractionBits width + frac < 128 * 2 ^ fractionBits width := by
    have h5 : (e + 64).toNat + 1 ≤ 128 := by omega
    have := Nat.mul_le_mul_right (2 ^ fractionBits width) h5
    rw [Nat.add_mul] at this
    omega
  have hpos : 0 < (e + 64).toNat * 2 ^ fractionBits width + frac := by omega
  rw [assemble]
  generalize (e + 64).toNat * 2 ^ fractionBits width + frac = m at *
  have hm : (BitVec.ofNat width m).toNat = m := by rw [BitVec.toNat_ofNat, Nat.mod_eq_of_lt (by omega)]
  cases neg with
  | false =>
    have hb : (BitVec.ofNat width m).msb = false := by rw [BitVec.msb_eq_decide, hm]; simp; omega
    simp only [Bool.false_eq_true, if_false, magnitudeWord, hb, hm, and_self]
  | true =>
    have hn : (-(BitVec.ofNat width m)).toNat = 2 ^ width - m := by
      rw [BitVec.toNat_neg, hm, Nat.mod_eq_of_lt (by omega)]
    have hb : (-(BitVec.ofNat width m)).msb = true := by rw [BitVec.msb_eq_decide, hn]; simp; omega
    simp only [if_true, magnitudeWord, hb, hn, and_true]
    omega

/-- The fields of an assembled word are the ones it was assembled from. -/
theorem fields_assemble (width : Nat) (hw : 8 < width) (neg : Bool) (e : Int) (frac : Nat) (h1 : -64 ≤ e) (h2 : e ≤ 63)
    (h3 : 0 < frac) (h4 : frac < 2 ^ fractionBits width) :
    (characteristic (assemble width neg e frac) : Int) = e + 64 ∧ fraction (assemble width neg e frac) = frac := by
  rw [characteristic, fraction, (magnitudeWord_assemble width hw neg e frac h1 h2 h3 h4).1, Nat.mul_comm, Nat.mul_add_div (by positivity),
    Nat.mul_add_mod, Nat.div_eq_of_lt h4, Nat.mod_eq_of_lt h4]
  exact ⟨by omega, rfl⟩

/-! ## The two shapes of a floating instruction -/

/-- The state after the fetch of a floating command: the mode read, the registers read, the one load made. -/
def State.afterFetch (s : State) (reads : List RegNum) (a n : Nat) : State :=
  { (s.memRead a n).1 with ports := .load (s.wrap a) n :: (reads.reverse.map PortEvent.regRead ++ .psdRead :: s.ports) }

theorem State.passes_one (s : State) (a n : Nat) : s.passes 1 ↔ (s.memRead a n).1.trapFlag = false := by
  rw [s.passes_succ 0 0 n]
  simp only [State.memRead_trapFlag, Bool.or_eq_false_iff, State.passes]
  simp +contextual

/-- Everything a floating command can do after its fetch: the abort, the result written with its code, or the fault with nothing
written; and the events of each (R259). -/
structure FloatEnds {width : Nat} (s t fetched : State) (write : State → BitVec width → State)
    (result : Except FloatFault (BitVec width)) : Prop where
  aborts : ¬ s.passes 1 → AbortsUnchanged s t ∧ t.ports = fetched.ports
  completes : ∀ w, s.passes 1 → result = .ok w → t.regs = (write fetched w).regs ∧ t.mem = s.mem ∧ EndsDone s t (floatCC w) ∧
    t.ports = .ccWrite (floatCC w) :: (write fetched w).ports
  faults : ∀ kind, s.passes 1 → result = .error kind → FaultsFloat s t (floatFaultCC kind) ∧
    t.ports = .trap 0x44 :: .ccWrite (floatFaultCC kind) :: fetched.ports

/-- A write of a result that touches registers and the record of events alone. -/
def WritesOnlyRegs {width : Nat} (write : State → BitVec width → State) : Prop :=
  ∀ (s : State) (w : BitVec width), ∃ regs ports, write s w = { s with regs := regs, ports := ports }

theorem floatEnds {width : Nat} (s : State) (reads : List RegNum) (a n : Nat) (write : State → BitVec width → State)
    (hw : WritesOnlyRegs write) (result : Except FloatFault (BitVec width)) :
    ∃ t, (if (s.afterFetch reads a n).trapFlag then (s.afterFetch reads a n).abort
        else (s.afterFetch reads a n).finishFloat write result) = .next t ∧
      FloatEnds s t (s.afterFetch reads a n) write result := by
  by_cases hp : s.passes 1
  · have hf : (s.afterFetch reads a n).trapFlag = false := (s.passes_one a n).1 hp
    have hs : SameFront s (s.afterFetch reads a n) := ⟨rfl, rfl, rfl, rfl, rfl, hf.trans hp.1.symm, rfl⟩
    simp only [hf, Bool.false_eq_true, if_false]
    cases result with
    | ok w =>
      obtain ⟨regs, ports, hx⟩ := hw (s.afterFetch reads a n) w
      obtain ⟨t, h1, h2, h3, -, h5, h6⟩ := (write (s.afterFetch reads a n) w).writeCC_complete_spec (floatCC w)
      have hk : SameFront s (write (s.afterFetch reads a n) w) := by rw [hx]; exact ⟨rfl, rfl, rfl, rfl, rfl, hs.trapFlag, rfl⟩
      have hm : (write (s.afterFetch reads a n) w).mem = s.mem := by rw [hx]; rfl
      refine ⟨t, h1, fun hn => absurd hp hn, ?_, ?_⟩
      · rintro w' - ⟨⟩
        exact ⟨h2, h3.trans hm, hk.endsDone h6, h5⟩
      · rintro kind - ⟨⟩
    | error kind =>
      obtain ⟨t, h1, -, h3, h4⟩ := (s.afterFetch reads a n).floatFault_spec kind
      refine ⟨t, h1, fun hn => absurd hp hn, ?_, ?_⟩
      · rintro w - ⟨⟩
      · rintro kind' - ⟨⟩
        exact ⟨⟨h4.1, h4.2.1, hs.endsTrapped h4.2.2⟩, h3⟩
  · have hf : (s.afterFetch reads a n).trapFlag = true :=
      (Bool.not_eq_false _).mp ((not_congr (s.passes_one a n)).1 hp)
    simp only [hf, if_true]
    exact ⟨_, rfl, fun _ => ⟨⟨rfl, rfl, ⟨rfl, rfl, rfl, rfl, rfl⟩, rfl, rfl, hf, rfl⟩, rfl⟩, fun _ h => absurd h hp,
      fun _ h => absurd h hp⟩

/-- Everything a short operation can do. -/
theorem floatShort_spec (op : FloatOp) (r : RegNum) (s : State) :
    ∃ t, floatShort op r s = .next t ∧
      FloatEnds s t (s.afterFetch [r] (alignDown 4 s.ea) 4) (fun s w => s.writeReg r w)
        (floatResult 32 op s.uflow.2 (sigmaToDouble (s.reg r)) (sigmaToDouble s.loadShort.2)) :=
  floatEnds s [r] (alignDown 4 s.ea) 4 _ (fun _ _ => ⟨_, _, rfl⟩) _

/-- Everything a long operation can do. -/
theorem floatLong_spec (op : FloatOp) (r : RegNum) (s : State) :
    ∃ t, floatLong op r s = .next t ∧
      FloatEnds s t (s.afterFetch [r, pairLow r] (alignDown 8 s.ea) 8) (fun s w => s.writeLong r w)
        (floatResult 64 op s.uflow.2 (sigmaToDouble (s.longReg r).2) (sigmaToDouble s.loadLong.2)) :=
  floatEnds s [r, pairLow r] (alignDown 8 s.ea) 8 _ (fun _ _ => ⟨_, _, rfl⟩) _

end Sys2Proof.Machine
end

