-- ==== Sys2Proof/Laws/PerInstr.lean ====
section
/-! SUPPORT. The family EncodeMatchesRow: the word that spells a well-formed instruction agrees with the instruction's row of the opcode
table, `encode i & mask = match` (spec 30_encoding R78). -/

namespace Sys2Proof.Laws.EncodeMatchesRow

/-- The statement, about an instruction as syntax. -/
def Statement (i : Sys2Proof.Instr) : Prop := i.wellFormed = true → encode i &&& i.row.2 = i.row.1

theorem opMask_bit : ∀ k : Fin 32, (0x7F000000 : Word).getLsbD k = decide (24 ≤ k.val ∧ k.val < 31) := by decide

theorem editMask_bit : ∀ k : Fin 32, (0xFF000000 : Word).getLsbD k = decide (24 ≤ k.val) := by decide

/-- A word under the mask of format M is its operation code in place. -/
theorem and_opMask (w : Word) (op : BitVec 7) (h : fieldOp w = op) : w &&& (0x7F000000 : Word) = op.setWidth 32 <<< 24 := by
  subst h
  apply BitVec.eq_of_getLsbD_eq
  intro k hk
  rw [BitVec.getLsbD_and, opMask_bit ⟨k, hk⟩, BitVec.getLsbD_shiftLeft, BitVec.getLsbD_setWidth, fieldOp, BitVec.getLsbD_extractLsb']
  by_cases h1 : 24 ≤ k
  · by_cases h2 : k < 31
    · simp [h1, h2, hk, show ¬ k < 24 by omega, show k - 24 < 32 by omega, show k - 24 < 7 by omega, show 24 + (k - 24) = k by omega]
    · simp [h1, h2, hk, show ¬ k - 24 < 7 by omega]
  · simp [h1, show k < 24 by omega]

/-- A word under the mask of EBS, bit 31 clear, is its operation code in place. -/
theorem and_editMask (w : Word) (op : BitVec 7) (h : fieldOp w = op) (hi : fieldI w = false) :
    w &&& (0xFF000000 : Word) = op.setWidth 32 <<< 24 := by
  rw [← and_opMask w op h]
  apply BitVec.eq_of_getLsbD_eq
  intro k hk
  rw [BitVec.getLsbD_and, BitVec.getLsbD_and, editMask_bit ⟨k, hk⟩, opMask_bit ⟨k, hk⟩]
  by_cases h1 : k = 31
  · have h2 : w.getLsbD k = false := by rw [h1]; exact hi
    rw [h2, Bool.false_and, Bool.false_and]
  · simp [show k < 31 by omega]

theorem fsl (ind : Bool) (r : BitVec 4) (x : BitVec 3) (addr : BitVec 17) : Statement (.fsl ind r x addr) := fun _ =>
  and_opMask _ 0x1C (fieldOp_wordM _ _ _ _ _)

theorem fal (ind : Bool) (r : BitVec 4) (x : BitVec 3) (addr : BitVec 17) : Statement (.fal ind r x addr) := fun _ =>
  and_opMask _ 0x1D (fieldOp_wordM _ _ _ _ _)

theorem fdl (ind : Bool) (r : BitVec 4) (x : BitVec 3) (addr : BitVec 17) : Statement (.fdl ind r x addr) := fun _ =>
  and_opMask _ 0x1E (fieldOp_wordM _ _ _ _ _)

theorem fml (ind : Bool) (r : BitVec 4) (x : BitVec 3) (addr : BitVec 17) : Statement (.fml ind r x addr) := fun _ =>
  and_opMask _ 0x1F (fieldOp_wordM _ _ _ _ _)

theorem fss (ind : Bool) (r : BitVec 4) (x : BitVec 3) (addr : BitVec 17) : Statement (.fss ind r x addr) := fun _ =>
  and_opMask _ 0x3C (fieldOp_wordM _ _ _ _ _)

theorem fas (ind : Bool) (r : BitVec 4) (x : BitVec 3) (addr : BitVec 17) : Statement (.fas ind r x addr) := fun _ =>
  and_opMask _ 0x3D (fieldOp_wordM _ _ _ _ _)

theorem fds (ind : Bool) (r : BitVec 4) (x : BitVec 3) (addr : BitVec 17) : Statement (.fds ind r x addr) := fun _ =>
  and_opMask _ 0x3E (fieldOp_wordM _ _ _ _ _)

theorem fms (ind : Bool) (r : BitVec 4) (x : BitVec 3) (addr : BitVec 17) : Statement (.fms ind r x addr) := fun _ =>
  and_opMask _ 0x3F (fieldOp_wordM _ _ _ _ _)

theorem ebs (r : RegNum) (disp : Int) : Statement (.ebs r disp) := fun _ =>
  and_editMask _ 0x63 (fieldOp_wordD _ _ _) (fieldI_wordD _ _ _)

theorem pack (ind : Bool) (l : BitVec 4) (x : BitVec 3) (addr : BitVec 17) : Statement (.pack ind l x addr) := fun _ =>
  and_opMask _ 0x76 (fieldOp_wordM _ _ _ _ _)

theorem unpk (ind : Bool) (l : BitVec 4) (x : BitVec 3) (addr : BitVec 17) : Statement (.unpk ind l x addr) := fun _ =>
  and_opMask _ 0x77 (fieldOp_wordM _ _ _ _ _)

theorem ds (ind : Bool) (l : BitVec 4) (x : BitVec 3) (addr : BitVec 17) : Statement (.ds ind l x addr) := fun _ =>
  and_opMask _ 0x78 (fieldOp_wordM _ _ _ _ _)

theorem da (ind : Bool) (l : BitVec 4) (x : BitVec 3) (addr : BitVec 17) : Statement (.da ind l x addr) := fun _ =>
  and_opMask _ 0x79 (fieldOp_wordM _ _ _ _ _)

theorem dd (ind : Bool) (l : BitVec 4) (x : BitVec 3) (addr : BitVec 17) : Statement (.dd ind l x addr) := fun _ =>
  and_opMask _ 0x7A (fieldOp_wordM _ _ _ _ _)

theorem dm (ind : Bool) (l : BitVec 4) (x : BitVec 3) (addr : BitVec 17) : Statement (.dm ind l x addr) := fun _ =>
  and_opMask _ 0x7B (fieldOp_wordM _ _ _ _ _)

theorem dsa (ind : Bool) (rl : BitVec 4) (x : BitVec 3) (addr : BitVec 17) : Statement (.dsa ind rl x addr) := fun _ =>
  and_opMask _ 0x7C (fieldOp_wordM _ _ _ _ _)

theorem dc (ind : Bool) (l : BitVec 4) (x : BitVec 3) (addr : BitVec 17) : Statement (.dc ind l x addr) := fun _ =>
  and_opMask _ 0x7D (fieldOp_wordM _ _ _ _ _)

theorem dl (ind : Bool) (l : BitVec 4) (x : BitVec 3) (addr : BitVec 17) : Statement (.dl ind l x addr) := fun _ =>
  and_opMask _ 0x7E (fieldOp_wordM _ _ _ _ _)

theorem dst (ind : Bool) (l : BitVec 4) (x : BitVec 3) (addr : BitVec 17) : Statement (.dst ind l x addr) := fun _ =>
  and_opMask _ 0x7F (fieldOp_wordM _ _ _ _ _)

end Sys2Proof.Laws.EncodeMatchesRow
end

