-- ==== Sys2Proof/Tests/Slice0.lean ====
section
/-! SUPPORT. Tests: the checks of WellFormed, decoding of words written out from the formats, one step of each instruction against the
vectors of spec/95_test_vectors.md, and for every statement with hypotheses a state and operands that meet them. -/

namespace Sys2Proof.Tests

set_option Elab.async false

open Sys2Proof Sys2Proof.Machine

/-! ## Helpers -/

/-- A launch state with one command in the list and on the port, DECA as a number, and bytes from an address on. -/
def launch (cw : Nat) (ea : Nat) (deca : Nat) (addr : Nat) (bytes : List Nat) : State :=
  let word (k : Nat) : Word := BitVec.ofNat 32 (deca / 2 ^ (32 * k))
  let c : Command := { cw := BitVec.ofNat 32 cw, ea := BitVec.ofNat 24 ea, opnd := 0 }
  { ((((State.reset.pokeReg 12 (word 3)).pokeReg 13 (word 2)).pokeReg 14 (word 1)).pokeReg 15 (word 0)) with
    mem := Memory.writeBytes 17 [] addr (bytes.map (BitVec.ofNat 8))
    command := c
    program := [c] }

/-- A launch state of a floating vector: x[2] : x[3] and x[4], and the doubleword at 0x400. -/
def launchFloat (cw : Nat) (ea : Nat) (pair : Nat) (short : Nat) (double : Nat) : State :=
  ((((launch cw ea 0 0x400 ((List.range 8).map fun k => double / 256 ^ (7 - k) % 256)).pokeReg 2
    (BitVec.ofNat 32 (pair / 2 ^ 32))).pokeReg 3 (BitVec.ofNat 32 pair)).pokeReg 4 (BitVec.ofNat 32 short))

/-- A launch state of an EBS vector: x[6], x[7], x[1] = 0, the source at 0x100 and the pattern at 0x200. -/
def launchEdit (x6 x7 : Nat) (source pattern : List Nat) : State :=
  let s := launch 0x63600000 0 0 0x100 source
  let s1 := ((s.pokeReg 6 (BitVec.ofNat 32 x6)).pokeReg 7 (BitVec.ofNat 32 x7)).pokeReg 1 0
  { s1 with mem := Memory.writeBytes 17 s1.mem 0x200 (pattern.map (BitVec.ofNat 8)) }

/-- The decimal mask armed. -/
def armed (s : State) : State := { s with psd := { s.psd with dm := true } }

/-- Another condition code. -/
def withCC (s : State) (cc : BitVec 4) : State := { s with psd := { s.psd with cc := cc } }

/-- FZ set: underflow is reported (the default table of R236). -/
def reporting (s : State) : State := { s with psd := { s.psd with fz := true } }

/-- The accessor passes `n` transactions and flags the next. -/
def flagging (n : Nat) (stored : Bool) (s : State) : State := { s with accessor := List.replicate n .pass ++ [.flag stored] }

/-- DECA as a number. -/
def decaNat (s : State) : Nat := bytesToNat s.deca

/-- A result is a next state with a property. -/
def nextIs (r : Result) (p : State → Bool) : Bool :=
  match r with
  | .next t => p t
  | .fault _ => false
  | .refused _ => false

theorem exists_of_nextIs {r : Result} {p : State → Bool} (h : nextIs r p = true) : ∃ t, r = .next t ∧ p t = true := by
  cases r with
  | next t => exact ⟨t, rfl, h⟩
  | fault _ => exact absurd h (by simp [nextIs])
  | refused _ => exact absurd h (by simp [nextIs])

/-- One step ends with a condition code, a report and a property. -/
def ends (s : State) (cc : BitVec 4) (c : Completion) (p : State → Bool) : Bool :=
  nextIs (step s) fun t => t.psd.cc == cc && t.completion == some c && p t

/-- The bytes at an address are these. -/
def holds (t : State) (a : Nat) (bytes : List Nat) : Bool := t.bytesAt a bytes.length == bytes.map (BitVec.ofNat 8)

/-! ## WellFormed -/

/-- A displacement one above, and one below, the 20-bit range is refused; the ends of the range are not (R77). -/
theorem test_displacement_range :
    (Instr.ebs 6 524288).wellFormed = false ∧ (Instr.ebs 6 (-524289)).wellFormed = false ∧
      (Instr.ebs 6 524287).wellFormed = true ∧ (Instr.ebs 6 (-524288)).wellFormed = true := by decide +kernel

/-- An effective address of more than ADDR_BITS bits is refused (R70). -/
theorem test_address_range :
    Command.wellFormed Config.default { cw := 0, ea := 0x20000, opnd := 0 } = false ∧
      Command.wellFormed Config.default { cw := 0, ea := 0x1FFFF, opnd := 0 } = true := by decide +kernel

/-! ## Decoding: words written out as I, OP, RL, X, ADDR (format M) or 0, OP, R, DISP (format D) -/

theorem test_decode_fsl : decode 0b0_0011100_0011_001_10101101001011010 = .ok (.fsl false 3 1 0x15a5a) := by decide +kernel

theorem test_decode_fal : decode 0b1_0011101_1000_100_10100101101001011 = .ok (.fal true 8 4 0x14b4b) := by decide +kernel

theorem test_decode_fdl : decode 0b0_0011110_1101_111_10111100001111000 = .ok (.fdl false 13 7 0x17878) := by decide +kernel

theorem test_decode_fml : decode 0b1_0011111_0010_010_10110100101101001 = .ok (.fml true 2 2 0x16969) := by decide +kernel

theorem test_decode_fss : decode 0b0_0111100_0111_101_10001111000011110 = .ok (.fss false 7 5 0x11e1e) := by decide +kernel

theorem test_decode_fas : decode 0b1_0111101_1100_000_10000111100001111 = .ok (.fas true 12 0 0x10f0f) := by decide +kernel

theorem test_decode_fds : decode 0b0_0111110_0001_011_10011110000111100 = .ok (.fds false 1 3 0x13c3c) := by decide +kernel

theorem test_decode_fms : decode 0b1_0111111_0110_110_10010110100101101 = .ok (.fms true 6 6 0x12d2d) := by decide +kernel

theorem test_decode_pack : decode 0b1_1110110_0000_100_11100001111000011 = .ok (.pack true 0 4 0x1c3c3) := by decide +kernel

theorem test_decode_unpk : decode 0b0_1110111_0101_111_11111000011110000 = .ok (.unpk false 5 7 0x1f0f0) := by decide +kernel

theorem test_decode_ds : decode 0b1_1111000_1010_010_11110000111100001 = .ok (.ds true 10 2 0x1e1e1) := by decide +kernel

theorem test_decode_da : decode 0b0_1111001_1111_101_11001011010010110 = .ok (.da false 15 5 0x19696) := by decide +kernel

theorem test_decode_dd : decode 0b1_1111010_0100_000_11000011110000111 = .ok (.dd true 4 0 0x18787) := by decide +kernel

theorem test_decode_dm : decode 0b0_1111011_1001_011_11011010010110100 = .ok (.dm false 9 3 0x1b4b4) := by decide +kernel

theorem test_decode_dsa : decode 0b1_1111100_1110_110_11010010110100101 = .ok (.dsa true 14 6 0x1a5a5) := by decide +kernel

theorem test_decode_dc : decode 0b0_1111101_0011_001_00100101101001010 = .ok (.dc false 3 1 0x4b4a) := by decide +kernel

theorem test_decode_dl : decode 0b1_1111110_1000_100_00111100001111011 = .ok (.dl true 8 4 0x787b) := by decide +kernel

theorem test_decode_dst : decode 0b0_1111111_1101_111_00110100101101000 = .ok (.dst false 13 7 0x6968) := by decide +kernel

theorem test_decode_ebs : decode 0b0_1100011_1010_11111111111111111110 = .ok (.ebs 10 (-2)) := by decide +kernel

theorem test_decode_ebs_forward : decode 0b0_1100011_0110_01000000000000000001 = .ok (.ebs 6 0x40001) := by decide +kernel

/-- EBS's code with bit 31 set, and an unlisted code, are refused by name (R73, R83). -/
theorem test_decode_refuses :
    decode 0xE3600000 = .error .editWithBit31 ∧ decode 0x40000000 = .error (.unassignedOperationCode 0x40) := by decide +kernel

/-- What the host asks of the decoder. -/
theorem test_decode_table_word : decodeTableWord 32 0x7E300100 = some (.dl false 3 0 0x100) ∧ decodeTableWord 32 0 = none := by decide +kernel

/-! ## One step of each instruction (the vector's name of 95_test_vectors in the docstring) -/

/-- VA3. -/
theorem test_dl_generated_sign : ends (launch 0x7E200100 0x400 0 0x400 [0x12, 0x3F]) 0b0010 .done (fun t => decaNat t == 0x123C) = true := by decide +kernel

/-- VA5. -/
theorem test_dl_invalid_digit_armed : ends (armed (withCC (launch 0x7E200100 0x400 0x77C 0x400 [0x1A, 0x3C]) 0b0010)) 0b1010 (.trapped 0x45)
    (fun t => decaNat t == 0x77C && t.trapRecord == [0x45] && t.trapFlag) = true := by decide +kernel

/-- VA8. -/
theorem test_dst : ends (launch 0x7F300100 0x400 0x12345D 0x400 []) 0b0001 .done (fun t => holds t 0x400 [0x12, 0x34, 0x5D]) = true := by decide +kernel

/-- VA9. -/
theorem test_dst_overflow : ends (withCC (launch 0x7F200100 0x400 0x12345D 0x400 []) 0b0001) 0b0101 .done (fun t => t.mem == []) = true := by decide +kernel

/-- VA17. -/
theorem test_da : ends (launch 0x79200100 0x400 0x10C 0x400 [0x02, 0x5D]) 0b0001 .done (fun t => decaNat t == 0x15D) = true := by decide +kernel

/-- VA15. -/
theorem test_da_overflow : ends (launch 0x79100100 0x400 0x9999999999999999999999999999999C 0x400 [0x1C]) 0b0100 .done
    (fun t => decaNat t == 0x9999999999999999999999999999999C) = true := by decide +kernel

/-- VA19. -/
theorem test_ds : ends (launch 0x78200100 0x400 0x100C 0x400 [0x25, 0x0C]) 0b0001 .done (fun t => decaNat t == 0x150D) = true := by decide +kernel

/-- VA21. -/
theorem test_ds_zero : ends (launch 0x78300100 0x400 0x12345D 0x400 [0x12, 0x34, 0x5D]) 0b0000 .done (fun t => decaNat t == 0xC) = true := by decide +kernel

/-- VA25. -/
theorem test_dc_greater : ends (launch 0x7D200100 0x400 0x8C 0x400 [0x00, 0x7F]) 0b0010 .done (fun t => decaNat t == 0x8C) = true := by decide +kernel

/-- VA23. -/
theorem test_dc_less : ends (launch 0x7D200100 0x400 0x12345D 0x400 [0x00, 0x0C]) 0b0001 .done (fun t => decaNat t == 0x12345D) = true := by decide +kernel

/-- VM1. -/
theorem test_dm : ends (launch 0x7B800100 0x400 0x123456789012345C 0x400 [0x98, 0x76, 0x54, 0x32, 0x10, 0x98, 0x76, 0x5D]) 0b0001 .done
    (fun t => decaNat t == 0x0121932631137021071359549253925D) = true := by decide +kernel

/-- VM3. -/
theorem test_dm_drops_high_digits : ends (armed (launch 0x7B900100 0x400 0x10000000000000001C 0x400 [0x10, 0, 0, 0, 0, 0, 0, 0, 0x1C])) 0b0010 .done
    (fun t => decaNat t == 0x20000000000000001C) = true := by decide +kernel

/-- VM10. -/
theorem test_dd : ends (launch 0x7A100100 0x400 0x1000000D 0x400 [0x7C]) 0b0001 .done (fun t => decaNat t == 0x1D000000000142857D) = true := by decide +kernel

/-- VM13. -/
theorem test_dd_zero_divisor : ends (armed (withCC (launch 0x7A100100 0x400 0x100C 0x400 [0x0D]) 0b0010)) 0b0110 (.trapped 0x45) (fun t => decaNat t == 0x100C) = true := by decide +kernel

/-- VM24. -/
theorem test_dsa_loses_digit : ends (armed (launch 0x7C000001 0 0x5000000000000000000000000000007C 0 [])) 0b0110 (.trapped 0x45) (fun t => decaNat t == 0x70C) = true := by decide +kernel

/-- VM30. -/
theorem test_dsa_indexed : ends ((launch 0x7C060003 0 0x12345D 0 []).pokeReg 3 0xFFFFFFFF) 0b0001 .done (fun t => decaNat t == 0x1234500D) = true := by decide +kernel

/-- VZ3. -/
theorem test_pack : ends (launch 0x76200100 0x400 0 0x400 [0x31, 0x02, 0xC3]) 0b0010 .done (fun t => decaNat t == 0x123C) = true := by decide +kernel

/-- VZ8. -/
theorem test_pack_bad_sign_zone : ends (armed (withCC (launch 0x76200100 0x400 0x9C 0x400 [0xF1, 0xF2, 0x33]) 0b0010)) 0b1010 (.trapped 0x45)
    (fun t => decaNat t == 0x9C) = true := by decide +kernel

/-- VZ10. -/
theorem test_unpk : ends (launch 0x77300100 0x400 0x12345D 0x400 []) 0b0001 .done (fun t => holds t 0x400 [0xF1, 0xF2, 0xF3, 0xF4, 0xD5]) = true := by decide +kernel

/-- VZ11. -/
theorem test_unpk_overflow : ends (withCC (launch 0x77200100 0x400 0x12345D 0x400 []) 0b0001) 0b0101 .done (fun t => t.mem == []) = true := by decide +kernel

/-- VE1. -/
theorem test_ebs : ends (launchEdit 0x40000100 0x06000200 [0x01, 0x23, 0x4C] [0x20, 0x20, 0x21, 0x4B, 0x20, 0x20]) 0b0010 .done
    (fun t => holds t 0x200 [0x40, 0xF1, 0xF2, 0x4B, 0xF3, 0xF4] && t.reg 6 == 0x40000103 && t.reg 7 == 0x00000206 &&
      t.reg 1 == 0x00000201) = true := by decide +kernel

/-- VE9: the tenth transaction is the read of the pattern byte at 0x203. -/
theorem test_ebs_aborts : ends (flagging 9 false (launchEdit 0x40000100 0x06000200 [0x01, 0x23, 0x4C] [0x20, 0x20, 0x21, 0x4B, 0x20, 0x20])) 0b1110 .aborted
    (fun t => holds t 0x200 [0x40, 0xF1, 0xF2, 0x4B, 0x20, 0x20] && t.reg 6 == 0x40000101 && t.reg 7 == 0x03000203) = true := by decide +kernel

/-- VF28. -/
theorem test_fas_unaligned : ends (launchFloat 0x3D400100 0x403 0 0x41100000 0x4110000000000000) 0b0010 .done (fun t => t.reg 4 == 0x41200000) = true := by decide +kernel

/-- VF12. -/
theorem test_fas_overflow : ends (launchFloat 0x3D400100 0x400 0 0x7FFFFFFF 0x7FFFFFFF00000000) 0b0110 (.trapped 0x44) (fun t => t.reg 4 == 0x7FFFFFFF) = true := by decide +kernel

/-- VF3. -/
theorem test_fss : ends (launchFloat 0x3C400100 0x400 0 0x41100000 0x4120000000000000) 0b0001 .done (fun t => t.reg 4 == 0xBEF00000) = true := by decide +kernel

/-- VF8. -/
theorem test_fms_resuscitates : ends (launchFloat 0x3F400100 0x400 0 0x01100000 0x3F10000000000000) 0b0010 .done (fun t => t.reg 4 == 0x00010000) = true := by decide +kernel

/-- VF31. -/
theorem test_fms_underflow : ends (reporting (launchFloat 0x3F400100 0x400 0 0x01100000 0xCFF0000000000000)) 0b1101 (.trapped 0x44) (fun t => t.reg 4 == 0x01100000) = true := by decide +kernel

/-- VF29. -/
theorem test_fds : ends (launchFloat 0x3E400100 0x400 0 0xBEF00000 0x4130000000000000) 0b0001 .done (fun t => t.reg 4 == 0xBFAAAAAB) = true := by decide +kernel

/-- VF21. -/
theorem test_fds_dirty_zero : ends (withCC (launchFloat 0x3E400100 0x400 0 0x41100000 0x4500000000000000) 0b0010) 0b0100 (.trapped 0x44) (fun t => t.reg 4 == 0x41100000) = true := by decide +kernel

/-- VF14. -/
theorem test_fal : ends (launchFloat 0x1D200100 0x400 0x4110000000000000 0 0x3410000000000000) 0b0010 .done (fun t => t.reg 2 == 0x41100000 && t.reg 3 == 1) = true := by decide +kernel

/-- VF27. -/
theorem test_fal_odd : ends (launchFloat 0x1D300100 0x400 0x41100000 0 0) 0b0010 .done (fun t => t.reg 3 == 0x41100000) = true := by decide +kernel

/-- VF18. -/
theorem test_fsl : ends (launchFloat 0x1C200100 0x400 0x4280000000000000 0 0x4110000000000000) 0b0010 .done (fun t => t.reg 2 == 0x427F0000 && t.reg 3 == 0) = true := by decide +kernel

/-- VF16. -/
theorem test_fml : ends (launchFloat 0x1F200100 0x400 0x401FFFFFFFFFFFFF 0 0x4110000000000000) 0b0010 .done
    (fun t => t.reg 2 == 0x401FFFFF && t.reg 3 == 0xFFFFFFFF) = true := by decide +kernel

/-- VF19. -/
theorem test_fml_underflow_to_zero : ends (launchFloat 0x1F200100 0x400 0x0110000000000000 0 0x3010000000000000) 0b0000 .done (fun t => t.reg 2 == 0 && t.reg 3 == 0) = true := by decide +kernel

/-- VF17. -/
theorem test_fdl : ends (launchFloat 0x1E200100 0x400 0x4110000000000000 0 0x4130000000000000) 0b0010 .done
    (fun t => t.reg 2 == 0x40555555 && t.reg 3 == 0x55555554) = true := by decide +kernel

/-- VF22. -/
theorem test_fdl_zero_divisor : ends (withCC (launchFloat 0x1E200100 0x400 0 0 0) 0b1111) 0b0100 (.trapped 0x44) (fun t => t.reg 2 == 0) = true := by decide +kernel

/-! ## Primitives, routines, converters -/

/-- VW1, VW3, VW5, VW8, VW9, VW10. -/
theorem test_wide_flags :
    W.add (2 ^ 127 - 1) 1 = { value := 2 ^ 127, carry := false, ovf := true } ∧
      W.sub 0 1 = { value := BitVec.allOnes 128, carry := true, ovf := false } ∧
      W.neg (2 ^ 127) = { value := 2 ^ 127, carry := false, ovf := true } ∧
      W.mulU (2 ^ 64) (2 ^ 64) = { value := 0, carry := false, ovf := true } ∧
      (W.mulS (-3) 5).value = -15 ∧ (W.mulS (10 ^ 30) (10 ^ 30)).value = 0xD762422C946590D91000000000000000 := by decide +kernel

/-- VW14, VW15, VW16, VW17, VW18. -/
theorem test_wide_division :
    W.divU 9999999999999999999999999999999 1000000000000000 =
        some { quotient := 9999999999999999, remainder := 999999999999999, ovf := false } ∧
      W.divS (-7) 2 = some { quotient := -3, remainder := -1, ovf := false } ∧
      W.divS 7 (-2) = some { quotient := -3, remainder := 1, ovf := false } ∧
      W.divS (2 ^ 127) (-1) = some { quotient := 2 ^ 127, remainder := 0, ovf := true } ∧ W.divS 5 0 = none := by decide +kernel

/-- VW19 to VW24. -/
theorem test_wide_compare_convert :
    W.cmpS (-1) 1 = .lt ∧ W.cmpU (-1) 1 = .gt ∧ W.toU64 (10 ^ 16) = (0x002386F26FC10000, false) ∧ W.toU64 (2 ^ 64) = (0, true) ∧
      W.fromS64 (-1) = -1 ∧ W.fromU64 (-1) = 0xFFFFFFFFFFFFFFFF := by decide +kernel

/-- VK3, VK6, VK9, VK10, VK14, VK15. -/
theorem test_decimal_check :
    decCheckFixed [0x12, 0x3B] false = { ok := true, unsigned := false, value := -123 } ∧
      decCheckFixed [0x12, 0x3F] false = { ok := true, unsigned := true, value := 123 } ∧
      (decCheckFixed [0x1A, 0x3C] false).ok = false ∧ (decCheckFixed [0x12, 0x35] false).ok = false ∧
      (decCheckFixed [0x12, 0x3F] true).ok = false ∧
      decCheckVariable [0, 0, 0, 0, 0, 0, 0, 0x1D, 0, 0, 0, 0, 0x01, 0x42, 0x85, 0x7D] false =
        { ok := true, unsigned := false, value := -1 } := by decide +kernel

/-- VK17, VK19, VK20, VK23, VK25. -/
theorem test_decimal_set :
    (State.reset.decSet (-1000000000000000) false).map decaNat = some 0x01000000000000000D ∧
      State.reset.decSet (10 ^ 31) false = none ∧ (State.reset.decSet (10 ^ 31 + 5) true).map decaNat = some 0x5C ∧
      encodePacked (-12345) 3 = [0x12, 0x34, 0x5D] ∧ encodePacked 0 2 = [0x00, 0x0C] := by decide +kernel

/-- S4: 0.1, -123456.789 and 7.2370055773322614e+75 through the long format and back. -/
theorem test_long_round_trip :
    doubleToSigma 64 .trueZero (Double.ofBits 0x3FB999999999999A) = (0x401999999999999A, .ok) ∧
      sigmaToDouble (0x401999999999999A : BitVec 64) = Double.ofBits 0x3FB999999999999A ∧
      doubleToSigma 64 .trueZero (Double.ofBits 0xC0FE240C9FBE76C9) = (0xBAE1DBF360418937, .ok) ∧
      doubleToSigma 64 .trueZero (Double.ofBits 0x4FAFFFFFFFFFFFFF) = (0x7FFFFFFFFFFFFFF8, .ok) := by decide +kernel

/-- VX21, VX22, S6 (b). -/
theorem test_short_conversion :
    doubleToSigma 32 .trueZero (Double.ofBits 0xBFB999999999999A) = (0xBFE66667, .ok) ∧
      doubleToSigma 32 .trueZero (Double.ofBits 0x8000000000000000) = (0, .ok) ∧
      doubleToSigma 32 .trueZero .nan = (0x7FFFFFFF, .nan) ∧
      doubleToSigma 64 .trueZero (Double.ofBits 0xFE37E43C8800759C) = (0x8000000000000001, .overflow) := by decide +kernel

/-! ## Witnesses: the hypotheses of each statement hold of a concrete state and operands -/

/-- A decimal add of 5 bytes' room: DECA = -12345, +25 at 0x400. -/
def addState : State := launch 0x79200100 0x400 0x12345D 0x400 [0x02, 0x5C]

/-- A store of DECA = -12345 at the top of memory, so that the bytes wrap to address 0. -/
def storeState : State := launch 0x7F30FFFE 0x1FFFE 0x12345D 0 []

/-- A short floating add of 1 and 1. -/
def floatState : State := launchFloat 0x3D400100 0x400 0 0x41100000 0x4110000000000000

/-- A short floating division by zero. -/
def floatFaultState : State := launchFloat 0x3E400100 0x400 0 0x41100000 0

/-- VE1. -/
def editState : State := launchEdit 0x40000100 0x06000200 [0x01, 0x23, 0x4C] [0x20, 0x20, 0x21, 0x4B, 0x20, 0x20]

/-- An invalid operand. -/
def badState : State := launch 0x7E200100 0x400 0x77C 0x400 [0x1A, 0x3C]

theorem witness_DecodeReadsBackEncodedInstruction :
    (Instr.ebs 15 (-524288)).wellFormed = true ∧ (Instr.ebs 0 524287).wellFormed = true ∧
      (Instr.dst true 15 7 0x1FFFF).wellFormed = true := by decide

theorem witness_EncodeRestoresDecodedWord :
    decode 0xFFFFFFFF = .ok (.dst true 15 7 0x1FFFF) ∧ decode 0x63F80000 = .ok (.ebs 15 (-524288)) := by decide +kernel

theorem witness_DecodeFollowsMatchAndMask :
    (0x63FFFFFF : Word) &&& (Instr.ebs 0 0).row.2 = (Instr.ebs 0 0).row.1 ∧
      decode 0x1C000000 = .ok (.fsl false 0 0 0) := by decide +kernel

theorem witness_IgnoredCommandFieldsDoNotMatter :
    (∀ ind rl x addr, Instr.dl false 2 0 0 ≠ .dsa ind rl x addr) ∧ (∀ r disp, Instr.dl false 2 0 0 ≠ .ebs r disp) ∧
      ({ cw := 1, ea := 0x400, opnd := 9 } : Command).ea = badState.command.ea ∧
      ({ cw := 1, ea := 7, opnd := 0 } : Command).opnd = badState.command.opnd ∧
      (¬ ∃ rl x addr, Instr.dsa false 0 0 5 = .dsa true rl x addr) := by
  refine ⟨fun _ _ _ _ => by simp, fun _ _ => by simp, rfl, rfl, ?_⟩
  rintro ⟨_, _, _, h⟩
  cases h

theorem witness_StepRunsDecodedCommand :
    addState.running = true ∧ addState.program = { cw := 0x79200100, ea := 0x400, opnd := 0 } :: [] ∧ addState.status = .idle ∧
      decode 0x79200100 = .ok (.da false 2 0 0x100) := by decide +kernel

theorem witness_UndecodableCommandIsRefused :
    (launch 0xE3600000 0 0 0 []).running = true ∧
      (launch 0xE3600000 0 0 0 []).program = { cw := 0xE3600000, ea := 0, opnd := 0 } :: [] ∧
      (launch 0xE3600000 0 0 0 []).status = .idle ∧ decode 0xE3600000 = .error .editWithBit31 := by decide +kernel

theorem witness_StoppedRunPresentsNothing :
    (∃ a, ({ addState with completion := some (.trapped 0x45) } : State).completion = some (.trapped a)) ∧
      ({ addState with completion := some .aborted } : State).completion = some .aborted := ⟨⟨_, rfl⟩, rfl⟩

theorem witness_StepKeepsInv : addState.Inv ∧ addState.program ≠ [] ∧ ∃ t, step addState = .next t ∧ (t.completion == some .done) = true :=
  ⟨⟨by decide +kernel, by decide +kernel, by decide +kernel, by decide +kernel, by decide +kernel⟩, by decide +kernel,
    exists_of_nextIs (p := fun t => t.completion == some .done) (by decide +kernel)⟩

theorem witness_ProgramEndsWithinItsLength :
    addState.status = .idle ∧ (∀ c ∈ addState.program, ∃ i, decode c.cw = .ok i) ∧ addState.program.length = 1 := by
  refine ⟨rfl, ?_, rfl⟩
  intro c hc
  have : c.cw = 0x79200100 := by
    have h : addState.program = [{ cw := 0x79200100, ea := 0x400, opnd := 0 }] := by decide +kernel
    rw [h, List.mem_singleton] at hc
    rw [hc]
  exact ⟨.da false 2 0 0x100, by rw [this]; decide +kernel⟩

/-- The four ends of a command: a floating trap, a decimal trap, `done`, an abort. -/
theorem witness_CommandFrame :
    (∃ t, exec (.fds false 4 0 0x100) floatFaultState = .next t ∧ (t.completion == some (.trapped 0x44)) = true) ∧
      (∃ t, exec (.dl false 2 0 0x100) (armed badState) = .next t ∧ (t.completion == some (.trapped 0x45)) = true) ∧
      (∃ t, exec (.da false 2 0 0x100) addState = .next t ∧ (t.completion == some .done) = true) ∧
      (∃ t, exec (.da false 2 0 0x100) { addState with trapFlag := true } = .next t ∧ (t.completion == some .aborted) = true) :=
  ⟨exists_of_nextIs (p := fun t => t.completion == some (.trapped 0x44)) (by decide +kernel),
    exists_of_nextIs (p := fun t => t.completion == some (.trapped 0x45)) (by decide +kernel),
    exists_of_nextIs (p := fun t => t.completion == some .done) (by decide +kernel),
    exists_of_nextIs (p := fun t => t.completion == some .aborted) (by decide +kernel)⟩

theorem witness_UnlistedRegisterNeitherReadNorWritten :
    (11 : RegNum) ∉ (Instr.da false 2 0 0x100).regsRead ∧ (11 : RegNum) ∉ (Instr.da false 2 0 0x100).regsWritten ∧
      (5 : RegNum) ∉ (Instr.ebs 6 0).regsRead ∧ (5 : RegNum) ∉ (Instr.ebs 6 0).regsWritten := by decide +kernel

theorem witness_UnwrittenRegistersKeepValue :
    (∃ t, exec (.da false 2 0 0x100) addState = .next t ∧ (t.reg 15 != addState.reg 15) = true) ∧
      (11 : RegNum) ∉ (Instr.da false 2 0 0x100).regsWritten :=
  ⟨exists_of_nextIs (p := fun t => t.reg 15 != addState.reg 15) (by decide +kernel), by decide +kernel⟩

theorem witness_NonStoringInstructionKeepsMemory :
    (Instr.da false 2 0 0x100).stores = false ∧ ∃ t, exec (.da false 2 0 0x100) addState = .next t ∧ (t.mem != []) = true :=
  ⟨rfl, exists_of_nextIs (p := fun t => t.mem != []) (by decide +kernel)⟩

/-- The stores wrap at the top of memory; a byte just above the field is outside it. -/
theorem witness_StoringInstructionMemoryFrame :
    (∃ t, exec (.dst false 3 0 0) storeState = .next t ∧ (t.mem.read 0 == 0x5D && t.mem.read 0x1FFFE == 0x12) = true) ∧
      (∃ t, exec (.unpk false 3 0 0) storeState = .next t ∧ (t.mem.read 2 == 0xD5 && t.mem.read 3 == 0) = true) ∧
      (∃ t, exec (.ebs 6 0) editState = .next t ∧ (t.mem.read 0x205 == 0xF4 && t.mem.read 0x206 == 0) = true) ∧
      (∀ k < operandLength 3, 1 ≠ storeState.wrap (storeState.ea + k)) :=
  ⟨exists_of_nextIs (p := fun t => t.mem.read 0 == 0x5D && t.mem.read 0x1FFFE == 0x12) (by decide +kernel),
    exists_of_nextIs (p := fun t => t.mem.read 2 == 0xD5 && t.mem.read 3 == 0) (by decide +kernel),
    exists_of_nextIs (p := fun t => t.mem.read 0x205 == 0xF4 && t.mem.read 0x206 == 0) (by decide +kernel), by decide +kernel⟩

theorem witness_UnreadPsdFieldsDoNotMatter :
    (Instr.fas false 4 0 0x100).isFloat = true ∧ addState.config.uflow = UflowTable.default := by decide +kernel

theorem witness_UnarmedDecimalUnitNeverTraps :
    (Instr.dl false 2 0 0x100).isFloat = false ∧ badState.psd.dm = false ∧
      ∃ t, exec (.dl false 2 0 0x100) badState = .next t ∧ (t.psd.cc == 0b1000) = true :=
  ⟨rfl, by decide +kernel, exists_of_nextIs (p := fun t => t.psd.cc == 0b1000) (by decide +kernel)⟩

/-- Each of the four ends with its events. -/
theorem witness_ConditionCodeThenTrapAreLast :
    (∃ t, exec (.dl false 2 0 0x100) badState = .next t ∧ (t.ports == [.ccWrite 0b1000, .psdRead, .load 0x401 1, .load 0x400 1]) = true) ∧
      (∃ t, exec (.dl false 2 0 0x100) (armed badState) = .next t ∧ (t.ports.take 2 == [.trap 0x45, .ccWrite 0b1000]) = true) ∧
      (∃ t, exec (.dl false 2 0 0x100) { badState with trapFlag := true } = .next t ∧ (t.ports == [.load 0x400 1]) = true) ∧
      (∃ t, exec (.ebs 6 0) { editState with trapFlag := true } = .next t ∧
        (t.completion == some .aborted && t.ports.head? == some (.ccWrite 0)) = true) :=
  ⟨exists_of_nextIs (p := fun t => t.ports == [.ccWrite 0b1000, .psdRead, .load 0x401 1, .load 0x400 1]) (by decide +kernel),
    exists_of_nextIs (p := fun t => t.ports.take 2 == [.trap 0x45, .ccWrite 0b1000]) (by decide +kernel),
    exists_of_nextIs (p := fun t => t.ports == [.load 0x400 1]) (by decide +kernel),
    exists_of_nextIs (p := fun t => t.completion == some .aborted && t.ports.head? == some (.ccWrite 0)) (by decide +kernel)⟩

theorem witness_MemoryTransactionsPrecedeWrites :
    (Instr.fal false 2 0 0x100).isEdit = false ∧
      ∃ t, exec (.fal false 2 0 0x100) floatState = .next t ∧ (t.ports.length == 7) = true :=
  ⟨rfl, exists_of_nextIs (p := fun t => t.ports.length == 7) (by decide +kernel)⟩

/-- Loads that all pass, that stop at the first, and that stop at the last; stores of a value that fits, and of one that does not. -/
theorem witness_AccessesAreThoseOfTheTable :
    addState.loadsOf (.da false 2 0 0x100) = some [(0x400, 1), (0x401, 1)] ∧ addState.made 2 = 2 ∧
      (flagging 0 false addState).made 2 = 1 ∧ (flagging 1 false addState).made 2 = 2 ∧ ¬ (flagging 1 false addState).passes 2 ∧
      addState.loadsOf (.fal false 2 0 0x100) = some [(0x400, 8)] ∧ addState.loadsOf (.dsa false 0 0 1) = some [] ∧
      (∃ t, exec (.dst false 3 0 0) storeState = .next t ∧
        (t.ports.drop 1 == [.store 0 [0x5D], .store 0x1FFFF [0x34], .store 0x1FFFE [0x12]] ++ Instr.decaReads.reverse) = true) ∧
      (∃ t, exec (.unpk false 2 0 0) storeState = .next t ∧ (t.ports.drop 2 == Instr.decaReads.reverse) = true) :=
  ⟨by decide +kernel, by decide +kernel, by decide +kernel, by decide +kernel, by decide +kernel, by decide +kernel, by decide +kernel,
    exists_of_nextIs (p := fun t =>
      t.ports.drop 1 == [.store 0 [0x5D], .store 0x1FFFF [0x34], .store 0x1FFFE [0x12]] ++ Instr.decaReads.reverse) (by decide +kernel),
    exists_of_nextIs (p := fun t => t.ports.drop 2 == Instr.decaReads.reverse) (by decide +kernel)⟩

/-- The transactions of R259, oldest last: a result of each width, a fault, an abort. -/
theorem witness_FloatingPortOrder :
    (∃ t, exec (.fas false 4 0 0x100) floatState = .next t ∧
        (t.ports == [.ccWrite 0b0010, .regWrite 4 0x41200000, .load 0x400 4, .regRead 4, .psdRead]) = true) ∧
      (∃ t, exec (.fal false 2 0 0x100) (launchFloat 0x1D200100 0x400 0x4110000000000000 0 0x3410000000000000) = .next t ∧
        (t.ports == [.ccWrite 0b0010, .regWrite 2 0x41100000, .regWrite 3 1, .load 0x400 8, .regRead 3, .regRead 2, .psdRead]) = true) ∧
      (∃ t, exec (.fds false 4 0 0x100) floatFaultState = .next t ∧
        (t.ports == [.trap 0x44, .ccWrite 0b0100, .load 0x400 4, .regRead 4, .psdRead]) = true) ∧
      (∃ t, exec (.fas false 4 0 0x100) (flagging 0 false floatState) = .next t ∧
        (t.ports == [.load 0x400 4, .regRead 4, .psdRead] && t.completion == some .aborted) = true) :=
  ⟨exists_of_nextIs (p := fun t => t.ports == [.ccWrite 0b0010, .regWrite 4 0x41200000, .load 0x400 4, .regRead 4, .psdRead])
      (by decide +kernel),
    exists_of_nextIs (p := fun t => t.ports ==
      [.ccWrite 0b0010, .regWrite 2 0x41100000, .regWrite 3 1, .load 0x400 8, .regRead 3, .regRead 2, .psdRead]) (by decide +kernel),
    exists_of_nextIs (p := fun t => t.ports == [.trap 0x44, .ccWrite 0b0100, .load 0x400 4, .regRead 4, .psdRead]) (by decide +kernel),
    exists_of_nextIs (p := fun t => t.ports == [.load 0x400 4, .regRead 4, .psdRead] && t.completion == some .aborted)
      (by decide +kernel)⟩

theorem witness_AbortedCommandChangesNoRegister :
    (Instr.dst false 3 0 0).isEdit = false ∧ (Instr.da false 2 0 0x100).stores = false ∧
      (∃ t, exec (.dst false 3 0 0) (flagging 1 true storeState) = .next t ∧ (t.completion == some .aborted) = true) ∧
      (∃ t, exec (.da false 2 0 0x100) (flagging 1 true addState) = .next t ∧ (t.completion == some .aborted) = true) :=
  ⟨rfl, rfl, exists_of_nextIs (p := fun t => t.completion == some .aborted) (by decide +kernel),
    exists_of_nextIs (p := fun t => t.completion == some .aborted) (by decide +kernel)⟩

/-- The last of three stores is flagged after it wrote; the first of five is flagged before it. -/
theorem witness_AbortedStoreCanBePresentedAgain :
    (∃ ind l x addr, Instr.dst false 3 0 0 = .dst ind l x addr) ∧ (∃ ind l x addr, Instr.unpk false 3 0 0 = .unpk ind l x addr) ∧
      storeState.mem.wf storeState.config.addrBits = true ∧ (flagging 2 true storeState).trapFlag = false ∧
      (∃ t, exec (.dst false 3 0 0) (flagging 2 true storeState) = .next t ∧ (t.completion == some .aborted) = true) ∧
      (∃ t, exec (.unpk false 3 0 0) (flagging 0 false storeState) = .next t ∧ (t.completion == some .aborted) = true) :=
  ⟨⟨_, _, _, _, rfl⟩, ⟨_, _, _, _, rfl⟩, by decide +kernel, by decide +kernel,
    exists_of_nextIs (p := fun t => t.completion == some .aborted) (by decide +kernel),
    exists_of_nextIs (p := fun t => t.completion == some .aborted) (by decide +kernel)⟩

/-- A word of each decimal row, and of a short and a long floating row, agrees with the row under the mask. -/
theorem witness_EncodingRows :
    (0xFE3FFFFF : Word) &&& 0x7F000000 = 0x7E000000 ∧ (0x7F300100 : Word) &&& 0x7F000000 = 0x7F000000 ∧
      (0x79200100 : Word) &&& 0x7F000000 = 0x79000000 ∧ (0x78200100 : Word) &&& 0x7F000000 = 0x78000000 ∧
      (0x7D200100 : Word) &&& 0x7F000000 = 0x7D000000 ∧ (0x7B800100 : Word) &&& 0x7F000000 = 0x7B000000 ∧
      (0x7A100100 : Word) &&& 0x7F000000 = 0x7A000000 ∧ (0xFC060080 : Word) &&& 0x7F000000 = 0x7C000000 ∧
      (0x76200100 : Word) &&& 0x7F000000 = 0x76000000 ∧ (0x77300100 : Word) &&& 0x7F000000 = 0x77000000 ∧
      (0x3D400100 : Word) &&& 0x7F000000 = (shortInstr .add false 0 0 0).row.1 ∧
      (0x1E200100 : Word) &&& 0x7F000000 = (longInstr .divide false 0 0 0).row.1 := by decide +kernel

/-- DL, DA, DS, DC, DM, DD: the accesses pass, or the last load does not; the operand is a number, or is none. -/
theorem witness_DecimalOperandCases :
    addState.passes (operandLength 2) ∧ ¬ (flagging 1 false addState).passes (operandLength 2) ∧
      (flagging 2 false addState).passes (operandLength 2) ∧
      packedNumber (addState.bytesAt addState.ea (operandLength 2)) = some 25 ∧ packedNumber addState.deca = some (-12345) ∧
      packedNumber (badState.bytesAt badState.ea (operandLength 2)) = none := by decide +kernel

/-- DST and UNPK of 5 digits into a field of 5 digits and into one of 3. -/
theorem witness_DecimalStore :
    storeState.mem.wf storeState.config.addrBits = true ∧ packedNumber storeState.deca = some (-12345) ∧
      ¬ (10 ^ (2 * operandLength 3 - 1) ≤ (-12345 : Int).natAbs) ∧ 10 ^ (2 * operandLength 2 - 1) ≤ (-12345 : Int).natAbs ∧
      storeState.passes (operandLength 3) ∧ storeState.passes (2 * operandLength 3 - 1) ∧
      packedNumber State.reset.deca = none := by decide +kernel

/-- DA and DS at the first sum of 32 digits and at the last of 31. -/
theorem witness_DecimalAdd_boundary :
    packedNumber (launch 0x79100100 0x400 0x9999999999999999999999999999999C 0x400 [0x1C]).deca = some (10 ^ 31 - 1) ∧
      10 ^ 31 ≤ ((10 ^ 31 - 1 : Int) + 1).natAbs ∧ ¬ (10 ^ 31 ≤ ((10 ^ 31 - 1 : Int) + 0).natAbs) := by decide +kernel

/-- DD with the largest quotient, a quotient one larger, a remainder of 16 digits, a zero divisor (VM18, VM19, VM12). -/
theorem witness_DecimalDivide_boundary :
    ¬ ((3 : Int) = 0 ∨ 10 ^ 15 ≤ ((2999999999999999 : Int).tdiv 3).natAbs ∨
        10 ^ 15 ≤ ((2999999999999999 : Int) - (2999999999999999 : Int).tdiv 3 * 3).natAbs) ∧
      10 ^ 15 ≤ ((3000000000000000 : Int).tdiv 3).natAbs ∧
      10 ^ 15 ≤ ((9999999999999999 : Int) - (9999999999999999 : Int).tdiv 10000000000000000 * 10000000000000000).natAbs := by
  decide +kernel

/-- DSA: a left shift that loses a digit, one that loses none, counts 31, 30, 0, -30 and -31. -/
theorem witness_DecimalShift :
    packedNumber (launch 0 0 0x5000000000000000000000000000007C 0 []).deca = some (5 * 10 ^ 30 + 7) ∧
      ShiftRule (5 * 10 ^ 30 + 7) 1 70 True ∧ ShiftRule 7 30 (7 * 10 ^ 30) False ∧ ShiftRule 7 31 0 True ∧ ShiftRule 7 0 7 False ∧
      ShiftRule (-7 * 10 ^ 30) (-30) (-7) False ∧ ShiftRule (-7) (-31) 0 False := by
  refine ⟨by decide +kernel, ?_, ?_, ?_, ?_, ?_, ?_⟩ <;> simp only [ShiftRule] <;> decide +kernel

theorem witness_AccumulatorAfterDivideIsNoNumber :
    (launch 0x7A100100 0x400 0x1000000D 0x400 [0x7C]).passes (operandLength 1) ∧
      packedNumber ((launch 0x7A100100 0x400 0x1000000D 0x400 [0x7C]).bytesAt
        (launch 0x7A100100 0x400 0x1000000D 0x400 [0x7C]).ea (operandLength 1)) = some 7 ∧
      packedNumber (launch 0x7A100100 0x400 0x1000000D 0x400 [0x7C]).deca = some (-1000000) ∧ (7 : Int) ≠ 0 ∧
      ((-1000000 : Int).tdiv 7).natAbs < 10 ^ 15 ∧ ((-1000000 : Int).tmod 7).natAbs < 10 ^ 15 ∧
      ∃ t, exec (.dd false 1 0 0x100) (launch 0x7A100100 0x400 0x1000000D 0x400 [0x7C]) = .next t ∧ (t.psd.cc == 0b0001) = true :=
  ⟨by decide +kernel, by decide +kernel, by decide +kernel, by decide, by decide, by decide,
    exists_of_nextIs (p := fun t => t.psd.cc == 0b0001) (by decide +kernel)⟩

/-- Left by 30, left by 0 and right by 0, right by 30. -/
theorem witness_DecimalShiftMovesDigits :
    packedNumber (launch 0 0 0x12345D 0 []).deca = some (-12345) ∧ (30 : Nat) < 31 ∧
      shiftCount (dsaOperand false 30 (launch 0 0 0x12345D 0 [])) (dsaIndex 0 (launch 0 0 0x12345D 0 [])) = (30 : Nat) ∧
      shiftCount (dsaOperand false 0 (launch 0 0 0x12345D 0 [])) (dsaIndex 0 (launch 0 0 0x12345D 0 [])) = -((0 : Nat) : Int) ∧
      shiftCount (dsaOperand false 0x1FFE2 (launch 0 0 0x12345D 0 [])) (dsaIndex 0 (launch 0 0 0x12345D 0 [])) =
        -((30 : Nat) : Int) ∧
      ∃ t, exec (.dsa false 0 0 30) (launch 0 0 0x12345D 0 []) = .next t ∧ (t.psd.cc == 0b0101) = true :=
  ⟨by decide +kernel, by decide, by decide +kernel, by decide +kernel, by decide +kernel,
    exists_of_nextIs (p := fun t => t.psd.cc == 0b0101) (by decide +kernel)⟩

/-- PACK, UNPK and the round trip: a zoned string of 5 bytes, one that is no number. -/
theorem witness_PackThenUnpackRestoresDigits :
    (launch 0x76300100 0x400 0 0x400 [0xF1, 0xF2, 0xF3, 0xF4, 0xD5]).mem.wf 17 = true ∧
      (launch 0x76300100 0x400 0 0x400 [0xF1, 0xF2, 0xF3, 0xF4, 0xD5]).passes (2 * (2 * operandLength 3 - 1)) ∧
      zonedNumber ((launch 0x76300100 0x400 0 0x400 [0xF1, 0xF2, 0xF3, 0xF4, 0xD5]).bytesAt 0x400 (2 * operandLength 3 - 1)) =
        some (-12345) ∧ zonedNumber [0xF1, 0xF2, 0x33] = none ∧ zonedNumber [0xF1, 0xFA, 0xC3] = none := by decide +kernel

theorem witness_FixedScanReadsPackedNumber :
    1 ≤ [(0x0D : Byte)].length ∧ (List.replicate 16 (0x99 : Byte)).length ≤ 16 ∧ (decCheckFixed [0x0D] false).ok = true ∧
      (decCheckFixed [0x1F] true).ok = false ∧ (decCheckFixed [0x1F] false).ok = true := by decide +kernel

theorem witness_AccumulatorSetAndCheckRoundTrip :
    (10 ^ 31 - 1 : Int).natAbs < 2 ^ 127 ∧ (-(10 ^ 31) : Int).natAbs < 2 ^ 127 ∧ (2 ^ 127 - 1 : Int).natAbs < 2 ^ 127 ∧
      (State.reset.decSet (10 ^ 31 - 1) false).isSome = true := by decide +kernel

theorem witness_WideDivision :
    (0 : W128) = 0 ∧ (7 : W128) ≠ 0 ∧ ((2 ^ 127 : W128).toInt = -(2 ^ 127) ∧ (-1 : W128).toInt = -1) ∧
      ¬ ((7 : W128).toInt = -(2 ^ 127) ∧ (-1 : W128).toInt = -1) := by decide +kernel

theorem witness_WideArithmeticWraps :
    (9 : Nibble).toNat < 10 ∧ (30 : Nat) ≤ 30 ∧ (10 ^ 30 - 1 : W128).toNat < 10 ^ 30 ∧ (0 : W128).toNat < 10 ^ 0 := by decide +kernel

theorem witness_EditOfNothingChangesNothing :
    (launchEdit 0x40000100 0x00000200 [0x01] [0x20]).editCount 6 = 0 := by decide +kernel

/-- One pattern byte, for R even, odd, 0 and 1: a selector with a digit; a message byte. -/
theorem witness_EditOfOnePatternByte :
    (launchEdit 0x40000100 0x01000200 [0x01] [0x20]).passes 3 ∧ (launchEdit 0x40000100 0x01000200 [0x01] [0x20]).editCount 6 = 1 ∧
      (launchEdit 0x40000100 0x01000200 [0x01] [0x20]).editValid 6 0 ∧
      (launchEdit 0x40000100 0x01000200 [0x01] [0x20]).editCount 7 = 1 ∧
      (launchEdit 0x40000100 0x01000200 [0x01] [0x20]).editValid 7 0 ∧
      ((launchEdit 0x40000100 0x01000200 [0x01] [0x20]).pokeReg 1 0x01000200).editCount 0 = 1 ∧
      (launchEdit 0x40000100 0x01000200 [0xAB] [0x4B]).editValid 6 0 := by
  simp only [State.editValid]
  decide +kernel

theorem witness_EditIsByteSerial :
    (6 : RegNum).toNat % 2 = 0 ∧ editState.passes 3 ∧ editState.editCount 6 ≠ 0 ∧ editState.editValid 6 0 := by
  simp only [State.editValid]
  decide +kernel

theorem witness_EditInvalidDigitEndsEarly :
    (launchEdit 0x40000100 0x04000200 [0xA3] [0x20]).passes 2 ∧ (launchEdit 0x40000100 0x04000200 [0xA3] [0x20]).editCount 6 ≠ 0 ∧
      ¬ (launchEdit 0x40000100 0x04000200 [0xA3] [0x20]).editValid 6 0 := by
  simp only [State.editValid]
  decide +kernel

theorem witness_EditUsesOnlyItsOperandWords : (6 : RegNum).toNat % 2 = 0 ∧ (6 : RegNum) ≠ 0 ∧ 1 < (7 : RegNum).toNat := by decide

/-- Flagged at the first access, at a store in mid-string, and at the last access. -/
theorem witness_AbortedEditCanBeResumed :
    (6 : RegNum).toNat % 2 = 0 ∧ (flagging 5 false editState).trapFlag = false ∧
      (flagging 5 false editState).accessor = List.replicate 5 .pass ++ [.flag false] ∧
      (∃ t, exec (.ebs 6 0) (flagging 0 false editState) = .next t ∧ (t.completion == some .aborted) = true) ∧
      (∃ t, exec (.ebs 6 0) (flagging 5 false editState) = .next t ∧ (t.completion == some .aborted) = true) ∧
      (∃ t, exec (.ebs 6 0) (flagging 15 false editState) = .next t ∧ (t.completion == some .aborted) = true) :=
  ⟨by decide, by decide +kernel, by decide +kernel,
    exists_of_nextIs (p := fun t => t.completion == some .aborted) (by decide +kernel),
    exists_of_nextIs (p := fun t => t.completion == some .aborted) (by decide +kernel),
    exists_of_nextIs (p := fun t => t.completion == some .aborted) (by decide +kernel)⟩

/-- Dirty zeros, the least fraction, the most negative word. -/
theorem witness_SigmaToDoubleReadsTheFormat :
    fractionField (0x45000000 : BitVec 32) = 0 ∧ fractionField (0x80000000 : BitVec 32) = 0 ∧ fractionField (1 : BitVec 64) ≠ 0 ∧
      fractionField (0x80000001 : BitVec 32) ≠ 0 := by decide +kernel

/-- One double for each of the four ranges, each at an end of its range, and the least subnormal. -/
theorem witness_DoubleToSigmaChops :
    0 < 2 ^ 52 ∧ 0 < 2 ^ 53 - 1 ∧ doubleToSigma 64 .zeroWithFlag (.finite true 1 (-1074)) = (0, .underflow) ∧
      doubleToSigma 32 .trueZero (.finite true (2 ^ 52) (252 - 52)) = (0x80000001, .overflow) ∧
      doubleToSigma 32 .trueZero (.finite false (2 ^ 52) (-260 - 52)) = (0x00100000, .ok) ∧
      doubleToSigma 32 .trueZero (.finite false (2 ^ 52) (-280 - 52)) = (0x00000001, .ok) ∧
      doubleToSigma 32 .zeroWithFlag (.finite false (2 ^ 53 - 1) (-281 - 52)) = (0, .underflow) := by
  refine ⟨?_, ?_, ?_, ?_, ?_, ?_, ?_⟩ <;> decide +kernel

theorem witness_LongFormatRoundTripsDoubles :
    NormalSig (2 ^ 52) ∧ (2 : ℚ) ^ (-260 : Int) ≤ ((2 ^ 52 : Nat) : ℚ) * 2 ^ (-312 : Int) ∧
      ((2 ^ 52 : Nat) : ℚ) * 2 ^ (-312 : Int) < (2 : ℚ) ^ (252 : Int) := by
  have h : ((2 ^ 52 : Nat) : ℚ) * 2 ^ (-312 : Int) = 2 ^ (-260 : Int) := by
    rw [show ((2 ^ 52 : Nat) : ℚ) = (2 : ℚ) ^ (52 : Int) by norm_num, ← zpow_add₀ (by norm_num)]
    rfl
  exact ⟨by simp only [NormalSig]; decide, h.ge, by rw [h]; exact zpow_lt_zpow_right₀ (by norm_num) (by norm_num)⟩

theorem witness_ShortWordRoundTripsThroughDouble :
    2 ^ 20 ≤ fractionField (0x41100000 : BitVec 32) ∧ 2 ^ 20 ≤ fractionField (0x80000001 : BitVec 32) ∧ fractionField (0x45000000 : BitVec 32) = 0 := by
  decide +kernel

/-- The divisors of the floating statements: zero, dirty zero, not zero. -/
theorem witness_FloatingResultsAreZeroOrNormal :
    (FloatOp.divide = .divide → fractionField (0x41300000 : BitVec 32) ≠ 0) ∧ (FloatOp.add = .divide → fractionField (0 : BitVec 64) ≠ 0) := by
  decide +kernel

theorem witness_ShortFloatingOperation :
    floatState.passes 1 ∧ ¬ (flagging 0 false floatState).passes 1 ∧
      fractionField (BitVec.ofNat 32 (bytesToNat (floatFaultState.bytesAt (floatFaultState.ea - floatFaultState.ea % 4) 4))) = 0 := by
  decide +kernel

/-- A tie, 2^53 + 1 between 2^53 and 2^53 + 2, within the range of the second clause; the midpoint above the largest number; half the
least subnormal. -/
theorem witness_RoundingIsNearestTiesToEven :
    roundDouble false (2 ^ 53 + 1) 0 = .finite false (2 ^ 52) 1 ∧ roundDouble true (2 ^ 54 - 1) 970 = .inf true ∧
      roundDouble true (2 ^ 55 - 3) 969 = .finite true (2 ^ 53 - 1) 971 ∧ roundDouble true 1 (-1075) = .zero true ∧
      (2 : ℚ) ^ (-1022 : Int) ≤ ((2 ^ 53 + 1 : Nat) : ℚ) * 2 ^ (0 : Int) ∧
      ((2 ^ 53 + 1 : Nat) : ℚ) * 2 ^ (0 : Int) ≤ 2 ^ (1023 : Int) := by
  have h1 : (2 : ℚ) ^ (-1022 : Int) ≤ 2 ^ (0 : Int) := zpow_le_zpow_right₀ (by norm_num) (by norm_num)
  have h2 : (2 : ℚ) ^ (54 : Int) ≤ 2 ^ (1023 : Int) := zpow_le_zpow_right₀ (by norm_num) (by norm_num)
  exact ⟨by decide +kernel, by decide +kernel, by decide +kernel, by decide +kernel, h1.trans (by norm_num), le_trans (by norm_num) h2⟩

/-- 1 and -1.5 are numbers; 1 / -1.5 is rounded; an exact zero, and a sum with a zero. -/
theorem witness_FloatingOperationIsRoundedExactResult :
    IsNumber (.finite false (2 ^ 52) (-52)) ∧ IsNumber (.finite true (3 * 2 ^ 51) (-52)) ∧ IsNumber (.zero true) ∧
      IsNumber (.finite true 1 (-1074)) ∧ (Double.finite true (3 * 2 ^ 51) (-52)).isZero = false ∧
      FloatOp.divide.apply (.finite false (2 ^ 52) (-52)) (.finite true (3 * 2 ^ 51) (-52)) = .finite true 6004799503160661 (-53) ∧
      FloatOp.subtract.apply (.finite false (2 ^ 52) (-52)) (.finite false (2 ^ 52) (-52)) = .zero false ∧
      FloatOp.subtract.apply (.zero true) (.finite true 1 (-1074)) = .finite false 1 (-1074) ∧
      exactResult .subtract (doubleValue (.finite false (2 ^ 52) (-52))) (doubleValue (.finite false (2 ^ 52) (-52))) = 0 ∧
      exactResult .add (doubleValue (.finite false (2 ^ 52) (-52))) (doubleValue (.zero true)) ≠ 0 := by
  refine ⟨?_, ?_, ?_, ?_, by decide +kernel, by decide +kernel, by decide +kernel, by decide +kernel, ?_, ?_⟩
  · simp [IsNumber, NormalSig]
  · simp [IsNumber, NormalSig]
  · trivial
  · simp [IsNumber]
  · simp [exactResult]
  · simp [exactResult, doubleValue]

theorem witness_SumsNeverUnderflow : (FloatOp.add = .add ∨ FloatOp.add = .subtract) ∧ (FloatOp.subtract = .add ∨ FloatOp.subtract = .subtract) := by
  decide

end Sys2Proof.Tests
end

