-- ==== Sys2Proof/Proofs/Sequencer.lean ====
section
/-! The sequencer's step and the launch state. -/

namespace Sys2Proof.Machine

/-- Settles O7: the tests of a step, each decided by a hypothesis. -/
theorem stepRunsDecodedCommand : Obligations.StepRunsDecodedCommand := by
  intro s c rest i hrunning hprogram hidle hdecode
  simp only [step, hrunning, hprogram, hidle, hdecode, if_true, reduceCtorEq, if_false]
  rfl

/-- Settles O10. -/
theorem resetIsIdleAndUnflagged : Obligations.ResetIsIdleAndUnflagged := ⟨rfl, rfl, rfl⟩

end Sys2Proof.Machine
end

