-- ==== Sys2Proof/Proofs/Frame.lean ====
section
/-! What a command can do, said once for all instructions: `Progress` is the frame of everything a command does before its end,
`Ending` the four ways it can end, and `exec_ends` that every instruction ends in one of them. The frames of all instructions
are read off it. -/

namespace Sys2Proof.Machine

/-! ## The shared loops, by their effects -/

/-- The store that a pattern byte asks for. -/
def State.editStore (s : State) (a : Nat) : Option Byte → State
  | some b => s.memWrite a [b]
  | none => s

/-- The mark that a pattern byte asks for: its address in x[1]. -/
def State.editMark (s : State) : Option Nat → State
  | some a => s.writeReg 1 (s.withAddrField (s.reg 1) a)
  | none => s

theorem State.editCommit_eq (s : State) (w : EditWork) (act : EditAction) :
    s.editCommit w act =
      if act.store.isSome && (s.editStore w.dst act.store).trapFlag then (s.editStore w.dst act.store, .trapPending)
      else ((s.editStore w.dst act.store).editMark act.mark, .committed (act.work.advance s)) := by
  obtain ⟨work, store, mark⟩ := act
  cases store <;> cases mark <;> rfl

/-- `ReadOperand` of one byte more: the abort at its poll, or the rest after it. -/
theorem State.readOperand_succ (s : State) (a n : Nat) :
    s.readOperand a (n + 1) =
      if (s.memRead a 1).1.trapFlag then ((s.memRead a 1).1, none)
      else (((s.memRead a 1).1.readOperand (a + 1) n).1,
        ((s.memRead a 1).1.readOperand (a + 1) n).2.map ((s.memRead a 1).2 ++ ·)) := by
  rw [State.readOperand]
  dsimp only
  split
  · rfl
  · split <;> rename_i he <;> rw [he] <;> rfl

/-- `withOperand`, by what the load came to. -/
theorem State.withOperand_eq (s : State) (m : Nat) (k : State → List Byte → Result) :
    s.withOperand m k = (s.readOperand s.ea m).2.elim (s.readOperand s.ea m).1.abort (k (s.readOperand s.ea m).1) := by
  rw [State.withOperand]
  split <;> rename_i he <;> rw [he] <;> rfl

/-- `storeResult`, by what the stores came to. -/
theorem State.storeResult_eq (s : State) (bytes : List Byte) (v : Int) :
    s.storeResult bytes v =
      if (s.storeOperand s.ea bytes).2 then (s.storeOperand s.ea bytes).1.finishDecimal (signCC v)
      else (s.storeOperand s.ea bytes).1.abort := by
  rw [State.storeResult]
  split <;> rename_i he <;> rw [he] <;> rfl

/-! ## Progress: the frame of reads, accesses and register writes -/

/-- A port transaction that a command may make before its end, when it reads and writes these registers (R23). -/
def PortEvent.within (reads writes : List RegNum) : PortEvent → Prop
  | .regRead i => i ∈ reads
  | .regWrite i _ => i ∈ writes
  | .psdRead | .load .. | .store .. => True
  | .ccWrite .. | .trap .. => False

/-- What lies between two states when a command has read registers of one list, written registers of another, and accessed memory: the
accessor's verdicts used up say whether TRAPFLAG was raised, and the events made are the ones it may make. -/
structure Progress (reads writes : List RegNum) (s t : State) : Prop where
  config : t.config = s.config
  command : t.command = s.command
  program : t.program = s.program
  presented : t.presented = s.presented
  psd : t.psd = s.psd
  trapRecord : t.trapRecord = s.trapRecord
  regs : KeepsRegsBut s t writes
  accesses : ∃ n, t.accessor = s.accessor.drop n ∧
    (t.trapFlag = true ↔ s.trapFlag = true ∨ ∃ v ∈ s.accessor.take n, v ≠ .pass)
  events : ∃ events, t.ports = events ++ s.ports ∧ ∀ e ∈ events, e.within reads writes

theorem PortEvent.within.mono {reads reads' writes writes' : List RegNum} (hr : reads ⊆ reads') (hw : writes ⊆ writes') {e : PortEvent}
    (h : e.within reads writes) : e.within reads' writes' := by
  cases e with
  | regRead i => exact hr h
  | regWrite i v => exact hw h
  | psdRead | load | store => trivial
  | ccWrite | trap => exact h

theorem PortEvent.within.isCcOrTrap {reads writes : List RegNum} {e : PortEvent} (h : e.within reads writes) :
    e.isCcOrTrap = false := by
  cases e with
  | ccWrite | trap => exact h.elim
  | regRead | regWrite | psdRead | load | store => rfl

/-- Where no register may be written, only memory transactions and reads are left. -/
theorem PortEvent.within.isMemory_or_isRead {reads : List RegNum} {e : PortEvent} (h : e.within reads []) :
    e.isMemory = true ∨ e.isRead = true := by
  cases e with
  | regWrite => exact absurd h List.not_mem_nil
  | ccWrite | trap => exact h.elim
  | load | store => exact .inl rfl
  | regRead | psdRead => exact .inr rfl

namespace Progress

variable {reads writes : List RegNum} {s t u : State}

theorem refl : Progress reads writes s s :=
  ⟨rfl, rfl, rfl, rfl, rfl, rfl, fun _ _ => rfl, ⟨0, rfl, by simp⟩, ⟨[], rfl, by simp⟩⟩

theorem trans (h : Progress reads writes s t) (k : Progress reads writes t u) : Progress reads writes s u where
  config := k.config.trans h.config
  command := k.command.trans h.command
  program := k.program.trans h.program
  presented := k.presented.trans h.presented
  psd := k.psd.trans h.psd
  trapRecord := k.trapRecord.trans h.trapRecord
  regs j hj := (k.regs j hj).trans (h.regs j hj)
  accesses := by
    obtain ⟨n, hn, hf⟩ := h.accesses
    obtain ⟨m, hm, hg⟩ := k.accesses
    refine ⟨n + m, by rw [hm, hn, List.drop_drop], ?_⟩
    rw [hg, hf, hn, List.take_add]
    simp only [List.mem_append, or_and_right, exists_or, or_assoc]
  events := by
    obtain ⟨es, hes, hin⟩ := h.events
    obtain ⟨fs, hfs, hin'⟩ := k.events
    refine ⟨fs ++ es, by rw [hfs, hes, List.append_assoc], fun e he => ?_⟩
    exact (List.mem_append.1 he).elim (hin' e) (hin e)

theorem mono {reads' writes' : List RegNum} (h : Progress reads writes s t) (hr : reads ⊆ reads') (hw : writes ⊆ writes') :
    Progress reads' writes' s t where
  config := h.config
  command := h.command
  program := h.program
  presented := h.presented
  psd := h.psd
  trapRecord := h.trapRecord
  regs j hj := h.regs j fun hc => hj (hw hc)
  accesses := h.accesses
  events := by
    obtain ⟨es, hes, hin⟩ := h.events
    exact ⟨es, hes, fun e he => (hin e he).mono hr hw⟩

/-- TRAPFLAG is never cleared. -/
theorem flagged (h : Progress reads writes s t) (hs : s.trapFlag = true) : t.trapFlag = true := by
  obtain ⟨n, -, hf⟩ := h.accesses
  exact hf.2 (.inl hs)

/-- A poll that finds TRAPFLAG clear finds it as it was. -/
theorem trapFlag_eq_of_clear (h : Progress reads writes s t) (ht : t.trapFlag = false) : t.trapFlag = s.trapFlag := by
  cases hs : s.trapFlag with
  | false => exact ht
  | true => exact h.flagged hs

theorem regRead {i : RegNum} (hi : i ∈ reads) : Progress reads writes s (s.regRead i).1 :=
  ⟨rfl, rfl, rfl, rfl, rfl, rfl, fun _ _ => rfl, ⟨0, rfl, by simp⟩, ⟨[.regRead i], rfl, by simpa [PortEvent.within] using hi⟩⟩

theorem psdRead : Progress reads writes s s.psdRead.1 :=
  ⟨rfl, rfl, rfl, rfl, rfl, rfl, fun _ _ => rfl, ⟨0, rfl, by simp⟩, ⟨[.psdRead], rfl, by simp [PortEvent.within]⟩⟩

theorem writeReg {i : RegNum} (hi : i ∈ writes) (v : Word) : Progress reads writes s (s.writeReg i v) :=
  ⟨rfl, rfl, rfl, rfl, rfl, rfl, fun j hj => by rw [State.reg_writeReg, if_neg (by rintro rfl; exact hj hi)], ⟨0, rfl, by simp⟩,
    ⟨[.regWrite i v], rfl, by simpa [PortEvent.within] using hi⟩⟩

/-- The next verdict raises TRAPFLAG where there is one that is not `pass`. -/
theorem verdict_raises_iff (s : State) : s.verdict.raises = true ↔ ∃ v ∈ s.accessor.take 1, v ≠ .pass := by
  rw [State.verdict]
  cases s.accessor with
  | nil => simp [Verdict.raises]
  | cons v vs => cases v <;> simp [Verdict.raises]

theorem memRead (a n : Nat) : Progress reads writes s (s.memRead a n).1 :=
  ⟨rfl, rfl, rfl, rfl, rfl, rfl, fun _ _ => rfl,
    ⟨1, List.drop_one.symm, by rw [← verdict_raises_iff, State.memRead_trapFlag, Bool.or_eq_true]⟩,
    ⟨[.load (s.wrap a) n], rfl, by simp [PortEvent.within]⟩⟩

theorem memWrite (a : Nat) (bytes : List Byte) : Progress reads writes s (s.memWrite a bytes) :=
  ⟨rfl, rfl, rfl, rfl, rfl, rfl, fun _ _ => rfl,
    ⟨1, List.drop_one.symm, by rw [← verdict_raises_iff, State.memWrite_trapFlag, Bool.or_eq_true]⟩,
    ⟨[.store (s.wrap a) bytes], rfl, by simp [PortEvent.within]⟩⟩

theorem afterDeca (hr : decaRegs ⊆ reads) : Progress reads writes s s.afterDeca :=
  have mem (i : RegNum) (hi : i ∈ decaRegs) : i ∈ reads := hr hi
  (regRead (mem 12 (by decide))).trans <| (regRead (mem 13 (by decide))).trans <|
    (regRead (mem 14 (by decide))).trans (regRead (mem 15 (by decide)))

theorem writeDeca (hw : decaRegs ⊆ writes) (bytes : List Byte) : Progress reads writes s (s.writeDeca bytes) :=
  have mem (i : RegNum) (hi : i ∈ decaRegs) : i ∈ writes := hw hi
  (writeReg (mem 12 (by decide)) _).trans <| (writeReg (mem 13 (by decide)) _).trans <|
    (writeReg (mem 14 (by decide)) _).trans (writeReg (mem 15 (by decide)) _)

/-- A load of an operand; where it gives no bytes, its last poll found TRAPFLAG set. -/
theorem readOperand (s : State) (a n : Nat) :
    Progress reads writes s (s.readOperand a n).1 ∧
      (s.readOperand a n).1.trapFlag = if (s.readOperand a n).2.isSome then s.trapFlag else true := by
  induction n generalizing s a with
  | zero => exact ⟨refl, rfl⟩
  | succ n ih =>
    have h1 : Progress reads writes s (s.memRead a 1).1 := memRead a 1
    rw [State.readOperand_succ]
    by_cases hf : (s.memRead a 1).1.trapFlag = true
    · rw [if_pos hf]
      exact ⟨h1, hf⟩
    · obtain ⟨h2, h3⟩ := ih (s.memRead a 1).1 (a + 1)
      rw [h1.trapFlag_eq_of_clear (by simpa using hf)] at h3
      rw [if_neg hf]
      exact ⟨h1.trans h2, by simpa using h3⟩

/-- One-byte stores of a string; where they did not all pass, the last poll found TRAPFLAG set. -/
theorem storeOperand (s : State) (a : Nat) (bytes : List Byte) :
    Progress reads writes s (s.storeOperand a bytes).1 ∧
      (s.storeOperand a bytes).1.trapFlag = if (s.storeOperand a bytes).2 then s.trapFlag else true := by
  induction bytes generalizing s a with
  | nil => exact ⟨refl, rfl⟩
  | cons b bs ih =>
    have h1 : Progress reads writes s (s.memWrite a [b]) := memWrite a [b]
    rw [State.storeOperand]
    by_cases hf : (s.memWrite a [b]).trapFlag = true
    · rw [if_pos hf]
      exact ⟨h1, hf⟩
    · obtain ⟨h2, h3⟩ := ih (s.memWrite a [b]) (a + 1)
      rw [h1.trapFlag_eq_of_clear (by simpa using hf)] at h3
      simp only [hf, Bool.false_eq_true, if_false]
      exact ⟨h1.trans h2, h3⟩

/-! ## EBS's loop -/

theorem editStore (s : State) (a : Nat) (store : Option Byte) : Progress reads writes s (s.editStore a store) := by
  cases store with
  | none => exact refl
  | some b => exact memWrite a [b]

theorem editMark (hw : 1 ∈ writes) (s : State) (mark : Option Nat) : Progress reads writes s (s.editMark mark) := by
  cases mark with
  | none => exact refl
  | some a => exact writeReg hw _

theorem editCommit (s : State) (w : EditWork) (act : EditAction) : Progress reads [1] s (s.editCommit w act).1 := by
  rw [State.editCommit_eq]
  split
  · exact editStore s _ _
  · exact (editStore s _ _).trans (editMark (by decide) _ _)

theorem editStep (s : State) (fill : Byte) (disp : Int) (w : EditWork) : Progress reads [1] s (s.editStep fill disp w).1 := by
  rw [State.editStep]
  dsimp only
  split
  · exact memRead _ _
  refine (memRead w.dst 1).trans ?_
  split
  · split
    · exact memRead _ _
    refine (memRead (((w.sbase : Int) + disp) % (2 ^ s.config.addrBits : Nat)).toNat 1).trans ?_
    generalize (if w.right = true then _ else _ : Nibble) = d
    split
    · exact refl
    · exact editCommit _ _ _
  · exact editCommit _ _ _

theorem editLoop (fill : Byte) (disp : Int) (n : Nat) (s : State) (w : EditWork) :
    Progress reads [1] s (State.editLoop fill disp n s w).1 := by
  induction n generalizing s w with
  | zero => exact refl
  | succ n ih =>
    have h := editStep (reads := reads) s fill disp w
    rw [State.editLoop]
    split <;> rename_i he <;> rw [he] at h
    · exact h.trans (ih _ _)
    · exact h
    · exact h

/-- EBS's loop leaves TRAPFLAG as it was, unless it ended for it. -/
theorem editLoop_trapFlag (fill : Byte) (disp : Int) (n : Nat) (s : State) (w : EditWork) :
    (State.editLoop fill disp n s w).1.trapFlag =
      if (State.editLoop fill disp n s w).2.2 = .trapPending then true else s.trapFlag := by
  cases n with
  | zero => rfl
  | succ n =>
    obtain ⟨-, -, h⟩ := State.editLoop_spec fill disp (n + 1) s w (.inl n.succ_pos)
    split
    · exact h.1 ‹_›
    · exact (editLoop (reads := []) fill disp (n + 1) s w).trapFlag_eq_of_clear (Bool.eq_false_iff.2 (mt h.2 ‹_›))

theorem editWriteBack (s : State) (r : RegNum) (w : EditWork) : Progress reads [r, pairLow r] s (s.editWriteBack r w) :=
  (writeReg (by simp) _).trans (writeReg (by simp) _)

end Progress

/-! ## The ends of a command -/

theorem decaRegs_subset_regsRead_dsa (ind : Bool) (l : BitVec 4) (x : BitVec 3) (addr : BitVec 17) :
    decaRegs ⊆ (Sys2Proof.Instr.dsa ind l x addr).regsRead := by
  rw [Instr.regsRead]
  split
  · exact List.Subset.refl _
  · exact List.subset_cons_self _ _

theorem indexReg_mem_regsRead_dsa (ind : Bool) (l : BitVec 4) {x : BitVec 3} (addr : BitVec 17) (hx : x ≠ 0) :
    indexReg x ∈ (Sys2Proof.Instr.dsa ind l x addr).regsRead := by
  rw [Instr.regsRead, if_neg hx]
  exact List.mem_cons_self

/-- DD's own test excludes the wide division by zero (R116). -/
theorem divS_isSome {a m : W128} (h : ¬ W.isZero m = true) : ∃ d, W.divS a m = some d := by
  rw [W.divS, if_neg (by simpa [W.isZero] using h)]
  exact ⟨_, rfl⟩

/-- The trap address of the unit an instruction belongs to (R281). -/
def trapOf (i : Sys2Proof.Instr) : Nat := if i.isFloat then trapFloat else trapDecimal

/-- The states in which an instruction can come to report its completion, with the report: it wrote its condition code and is done, or
called the trap after it; or a poll found TRAPFLAG set, and it ends at once without a register written, unless it is EBS, which writes
its progress and the code first (R45, R57, R207). -/
inductive Ending (i : Sys2Proof.Instr) (s : State) : State → Completion → Prop
  | done {u : State} (h : Progress i.regsRead i.regsWritten s u) (hf : u.trapFlag = s.trapFlag) (cc : BitVec 4) :
    Ending i s (u.writeCC cc) .done
  | trapped {u : State} (h : Progress i.regsRead i.regsWritten s u) (cc : BitVec 4) :
    Ending i s ((u.writeCC cc).postTrap (trapOf i)) (.trapped (trapOf i))
  | aborted {u : State} (h : Progress i.regsRead [] s u) (hf : u.trapFlag = true) (he : i.isEdit = false) : Ending i s u .aborted
  | editAborted {u : State} (h : Progress i.regsRead i.regsWritten s u) (hf : u.trapFlag = true) (he : i.isEdit = true)
    (cc : BitVec 4) : Ending i s (u.writeCC cc) .aborted

/-- The result is one of the ends that the instruction can come to from the state. -/
def CommandEnds (i : Sys2Proof.Instr) (s : State) (r : Result) : Prop := ∃ u c, Ending i s u c ∧ r = u.complete c

/-- Reads and accesses that leave TRAPFLAG as it was may come before a command's ending. -/
theorem Ending.after {i : Sys2Proof.Instr} {s u v : State} {c : Completion} (h : Progress i.regsRead [] s u)
    (hf : u.trapFlag = s.trapFlag) (k : Ending i u v c) : Ending i s v c := by
  have h' : Progress i.regsRead i.regsWritten s u := h.mono (List.Subset.refl _) (List.nil_subset _)
  cases k with
  | done k kf cc => exact .done (h'.trans k) (kf.trans hf) cc
  | trapped k cc => exact .trapped (h'.trans k) cc
  | aborted k kf he => exact .aborted (h.trans k) kf he
  | editAborted k kf he cc => exact .editAborted (h'.trans k) kf he cc

namespace CommandEnds

variable {i : Sys2Proof.Instr} {s u : State}

theorem done (h : Progress i.regsRead i.regsWritten s u) (hf : u.trapFlag = s.trapFlag) (cc : BitVec 4) :
    CommandEnds i s ((u.writeCC cc).complete .done) := ⟨_, _, .done h hf cc, rfl⟩

theorem trapped (h : Progress i.regsRead i.regsWritten s u) (cc : BitVec 4) :
    CommandEnds i s ((u.writeCC cc).takeTrap (trapOf i)) := ⟨_, _, .trapped h cc, rfl⟩

theorem aborted (h : Progress i.regsRead [] s u) (hf : u.trapFlag = true) (he : i.isEdit = false) : CommandEnds i s u.abort :=
  ⟨_, _, .aborted h hf he, rfl⟩

theorem editAborted (h : Progress i.regsRead i.regsWritten s u) (hf : u.trapFlag = true) (he : i.isEdit = true) (cc : BitVec 4) :
    CommandEnds i s (u.writeCC cc).abort := ⟨_, _, .editAborted h hf he cc, rfl⟩

theorem after {r : Result} (h : Progress i.regsRead [] s u) (hf : u.trapFlag = s.trapFlag) (k : CommandEnds i u r) :
    CommandEnds i s r := by
  obtain ⟨v, c, hv, rfl⟩ := k
  exact ⟨v, c, hv.after h hf, rfl⟩

/-! ### Decimal ends -/

theorem finishDecimal (h : Progress i.regsRead i.regsWritten s u) (hf : u.trapFlag = s.trapFlag) (pair : BitVec 2) :
    CommandEnds i s (u.finishDecimal pair) := .done h hf _

theorem writeDeca_finishDecimal (hw : decaRegs ⊆ i.regsWritten) (bytes : List Byte) (pair : BitVec 2) :
    CommandEnds i s ((s.writeDeca bytes).finishDecimal pair) := by
  have h : Progress i.regsRead i.regsWritten s (s.writeDeca bytes) := .writeDeca hw bytes
  exact finishDecimal h rfl pair

theorem decimalTrap (hd : i.isFloat = false) (h : Progress i.regsRead i.regsWritten s u) (hf : u.trapFlag = s.trapFlag) (cc : BitVec 4)
    (dm : Bool) : CommandEnds i s ((u.writeCC cc).decimalTrap dm) := by
  cases dm with
  | false => exact .done h hf cc
  | true =>
    have ht : trapOf i = trapDecimal := by rw [trapOf, hd]; rfl
    rw [State.decimalTrap, if_pos rfl, ← ht]
    exact .trapped h cc

theorem decimalEnd (hd : i.isFloat = false) (h : Progress i.regsRead i.regsWritten s u) (hf : u.trapFlag = s.trapFlag)
    (cc : Psd → BitVec 4) : CommandEnds i s (u.decimalEnd cc) :=
  decimalTrap hd (h.trans .psdRead) hf _ _

theorem decimalFault (hd : i.isFloat = false) (kind : DecimalFault) : CommandEnds i s (s.decimalFault kind) :=
  decimalEnd hd .refl rfl _

theorem setResult (hd : i.isFloat = false) (hw : decaRegs ⊆ i.regsWritten) (v : Int) : CommandEnds i s (s.setResult v) := by
  rw [State.setResult, State.decSet, if_neg (by decide)]
  cases decImage (BitVec.ofInt 128 v) with
  | none => exact decimalFault hd _
  | some bytes => exact writeDeca_finishDecimal hw bytes _

theorem storeResult (hn : i.isEdit = false) (bytes : List Byte) (v : Int) : CommandEnds i s (s.storeResult bytes v) := by
  obtain ⟨h, hf⟩ := Progress.storeOperand (reads := i.regsRead) (writes := []) s s.ea bytes
  rw [State.storeResult_eq]
  split <;> rename_i hb
  · rw [if_pos hb] at hf
    exact finishDecimal (h.mono (List.Subset.refl _) (List.nil_subset _)) hf _
  · rw [if_neg hb] at hf
    exact .aborted h hf hn

/-! ### Operands -/

theorem withOperand (hn : i.isEdit = false) {m : Nat} {k : State → List Byte → Result} (hk : ∀ u bytes, CommandEnds i u (k u bytes)) :
    CommandEnds i s (s.withOperand m k) := by
  obtain ⟨h, hf⟩ := Progress.readOperand (reads := i.regsRead) (writes := []) s s.ea m
  rw [State.withOperand_eq]
  cases hb : (s.readOperand s.ea m).2 <;> rw [hb] at hf
  case none => exact .aborted h hf hn
  case some bytes => exact .after h hf (hk _ _)

theorem withPacked (hn : i.isEdit = false) (hd : i.isFloat = false) {l : BitVec 4} {k : State → W128 → Result}
    (hk : ∀ u m, CommandEnds i u (k u m)) : CommandEnds i s (s.withPacked l k) := by
  refine withOperand hn fun u bytes => ?_
  dsimp only
  split
  · exact hk _ _
  · exact decimalFault hd _

theorem withAcc (hd : i.isFloat = false) (hr : decaRegs ⊆ i.regsRead) {k : State → W128 → Result}
    (hk : ∀ u v, CommandEnds i u (k u v)) :
    CommandEnds i s (s.withAcc k) := by
  rw [State.withAcc_eq]
  refine .after (.afterDeca hr) rfl ?_
  split
  · exact hk _ _
  · exact decimalFault hd _

/-! ### Decimal instructions -/

variable {ind : Bool} {l : BitVec 4} {x : BitVec 3} {addr : BitVec 17}

theorem execDd : CommandEnds (.dd ind l x addr) s (execDd l s) := by
  refine withPacked rfl rfl fun s1 m => withAcc rfl (List.Subset.refl _) fun s2 a => ?_
  split
  · exact decimalFault rfl _
  · obtain ⟨d, h⟩ := divS_isSome (a := a) ‹_›
    rw [h]
    dsimp only
    split
    · exact decimalFault rfl _
    · exact writeDeca_finishDecimal (List.Subset.refl _) _ _

theorem execDl : CommandEnds (.dl ind l x addr) s (execDl l s) :=
  withPacked rfl rfl fun _ _ => setResult rfl (List.Subset.refl _) _

theorem execDa : CommandEnds (.da ind l x addr) s (execDa l s) :=
  withPacked rfl rfl fun _ _ => withAcc rfl (List.Subset.refl _) fun _ _ => setResult rfl (List.Subset.refl _) _

theorem execDs : CommandEnds (.ds ind l x addr) s (execDs l s) :=
  withPacked rfl rfl fun _ _ => withAcc rfl (List.Subset.refl _) fun _ _ => setResult rfl (List.Subset.refl _) _

theorem execDc : CommandEnds (.dc ind l x addr) s (execDc l s) :=
  withPacked rfl rfl fun _ _ => withAcc rfl (List.Subset.refl _) fun _ _ => finishDecimal .refl rfl _

theorem execDm : CommandEnds (.dm ind l x addr) s (execDm l s) :=
  withPacked rfl rfl fun _ _ => withAcc rfl (List.Subset.refl _) fun _ _ => writeDeca_finishDecimal (List.Subset.refl _) _ _

theorem execPack : CommandEnds (.pack ind l x addr) s (execPack l s) := by
  refine withOperand rfl fun u bytes => ?_
  dsimp only
  split
  · exact setResult rfl (List.Subset.refl _) _
  · exact decimalFault rfl _

theorem execUnpk : CommandEnds (.unpk ind l x addr) s (execUnpk l s) := by
  refine withAcc rfl (List.Subset.refl _) fun u v => ?_
  dsimp only
  split
  · exact decimalFault rfl _
  · exact storeResult rfl _ _

theorem execDst : CommandEnds (.dst ind l x addr) s (execDst l s) := by
  refine withAcc rfl (List.Subset.refl _) fun u v => ?_
  split
  · exact decimalFault rfl _
  · exact storeResult rfl _ _

theorem execDsa : CommandEnds (.dsa ind l x addr) s (execDsa ind x addr s) := by
  have hindex : Progress (Instr.dsa ind l x addr).regsRead [] s (s.readIndex x).1 ∧ (s.readIndex x).1.trapFlag = s.trapFlag := by
    rw [State.readIndex]
    split
    · exact ⟨.refl, rfl⟩
    · exact ⟨.regRead (indexReg_mem_regsRead_dsa ind l addr ‹_›), rfl⟩
  rw [Machine.execDsa]
  refine after hindex.1 hindex.2 (withAcc rfl (decaRegs_subset_regsRead_dsa ind l x addr) fun s2 a => ?_)
  have hset (v : Int) : Progress (Instr.dsa ind l x addr).regsRead (Instr.dsa ind l x addr).regsWritten s2 (s2.decSetLow31 v) :=
    .writeDeca (List.Subset.refl _) _
  dsimp only
  split
  · exact decimalEnd rfl (hset _) rfl _
  · exact finishDecimal (hset _) rfl _

/-! ### Floating instructions -/

theorem finishFloat (hn : i.isEdit = false) (hd : i.isFloat = true) (h : Progress i.regsRead [] s u) {width : Nat}
    {write : State → BitVec width → State}
    (hw : ∀ w, Progress i.regsRead i.regsWritten u (write u w) ∧ (write u w).trapFlag = u.trapFlag)
    (result : Except FloatFault (BitVec width)) :
    CommandEnds i s (if u.trapFlag then u.abort else u.finishFloat write result) := by
  have ht : trapOf i = trapFloat := by rw [trapOf, hd]; rfl
  split
  · exact .aborted h ‹_› hn
  · refine .after h (h.trapFlag_eq_of_clear (Bool.eq_false_iff.2 ‹_›)) ?_
    cases result with
    | ok w => exact .done (hw w).1 (hw w).2 _
    | error kind =>
      rw [State.finishFloat, State.floatFault, ← ht]
      exact .trapped .refl _

theorem floatShort (hn : i.isEdit = false) (hd : i.isFloat = true) {r : RegNum} (hr : r ∈ i.regsRead) (hw : r ∈ i.regsWritten)
    (op : FloatOp) : CommandEnds i s (floatShort op r s) :=
  finishFloat hn hd (.trans .psdRead (.trans (.regRead hr) (.memRead _ 4))) (fun w => ⟨.writeReg hw w, rfl⟩) _

theorem floatLong (hn : i.isEdit = false) (hd : i.isFloat = true) {r : RegNum} (hr : [r, pairLow r] ⊆ i.regsRead)
    (hw : [r, pairLow r] ⊆ i.regsWritten) (op : FloatOp) : CommandEnds i s (floatLong op r s) := by
  obtain ⟨hr0, hr1⟩ : r ∈ i.regsRead ∧ pairLow r ∈ i.regsRead := by simpa using hr
  obtain ⟨hw0, hw1⟩ : r ∈ i.regsWritten ∧ pairLow r ∈ i.regsWritten := by simpa using hw
  exact finishFloat hn hd (.trans .psdRead (.trans (.regRead hr0) (.trans (.regRead hr1) (.memRead _ 8))))
    (fun w => ⟨.trans (.writeReg hw1 _) (.writeReg hw0 _), rfl⟩) _

/-! ### EBS -/

theorem editFinish (hd : i.isFloat = false) (he : i.isEdit = true) {r : RegNum} (hw : [r, pairLow r] ⊆ i.regsWritten)
    (h : Progress i.regsRead i.regsWritten s u) {ending : EditEnding}
    (hf : u.trapFlag = if ending = .trapPending then true else s.trapFlag) (w : EditWork) (dm : Bool) :
    CommandEnds i s (u.editFinish r w dm ending) := by
  have h' : Progress i.regsRead i.regsWritten s (u.editWriteBack r w) :=
    h.trans ((Progress.editWriteBack u r w).mono (List.nil_subset _) hw)
  cases ending with
  | exhausted => exact .done h' hf _
  | invalidDigit => exact decimalTrap hd h' hf _ _
  | trapPending => exact .editAborted h' hf he _

theorem execEbs (r : RegNum) (disp : Int) : CommandEnds (.ebs r disp) s (execEbs r disp s) := by
  have hreads : Progress [r, pairLow r] [] s ((s.regRead r).1.regRead (pairLow r)).1.psdRead.1 :=
    .trans (.regRead (by simp)) (.trans (.regRead (by simp)) .psdRead)
  refine .after hreads rfl (editFinish rfl rfl ?_ ((Progress.editLoop _ _ _ _ _).mono (List.Subset.refl _) ?_)
    (Progress.editLoop_trapFlag _ _ _ _ _) _ _)
  · exact fun j hj => by simpa [Instr.regsWritten, pairLow] using Or.imp_right Or.inl (by simpa [pairLow] using hj)
  · simp [Instr.regsWritten]

end CommandEnds

/-- Every instruction comes, from every state, to one of the four ends. -/
theorem exec_ends (i : Sys2Proof.Instr) (s : State) : CommandEnds i s (exec i s) := by
  have all (l : List RegNum) : l ⊆ l := List.Subset.refl l
  have one (r : RegNum) : r ∈ [r] := List.mem_singleton_self r
  cases i with
  | fsl _ r _ _ => exact .floatLong rfl rfl (all _) (all _) .subtract
  | fal _ r _ _ => exact .floatLong rfl rfl (all _) (all _) .add
  | fdl _ r _ _ => exact .floatLong rfl rfl (all _) (all _) .divide
  | fml _ r _ _ => exact .floatLong rfl rfl (all _) (all _) .multiply
  | fss _ r _ _ => exact .floatShort rfl rfl (one r) (one r) .subtract
  | fas _ r _ _ => exact .floatShort rfl rfl (one r) (one r) .add
  | fds _ r _ _ => exact .floatShort rfl rfl (one r) (one r) .divide
  | fms _ r _ _ => exact .floatShort rfl rfl (one r) (one r) .multiply
  | ebs r disp => exact .execEbs r disp
  | pack => exact .execPack
  | unpk => exact .execUnpk
  | ds => exact .execDs
  | da => exact .execDa
  | dd => exact .execDd
  | dm => exact .execDm
  | dsa => exact .execDsa
  | dc => exact .execDc
  | dl => exact .execDl
  | dst => exact .execDst

/-- A command that answers a next state: what it is. -/
theorem ending_of_exec {i : Sys2Proof.Instr} {s t : State} (h : exec i s = .next t) :
    ∃ u c, Ending i s u c ∧ t = { u with status := .idle, completion := some c } := by
  obtain ⟨u, c, hu, he⟩ := exec_ends i s
  exact ⟨u, c, hu, Host.Outcome.next.inj (h.symm.trans he)⟩

/-! ## The frames of all instructions -/

namespace Ending

variable {i : Sys2Proof.Instr} {s u : State} {c : Completion}

/-- Whatever the ending, the parameters, the command, the list and the PSD beside the condition code are as they were. -/
theorem front (h : Ending i s u c) :
    (u.config = s.config ∧ u.command = s.command ∧ u.program = s.program ∧ u.presented = s.presented) ∧
      u.psd = { s.psd with cc := u.psd.cc } := by
  cases h with
  | aborted h => exact ⟨⟨h.config, h.command, h.program, h.presented⟩, by rw [h.psd]⟩
  | done h | trapped h | editAborted h =>
    refine ⟨⟨h.config, h.command, h.program, h.presented⟩, ?_⟩
    rw [← h.psd]
    rfl

/-- Whatever the ending, a register that the instruction does not write keeps its value. -/
theorem regs (h : Ending i s u c) : KeepsRegsBut s u i.regsWritten := by
  cases h with
  | aborted h => exact fun j _ => h.regs j List.not_mem_nil
  | done h | trapped h | editAborted h => exact h.regs

/-- TRAPFLAG is set at the end exactly where it was set, a verdict used up raised it, or the command called the trap. -/
theorem trapFlag_iff (h : Ending i s u c) :
    ∃ n, u.accessor = s.accessor.drop n ∧
      (u.trapFlag = true ↔ s.trapFlag = true ∨ (∃ v ∈ s.accessor.take n, v ≠ .pass) ∨ ∃ a, some c = some (.trapped a)) := by
  cases h with
  | trapped h cc =>
    obtain ⟨n, hn, -⟩ := h.accesses
    exact ⟨n, hn, by simp⟩
  | done h | aborted h | editAborted h =>
    obtain ⟨n, hn, hf⟩ := h.accesses
    exact ⟨n, hn, by simpa using hf⟩

/-- The trap record stays unless the command called the trap, with the address of its unit. -/
theorem trapRecord (h : Ending i s u c) :
    (u.trapRecord = s.trapRecord ∧ (some c = some .done ∨ some c = some .aborted)) ∨
      (u.trapFlag = true ∧ u.trapRecord = s.trapRecord ++ [trapOf i] ∧ c = .trapped (trapOf i)) := by
  cases h with
  | done h => exact .inl ⟨h.trapRecord, .inl rfl⟩
  | trapped h cc => exact .inr ⟨rfl, congrArg (· ++ [trapOf i]) h.trapRecord, rfl⟩
  | aborted h | editAborted h => exact .inl ⟨h.trapRecord, .inr rfl⟩

/-- The events a command makes before its condition code: none of them a `CcWrite` or a trap, and its reads and writes are of the
registers listed for it (R23); and the events of its ending after them. -/
theorem ports (h : Ending i s u c) : ∃ before : List PortEvent, (∀ e ∈ before, e.within i.regsRead i.regsWritten) ∧
    ((c = .done ∧ u.ports = .ccWrite u.psd.cc :: (before ++ s.ports)) ∨
      (c = .trapped (trapOf i) ∧ u.ports = .trap (trapOf i) :: .ccWrite u.psd.cc :: (before ++ s.ports)) ∨
      (c = .aborted ∧ i.isEdit = true ∧ u.ports = .ccWrite u.psd.cc :: (before ++ s.ports)) ∨
      (c = .aborted ∧ i.isEdit = false ∧ u.ports = before ++ s.ports ∧ ∀ e ∈ before, e.isMemory = true ∨ e.isRead = true)) := by
  cases h with
  | done h _ cc =>
    obtain ⟨es, hes, hin⟩ := h.events
    exact ⟨es, hin, .inl ⟨rfl, congrArg (PortEvent.ccWrite cc :: ·) hes⟩⟩
  | trapped h cc =>
    obtain ⟨es, hes, hin⟩ := h.events
    exact ⟨es, hin, .inr (.inl ⟨rfl, congrArg (PortEvent.trap (trapOf i) :: PortEvent.ccWrite cc :: ·) hes⟩)⟩
  | aborted h _ he =>
    obtain ⟨es, hes, hin⟩ := h.events
    exact ⟨es, fun e hm => (hin e hm).mono (List.Subset.refl _) (List.nil_subset _),
      .inr (.inr (.inr ⟨rfl, he, hes, fun e hm => (hin e hm).isMemory_or_isRead⟩))⟩
  | editAborted h _ he cc =>
    obtain ⟨es, hes, hin⟩ := h.events
    exact ⟨es, hin, .inr (.inr (.inl ⟨rfl, he, congrArg (PortEvent.ccWrite cc :: ·) hes⟩))⟩

end Ending

/-- Settles O13: every ending is reported as a next state with the block idle. -/
theorem everyInstructionLeavesBlockIdle : Obligations.EveryInstructionLeavesBlockIdle := by
  intro i s
  obtain ⟨u, c, -, he⟩ := exec_ends i s
  exact ⟨_, he, rfl⟩

/-- Settles O15, from what every ending leaves alone and what it says of TRAPFLAG and the trap record. -/
theorem commandFrame : Obligations.CommandFrame := by
  intro i s t ht
  obtain ⟨u, c, h, rfl⟩ := ending_of_exec ht
  obtain ⟨⟨hconfig, hcommand, hprogram, hpresented⟩, hpsd⟩ := h.front
  obtain ⟨n, hn, hf⟩ := h.trapFlag_iff
  refine ⟨⟨hconfig, hcommand, hprogram, hpresented, rfl⟩, hpsd, fun hs => hf.2 (.inl hs), ⟨n, hn, hf⟩, ?_, ?_, ?_⟩
  · rintro ⟨⟩
    cases h with | done _ hflag => exact hflag
  · rintro ⟨⟩
    cases h with | aborted _ hflag | editAborted _ hflag => exact hflag
  · refine h.trapRecord.imp_right ?_
    rintro ⟨hset, hrecord, rfl⟩
    exact ⟨hset, trapOf i, rfl, hrecord, rfl⟩

/-- Settles O17. -/
theorem unwrittenRegistersKeepValue : Obligations.UnwrittenRegistersKeepValue := by
  intro i s t ht
  obtain ⟨u, c, h, rfl⟩ := ending_of_exec ht
  exact h.regs

/-- Settles O22: the events before the condition code are no `CcWrite` and no trap, and each ending has its own after them. -/
theorem conditionCodeThenTrapAreLast : Obligations.ConditionCodeThenTrapAreLast := by
  intro i s t ht
  obtain ⟨u, c, h, rfl⟩ := ending_of_exec ht
  obtain ⟨before, hin, hends⟩ := h.ports
  refine ⟨before, fun e he => (hin e he).isCcOrTrap, ?_⟩
  obtain ⟨rfl, hp⟩ | ⟨rfl, hp⟩ | ⟨rfl, he, hp⟩ | ⟨rfl, he, hp, hb⟩ := hends
  · exact .inl ⟨rfl, hp⟩
  · exact .inr (.inl ⟨_, rfl, hp⟩)
  · exact .inr (.inr (.inl ⟨rfl, he, hp⟩))
  · exact .inr (.inr (.inr ⟨rfl, he, hp, hb⟩))

/-- Of the register-port transactions a command makes, every read is of a register it lists as read and every write of one it lists as
written (R23). -/
theorem exec_events_listed {i : Sys2Proof.Instr} {s t : State} (ht : exec i s = .next t) :
    ∃ events : List PortEvent, t.ports = events ++ s.ports ∧
      (∀ j, .regRead j ∈ events → j ∈ i.regsRead) ∧ ∀ j v, .regWrite j v ∈ events → j ∈ i.regsWritten := by
  obtain ⟨u, c, h, rfl⟩ := ending_of_exec ht
  obtain ⟨before, hin, hends⟩ := h.ports
  have hread (j : RegNum) (hj : .regRead j ∈ before) : j ∈ i.regsRead := hin (.regRead j) hj
  have hwrite (j : RegNum) (v : Word) (hj : .regWrite j v ∈ before) : j ∈ i.regsWritten := hin (.regWrite j v) hj
  obtain ⟨-, hp⟩ | ⟨-, hp⟩ | ⟨-, -, hp⟩ | ⟨-, -, hp, -⟩ := hends
  · exact ⟨.ccWrite u.psd.cc :: before, hp, by simpa using hread, by simpa using hwrite⟩
  · exact ⟨.trap (trapOf i) :: .ccWrite u.psd.cc :: before, hp, by simpa using hread, by simpa using hwrite⟩
  · exact ⟨.ccWrite u.psd.cc :: before, hp, by simpa using hread, by simpa using hwrite⟩
  · exact ⟨before, hp, hread, hwrite⟩

end Sys2Proof.Machine
end

