-- ==== Sys2Proof/Proofs/Unseen.lean ====
section
/-! What no command looks at, said once for all instructions: a relation of states that agree on everything an instruction looks at, and
that every operation it may make keeps, is kept by the whole instruction (`exec_unseen`). The independence statements are this, each at
its own relation. -/

namespace Sys2Proof

/-- The instruction addresses memory by the effective address of its command (R81). -/
def Instr.usesEa : Instr → Bool
  | .dsa .. | .ebs .. => false
  | .fsl .. | .fal .. | .fdl .. | .fml .. | .fss .. | .fas .. | .fds .. | .fms .. => true
  | .pack .. | .unpk .. | .ds .. | .da .. | .dd .. | .dm .. | .dc .. | .dl .. | .dst .. => true

/-- The instruction takes the word its dispatcher fetched (R76, R81). -/
def Instr.usesOpnd : Instr → Bool
  | .dsa ind .. => ind
  | .fsl .. | .fal .. | .fdl .. | .fml .. | .fss .. | .fas .. | .fds .. | .fms .. | .ebs .. => false
  | .pack .. | .unpk .. | .ds .. | .da .. | .dd .. | .dm .. | .dc .. | .dl .. | .dst .. => false

end Sys2Proof

namespace Sys2Proof.Machine

/-- Two states that agree on what an instruction looks at: the registers it reads (R23), of the PSD the condition code and the mask or
the underflow policy, of the command what it uses. -/
structure SameView (i : Sys2Proof.Instr) (s t : State) : Prop where
  config : t.config = s.config
  mem : t.mem = s.mem
  trapFlag : t.trapFlag = s.trapFlag
  ea : i.usesEa = true → t.command.ea = s.command.ea
  opnd : i.usesOpnd = true → t.command.opnd = s.command.opnd
  cc : t.psd.cc = s.psd.cc
  mask : i.isFloat = false → t.psd.dm = s.psd.dm
  policy : i.isFloat = true → t.uflow.2 = s.uflow.2
  reg : ∀ j ∈ i.regsRead, t.reg j = s.reg j

/-- A relation of states that an instruction does not see: related states look the same to it, and every operation it may make leads
related states to related states. EBS's mark is an operation of its own, for it changes a part of a register that the command need not
have read. -/
structure Unseen (i : Sys2Proof.Instr) (R : State → State → Prop) : Prop where
  view : ∀ {s t}, R s t → SameView i s t
  regRead : ∀ {s t}, R s t → ∀ j ∈ i.regsRead, R (s.regRead j).1 (t.regRead j).1
  psdRead : ∀ {s t}, R s t → R s.psdRead.1 t.psdRead.1
  memRead : ∀ {s t}, R s t → ∀ a n, R (s.memRead a n).1 (t.memRead a n).1
  memWrite : ∀ {s t}, R s t → ∀ a bytes, R (s.memWrite a bytes) (t.memWrite a bytes)
  writeReg : ∀ {s t}, R s t → ∀ j ∈ i.regsWritten, ∀ v, R (s.writeReg j v) (t.writeReg j v)
  editMark : ∀ {s t}, R s t → i.isEdit = true → ∀ mark, R (s.editMark mark) (t.editMark mark)
  writeCC : ∀ {s t}, R s t → ∀ cc, R (s.writeCC cc) (t.writeCC cc)
  postTrap : ∀ {s t}, R s t → ∀ a, R (s.postTrap a) (t.postTrap a)
  report : ∀ {s t}, R s t → ∀ c : Completion,
    R { s with status := .idle, completion := some c } { t with status := .idle, completion := some c }

/-- Two results that are next states in a relation. -/
inductive NextRel (R : State → State → Prop) : Result → Result → Prop
  | next {s t : State} (h : R s t) : NextRel R (.next s) (.next t)

/-- Where related states are a state and its image, the second result is the image of the first. -/
theorem NextRel.eq_mapNext {f : State → State} {R : State → State → Prop} (hR : ∀ s t, R s t → t = f s) {r r' : Result}
    (h : NextRel R r r') : r' = mapNext f r := by
  obtain ⟨h⟩ := h
  exact congrArg Host.Outcome.next (hR _ _ h)

theorem State.withAddrField_congr {s t : State} (h : t.config = s.config) (w : Word) (a : Nat) :
    t.withAddrField w a = s.withAddrField w a := by
  simp only [State.withAddrField, State.wrap, h]

theorem EditWork.advance_congr {s t : State} (h : t.config = s.config) (w : EditWork) : w.advance t = w.advance s := by
  simp only [EditWork.advance, State.wrap, h]

theorem editDigit_congr {s t : State} (h : t.config = s.config) (fill p sb : Byte) (d : Nibble) (w : EditWork) :
    editDigit t fill p sb d w = editDigit s fill p sb d w := by
  simp only [editDigit, State.wrap, h]

theorem State.editStart_congr {s t : State} (h : t.config = s.config) (xr xr1 : Word) (cc : BitVec 4) :
    t.editStart xr xr1 cc = s.editStart xr xr1 cc := by
  simp only [State.editStart, State.addrField, State.wrap, h]

/-- One turn of EBS's loop more, by what the turn came to. -/
theorem State.editLoop_succ (fill : Byte) (disp : Int) (n : Nat) (s : State) (w : EditWork) :
    (∀ w1, (s.editStep fill disp w).2 = .committed w1 →
      State.editLoop fill disp (n + 1) s w = State.editLoop fill disp n (s.editStep fill disp w).1 w1) ∧
    ((s.editStep fill disp w).2 = .invalid → State.editLoop fill disp (n + 1) s w = ((s.editStep fill disp w).1, w, .invalidDigit)) ∧
    ((s.editStep fill disp w).2 = .trapPending →
      State.editLoop fill disp (n + 1) s w = ((s.editStep fill disp w).1, w, .trapPending)) := by
  rw [State.editLoop]
  split <;> rename_i he <;> rw [he] <;> simp

/-- EBS, by what its reads give: the loop from the work they start it with, then the ending. -/
theorem execEbs_eq (r : RegNum) (disp : Int) (s : State) :
    execEbs r disp s =
      let u := ((s.regRead r).1.regRead (pairLow r)).1.psdRead.1
      let w := u.editStart (s.reg r) (s.reg (pairLow r)) s.psd.cc
      let out := State.editLoop (topByte (s.reg r)) disp w.count u w
      out.1.editFinish r out.2.1 s.psd.dm out.2.2 := rfl

/-- A short operation, by what it reads and fetches. -/
theorem floatShort_eq (op : FloatOp) (r : RegNum) (u : State) :
    floatShort op r u =
      let v := ((u.psdRead.1.regRead r).1.memRead (alignDown 4 u.ea) 4).1
      if v.trapFlag then v.abort
      else v.finishFloat (fun v w => v.writeReg r w) (floatResult 32 op u.uflow.2 (sigmaToDouble (u.reg r))
        (sigmaToDouble (BitVec.ofNat 32 (bytesToNat (u.bytesAt (alignDown 4 u.ea) 4))))) := rfl

/-- A long operation, by what it reads and fetches. -/
theorem floatLong_eq (op : FloatOp) (r : RegNum) (u : State) :
    floatLong op r u =
      let v := (((u.psdRead.1.regRead r).1.regRead (pairLow r)).1.memRead (alignDown 8 u.ea) 8).1
      if v.trapFlag then v.abort
      else v.finishFloat (fun v w => v.writeLong r w) (floatResult 64 op u.uflow.2 (sigmaToDouble (u.reg r ++ u.reg (pairLow r)))
        (sigmaToDouble (BitVec.ofNat 64 (bytesToNat (u.bytesAt (alignDown 8 u.ea) 8))))) := rfl

namespace Unseen

section

variable {i : Sys2Proof.Instr} {R : State → State → Prop} (hR : Unseen i R) {s t : State} (h : R s t)
include hR h

/-! ## Ends -/

theorem complete (c : Completion) : NextRel R (s.complete c) (t.complete c) := .next (hR.report h c)

theorem takeTrap (a : Nat) : NextRel R (s.takeTrap a) (t.takeTrap a) := hR.complete (hR.postTrap h a) _

theorem finishDecimal (pair : BitVec 2) : NextRel R (s.finishDecimal pair) (t.finishDecimal pair) := hR.complete (hR.writeCC h _) _

theorem decimalTrap (cc : BitVec 4) (dm : Bool) : NextRel R ((s.writeCC cc).decimalTrap dm) ((t.writeCC cc).decimalTrap dm) := by
  cases dm with
  | false => exact hR.complete (hR.writeCC h cc) _
  | true => exact hR.takeTrap (hR.writeCC h cc) _

/-- The fault procedure, for a code that depends on the PSD only by the code in it. -/
theorem decimalEnd (hd : i.isFloat = false) {cc : Psd → BitVec 4} (hcc : ∀ p q : Psd, p.cc = q.cc → cc p = cc q) :
    NextRel R (s.decimalEnd cc) (t.decimalEnd cc) := by
  simp only [State.decimalEnd, State.psdRead_value, (hR.view h).mask hd, hcc t.psd s.psd (hR.view h).cc]
  exact hR.decimalTrap (hR.psdRead h) _ _

theorem decimalFault (hd : i.isFloat = false) (kind : DecimalFault) : NextRel R (s.decimalFault kind) (t.decimalFault kind) :=
  hR.decimalEnd h hd fun _ _ hpq => congrArg _ hpq

theorem writeDeca (hw : decaRegs ⊆ i.regsWritten) (bytes : List Byte) : R (s.writeDeca bytes) (t.writeDeca bytes) := by
  have mem (j : RegNum) (hj : j ∈ decaRegs) : j ∈ i.regsWritten := hw hj
  have h12 := hR.writeReg h 12 (mem 12 (by decide)) (bytesWord (bytes.take 4))
  have h13 := hR.writeReg h12 13 (mem 13 (by decide)) (bytesWord ((bytes.drop 4).take 4))
  have h14 := hR.writeReg h13 14 (mem 14 (by decide)) (bytesWord ((bytes.drop 8).take 4))
  exact hR.writeReg h14 15 (mem 15 (by decide)) _

theorem setResult (hd : i.isFloat = false) (hw : decaRegs ⊆ i.regsWritten) (v : Int) : NextRel R (s.setResult v) (t.setResult v) := by
  simp only [State.setResult, State.decSet]
  rw [if_neg (by decide), if_neg (by decide)]
  cases decImage (BitVec.ofInt 128 v) with
  | none => exact hR.decimalFault h hd _
  | some bytes => exact hR.finishDecimal (hR.writeDeca h hw bytes) _

/-! ## Operands -/

theorem ea_eq (he : i.usesEa = true) : t.ea = s.ea := by
  rw [State.ea, State.wrap_congr (hR.view h).config, (hR.view h).ea he, State.ea]

theorem readOperand (a n : Nat) :
    R (s.readOperand a n).1 (t.readOperand a n).1 ∧ (t.readOperand a n).2 = (s.readOperand a n).2 := by
  induction n generalizing s t a with
  | zero => exact ⟨h, rfl⟩
  | succ n ih =>
    have h1 := hR.memRead h a 1
    have hb : (t.memRead a 1).2 = (s.memRead a 1).2 := State.bytesAt_congr (hR.view h).config (hR.view h).mem a 1
    obtain ⟨h2, e⟩ := ih h1 (a + 1)
    rw [State.readOperand_succ, State.readOperand_succ, (hR.view h1).trapFlag]
    split
    · exact ⟨h1, rfl⟩
    · exact ⟨h2, by rw [e, hb]⟩

theorem storeOperand (a : Nat) (bytes : List Byte) :
    R (s.storeOperand a bytes).1 (t.storeOperand a bytes).1 ∧ (t.storeOperand a bytes).2 = (s.storeOperand a bytes).2 := by
  induction bytes generalizing s t a with
  | nil => exact ⟨h, rfl⟩
  | cons b bs ih =>
    have h1 := hR.memWrite h a [b]
    rw [State.storeOperand, State.storeOperand, (hR.view h1).trapFlag]
    split
    · exact ⟨h1, rfl⟩
    · exact ih h1 (a + 1)

theorem storeResult (he : i.usesEa = true) (bytes : List Byte) (v : Int) : NextRel R (s.storeResult bytes v) (t.storeResult bytes v) := by
  obtain ⟨h1, e⟩ := hR.storeOperand h s.ea bytes
  rw [State.storeResult_eq, State.storeResult_eq, hR.ea_eq h he, e]
  split
  · exact hR.finishDecimal h1 _
  · exact hR.complete h1 _

theorem withOperand (he : i.usesEa = true) {m : Nat} {k : State → List Byte → Result}
    (hk : ∀ {u v}, R u v → ∀ bytes, NextRel R (k u bytes) (k v bytes)) : NextRel R (s.withOperand m k) (t.withOperand m k) := by
  obtain ⟨h1, e⟩ := hR.readOperand h s.ea m
  rw [State.withOperand_eq, State.withOperand_eq, hR.ea_eq h he, e]
  cases (s.readOperand s.ea m).2 with
  | none => exact hR.complete h1 _
  | some bytes => exact hk h1 bytes

theorem withPacked (he : i.usesEa = true) (hd : i.isFloat = false) {l : BitVec 4} {k : State → W128 → Result}
    (hk : ∀ {u v}, R u v → ∀ m, NextRel R (k u m) (k v m)) : NextRel R (s.withPacked l k) (t.withPacked l k) := by
  refine hR.withOperand h he fun huv bytes => ?_
  dsimp only
  split
  · exact hk huv _
  · exact hR.decimalFault huv hd _

theorem withAcc (hd : i.isFloat = false) (hr : decaRegs ⊆ i.regsRead) {k : State → W128 → Result}
    (hk : ∀ {u v}, R u v → ∀ m, NextRel R (k u m) (k v m)) : NextRel R (s.withAcc k) (t.withAcc k) := by
  have mem (j : RegNum) (hj : j ∈ decaRegs) : j ∈ i.regsRead := hr hj
  have hdeca : R s.afterDeca t.afterDeca :=
    hR.regRead (hR.regRead (hR.regRead (hR.regRead h 12 (mem 12 (by decide))) 13 (mem 13 (by decide))) 14 (mem 14 (by decide))) 15
      (mem 15 (by decide))
  have hreg (j : RegNum) (hj : j ∈ decaRegs) : t.reg j = s.reg j := (hR.view h).reg j (hr hj)
  have hcheck : t.checkAcc = s.checkAcc := by
    rw [State.checkAcc, State.deca, hreg 12 (by decide), hreg 13 (by decide), hreg 14 (by decide), hreg 15 (by decide)]
    rfl
  rw [State.withAcc_eq, State.withAcc_eq, hcheck]
  split
  · exact hk hdeca _
  · exact hR.decimalFault hdeca hd _

/-! ## Floating instructions -/

theorem finishFloat {width : Nat} {write : State → BitVec width → State} (hw : ∀ w, R (write s w) (write t w))
    (result : Except FloatFault (BitVec width)) :
    NextRel R (if s.trapFlag then s.abort else s.finishFloat write result)
      (if t.trapFlag then t.abort else t.finishFloat write result) := by
  rw [(hR.view h).trapFlag]
  split
  · exact hR.complete h _
  · cases result with
    | ok w => exact hR.complete (hR.writeCC (hw w) _) _
    | error kind => exact hR.takeTrap (hR.writeCC h _) _

theorem floatShort (he : i.usesEa = true) (hd : i.isFloat = true) {r : RegNum} (hr : r ∈ i.regsRead) (hw : r ∈ i.regsWritten)
    (op : FloatOp) : NextRel R (floatShort op r s) (floatShort op r t) := by
  have h1 := hR.regRead (hR.psdRead h) r hr
  have h2 := hR.memRead h1 (alignDown 4 s.ea) 4
  have hb : t.bytesAt (alignDown 4 s.ea) 4 = s.bytesAt (alignDown 4 s.ea) 4 :=
    State.bytesAt_congr (hR.view h).config (hR.view h).mem _ _
  rw [floatShort_eq, floatShort_eq, hR.ea_eq h he, (hR.view h).policy hd, (hR.view h).reg r hr, hb]
  exact hR.finishFloat h2 (fun w => hR.writeReg h2 r hw w) _

theorem floatLong (he : i.usesEa = true) (hd : i.isFloat = true) {r : RegNum} (hr : [r, pairLow r] ⊆ i.regsRead)
    (hw : [r, pairLow r] ⊆ i.regsWritten) (op : FloatOp) : NextRel R (floatLong op r s) (floatLong op r t) := by
  obtain ⟨hr0, hr1⟩ : r ∈ i.regsRead ∧ pairLow r ∈ i.regsRead := by simpa using hr
  obtain ⟨hw0, hw1⟩ : r ∈ i.regsWritten ∧ pairLow r ∈ i.regsWritten := by simpa using hw
  have h1 := hR.regRead (hR.regRead (hR.psdRead h) r hr0) (pairLow r) hr1
  have h2 := hR.memRead h1 (alignDown 8 s.ea) 8
  have hb : t.bytesAt (alignDown 8 s.ea) 8 = s.bytesAt (alignDown 8 s.ea) 8 :=
    State.bytesAt_congr (hR.view h).config (hR.view h).mem _ _
  rw [floatLong_eq, floatLong_eq, hR.ea_eq h he, (hR.view h).policy hd, (hR.view h).reg r hr0, (hR.view h).reg _ hr1, hb]
  exact hR.finishFloat h2 (fun w => hR.writeReg (hR.writeReg h2 _ hw1 _) r hw0 _) _

/-! ## EBS -/

theorem editCommit (he : i.isEdit = true) (w : EditWork) (act : EditAction) :
    R (s.editCommit w act).1 (t.editCommit w act).1 ∧ (t.editCommit w act).2 = (s.editCommit w act).2 := by
  have h1 : R (s.editStore w.dst act.store) (t.editStore w.dst act.store) := by
    cases act.store with
    | none => exact h
    | some b => exact hR.memWrite h _ _
  rw [State.editCommit_eq, State.editCommit_eq, (hR.view h1).trapFlag, EditWork.advance_congr (hR.view h).config]
  split
  · exact ⟨h1, rfl⟩
  · exact ⟨hR.editMark h1 he _, rfl⟩

theorem editStep (he : i.isEdit = true) (fill : Byte) (disp : Int) (w : EditWork) :
    R (s.editStep fill disp w).1 (t.editStep fill disp w).1 ∧ (t.editStep fill disp w).2 = (s.editStep fill disp w).2 := by
  have h1 := hR.memRead h w.dst 1
  have hb1 : (t.memRead w.dst 1).2 = (s.memRead w.dst 1).2 := State.bytesAt_congr (hR.view h).config (hR.view h).mem _ _
  rw [State.editStep, State.editStep]
  dsimp only
  rw [(hR.view h1).trapFlag, hb1, (hR.view h).config]
  split
  · exact ⟨h1, rfl⟩
  split
  · generalize (((w.sbase : Int) + disp) % (2 ^ s.config.addrBits : Nat)).toNat = source
    have h2 := hR.memRead h1 source 1
    have hb2 : ((t.memRead w.dst 1).1.memRead source 1).2 = ((s.memRead w.dst 1).1.memRead source 1).2 :=
      State.bytesAt_congr (hR.view h1).config (hR.view h1).mem _ _
    rw [(hR.view h2).trapFlag, hb2, editDigit_congr (hR.view h2).config]
    split
    · exact ⟨h2, rfl⟩
    generalize (if w.right = true then _ else _ : Nibble) = d
    split
    · exact ⟨h2, rfl⟩
    · exact hR.editCommit h2 he _ _
  · exact hR.editCommit h1 he _ _

theorem editLoop (he : i.isEdit = true) (fill : Byte) (disp : Int) (n : Nat) (w : EditWork) :
    R (State.editLoop fill disp n s w).1 (State.editLoop fill disp n t w).1 ∧
      (State.editLoop fill disp n t w).2 = (State.editLoop fill disp n s w).2 := by
  induction n generalizing s t w with
  | zero => exact ⟨h, rfl⟩
  | succ n ih =>
    obtain ⟨h1, e⟩ := hR.editStep h he fill disp w
    obtain ⟨sc, si, st⟩ := State.editLoop_succ fill disp n s w
    obtain ⟨tc, ti, tt⟩ := State.editLoop_succ fill disp n t w
    rw [e] at tc ti tt
    cases hs : (s.editStep fill disp w).2 with
    | committed w1 =>
      rw [sc w1 hs, tc w1 hs]
      exact ih h1 w1
    | invalid =>
      rw [si hs, ti hs]
      exact ⟨h1, rfl⟩
    | trapPending =>
      rw [st hs, tt hs]
      exact ⟨h1, rfl⟩

theorem editFinish {r : RegNum} (hr : [r, pairLow r] ⊆ i.regsRead) (hw : [r, pairLow r] ⊆ i.regsWritten) (w : EditWork) (dm : Bool)
    (ending : EditEnding) : NextRel R (s.editFinish r w dm ending) (t.editFinish r w dm ending) := by
  obtain ⟨hr0, hr1⟩ : r ∈ i.regsRead ∧ pairLow r ∈ i.regsRead := by simpa using hr
  obtain ⟨hw0, hw1⟩ : r ∈ i.regsWritten ∧ pairLow r ∈ i.regsWritten := by simpa using hw
  have hback : R (s.editWriteBack r w) (t.editWriteBack r w) := by
    have h1 := hR.writeReg h r hw0 (s.withAddrField (s.reg r) w.sbase)
    rw [State.editWriteBack, State.editWriteBack, (hR.view h).reg r hr0, State.withAddrField_congr (hR.view h).config,
      (hR.view h1).reg _ hr1, State.withAddrField_congr (hR.view h1).config]
    exact hR.writeReg h1 _ hw1 _
  cases ending with
  | exhausted | trapPending => exact hR.complete (hR.writeCC hback _) _
  | invalidDigit => exact hR.decimalTrap hback _ _

end

/-! ## The instructions whose rule is more than one shared operation -/

variable {ind : Bool} {l : BitVec 4} {x : BitVec 3} {addr : BitVec 17} {R : State → State → Prop} {s t : State}

theorem execDl (hR : Unseen (.dl ind l x addr) R) (h : R s t) : NextRel R (execDl l s) (execDl l t) :=
  hR.withPacked h rfl rfl fun huv _ => hR.setResult huv rfl (List.Subset.refl _) _

theorem execDst (hR : Unseen (.dst ind l x addr) R) (h : R s t) : NextRel R (execDst l s) (execDst l t) := by
  refine hR.withAcc h rfl (List.Subset.refl _) fun huv v => ?_
  split
  · exact hR.decimalFault huv rfl _
  · exact hR.storeResult huv rfl _ _

theorem execDa (hR : Unseen (.da ind l x addr) R) (h : R s t) : NextRel R (execDa l s) (execDa l t) :=
  hR.withPacked h rfl rfl fun huv _ => hR.withAcc huv rfl (List.Subset.refl _) fun huv _ =>
    hR.setResult huv rfl (List.Subset.refl _) _

theorem execDs (hR : Unseen (.ds ind l x addr) R) (h : R s t) : NextRel R (execDs l s) (execDs l t) :=
  hR.withPacked h rfl rfl fun huv _ => hR.withAcc huv rfl (List.Subset.refl _) fun huv _ =>
    hR.setResult huv rfl (List.Subset.refl _) _

theorem execDc (hR : Unseen (.dc ind l x addr) R) (h : R s t) : NextRel R (execDc l s) (execDc l t) :=
  hR.withPacked h rfl rfl fun huv _ => hR.withAcc huv rfl (List.Subset.refl _) fun huv _ => hR.finishDecimal huv _

theorem execDm (hR : Unseen (.dm ind l x addr) R) (h : R s t) : NextRel R (execDm l s) (execDm l t) :=
  hR.withPacked h rfl rfl fun huv _ => hR.withAcc huv rfl (List.Subset.refl _) fun huv _ =>
    hR.finishDecimal (hR.writeDeca huv (List.Subset.refl _) _) _

theorem execDd (hR : Unseen (.dd ind l x addr) R) (h : R s t) : NextRel R (execDd l s) (execDd l t) := by
  refine hR.withPacked h rfl rfl fun huv m => hR.withAcc huv rfl (List.Subset.refl _) fun huv a => ?_
  split
  · exact hR.decimalFault huv rfl _
  · obtain ⟨d, hdiv⟩ := divS_isSome (a := a) ‹_›
    rw [hdiv]
    dsimp only
    split
    · exact hR.decimalFault huv rfl _
    · exact hR.finishDecimal (hR.writeDeca huv (List.Subset.refl _) _) _

theorem execDsa (hR : Unseen (.dsa ind l x addr) R) (h : R s t) : NextRel R (execDsa ind x addr s) (execDsa ind x addr t) := by
  have hindex : R (s.readIndex x).1 (t.readIndex x).1 ∧ (t.readIndex x).2 = (s.readIndex x).2 := by
    rw [State.readIndex, State.readIndex]
    split
    · exact ⟨h, rfl⟩
    · have hx := indexReg_mem_regsRead_dsa ind l addr ‹_›
      exact ⟨hR.regRead h _ hx, (hR.view h).reg _ hx⟩
  have hoperand : dsaOperand ind addr t = dsaOperand ind addr s := by
    cases ind with
    | false => rfl
    | true => exact (hR.view h).opnd rfl
  rw [Machine.execDsa, Machine.execDsa, hoperand]
  dsimp only
  rw [hindex.2]
  refine hR.withAcc hindex.1 rfl (decaRegs_subset_regsRead_dsa ind l x addr) fun huv a => ?_
  have hset (v : Int) := hR.writeDeca huv (List.Subset.refl _) ((decImage (BitVec.ofInt 128 (low31 v))).getD [])
  split
  · exact hR.decimalEnd (hset _) rfl fun _ _ _ => rfl
  · exact hR.finishDecimal (hset _) _

theorem execPack (hR : Unseen (.pack ind l x addr) R) (h : R s t) : NextRel R (execPack l s) (execPack l t) := by
  refine hR.withOperand h rfl fun huv bytes => ?_
  dsimp only
  split
  · exact hR.setResult huv rfl (List.Subset.refl _) _
  · exact hR.decimalFault huv rfl _

theorem execUnpk (hR : Unseen (.unpk ind l x addr) R) (h : R s t) : NextRel R (execUnpk l s) (execUnpk l t) := by
  refine hR.withAcc h rfl (List.Subset.refl _) fun huv v => ?_
  dsimp only
  split
  · exact hR.decimalFault huv rfl _
  · exact hR.storeResult huv rfl _ _

theorem execEbs {r : RegNum} {disp : Int} (hR : Unseen (.ebs r disp) R) (h : R s t) :
    NextRel R (execEbs r disp s) (execEbs r disp t) := by
  have hregs : [r, pairLow r] ⊆ (Instr.ebs r disp).regsRead := List.Subset.refl _
  have hwrites : [r, pairLow r] ⊆ (Instr.ebs r disp).regsWritten := List.subset_append_left [r, pairLow r] [1]
  have h1 := hR.psdRead (hR.regRead (hR.regRead h r (hregs (by simp))) (pairLow r) (hregs (by simp)))
  have hr0 : t.reg r = s.reg r := (hR.view h).reg r (hregs (by simp))
  have hr1 : t.reg (pairLow r) = s.reg (pairLow r) := (hR.view h).reg _ (hregs (by simp))
  rw [execEbs_eq, execEbs_eq]
  dsimp only
  rw [hr0, hr1, (hR.view h).cc, (hR.view h).mask rfl, State.editStart_congr (hR.view h1).config]
  generalize State.editStart _ (s.reg r) (s.reg (pairLow r)) s.psd.cc = w
  obtain ⟨h2, e⟩ := hR.editLoop h1 rfl (topByte (s.reg r)) disp w.count w
  rw [e]
  exact hR.editFinish h2 hregs hwrites _ _ _

end Unseen

/-- What an instruction does not see before it makes no other difference after it. -/
theorem exec_unseen {i : Sys2Proof.Instr} {R : State → State → Prop} (hR : Unseen i R) {s t : State} (h : R s t) :
    NextRel R (exec i s) (exec i t) := by
  have all (l : List RegNum) : l ⊆ l := List.Subset.refl l
  have one (r : RegNum) : r ∈ [r] := List.mem_singleton_self r
  cases i with
  | fsl _ r _ _ => exact hR.floatLong h rfl rfl (all _) (all _) .subtract
  | fal _ r _ _ => exact hR.floatLong h rfl rfl (all _) (all _) .add
  | fdl _ r _ _ => exact hR.floatLong h rfl rfl (all _) (all _) .divide
  | fml _ r _ _ => exact hR.floatLong h rfl rfl (all _) (all _) .multiply
  | fss _ r _ _ => exact hR.floatShort h rfl rfl (one r) (one r) .subtract
  | fas _ r _ _ => exact hR.floatShort h rfl rfl (one r) (one r) .add
  | fds _ r _ _ => exact hR.floatShort h rfl rfl (one r) (one r) .divide
  | fms _ r _ _ => exact hR.floatShort h rfl rfl (one r) (one r) .multiply
  | ebs => exact hR.execEbs h
  | pack => exact hR.execPack h
  | unpk => exact hR.execUnpk h
  | ds => exact hR.execDs h
  | da => exact hR.execDa h
  | dd => exact hR.execDd h
  | dm => exact hR.execDm h
  | dsa => exact hR.execDsa h
  | dc => exact hR.execDc h
  | dl => exact hR.execDl h
  | dst => exact hR.execDst h

/-! ## A register that the instruction does not read -/

theorem one_mem_regsWritten_of_isEdit {i : Sys2Proof.Instr} (h : i.isEdit = true) : 1 ∈ i.regsWritten := by
  cases i with
  | ebs r disp => simp [Instr.regsWritten]
  | _ => cases h

theorem State.pokeReg_writeReg_ne (s : State) {j k : RegNum} (h : k ≠ j) (v w : Word) :
    (s.pokeReg j v).writeReg k w = (s.writeReg k w).pokeReg j v := by
  have hne : j.toNat ≠ k.toNat := fun hc => h (BitVec.eq_of_toNat_eq hc.symm)
  simp only [State.writeReg, State.pokeReg, Vector.set_comm _ _ hne]

/-- A register neither read nor written is not seen. -/
theorem unseen_pokeReg {i : Sys2Proof.Instr} {j : RegNum} (hr : j ∉ i.regsRead) (hw : j ∉ i.regsWritten) (v : Word) :
    Unseen i fun s t => t = s.pokeReg j v where
  view := by
    rintro s _ rfl
    exact ⟨rfl, rfl, rfl, fun _ => rfl, fun _ => rfl, rfl, fun _ => rfl, fun _ => rfl,
      fun k hk => by rw [State.reg_pokeReg, if_neg (by rintro rfl; exact hr hk)]⟩
  regRead := by rintro s _ rfl k -; rfl
  psdRead := by rintro s _ rfl; rfl
  memRead := by rintro s _ rfl a n; rfl
  memWrite := by rintro s _ rfl a bytes; rfl
  writeReg := by
    rintro s _ rfl k hk w
    exact s.pokeReg_writeReg_ne (by rintro rfl; exact hw hk) v w
  editMark := by
    rintro s _ rfl he mark
    have h1 : (1 : RegNum) ≠ j := by rintro rfl; exact hw (one_mem_regsWritten_of_isEdit he)
    cases mark with
    | none => rfl
    | some a =>
      have hreg : (s.pokeReg j v).reg 1 = s.reg 1 := by rw [State.reg_pokeReg, if_neg h1]
      rw [State.editMark, hreg]
      exact s.pokeReg_writeReg_ne h1 v _
  writeCC := by rintro s _ rfl cc; rfl
  postTrap := by rintro s _ rfl a; rfl
  report := by rintro s _ rfl c; rfl

/-- Two states that differ at most in a register and in the record of port events. -/
def SameButReg (j : RegNum) (s t : State) : Prop := ∃ (v : Word) (ports : List PortEvent), t = { s.pokeReg j v with ports := ports }

theorem SameButReg.writeReg {j : RegNum} {s t : State} (h : SameButReg j s t) {k : RegNum} {v w : Word} (hvw : k ≠ j → w = v) :
    SameButReg j (s.writeReg k v) (t.writeReg k w) := by
  obtain ⟨x, ports, rfl⟩ := h
  by_cases hk : k = j
  · subst hk
    refine ⟨w, .regWrite k w :: ports, ?_⟩
    simp only [State.writeReg, State.pokeReg, Vector.set_set]
  · obtain rfl := hvw hk
    have hne : j.toNat ≠ k.toNat := fun hc => hk (BitVec.eq_of_toNat_eq hc.symm)
    refine ⟨x, .regWrite k w :: ports, ?_⟩
    simp only [State.writeReg, State.pokeReg, Vector.set_comm _ _ hne]

/-- A register not read is not seen, whether or not it is written. -/
theorem unseen_sameButReg {i : Sys2Proof.Instr} {j : RegNum} (hr : j ∉ i.regsRead) : Unseen i (SameButReg j) where
  view := by
    rintro s _ ⟨v, ports, rfl⟩
    refine ⟨rfl, rfl, rfl, fun _ => rfl, fun _ => rfl, rfl, fun _ => rfl, fun _ => rfl, fun k hk => ?_⟩
    exact (s.reg_pokeReg j k v).trans (if_neg (by rintro rfl; exact hr hk))
  regRead := by rintro s _ ⟨v, ports, rfl⟩ k -; exact ⟨v, .regRead k :: ports, rfl⟩
  psdRead := by rintro s _ ⟨v, ports, rfl⟩; exact ⟨v, .psdRead :: ports, rfl⟩
  memRead := by rintro s _ ⟨v, ports, rfl⟩ a n; exact ⟨v, .load (s.wrap a) n :: ports, rfl⟩
  memWrite := by rintro s _ ⟨v, ports, rfl⟩ a bytes; exact ⟨v, .store (s.wrap a) bytes :: ports, rfl⟩
  writeReg h k _ v := h.writeReg fun _ => rfl
  editMark := by
    intro s t h _ mark
    cases mark with
    | none => exact h
    | some a =>
      refine h.writeReg fun h1 => ?_
      obtain ⟨v, ports, rfl⟩ := h
      have hreg : State.reg { s.pokeReg j v with ports := ports } 1 = s.reg 1 := (s.reg_pokeReg j 1 v).trans (if_neg h1)
      rw [hreg]
      rfl
  writeCC := by rintro s _ ⟨v, ports, rfl⟩ cc; exact ⟨v, .ccWrite cc :: ports, rfl⟩
  postTrap := by rintro s _ ⟨v, ports, rfl⟩ a; exact ⟨v, .trap a :: ports, rfl⟩
  report := by rintro s _ ⟨v, ports, rfl⟩ c; exact ⟨v, ports, rfl⟩

/-- Settles O16: an unlisted register is not seen, one not read is not seen up to itself and the events, and every ending's events are
listed. -/
theorem unlistedRegisterNeitherReadNorWritten : Obligations.UnlistedRegisterNeitherReadNorWritten := by
  refine ⟨fun i s j v hr hw => ?_, fun i s j v hr => ?_, fun i s t ht => exec_events_listed ht⟩
  · exact (exec_unseen (unseen_pokeReg hr hw v) rfl).eq_mapNext fun _ _ h => h
  · have h := exec_unseen (unseen_sameButReg hr) (s := s) (t := s.pokeReg j v) ⟨v, s.ports, rfl⟩
    generalize exec i s = r, exec i (s.pokeReg j v) = r' at h
    obtain ⟨w, ports, rfl⟩ := h
    simp only [mapNext, State.pokeReg, Vector.set_set]

/-! ## Fields of the PSD -/

/-- The second state is the first, of a given configuration, with its PSD changed. -/
def PsdChanged (config : Config) (f : Psd → Psd) (s t : State) : Prop := s.config = config ∧ t = { s with psd := f s.psd }

/-- A change of the PSD that keeps what the instruction looks at, and that commutes with a write of the condition code, is not seen. -/
theorem unseen_psdChanged {i : Sys2Proof.Instr} (config : Config) (f : Psd → Psd)
    (hf : ∀ p cc, f { p with cc := cc } = { f p with cc := cc }) (hmask : i.isFloat = false → ∀ p, (f p).dm = p.dm)
    (hpolicy : i.isFloat = true → ∀ p, uflowPolicy config (f p).fn (f p).fz = uflowPolicy config p.fn p.fz) :
    Unseen i (PsdChanged config f) where
  view := by
    rintro s _ ⟨rfl, rfl⟩
    have hcc := congrArg Psd.cc (hf s.psd s.psd.cc)
    exact ⟨rfl, rfl, rfl, fun _ => rfl, fun _ => rfl, hcc, fun h => hmask h s.psd, fun h => hpolicy h s.psd, fun _ _ => rfl⟩
  regRead := by rintro s _ ⟨hc, rfl⟩ k -; exact ⟨hc, rfl⟩
  psdRead := by rintro s _ ⟨hc, rfl⟩; exact ⟨hc, rfl⟩
  memRead := by rintro s _ ⟨hc, rfl⟩ a n; exact ⟨hc, rfl⟩
  memWrite := by rintro s _ ⟨hc, rfl⟩ a bytes; exact ⟨hc, rfl⟩
  writeReg := by rintro s _ ⟨hc, rfl⟩ k - v; exact ⟨hc, rfl⟩
  editMark := by
    rintro s _ ⟨hc, rfl⟩ - mark
    cases mark with
    | none => exact ⟨hc, rfl⟩
    | some a => exact ⟨hc, rfl⟩
  writeCC := by
    rintro s _ ⟨hc, rfl⟩ cc
    have hp : f (s.writeCC cc).psd = { f s.psd with cc := cc } := hf s.psd cc
    refine ⟨hc, ?_⟩
    rw [hp]
    rfl
  postTrap := by rintro s _ ⟨hc, rfl⟩ a; exact ⟨hc, rfl⟩
  report := by rintro s _ ⟨hc, rfl⟩ c; exact ⟨hc, rfl⟩

theorem exec_psdChanged {i : Sys2Proof.Instr} {s : State} (f : Psd → Psd) (hR : Unseen i (PsdChanged s.config f)) :
    exec i { s with psd := f s.psd } = mapNext (fun t => { t with psd := f t.psd }) (exec i s) :=
  (exec_unseen hR ⟨rfl, rfl⟩).eq_mapNext fun _ _ h => h.2

/-- The default policy is selected by FZ alone (R236). -/
theorem uflowPolicy_of_default {c : Config} (h : c.uflow = UflowTable.default) (fn fn' fz : Bool) :
    uflowPolicy c fn fz = uflowPolicy c fn' fz := by
  cases fn <;> cases fn' <;> cases fz <;> simp [uflowPolicy, h, UflowTable.default]

/-- Settles O20: each of the three changes keeps what the instruction looks at. -/
theorem unreadPsdFieldsDoNotMatter : Obligations.UnreadPsdFieldsDoNotMatter := by
  intro i s fs fn dm ia rest
  refine ⟨?_, fun hfloat => ?_, fun hdefault => ?_⟩
  · exact exec_psdChanged (fun p => { p with fs := fs, ia := ia, rest := rest })
      (unseen_psdChanged _ _ (fun _ _ => rfl) (fun _ _ => rfl) fun _ _ => rfl)
  · exact exec_psdChanged (fun p => { p with dm := dm })
      (unseen_psdChanged _ _ (fun _ _ => rfl) (fun hd => Bool.noConfusion (hfloat.symm.trans hd)) fun _ _ => rfl)
  · exact exec_psdChanged (fun p => { p with fn := fn })
      (unseen_psdChanged _ _ (fun _ _ => rfl) (fun _ _ => rfl) fun _ _ => uflowPolicy_of_default hdefault _ _ _)

end Sys2Proof.Machine
end

