-- ==== Sys2Proof/Proofs/Memory.lean ====
section
/-! Memory changes by the recorded stores alone, said once for all instructions (`exec_mem_induction`); which memory transactions every
command but EBS makes (`MakesAccesses`); what follows for memory, for the order of transactions and for aborts. -/

namespace Sys2Proof.Machine

/-! ## Memory changes by the recorded stores alone -/

/-- The first address of a byte string counts modulo the address space. -/
theorem Memory.writeBytes_mod (bits : Nat) (m : Memory) (a : Nat) (bytes : List Byte) :
    Memory.writeBytes bits m (a % 2 ^ bits) bytes = Memory.writeBytes bits m a bytes := by
  induction bytes generalizing m a with
  | nil => rfl
  | cons b bs ih =>
    rw [Memory.writeBytes, Memory.writeBytes, Nat.mod_mod, ← ih, Nat.mod_add_mod, ih]

/-- A store event, written whole, keeps a property of memory. -/
def PortEvent.StoreKeeps (bits : Nat) (Q : Memory → Prop) (e : PortEvent) : Prop :=
  ∀ a bytes, e = .store a bytes → ∀ m, Q m → Q (Memory.writeBytes bits m a bytes)

/-- A property of memory holds now if every store recorded since a first state keeps it. -/
structure HoldsByStores (Q : Memory → Prop) (s t : State) : Prop where
  config : t.config = s.config
  stores : ∃ events, t.ports = events ++ s.ports ∧ ((∀ e ∈ events, e.StoreKeeps s.config.addrBits Q) → Q t.mem)

namespace HoldsByStores

variable {Q : Memory → Prop} {s t u : State}

/-- An operation that leaves memory alone and records one event. -/
theorem event (h : HoldsByStores Q s t) {e : PortEvent} (hc : u.config = t.config) (hm : u.mem = t.mem) (hp : u.ports = e :: t.ports) :
    HoldsByStores Q s u := by
  obtain ⟨hconfig, events, hports, hQ⟩ := h
  refine ⟨hc.trans hconfig, e :: events, by rw [hp, hports]; rfl, fun hk => ?_⟩
  rw [hm]
  exact hQ fun e' he' => hk e' (List.mem_cons_of_mem _ he')

/-- A store: its event keeps the property, and what it wrote is the event's bytes or nothing. -/
theorem memWrite (h : HoldsByStores Q s t) (a : Nat) (bytes : List Byte) : HoldsByStores Q s (t.memWrite a bytes) := by
  obtain ⟨hconfig, events, hports, hQ⟩ := h
  refine ⟨hconfig, .store (t.wrap a) bytes :: events, by rw [State.memWrite_ports, hports]; rfl, fun hk => ?_⟩
  have hmem : Q t.mem := hQ fun e' he' => hk e' (List.mem_cons_of_mem _ he')
  rw [State.memWrite_mem]
  split
  · have hstore := hk _ List.mem_cons_self (t.wrap a) bytes rfl t.mem hmem
    rw [State.wrap, hconfig, Memory.writeBytes_mod] at hstore
    rwa [hconfig]
  · exact hmem

/-- The property is one that no instruction can tell from being the same state. -/
theorem unseen (i : Sys2Proof.Instr) : Unseen i fun u v => v = u ∧ HoldsByStores Q s u where
  view := by
    rintro u _ ⟨rfl, -⟩
    exact ⟨rfl, rfl, rfl, fun _ => rfl, fun _ => rfl, rfl, fun _ => rfl, fun _ => rfl, fun _ _ => rfl⟩
  regRead := by rintro u _ ⟨rfl, h⟩ j -; exact ⟨rfl, h.event rfl rfl (State.regRead_ports _ j)⟩
  psdRead := by rintro u _ ⟨rfl, h⟩; exact ⟨rfl, h.event rfl rfl (State.psdRead_ports _)⟩
  memRead := by rintro u _ ⟨rfl, h⟩ a n; exact ⟨rfl, h.event rfl rfl (State.memRead_ports _ a n)⟩
  memWrite := by rintro u _ ⟨rfl, h⟩ a bytes; exact ⟨rfl, h.memWrite a bytes⟩
  writeReg := by rintro u _ ⟨rfl, h⟩ j - v; exact ⟨rfl, h.event rfl rfl (State.writeReg_ports _ j v)⟩
  editMark := by
    rintro u _ ⟨rfl, h⟩ - mark
    cases mark with
    | none => exact ⟨rfl, h⟩
    | some a => exact ⟨rfl, h.event rfl rfl (State.writeReg_ports _ 1 _)⟩
  writeCC := by rintro u _ ⟨rfl, h⟩ cc; exact ⟨rfl, h.event rfl rfl (State.writeCC_ports _ cc)⟩
  postTrap := by rintro u _ ⟨rfl, h⟩ a; exact ⟨rfl, h.event rfl rfl (State.postTrap_ports _ a)⟩
  report := by rintro u _ ⟨rfl, h⟩ c; exact ⟨rfl, h.config, h.stores⟩

end HoldsByStores

/-- A property of memory holds after a command if it held before and every store the command recorded keeps it. -/
theorem exec_mem_induction {i : Sys2Proof.Instr} {s t : State} (ht : exec i s = .next t) {Q : Memory → Prop} (hQ : Q s.mem) :
    ∃ events, t.ports = events ++ s.ports ∧ ((∀ e ∈ events, e.StoreKeeps s.config.addrBits Q) → Q t.mem) := by
  have h := exec_unseen (HoldsByStores.unseen (Q := Q) (s := s) i) (s := s) ⟨rfl, rfl, [], rfl, fun _ => hQ⟩
  rw [ht] at h
  obtain ⟨-, hstores⟩ := h
  exact hstores.stores

/-- Every command keeps the canonical form of memory. -/
theorem exec_mem_wf {i : Sys2Proof.Instr} {s t : State} (ht : exec i s = .next t) (h : s.mem.wf s.config.addrBits = true) :
    t.mem.wf s.config.addrBits = true := by
  obtain ⟨events, -, hkeep⟩ := exec_mem_induction ht (Q := fun m => m.wf s.config.addrBits = true) h
  exact hkeep fun _ _ a bytes _ m hm => Memory.writeBytes_wf hm a bytes

/-! ## The invariant of a run -/

/-- Settles O11. -/
theorem resetSatisfiesInv : Obligations.ResetSatisfiesInv where
  memory := State.reset_mem_wf _
  idle := rfl
  record := rfl
  addresses _ ha := absurd ha List.not_mem_nil
  flagged h := Bool.noConfusion h

/-- A run that goes on has called no trap. -/
theorem trapsOf_of_running {s : State} (h : s.running = true) : trapsOf s.completion = [] := by
  rw [State.running] at h
  split at h <;> rename_i hc <;> simp_all [trapsOf]

/-- A run that has stopped has stopped at a trap or an abort. -/
theorem running_eq_false_iff (s : State) :
    s.running = false ↔ (∃ a, s.completion = some (.trapped a)) ∨ s.completion = some .aborted := by
  rw [State.running]
  split <;> rename_i hc <;> simp [hc]

/-- A command that finds the invariant but for a busy block leaves the whole of it. -/
theorem exec_inv {i : Sys2Proof.Instr} {s t : State} (ht : exec i s = .next t) (hmem : s.mem.wf s.config.addrBits = true)
    (hrecord : s.trapRecord = []) : t.Inv := by
  obtain ⟨hcontext, -, -, -, -, haborted, hend⟩ := commandFrame i s t ht
  have hwf : t.mem.wf t.config.addrBits = true := by
    rw [hcontext.config]
    exact exec_mem_wf ht hmem
  obtain ⟨hstays, hdone⟩ | ⟨hflag, a, ha, hgains, htrapped⟩ := hend
  · have hempty : t.trapRecord = [] := hstays.trans hrecord
    have htraps : trapsOf t.completion = [] := by
      obtain hdone | habort := hdone
      · rw [hdone]; rfl
      · rw [habort]; rfl
    refine ⟨hwf, hcontext.idle, by rw [hempty, htraps], by simp [hempty], fun hstop => ?_⟩
    obtain ⟨b, hb⟩ | habort := (running_eq_false_iff t).1 hstop
    · rw [hb] at hdone
      simp at hdone
    · exact haborted habort
  · rw [hrecord, List.nil_append] at hgains
    refine ⟨hwf, hcontext.idle, by rw [hgains, htrapped]; rfl, ?_, fun _ => hflag⟩
    rw [hgains, ha]
    cases i.isFloat <;> simp

/-- Settles O12: a step stutters or runs one command, and a run that goes on has an empty trap record. -/
theorem stepKeepsInv : Obligations.StepKeepsInv := by
  intro s t hs ht
  rw [step] at ht
  split at ht
  · rename_i hrunning
    have hrecord : s.trapRecord = [] := hs.record.trans (trapsOf_of_running hrunning)
    split at ht
    · obtain rfl := Host.Outcome.next.inj ht
      exact hs
    split at ht
    · cases ht
    split at ht
    · cases ht
    · exact exec_inv ht hs.memory hrecord
  · obtain rfl := Host.Outcome.next.inj ht
    exact hs

end Sys2Proof.Machine
end

