-- ==== Sys2Proof/Proofs/Accesses.lean ====
section
/-! Which memory transactions every command but EBS makes: as many of its loads or stores as the accessor lets pass, and after them an
end that makes none (`EndsQuietly`). The memory frames, the order of transactions and the aborts follow from the list. -/

namespace Sys2Proof.Machine

/-! ## Ends without a memory transaction -/

/-- No memory transaction lies between two states. -/
structure Silent (s t : State) : Prop where
  accessor : t.accessor = s.accessor
  events : ∃ after, t.ports = after ++ s.ports ∧ ∀ e ∈ after, e.isMemory = false

namespace Silent

variable {s t u : State}

theorem refl : Silent s s := ⟨rfl, [], rfl, by simp⟩

theorem trans (h : Silent s t) (k : Silent t u) : Silent s u := by
  obtain ⟨ha, es, hes, hs⟩ := h
  obtain ⟨hb, fs, hfs, hf⟩ := k
  refine ⟨hb.trans ha, fs ++ es, by rw [hfs, hes, List.append_assoc], fun e he => ?_⟩
  exact (List.mem_append.1 he).elim (hf e) (hs e)

/-- An operation that records one event off the memory port. -/
theorem event {e : PortEvent} (he : e.isMemory = false) (ha : t.accessor = s.accessor) (hp : t.ports = e :: s.ports) : Silent s t :=
  ⟨ha, [e], hp, by simpa using he⟩

theorem writeReg (i : RegNum) (v : Word) : Silent s (s.writeReg i v) := event rfl rfl (s.writeReg_ports i v)

theorem writeCC (cc : BitVec 4) : Silent s (s.writeCC cc) := event rfl rfl (s.writeCC_ports cc)

theorem postTrap (a : Nat) : Silent s (s.postTrap a) := event rfl rfl (s.postTrap_ports a)

theorem psdRead : Silent s s.psdRead.1 := event rfl rfl s.psdRead_ports

theorem afterDeca : Silent s s.afterDeca :=
  ⟨rfl, [.regRead 15, .regRead 14, .regRead 13, .regRead 12], rfl, by simp [PortEvent.isMemory]⟩

theorem writeDeca (bytes : List Byte) : Silent s (s.writeDeca bytes) :=
  (writeReg 12 _).trans <| (writeReg 13 _).trans <| (writeReg 14 _).trans (writeReg 15 _)

end Silent

/-- The command ends without a further memory transaction, so that no poll aborts it. -/
def EndsQuietly (s : State) (r : Result) : Prop := ∃ u c, Silent s u ∧ c ≠ .aborted ∧ r = u.complete c

namespace EndsQuietly

variable {s u : State}

theorem after {r : Result} (h : Silent s u) (k : EndsQuietly u r) : EndsQuietly s r := by
  obtain ⟨v, c, hv, hc, rfl⟩ := k
  exact ⟨v, c, h.trans hv, hc, rfl⟩

theorem done : EndsQuietly s (s.complete .done) := ⟨s, _, .refl, by simp, rfl⟩

theorem takeTrap (a : Nat) : EndsQuietly s (s.takeTrap a) := ⟨_, _, .postTrap a, by simp, rfl⟩

theorem finishDecimal (pair : BitVec 2) : EndsQuietly s (s.finishDecimal pair) := .after (.writeCC _) .done

theorem decimalTrap (dm : Bool) : EndsQuietly s (s.decimalTrap dm) := by
  cases dm with
  | false => exact .done
  | true => exact .takeTrap _

theorem decimalEnd (cc : Psd → BitVec 4) : EndsQuietly s (s.decimalEnd cc) := .after (.trans .psdRead (.writeCC _)) (.decimalTrap _)

theorem decimalFault (kind : DecimalFault) : EndsQuietly s (s.decimalFault kind) := .decimalEnd _

theorem setResult (v : Int) : EndsQuietly s (s.setResult v) := by
  rw [State.setResult, State.decSet, if_neg (by decide)]
  cases decImage (BitVec.ofInt 128 v) with
  | none => exact .decimalFault _
  | some bytes => exact .after (.writeDeca bytes) (.finishDecimal _)

theorem checkOrFault {c : CheckResult} {r : Result} (h : EndsQuietly s r) :
    EndsQuietly s (if c.ok then r else s.decimalFault .invalidDigit) := by
  split
  · exact h
  · exact .decimalFault _

theorem withAcc {k : State → W128 → Result} (hk : ∀ u v, EndsQuietly u (k u v)) : EndsQuietly s (s.withAcc k) := by
  rw [State.withAcc_eq]
  exact .after .afterDeca (.checkOrFault (hk _ _))

theorem finishFloat {width : Nat} {write : State → BitVec width → State} (hw : ∀ u w, Silent u (write u w))
    (result : Except FloatFault (BitVec width)) : EndsQuietly s (s.finishFloat write result) := by
  cases result with
  | ok w => exact .after ((hw s w).trans (.writeCC _)) .done
  | error kind => exact .after (.writeCC _) (.takeTrap _)

end EndsQuietly

/-! ## What a list of memory transactions comes to -/

/-- The command answers a next state, after these register reads and these memory transactions. -/
def Accesses (s : State) (r : Result) (reads accesses : List PortEvent) : Prop := ∃ t, r = .next t ∧ MakesAccesses s t reads accesses

@[simp] theorem State.made_zero (s : State) : s.made 0 = 0 := by
  rw [State.made, madeOf]
  simp

/-- What DST and UNPK store: an image of the accumulator's number where it has at most `z` digits, else nothing (R161, R201). -/
def StoresImage (s : State) (z : Nat) (IsImage : List Byte → Int → Prop) (out : List Byte) : Prop :=
  match packedNumber s.deca with
  | none => out = []
  | some v => if 10 ^ z ≤ v.natAbs then out = [] else IsImage out v

theorem StoresImage.length_le {s : State} {z n : Nat} {IsImage : List Byte → Int → Prop} {out : List Byte}
    (h : StoresImage s z IsImage out) (hlength : ∀ out v, IsImage out v → out.length = n) : out.length ≤ n := by
  unfold StoresImage at h
  split at h
  · simp [h]
  split at h
  · simp [h]
  · exact (hlength _ _ h).le

/-- The effective address with its low bits forced to 0 is an address (R53). -/
theorem State.wrap_alignDown_ea (s : State) (n : Nat) : s.wrap (alignDown n s.ea) = s.ea - s.ea % n := by
  have hlt : s.ea < 2 ^ s.config.addrBits := s.wrap_lt _
  exact Nat.mod_eq_of_lt (lt_of_le_of_lt (Nat.sub_le _ _) hlt)

namespace Accesses

variable {s t u : State} {r : Result} {reads accesses : List PortEvent}

theorem makes (h : Accesses s r reads accesses) (ht : r = .next t) : MakesAccesses s t reads accesses := by
  obtain ⟨t', ht', haccesses⟩ := h
  obtain rfl := Host.Outcome.next.inj (ht.symm.trans ht')
  exact haccesses

/-- All the transactions pass, or there are none: then the command ends without another. -/
theorem of_passes (hp : accesses = [] ∨ s.passes accesses.length) (hports : u.ports = accesses.reverse ++ s.ports)
    (haccessor : u.accessor = s.accessor.drop accesses.length) (h : EndsQuietly u r) : Accesses s r [] accesses := by
  obtain ⟨v, c, ⟨hv, after, hafter, hmem⟩, hc, rfl⟩ := h
  have hmade : s.made accesses.length = accesses.length := by
    obtain rfl | hp := hp
    · exact s.made_zero
    · exact State.made_of_passes hp
  have hne : some c ≠ some .aborted := fun he => hc (Option.some.inj he)
  refine ⟨_, rfl, after, hmem, ?_, ?_, ⟨fun he => absurd he hne, ?_⟩, fun he => absurd he hne⟩
  · rw [hmade, List.take_length, List.reverse_nil, List.nil_append, ← hports]
    exact hafter
  · rw [hmade, ← haccessor]
    exact hv
  · rintro ⟨hlen, hn⟩
    obtain rfl | hp := hp
    · exact absurd hlen (lt_irrefl 0)
    · exact absurd hp hn

/-- A command that ends without a memory transaction makes none. -/
theorem of_quiet (h : EndsQuietly s r) : Accesses s r [] [] := of_passes (.inl rfl) rfl rfl h

/-- Some transaction does not pass: the command aborts after the first such. -/
theorem of_not_passes (hlen : 0 < accesses.length) (hp : ¬ s.passes accesses.length)
    (hports : u.ports = (accesses.take (s.made accesses.length)).reverse ++ s.ports)
    (haccessor : u.accessor = s.accessor.drop (s.made accesses.length)) : Accesses s u.abort [] accesses :=
  ⟨_, rfl, [], by simp, hports, haccessor, ⟨fun _ => ⟨hlen, hp⟩, fun _ => rfl⟩, fun _ => rfl⟩

/-- Register reads may come first. -/
theorem after_reads (hports : u.ports = reads.reverse ++ s.ports) (haccessor : u.accessor = s.accessor)
    (htrapFlag : u.trapFlag = s.trapFlag) (h : Accesses u r [] accesses) : Accesses s r reads accesses := by
  obtain ⟨t, ht, after, hafter, hp, ha, hc, hn⟩ := h
  have hmade : u.made accesses.length = s.made accesses.length := by rw [State.made, State.made, haccessor, htrapFlag]
  rw [hmade, List.reverse_nil, List.nil_append, hports] at hp
  rw [hmade, haccessor] at ha
  rw [State.passes, haccessor, htrapFlag] at hc
  exact ⟨t, ht, after, hafter, hp, ha, hc, hn⟩

/-! ## Loads -/

/-- One load and its poll (R53, R259). -/
theorem load (a n : Nat) (h : EndsQuietly (s.memRead a n).1 r) :
    Accesses s (if (s.memRead a n).1.trapFlag then (s.memRead a n).1.abort else r) [] [.load (s.wrap a) n] := by
  split <;> rename_i hf
  · have hp : ¬ s.passes 1 := fun hp => Bool.noConfusion (hf.symm.trans ((s.passes_one a n).1 hp))
    have hmade : s.made 1 = 1 := State.made_of_flagged hf 0
    exact of_not_passes Nat.one_pos hp (by simp [hmade]) (by simp [hmade])
  · have hp : s.passes 1 := (s.passes_one a n).2 (Bool.eq_false_iff.2 hf)
    exact of_passes (.inr hp) rfl (by simp) h

/-- The loads of `n` bytes from EA on, as the table lists them (R54). -/
def loads (s : State) (n : Nat) : List PortEvent :=
  ((List.range n).map fun k => (s.wrap (s.ea + k), 1)).map fun p => .load p.1 p.2

theorem loads_length (s : State) (n : Nat) : (loads s n).length = n := by simp [loads]

/-- The record of one-byte loads is their list, newest first. -/
theorem loadEvents_eq (s : State) {k n : Nat} (h : k ≤ n) : s.loadEvents s.ea k = ((loads s n).take k).reverse := by
  rw [State.loadEvents, loads, List.map_map, ← List.map_take, List.take_range, min_eq_left h]
  rfl

theorem withOperand {m : Nat} (hm : 0 < m) {k : State → List Byte → Result} (hk : ∀ u bytes, EndsQuietly u (k u bytes)) :
    Accesses s (s.withOperand m k) [] (loads s m) := by
  by_cases hp : s.passes m
  · rw [State.withOperand_of_passes hp]
    refine of_passes (.inr (by rwa [loads_length])) ?_ (by rw [loads_length]; rfl) (hk _ _)
    have h := loadEvents_eq s (le_refl m)
    rw [List.take_of_length_le (loads_length s m).le] at h
    exact congrArg (· ++ s.ports) h
  · obtain ⟨-, hle, hread⟩ := State.readOperand_of_not_passes hp hm s.ea
    have hn : ¬ s.passes (loads s m).length := by rwa [loads_length]
    rw [State.withOperand, hread]
    refine of_not_passes (by rwa [loads_length]) hn ?_ (by rw [loads_length]; rfl)
    rw [loads_length, ← loadEvents_eq s hle]
    rfl

theorem withPacked {l : BitVec 4} {k : State → W128 → Result} (hk : ∀ u m, EndsQuietly u (k u m)) :
    Accesses s (s.withPacked l k) [] (loads s (operandLength l)) :=
  withOperand (operandLength_pos l) fun u _ => .checkOrFault (hk u _)

/-! ## Stores -/

/-- The record of one-byte stores is their list, newest first. -/
theorem storeEvents_take (s : State) (a k : Nat) (bytes : List Byte) :
    s.storeEvents a (bytes.take k) =
      (((List.range bytes.length).map fun j => PortEvent.store (s.wrap (a + j)) [bytes.getD j 0]).take k).reverse := by
  induction bytes generalizing a k with
  | nil => simp [State.storeEvents]
  | cons b bs ih =>
    cases k with
    | zero => rfl
    | succ k =>
      have hshift (j : Nat) : s.wrap (a + 1 + j) = s.wrap (a + (j + 1)) := by rw [Nat.add_assoc, Nat.add_comm 1 j]
      rw [List.take_succ_cons, State.storeEvents, ih, List.length_cons, List.range_succ_eq_map, List.map_cons, List.take_succ_cons,
        List.reverse_cons, List.map_map]
      simp only [hshift]
      rfl

theorem storesAt_length (s : State) (bytes : List Byte) : (s.storesAt bytes).length = bytes.length := by simp [State.storesAt]

theorem storeResult {bytes : List Byte} (hne : bytes ≠ []) (v : Int) : Accesses s (s.storeResult bytes v) [] (s.storesAt bytes) := by
  by_cases hp : s.passes bytes.length
  · rw [State.storeResult, State.storeOperand_of_passes hp]
    refine of_passes (.inr (by rwa [storesAt_length])) ?_ (by rw [storesAt_length]; rfl) (.finishDecimal _)
    have h := storeEvents_take s s.ea bytes.length bytes
    rw [List.take_of_length_le (l := List.map _ _) (by simp)] at h
    exact congrArg (· ++ s.ports) h
  · obtain ⟨-, -, j, -, hstore⟩ := State.storeOperand_of_not_passes hp hne s.ea
    have hn : ¬ s.passes (s.storesAt bytes).length := by rwa [storesAt_length]
    rw [State.storeResult, hstore]
    refine of_not_passes (by rw [storesAt_length]; exact List.length_pos_iff.2 hne) hn ?_ (by rw [storesAt_length]; rfl)
    rw [storesAt_length]
    exact congrArg (· ++ s.ports) (storeEvents_take s s.ea _ bytes)

/-! ## Instructions -/

theorem floatShort (op : FloatOp) (r : RegNum) (s : State) :
    Accesses s (floatShort op r s) [.psdRead, .regRead r] [.load (s.ea - s.ea % 4) 4] := by
  rw [floatShort_eq, ← State.wrap_alignDown_ea]
  exact after_reads (u := (s.psdRead.1.regRead r).1) rfl rfl rfl (load _ _ (.finishFloat (fun _ w => .writeReg r w) _))

theorem floatLong (op : FloatOp) (r : RegNum) (s : State) :
    Accesses s (floatLong op r s) [.psdRead, .regRead r, .regRead (pairLow r)] [.load (s.ea - s.ea % 8) 8] := by
  rw [floatLong_eq, ← State.wrap_alignDown_ea]
  exact after_reads (u := ((s.psdRead.1.regRead r).1.regRead (pairLow r)).1) rfl rfl rfl (load _ _
    (.finishFloat (fun _ w => .trans (.writeReg _ _) (.writeReg r _)) _))

theorem execDl (l : BitVec 4) (s : State) : Accesses s (execDl l s) [] (loads s (operandLength l)) :=
  withPacked fun _ _ => .setResult _

theorem execDa (l : BitVec 4) (s : State) : Accesses s (execDa l s) [] (loads s (operandLength l)) :=
  withPacked fun _ _ => .withAcc fun _ _ => .setResult _

theorem execDs (l : BitVec 4) (s : State) : Accesses s (execDs l s) [] (loads s (operandLength l)) :=
  withPacked fun _ _ => .withAcc fun _ _ => .setResult _

theorem execDc (l : BitVec 4) (s : State) : Accesses s (execDc l s) [] (loads s (operandLength l)) :=
  withPacked fun _ _ => .withAcc fun _ _ => .finishDecimal _

theorem execDm (l : BitVec 4) (s : State) : Accesses s (execDm l s) [] (loads s (operandLength l)) :=
  withPacked fun _ _ => .withAcc fun _ _ => .after (.writeDeca _) (.finishDecimal _)

theorem execPack (l : BitVec 4) (s : State) : Accesses s (execPack l s) [] (loads s (2 * operandLength l - 1)) := by
  have hpos : 0 < 2 * operandLength l - 1 := by
    have := operandLength_pos l
    omega
  exact withOperand hpos fun _ _ => .checkOrFault (.setResult _)

theorem execDd (l : BitVec 4) (s : State) : Accesses s (execDd l s) [] (loads s (operandLength l)) := by
  refine withPacked fun u m => .withAcc fun v a => ?_
  split
  · exact .decimalFault _
  · obtain ⟨d, hd⟩ := divS_isSome (a := a) ‹_›
    rw [hd]
    dsimp only
    split
    · exact .decimalFault _
    · exact .after (.writeDeca _) (.finishDecimal _)

theorem execDsa (ind : Bool) (l : BitVec 4) (x : BitVec 3) (addr : BitVec 17) (s : State) :
    Accesses s (execDsa ind x addr s) (Instr.dsa ind l x addr).readsFirst [] := by
  have hindex : (s.readIndex x).1.ports = (if x = 0 then [] else [PortEvent.regRead (indexReg x)]) ++ s.ports ∧
      (s.readIndex x).1.accessor = s.accessor ∧ (s.readIndex x).1.trapFlag = s.trapFlag := by
    rw [State.readIndex]
    split <;> exact ⟨rfl, rfl, rfl⟩
  obtain ⟨hports, haccessor, htrapFlag⟩ := hindex
  have hquiet (u : State) (v : Int) (lost : Bool) : EndsQuietly u
      (if lost then (u.decSetLow31 v).decimalEnd fun _ => decimalCC true (signCC v) else (u.decSetLow31 v).finishDecimal (signCC v)) := by
    have hset : Silent u (u.decSetLow31 v) := .writeDeca _
    refine .after hset ?_
    split
    · exact .decimalEnd _
    · exact .finishDecimal _
  rw [Machine.execDsa]
  dsimp only
  rw [State.withAcc_eq]
  refine after_reads (u := (s.readIndex x).1.afterDeca) ?_ haccessor htrapFlag (of_quiet (.checkOrFault (hquiet _ _ _)))
  rw [State.afterDeca, hports, Instr.readsFirst]
  split <;> rfl

/-- The common rule of DST and UNPK: check the accumulator, test its size, store an image of it. -/
theorem storeImage (s : State) (z : Nat) (image : W128 → List Byte) {IsImage : List Byte → Int → Prop}
    (himage : ∀ v : W128, v.toInt.natAbs < 10 ^ 31 → v.toInt.natAbs < 10 ^ z → image v ≠ [] ∧ IsImage (image v) v.toInt) :
    ∃ out, Accesses s
        (s.withAcc fun u v => if 10 ^ z ≤ v.toInt.natAbs then u.decimalFault .overflow else u.storeResult (image v) v.toInt)
        Instr.decaReads (s.storesAt out) ∧
      StoresImage s z IsImage out := by
  have hreads {r : Result} {out : List Byte} (h : Accesses s.afterDeca r [] (s.storesAt out)) :
      Accesses s r Instr.decaReads (s.storesAt out) := after_reads (u := s.afterDeca) rfl rfl rfl h
  unfold StoresImage
  cases hnumber : packedNumber s.deca with
  | none =>
    rw [State.withAcc_of_none hnumber]
    exact ⟨[], hreads (of_quiet (.decimalFault _)), rfl⟩
  | some v =>
    obtain ⟨hacc, rfl, hlt⟩ := State.withAcc_of_some hnumber fun u v =>
      if 10 ^ z ≤ v.toInt.natAbs then u.decimalFault .overflow else u.storeResult (image v) v.toInt
    rw [hacc]
    dsimp only
    split <;> rename_i hz
    · exact ⟨[], hreads (of_quiet (.decimalFault _)), rfl⟩
    · obtain ⟨hne, his⟩ := himage _ hlt (Nat.lt_of_not_le hz)
      exact ⟨_, hreads (storeResult (s := s.afterDeca) hne _), his⟩

theorem operandLength_digits (l : BitVec 4) : 2 * operandLength l - 1 = 2 * (operandLength l - 1) + 1 := by
  have := operandLength_pos l
  omega

theorem execDst (l : BitVec 4) (s : State) : ∃ out, Accesses s (execDst l s) Instr.decaReads (s.storesAt out) ∧
    StoresImage s (2 * operandLength l - 1) (fun out v => out.length = operandLength l ∧ HoldsPacked out v) out := by
  refine storeImage s (2 * operandLength l - 1) (encodePacked · (operandLength l)) fun v hv hz => ?_
  have hpos := operandLength_pos l
  rw [encodePacked_eq hv hpos (operandLength_le l)]
  have hlength : (packNibbles (decimalDigits (2 * operandLength l - 1) v.toInt.natAbs ++ [generatedSign v.toInt])).length =
      operandLength l := packNibbles_length _ _ (by simp; omega)
  refine ⟨fun hnil => ?_, hlength, ?_⟩
  · rw [hnil] at hlength
    exact absurd hlength hpos.ne
  · rw [operandLength_digits] at hz ⊢
    exact holdsPacked_packNibbles _ _ hz

theorem execUnpk (l : BitVec 4) (s : State) : ∃ out, Accesses s (execUnpk l s) Instr.decaReads (s.storesAt out) ∧
    StoresImage s (2 * operandLength l - 1) (fun out v => out.length = 2 * operandLength l - 1 ∧ HoldsZoned out v) out := by
  refine storeImage s (2 * operandLength l - 1) _ fun v _ hz => ?_
  have hpos : 0 < 2 * operandLength l - 1 := by
    have := operandLength_pos l
    omega
  have hlength : (zonedBytes (decimalDigits (2 * operandLength l - 1) v.toInt.natAbs) (generatedSign v.toInt)).length =
      2 * operandLength l - 1 := by rw [zonedBytes_length, decimalDigits_length]
  refine ⟨fun hnil => ?_, hlength, holdsZoned_zonedBytes _ hpos _ hz⟩
  rw [hnil] at hlength
  exact absurd hlength hpos.ne

/-- Every instruction that only loads makes the loads of its row (R54). -/
theorem exec_loads {i : Sys2Proof.Instr} {s : State} {rows : List (Nat × Nat)} (h : s.loadsOf i = some rows) :
    Accesses s (exec i s) i.readsFirst (rows.map fun p => .load p.1 p.2) := by
  cases i with
  | fsl _ r _ _ => cases h; exact floatLong .subtract r s
  | fal _ r _ _ => cases h; exact floatLong .add r s
  | fdl _ r _ _ => cases h; exact floatLong .divide r s
  | fml _ r _ _ => cases h; exact floatLong .multiply r s
  | fss _ r _ _ => cases h; exact floatShort .subtract r s
  | fas _ r _ _ => cases h; exact floatShort .add r s
  | fds _ r _ _ => cases h; exact floatShort .divide r s
  | fms _ r _ _ => cases h; exact floatShort .multiply r s
  | pack _ l _ _ => cases h; exact execPack l s
  | ds _ l _ _ => cases h; exact execDs l s
  | da _ l _ _ => cases h; exact execDa l s
  | dc _ l _ _ => cases h; exact execDc l s
  | dm _ l _ _ => cases h; exact execDm l s
  | dl _ l _ _ => cases h; exact execDl l s
  | dd _ l _ _ => cases h; exact execDd l s
  | dsa ind l x addr => cases h; exact execDsa ind l x addr s
  | dst | unpk | ebs => cases h

end Accesses

/-- Settles O24: the loads of every row, and the stores of DST and UNPK. -/
theorem accessesAreThoseOfTheTable : Obligations.AccessesAreThoseOfTheTable := by
  refine ⟨fun i s rows h => Accesses.exec_loads h, fun ind l x addr s => ?_, fun ind l x addr s => ?_⟩
  · obtain ⟨out, ⟨t, ht, haccesses⟩, himage⟩ := Accesses.execDst l s
    exact ⟨t, out, ht, haccesses, himage⟩
  · obtain ⟨out, ⟨t, ht, haccesses⟩, himage⟩ := Accesses.execUnpk l s
    exact ⟨t, out, ht, haccesses, himage⟩

/-! ## Frames and order, read off the list -/

/-- What a command that makes these transactions recorded: other events, some of the transactions, the reads. -/
theorem MakesAccesses.events {s t : State} {reads accesses events : List PortEvent} (h : MakesAccesses s t reads accesses)
    (hevents : t.ports = events ++ s.ports) :
    ∃ after made, events = after ++ (made ++ reads.reverse) ∧ (∀ e ∈ after, e.isMemory = false) ∧
      ∀ e ∈ made, e ∈ accesses := by
  obtain ⟨after, hafter, hports, -⟩ := h
  refine ⟨after, (accesses.take (s.made accesses.length)).reverse, ?_, hafter, fun e he => ?_⟩
  · rw [hports, ← List.append_assoc, ← List.append_assoc] at hevents
    rw [← List.append_cancel_right hevents, List.append_assoc]
  · exact List.mem_of_mem_take (List.mem_reverse.1 he)

theorem readsFirst_isRead (i : Sys2Proof.Instr) : ∀ e ∈ i.readsFirst, e.isRead = true := by
  cases i with
  | dsa ind l x addr =>
    rw [Instr.readsFirst]
    split <;> simp [Instr.decaReads, decaRegs, PortEvent.isRead]
  | _ => simp [Instr.readsFirst, Instr.decaReads, decaRegs, PortEvent.isRead]

theorem isMemory_eq_false_of_isRead {e : PortEvent} (h : e.isRead = true) : e.isMemory = false := by
  cases e with
  | psdRead | regRead => rfl
  | load | store | regWrite | ccWrite | trap => cases h

/-- An instruction that stores nothing has its loads in the table (R54). -/
theorem loadsOf_of_not_stores {i : Sys2Proof.Instr} (h : i.stores = false) (s : State) : ∃ rows, s.loadsOf i = some rows := by
  cases i with
  | unpk | dst | ebs => cases h
  | _ => exact ⟨_, rfl⟩

/-- A command that makes these transactions and keeps a property of memory with every one of them keeps it. -/
theorem MakesAccesses.mem_induction {i : Sys2Proof.Instr} {s t : State} {reads accesses : List PortEvent}
    (h : MakesAccesses s t reads accesses) (ht : exec i s = .next t) (hreads : ∀ e ∈ reads, e.isRead = true) {Q : Memory → Prop}
    (hQ : Q s.mem) (hkeep : ∀ e ∈ accesses, e.StoreKeeps s.config.addrBits Q) : Q t.mem := by
  obtain ⟨events, hports, hstores⟩ := exec_mem_induction ht hQ
  refine hstores fun e he => ?_
  have hother (hm : e.isMemory = false) : e.StoreKeeps s.config.addrBits Q := by
    rintro a bytes rfl
    cases hm
  obtain ⟨after, made, rfl, hafter, hmade⟩ := h.events hports
  obtain hin | hin | hin : e ∈ after ∨ e ∈ made ∨ e ∈ reads.reverse := by simpa using he
  · exact hother (hafter e hin)
  · exact hkeep e (hmade e hin)
  · exact hother (isMemory_eq_false_of_isRead (hreads e (List.mem_reverse.1 hin)))

/-- An instruction that stores nothing leaves memory as it is (R54). -/
theorem exec_mem_of_not_stores {i : Sys2Proof.Instr} {s t : State} (hi : i.stores = false) (ht : exec i s = .next t) :
    t.mem = s.mem := by
  obtain ⟨rows, hrows⟩ := loadsOf_of_not_stores hi s
  refine ((Accesses.exec_loads hrows).makes ht).mem_induction ht (readsFirst_isRead i) (Q := (· = s.mem)) rfl ?_
  rintro e he a bytes rfl
  simp at he

/-- Settles O18. -/
theorem nonStoringInstructionKeepsMemory : Obligations.NonStoringInstructionKeepsMemory := by
  intro i s t hi ht
  have hmem := exec_mem_of_not_stores hi ht
  exact ⟨hmem, fun a => by rw [hmem]⟩

theorem mem_storesAt {s : State} {bytes : List Byte} {e : PortEvent} (h : e ∈ s.storesAt bytes) :
    ∃ k < bytes.length, e = .store (s.wrap (s.ea + k)) [bytes.getD k 0] := by
  obtain ⟨k, hk, rfl⟩ := List.mem_map.1 h
  exact ⟨k, List.mem_range.1 hk, rfl⟩

/-- A command whose transactions are one-byte stores of at most `n` bytes at EA changes no other byte. -/
theorem keepsMemoryBut_of_storesAt {i : Sys2Proof.Instr} {s t : State} {out : List Byte} {n : Nat} (ht : exec i s = .next t)
    (haccesses : Accesses s (exec i s) Instr.decaReads (s.storesAt out)) (hlength : out.length ≤ n) : KeepsMemoryBut s t s.ea n := by
  intro b hb
  have hreads : ∀ e ∈ Instr.decaReads, e.isRead = true := readsFirst_isRead (.dst false 0 0 0)
  refine (haccesses.makes ht).mem_induction ht hreads (Q := fun m => m.read b = s.mem.read b) rfl ?_
  rintro e he a bytes rfl m hm
  obtain ⟨k, hk, hstore⟩ := mem_storesAt he
  obtain ⟨rfl, rfl⟩ := PortEvent.store.inj hstore
  rw [State.wrap, Memory.writeBytes_mod]
  exact (Memory.read_write_ne m _ (hb k (by omega))).trans hm

theorem editFinish_mem {s t : State} {r : RegNum} {w : EditWork} {dm : Bool} {ending : EditEnding}
    (h : s.editFinish r w dm ending = .next t) : t.mem = s.mem := by
  cases ending with
  | exhausted | trapPending => cases h; rfl
  | invalidDigit =>
    cases dm with
    | false | true => cases h; rfl

/-- The top byte of a word as a number (R203). -/
theorem topByte_toNat (w : Word) : (topByte w).toNat = w.toNat / 2 ^ 24 := by
  rw [topByte, BitVec.extractLsb'_toNat, Nat.shiftRight_eq_div_pow]
  have := w.isLt
  omega

/-- EBS changes no byte but its pattern bytes (R206). -/
theorem execEbs_keepsMemoryBut {r : RegNum} {disp : Int} {s t : State} (ht : execEbs r disp s = .next t) :
    KeepsMemoryBut s t (s.editDst r) (s.editCount r) := by
  intro b hb
  rw [execEbs_eq] at ht
  dsimp only at ht
  rw [editFinish_mem ht]
  generalize hw : State.editStart _ (s.reg r) (s.reg (pairLow r)) s.psd.cc = w at ht ⊢
  obtain ⟨hdst, hcount⟩ : w.dst = s.editDst r ∧ w.count = s.editCount r := by
    subst hw
    exact ⟨rfl, topByte_toNat _⟩
  obtain h0 | hpos := Nat.eq_zero_or_pos w.count
  · rw [h0]
    rfl
  · obtain ⟨-, houtside, -⟩ := State.editLoop_spec (topByte (s.reg r)) disp w.count
      ((s.regRead r).1.regRead (pairLow r)).1.psdRead.1 w (.inl hpos)
    exact houtside b fun k hk => by rw [hdst]; exact hb k (hcount ▸ hk)

/-- Settles O19: the transactions of DST and UNPK are stores at EA; EBS's loop changes its pattern bytes alone. -/
theorem storingInstructionMemoryFrame : Obligations.StoringInstructionMemoryFrame := by
  refine ⟨fun ind l x addr s t ht => ?_, fun ind l x addr s t ht => ?_, fun r disp s t ht => execEbs_keepsMemoryBut ht⟩
  · obtain ⟨out, haccesses, himage⟩ := Accesses.execDst l s
    exact keepsMemoryBut_of_storesAt ht haccesses (himage.length_le fun _ _ h => h.1)
  · obtain ⟨out, haccesses, himage⟩ := Accesses.execUnpk l s
    exact keepsMemoryBut_of_storesAt ht haccesses (himage.length_le fun _ _ h => h.1)

/-- Every command but EBS makes reads, then memory transactions, then no more of these. -/
theorem exec_makesAccesses {i : Sys2Proof.Instr} {s t : State} (hi : i.isEdit = false) (ht : exec i s = .next t) :
    ∃ accesses, MakesAccesses s t i.readsFirst accesses ∧ ∀ e ∈ accesses, e.isMemory = true := by
  have hstores (bytes : List Byte) : ∀ e ∈ s.storesAt bytes, e.isMemory = true := by
    intro e he
    obtain ⟨k, -, rfl⟩ := mem_storesAt he
    rfl
  cases hs : i.stores with
  | false =>
    obtain ⟨rows, hrows⟩ := loadsOf_of_not_stores hs s
    refine ⟨_, (Accesses.exec_loads hrows).makes ht, fun e he => ?_⟩
    obtain ⟨p, -, rfl⟩ := List.mem_map.1 he
    rfl
  | true =>
    cases i with
    | ebs => cases hi
    | dst _ l _ _ =>
      obtain ⟨out, haccesses, -⟩ := Accesses.execDst l s
      exact ⟨_, haccesses.makes ht, hstores out⟩
    | unpk _ l _ _ =>
      obtain ⟨out, haccesses, -⟩ := Accesses.execUnpk l s
      exact ⟨_, haccesses.makes ht, hstores out⟩
    | _ => cases hs

/-- Settles O23: after the reads and the transactions made there is no memory transaction. -/
theorem memoryTransactionsPrecedeWrites : Obligations.MemoryTransactionsPrecedeWrites := by
  intro i s t hi ht
  obtain ⟨accesses, ⟨after, hafter, hports, -⟩, hmemory⟩ := exec_makesAccesses hi ht
  refine ⟨after, (accesses.take (s.made accesses.length)).reverse ++ i.readsFirst.reverse, ?_, hafter, fun e he => ?_⟩
  · rw [hports, List.append_assoc]
  obtain hin | hin := List.mem_append.1 he
  · exact .inl (hmemory e (List.mem_of_mem_take (List.mem_reverse.1 hin)))
  · exact .inr (readsFirst_isRead i e (List.mem_reverse.1 hin))

/-! ## Aborts -/

/-- Settles O26: an aborted command other than EBS made only reads and memory transactions. -/
theorem abortedCommandChangesNoRegister : Obligations.AbortedCommandChangesNoRegister := by
  intro i s t hi ht habort
  have hmem (hs : i.stores = false) : t.mem = s.mem := exec_mem_of_not_stores hs ht
  obtain ⟨u, c, h, rfl⟩ := ending_of_exec ht
  obtain rfl : c = .aborted := Option.some.inj habort
  cases h with
  | aborted h hflag =>
    have hregs : u.regs = s.regs := regs_ext fun j => h.regs j List.not_mem_nil
    exact ⟨hregs, ⟨⟨h.config, h.command, h.program, h.presented, rfl⟩, h.psd, rfl, hflag, h.trapRecord⟩, hmem⟩
  | editAborted _ _ he => exact Bool.noConfusion (he.symm.trans hi)

/-! ## Floating commands -/

/-- A floating command that is done wrote its result. -/
theorem FloatEnds.regs_of_done {width : Nat} {s t fetched : State} {write : State → BitVec width → State}
    {result : Except FloatFault (BitVec width)} (h : FloatEnds s t fetched write result) (hdone : t.completion = some .done) :
    ∃ w, result = .ok w ∧ t.regs = (write fetched w).regs := by
  by_cases hp : s.passes 1
  · cases result with
    | ok w => exact ⟨w, rfl, (h.completes w hp rfl).1⟩
    | error kind => cases (h.faults kind hp rfl).1.2.2.completion.symm.trans hdone
  · cases (h.aborts hp).1.2.2.completion.symm.trans hdone

/-- The events of a floating command, from those of its fetch and of its writes (R259). -/
theorem FloatEnds.floatEvents {width : Nat} {s t fetched : State} {write : State → BitVec width → State}
    {result : Except FloatFault (BitVec width)} {fetch writes : List PortEvent} (h : FloatEnds s t fetched write result)
    (hfetch : fetched.ports = fetch.reverse ++ s.ports)
    (hwrites : ∀ w, result = .ok w → t.regs = (write fetched w).regs → (write fetched w).ports = writes.reverse ++ fetched.ports) :
    FloatEvents s t fetch writes ∧ (t.completion = some .aborted → AbortsUnchanged s t) := by
  by_cases hp : s.passes 1
  · cases hr : result with
    | ok w =>
      obtain ⟨hregs, -, hdone, hports⟩ := h.completes w hp hr
      rw [hwrites w hr hregs, hfetch] at hports
      have hcc : t.psd.cc = floatCC w := by rw [hdone.psd]
      rw [← hcc] at hports
      exact ⟨.inr (.inl ⟨hdone.completion, hports⟩), fun ha => by cases hdone.completion.symm.trans ha⟩
    | error kind =>
      obtain ⟨⟨-, -, htrap⟩, hports⟩ := h.faults kind hp hr
      have hcc : t.psd.cc = floatFaultCC kind := by rw [htrap.psd]
      rw [hfetch, ← hcc] at hports
      exact ⟨.inr (.inr ⟨htrap.completion, hports⟩), fun ha => by cases htrap.completion.symm.trans ha⟩
  · obtain ⟨hunchanged, hports⟩ := h.aborts hp
    exact ⟨.inl ⟨hunchanged.2.2.completion, hports.trans hfetch⟩, fun _ => hunchanged⟩

/-- The low register of a pair is another register where R is even (R251). -/
theorem pairLow_ne {r : RegNum} (h : r.toNat % 2 = 0) : pairLow r ≠ r := by
  revert r
  decide

/-- Settles O25: the events of every end of a floating command, and the order in which a result is written. -/
theorem floatingPortOrder : Obligations.FloatingPortOrder := by
  refine ⟨fun op ind r x addr s => ?_, fun op ind r x addr s => ?_⟩
  · obtain ⟨t, ht, hends⟩ := floatShort_spec op r s
    refine ⟨t, by cases op <;> exact ht, hends.floatEvents ?_ fun w _ hw => ?_⟩
    · rw [State.afterFetch, State.wrap_alignDown_ea]
      rfl
    · rw [State.reg_congr hw, State.reg_writeReg_self]
      rfl
  · obtain ⟨t, ht, hends⟩ := floatLong_spec op r s
    generalize floatResult 64 op s.uflow.2 (sigmaToDouble (s.longReg r).2) (sigmaToDouble s.loadLong.2) = result at hends
    have hlow : ∃ low : Word, ∀ w, result = .ok w → low = w.extractLsb' 0 32 := by
      cases result with
      | ok w => exact ⟨w.extractLsb' 0 32, fun _ hw => by rw [Except.ok.inj hw]⟩
      | error kind => exact ⟨0, nofun⟩
    obtain ⟨low, hlow⟩ := hlow
    obtain ⟨hevents, habort⟩ := hends.floatEvents (fetch := [.psdRead, .regRead r, .regRead (pairLow r), .load (s.ea - s.ea % 8) 8])
      (writes := [.regWrite (pairLow r) low, .regWrite r (t.reg r)]) (by rw [State.afterFetch, State.wrap_alignDown_ea]; rfl)
      fun w hw hregs => by rw [hlow w hw, State.reg_congr hregs, State.writeLong, State.reg_writeReg_self]; rfl
    refine ⟨t, low, by cases op <;> exact ht, hevents, fun hdone heven => ?_, habort⟩
    obtain ⟨w, hw, hregs⟩ := hends.regs_of_done hdone
    change low = t.reg (pairLow r)
    rw [hlow w hw, State.reg_congr hregs, State.writeLong, State.reg_writeReg, if_neg (pairLow_ne heven), State.reg_writeReg_self]

end Sys2Proof.Machine
end

