-- ==== Sys2Proof/Proofs/EditByte.lean ====
section
/-! EBS byte by byte: the address fields and top bytes of words, what a pattern byte does to the work of the loop, one turn of the loop
that passes, the progress written back, and a loop that does not look at registers, the condition code or the record. -/

namespace Sys2Proof.Machine

/-! ## Words with an address field and a top byte -/

/-- The address field lies below the top byte (R7, R203). -/
theorem State.two_pow_addrBits_dvd (s : State) : 2 ^ s.config.addrBits ∣ 2 ^ 24 := by
  refine Nat.pow_dvd_pow 2 ?_
  have := s.config.addrExtra.isLt
  rw [Config.addrBits]
  omega

theorem State.withAddrField_toNat (s : State) (w : Word) (a : Nat) :
    (s.withAddrField w a).toNat = w.toNat / 2 ^ s.config.addrBits * 2 ^ s.config.addrBits + s.wrap a := by
  have ha := s.wrap_lt a
  obtain ⟨k, hk⟩ := s.two_pow_addrBits_dvd
  have hw := w.isLt
  have hdm := Nat.div_add_mod' w.toNat (2 ^ s.config.addrBits)
  have hpos : 0 < 2 ^ s.config.addrBits := by positivity
  rw [State.withAddrField, BitVec.toNat_ofNat]
  generalize 2 ^ s.config.addrBits = m at *
  have hq : w.toNat / m < k * 2 ^ 8 := by
    rw [Nat.div_lt_iff_lt_mul hpos]
    calc w.toNat < 2 ^ 24 * 2 ^ 8 := hw
      _ = k * 2 ^ 8 * m := by rw [hk]; ring
  have hlt : w.toNat / m * m + s.wrap a < 2 ^ 32 := by
    calc w.toNat / m * m + s.wrap a < (w.toNat / m + 1) * m := by rw [Nat.succ_mul]; omega
      _ ≤ k * 2 ^ 8 * m := Nat.mul_le_mul_right m hq
      _ = 2 ^ 24 * 2 ^ 8 := by rw [hk]; ring
      _ = 2 ^ 32 := by norm_num
  rw [Nat.mod_eq_of_lt] <;> omega

/-- The statement's word with an address is the model's. -/
theorem State.placeAddr_eq (s : State) (w : Word) {a : Nat} (ha : a < 2 ^ s.config.addrBits) :
    s.placeAddr w a = s.withAddrField w a := by
  have hdm := Nat.div_add_mod' w.toNat (2 ^ s.config.addrBits)
  rw [State.placeAddr, State.withAddrField, State.wrap, Nat.mod_eq_of_lt ha]
  congr 2
  omega

theorem withTopByte_toNat (w : Word) (b : Byte) : (withTopByte w b).toNat = b.toNat * 2 ^ 24 + w.toNat % 2 ^ 24 := by
  rw [withTopByte, BitVec.toNat_append, Nat.shiftLeft_eq_mul_pow, BitVec.extractLsb'_toNat, Nat.shiftRight_zero, mul_comm,
    Nat.two_pow_add_eq_or_of_lt (Nat.mod_lt _ (by norm_num))]

/-- Whole multiples of the top byte's weight pass through the rounding to an address. -/
theorem State.div_mul_add (s : State) (c y : Nat) :
    (c * 2 ^ 24 + y) / 2 ^ s.config.addrBits * 2 ^ s.config.addrBits =
      c * 2 ^ 24 + y / 2 ^ s.config.addrBits * 2 ^ s.config.addrBits := by
  obtain ⟨k, hk⟩ := s.two_pow_addrBits_dvd
  have hpos : 0 < 2 ^ s.config.addrBits := by positivity
  generalize 2 ^ s.config.addrBits = m at *
  rw [hk, show c * (m * k) + y = y + m * (c * k) by ring, Nat.add_mul_div_left _ _ hpos]
  ring

@[simp] theorem State.addrField_withAddrField (s : State) (w : Word) (a : Nat) : s.addrField (s.withAddrField w a) = s.wrap a := by
  rw [State.addrField, State.withAddrField_toNat, State.wrap, Nat.mul_add_mod', ← State.wrap, State.wrap_wrap]

@[simp] theorem State.addrField_withTopByte (s : State) (w : Word) (b : Byte) : s.addrField (withTopByte w b) = s.addrField w := by
  have hdvd := s.two_pow_addrBits_dvd
  rw [State.addrField, State.addrField, withTopByte_toNat, State.wrap, State.wrap, Nat.add_mod, Nat.mod_mod_of_dvd _ hdvd,
    Nat.mod_eq_zero_of_dvd (Dvd.dvd.mul_left hdvd _), Nat.zero_add, Nat.mod_mod]

@[simp] theorem topByte_withTopByte (w : Word) (b : Byte) : topByte (withTopByte w b) = b := by
  have := b.isLt
  apply BitVec.eq_of_toNat_eq
  rw [topByte_toNat, withTopByte_toNat]
  omega

theorem State.withAddrField_toNat_div (s : State) (w : Word) (a : Nat) :
    (s.withAddrField w a).toNat / 2 ^ s.config.addrBits = w.toNat / 2 ^ s.config.addrBits := by
  have hpos : 0 < 2 ^ s.config.addrBits := by positivity
  rw [State.withAddrField_toNat, Nat.add_comm, Nat.add_mul_div_right _ _ hpos, Nat.div_eq_of_lt (s.wrap_lt a), Nat.zero_add]

@[simp] theorem State.topByte_withAddrField (s : State) (w : Word) (a : Nat) : topByte (s.withAddrField w a) = topByte w := by
  obtain ⟨k, hk⟩ := s.two_pow_addrBits_dvd
  apply BitVec.eq_of_toNat_eq
  rw [topByte_toNat, topByte_toNat, hk, ← Nat.div_div_eq_div_mul, ← Nat.div_div_eq_div_mul, State.withAddrField_toNat_div]

/-- A later address replaces an earlier one. -/
@[simp] theorem State.withAddrField_withAddrField (s : State) (w : Word) (a b : Nat) :
    s.withAddrField (s.withAddrField w a) b = s.withAddrField w b := by
  apply BitVec.eq_of_toNat_eq
  rw [State.withAddrField_toNat s (s.withAddrField w a), State.withAddrField_toNat_div, ← State.withAddrField_toNat]

/-- A later top byte replaces an earlier one. -/
@[simp] theorem State.withTopByte_withAddrField_withTopByte (s : State) (w : Word) (a : Nat) (b c : Byte) :
    withTopByte (s.withAddrField (withTopByte w b) a) c = withTopByte (s.withAddrField w a) c := by
  have hsplit := s.div_mul_add (w.toNat / 2 ^ 24) (w.toNat % 2 ^ 24)
  rw [Nat.div_add_mod'] at hsplit
  apply BitVec.eq_of_toNat_eq
  rw [withTopByte_toNat, withTopByte_toNat, State.withAddrField_toNat, State.withAddrField_toNat, withTopByte_toNat, s.div_mul_add,
    hsplit, Nat.add_assoc, Nat.mul_add_mod', Nat.add_assoc, Nat.mul_add_mod']

/-! ## What a pattern byte does to the work of the loop -/

theorem digitOf_toNat (b : Byte) : (digitOf b).toNat = b.toNat % 16 := by
  rw [digitOf, BitVec.extractLsb'_toNat]
  rfl

theorem zoneOf_toNat (b : Byte) : (zoneOf b).toNat = b.toNat / 16 := by
  have := b.isLt
  rw [zoneOf, BitVec.extractLsb'_toNat, Nat.shiftRight_eq_div_pow]
  omega

/-- The digit taken from a source byte is the statement's. -/
theorem sourceDigit_eq (right : Bool) (sb : Byte) : sourceDigit right sb = (if right then digitOf sb else zoneOf sb : Nibble).toNat := by
  cases right with
  | true => exact (digitOf_toNat sb).symm
  | false => exact (zoneOf_toNat sb).symm

/-- The work after a pattern byte with this effect, before the address moves on. -/
def EditWork.after (w : EditWork) (s : State) (e : EditEffect) : EditWork where
  sbase := if e.nextSource then s.wrap (w.sbase + 1) else w.sbase
  dst := w.dst
  count := w.count
  right := e.right
  sig := e.sig
  nz := e.nz
  neg := e.neg

/-- A digit as the byte stored for it. -/
theorem zonedDigit_eq (d : Nibble) : (0xF#4 ++ d : Byte) = BitVec.ofNat 8 (0xF0 + d.toNat) := by
  revert d
  decide

theorem nibble_bne_zero (d : Nibble) : (d != 0) = (d.toNat != 0) := by
  revert d
  decide

theorem signMinus_eq (d : Nibble) : signMinus d = (d.toNat == 0xB || d.toNat == 0xD) := by
  revert d
  decide

/-- A selector does what its effect says: a leading zero is a digit not shown, and significance is on after the byte where the digit
is shown or 0x21 turns it on. -/
theorem editDigit_eq (s : State) (fill p sb : Byte) (w : EditWork) :
    editDigit s fill p sb (if w.right then digitOf sb else zoneOf sb) w =
      let e := selectorEffect fill p sb w.right w.sig w.nz w.neg w.dst (s.wrap (w.dst + 1))
      { work := w.after s e, store := e.store, mark := e.mark } := by
  have hleading : ∀ sig starts nonzero : Bool, (!(sig || starts && !sig) && !nonzero) = !(sig || starts || nonzero) := by decide
  have hsig : ∀ sig starts nonzero late : Bool,
      (sig || starts && !sig || (sig || starts || nonzero) || late && !(sig || starts && !sig || (sig || starts || nonzero))) =
        (sig || starts || nonzero || late) := by decide
  simp only [editDigit, selectorEffect, sourceDigit_eq, EditWork.after, zonedDigit_eq, signMinus_eq, ← digitOf_toNat]
  generalize (if w.right = true then digitOf sb else zoneOf sb : Nibble) = d
  have hzero : (d == 0) = !(d != 0) := (Bool.not_not _).symm
  rw [← nibble_bne_zero, hzero]
  generalize (d != 0) = nonzero, ((digitOf sb).toNat == 11 || (digitOf sb).toNat == 13) = minus, (p == 0x23) = starts,
    (p == 0x21) = late
  obtain ⟨sbase, dst, count, right, sig, nz, neg⟩ := w
  simp only [hleading, Bool.not_not, hsig, EditAction.mk.injEq]
  refine ⟨?work, ?store, ?mark⟩
  case work =>
    cases right with
    | true => simp
    | false =>
      by_cases hlow : 10 ≤ (digitOf sb).toNat
      · cases minus <;> simp [hlow]
      · simp [hlow]
  case store => cases (sig || starts || nonzero) <;> rfl
  case mark => cases sig <;> cases starts <;> cases nonzero <;> cases late <;> rfl

/-- A field separator or a message byte does what its effect says. -/
theorem editOther_eq (s : State) (fill p : Byte) (w : EditWork) :
    editOther fill p w =
      let e := otherEffect fill p w.right w.sig w.nz w.neg
      { work := w.after s e, store := e.store, mark := e.mark } := by
  rw [editOther, otherEffect]
  split <;> rfl

/-! ## One turn of the loop that passes -/

/-- EBS's work at its start, as the statements name it (R203). -/
def State.editWork (s : State) (r : RegNum) : EditWork where
  sbase := s.editBase r
  dst := s.editDst r
  count := s.editCount r
  right := ccBit s.psd.cc 1
  sig := ccBit s.psd.cc 2
  nz := ccBit s.psd.cc 3
  neg := ccBit s.psd.cc 4

theorem State.editStart_eq (s : State) (r : RegNum) : s.editStart (s.reg r) (s.reg (pairLow r)) s.psd.cc = s.editWork r := by
  rw [State.editStart, topByte_toNat]
  rfl

/-- The work after the pattern byte EBS takes next. -/
def State.editWorkAfter (s : State) (r : RegNum) (disp : Int) : EditWork :=
  ((s.editWork r).after s (s.editEffect r disp)).advance s

/-- The state the pattern byte leaves inside the loop: the mark in x[1], memory, the accessor and the record, and no progress yet in the
other registers or in the condition code (R206). -/
def State.editByteDone (s : State) (r : RegNum) (disp : Int) : State :=
  { s with
    regs := (s.editMark (s.editEffect r disp).mark).regs
    mem := (s.editedByte r disp).mem
    accessor := (s.editedByte r disp).accessor
    ports := (s.editByteEvents r disp).reverse ++ s.ports }

/-- A load that passes. -/
theorem State.memRead_of_passes {s : State} {n : Nat} (h : s.passes (n + 1)) (a m : Nat) :
    (s.memRead a m).1 = { s with accessor := s.accessor.tail, ports := .load (s.wrap a) m :: s.ports } ∧
      (s.memRead a m).1.passes n := by
  obtain ⟨hflag, hraises, hrest⟩ := (s.passes_succ a n m).1 h
  refine ⟨?_, hrest⟩
  rw [State.memRead, hflag, hraises]
  rfl

/-- A store of one byte that passes. -/
theorem State.memWrite_of_passes {s : State} (h : s.passes 1) (a : Nat) (b : Byte) :
    s.memWrite a [b] =
      { s with mem := s.mem.write (s.wrap a) b, accessor := s.accessor.tail, ports := .store (s.wrap a) [b] :: s.ports } := by
  obtain ⟨hflag, hraises, -⟩ := (s.passes_succ a 0 1).1 h
  have hstores : s.verdict.stores = true := by
    cases hv : s.verdict with
    | pass => rfl
    | flag stored =>
      rw [hv] at hraises
      cases hraises
  rw [State.memWrite, hflag, hraises, if_pos hstores]
  rfl

theorem State.wrap_editDst (s : State) (r : RegNum) : s.wrap (s.editDst r) = s.editDst r := s.wrap_wrap _

theorem State.wrap_editSourceAddr (s : State) (r : RegNum) (disp : Int) : s.wrap (s.editSourceAddr r disp) = s.editSourceAddr r disp := by
  have hpos : (0 : Int) < ((2 ^ s.config.addrBits : Nat) : Int) := by positivity
  refine Nat.mod_eq_of_lt ?_
  rw [State.editSourceAddr, Int.toNat_lt (Int.emod_nonneg _ hpos.ne')]
  exact Int.emod_lt_of_pos _ hpos

/-- A mark is an address. -/
theorem State.editEffect_mark_lt {s : State} {r : RegNum} {disp : Int} {a : Nat} (h : (s.editEffect r disp).mark = some a) :
    a < 2 ^ s.config.addrBits := by
  have hdst : s.editDst r < 2 ^ s.config.addrBits := s.wrap_lt _
  have hnext : s.wrap (s.editDst r + 1) < 2 ^ s.config.addrBits := s.wrap_lt _
  rw [State.editEffect] at h
  split at h
  · simp only [selectorEffect] at h
    split_ifs at h <;> cases h <;> assumption
  · rw [otherEffect] at h
    split at h <;> cases h

/-- What the pattern byte EBS takes next asks for. -/
def State.editAction (s : State) (r : RegNum) (disp : Int) : EditAction :=
  let e := s.editEffect r disp
  { work := (s.editWork r).after s e, store := e.store, mark := e.mark }

theorem State.editDigit_eq_editAction {s : State} {r : RegNum} (h : isSelector (s.editPattern r) = true) (disp : Int) :
    editDigit s (s.editFill r) (s.editPattern r) (s.editSource r disp)
        (if (s.editWork r).right then digitOf (s.editSource r disp) else zoneOf (s.editSource r disp)) (s.editWork r) =
      s.editAction r disp := by
  rw [editDigit_eq, State.editAction, State.editEffect, if_pos h]
  rfl

theorem State.editOther_eq_editAction {s : State} {r : RegNum} (h : ¬ isSelector (s.editPattern r) = true) (disp : Int) :
    editOther (s.editFill r) (s.editPattern r) (s.editWork r) = s.editAction r disp := by
  rw [editOther_eq s, State.editAction, State.editEffect, if_neg h]
  rfl

/-- One turn of the loop in the words of the statements (R206). -/
theorem State.editStep_eq (s : State) (r : RegNum) (disp : Int) :
    s.editStep (s.editFill r) disp (s.editWork r) =
      let u := (s.memRead (s.editDst r) 1).1
      let v := (u.memRead (s.editSourceAddr r disp) 1).1
      if u.trapFlag then (u, .trapPending)
      else if isSelector (s.editPattern r) then
        if v.trapFlag then (v, .trapPending)
        else if 10 ≤ sourceDigit (ccBit s.psd.cc 1) (s.editSource r disp) then (v, .invalid)
        else v.editCommit (s.editWork r) (s.editAction r disp)
      else u.editCommit (s.editWork r) (s.editAction r disp) := by
  have hpattern : (s.memRead (s.editWork r).dst 1).2.headD 0 = s.editPattern r := congrArg s.mem.read (s.wrap_editDst r)
  have hsource : ((s.memRead (s.editWork r).dst 1).1.memRead
      (((s.editWork r).sbase + disp) % ((2 ^ s.config.addrBits : Nat) : Int)).toNat 1).2.headD 0 = s.editSource r disp :=
    congrArg s.mem.read (s.wrap_editSourceAddr r disp)
  rw [State.editStep]
  dsimp only
  rw [hpattern, hsource, sourceDigit_eq]
  by_cases hselector : isSelector (s.editPattern r) = true
  · have htakes : takesDigit (s.editPattern r) = true := hselector
    rw [if_pos htakes, if_pos hselector, ← State.editDigit_eq_editAction hselector]
    rfl
  · have htakes : ¬ takesDigit (s.editPattern r) = true := hselector
    rw [if_neg htakes, if_neg hselector, State.editOther_eq_editAction hselector]
    rfl

/-- The loads of the pattern byte EBS takes next, in order. -/
def State.editByteLoads (s : State) (r : RegNum) (disp : Int) : List PortEvent :=
  .load (s.editDst r) 1 :: if isSelector (s.editPattern r) then [.load (s.editSourceAddr r disp) 1] else []

/-- The store of the pattern byte EBS takes next. -/
def State.editByteStore (s : State) (r : RegNum) (disp : Int) : List PortEvent :=
  match (s.editEffect r disp).store with
  | some b => [.store (s.editDst r) [b]]
  | none => []

/-- The write of the mark that the pattern byte EBS takes next makes. -/
def State.editByteMark (s : State) (r : RegNum) (disp : Int) : List PortEvent :=
  match (s.editEffect r disp).mark with
  | some a => [.regWrite 1 (s.placeAddr (s.reg 1) a)]
  | none => []

/-- The transactions of the pattern byte: loads, store, mark. -/
theorem State.editByteEvents_eq (s : State) (r : RegNum) (disp : Int) :
    s.editByteEvents r disp = s.editByteLoads r disp ++ (s.editByteStore r disp ++ s.editByteMark r disp) :=
  congrArg (PortEvent.load (s.editDst r) 1 :: ·) (List.append_assoc _ _ _)

/-- The state after the loads of the pattern byte have passed. -/
def State.editByteLoaded (s : State) (r : RegNum) (disp : Int) : State :=
  { s with
    accessor := s.accessor.drop (s.editByteLoads r disp).length
    ports := (s.editByteLoads r disp).reverse ++ s.ports }

/-- The store of the pattern byte, after its loads, when it passes. -/
theorem State.editStore_editByteLoaded {s : State} {r : RegNum} {disp : Int} (hp : (s.editByteLoaded r disp).passes 1) :
    (s.editByteLoaded r disp).editStore (s.editDst r) (s.editEffect r disp).store =
      { s.editByteLoaded r disp with
        mem := (s.editedByte r disp).mem
        accessor := (s.editedByte r disp).accessor
        ports := (s.editByteStore r disp).reverse ++ (s.editByteLoaded r disp).ports } := by
  have haccessor : (s.editedByte r disp).accessor =
      s.accessor.drop ((s.editByteLoads r disp).length + if (s.editEffect r disp).store.isSome then 1 else 0) := by
    rw [State.editByteLoads]
    by_cases hselector : isSelector (s.editPattern r) = true <;> simp [State.editedByte, hselector, Nat.add_comm]
  have hmem : (s.editedByte r disp).mem =
      match (s.editEffect r disp).store with
      | some b => s.mem.write (s.editDst r) b
      | none => s.mem := rfl
  rw [haccessor, hmem, State.editByteStore]
  cases (s.editEffect r disp).store with
  | none => rfl
  | some b =>
    have hwrap : (s.editByteLoaded r disp).wrap (s.editDst r) = s.editDst r := s.wrap_editDst r
    rw [State.editStore, State.memWrite_of_passes hp, hwrap]
    simp [State.editByteLoaded]

/-- The commit of the pattern byte EBS takes next, after its loads. -/
theorem State.editCommit_of_passes {s : State} {r : RegNum} {disp : Int} (hp : (s.editByteLoaded r disp).passes 1) :
    (s.editByteLoaded r disp).editCommit (s.editWork r) (s.editAction r disp) =
      (s.editByteDone r disp, .committed (s.editWorkAfter r disp)) := by
  have hstore := State.editStore_editByteLoaded hp
  have hclear : ((s.editByteLoaded r disp).editStore (s.editWork r).dst (s.editAction r disp).store).trapFlag = false := by
    rw [show (s.editByteLoaded r disp).editStore (s.editWork r).dst (s.editAction r disp).store = _ from hstore]
    exact hp.1
  rw [State.editCommit_eq, hclear, Bool.and_false, if_neg Bool.false_ne_true]
  refine Prod.ext ?_ rfl
  change ((s.editByteLoaded r disp).editStore (s.editDst r) (s.editEffect r disp).store).editMark (s.editEffect r disp).mark = _
  rw [hstore, State.editByteDone, State.editByteEvents_eq, State.editByteMark]
  cases hmark : (s.editEffect r disp).mark with
  | none => simp [State.editMark, State.editByteLoaded]
  | some a =>
    dsimp only
    rw [State.placeAddr_eq s _ (State.editEffect_mark_lt hmark), List.reverse_append, List.reverse_append, List.append_assoc,
      List.append_assoc]
    rfl

/-- One turn of the loop on a pattern byte whose transactions pass and whose digit is a digit (R206). -/
theorem State.editStep_of_passes {s : State} {r : RegNum} {disp : Int} (hp : s.passes 3) (hvalid : s.editValid r disp) :
    s.editStep (s.editFill r) disp (s.editWork r) = (s.editByteDone r disp, .committed (s.editWorkAfter r disp)) := by
  obtain ⟨hload, hp1⟩ := State.memRead_of_passes hp (s.editDst r) 1
  obtain ⟨hload2, hp2⟩ := State.memRead_of_passes hp1 (s.editSourceAddr r disp) 1
  rw [State.editStep_eq]
  dsimp only
  rw [if_neg (Bool.eq_false_iff.1 hp1.1), if_neg (Bool.eq_false_iff.1 hp2.1)]
  by_cases hselector : isSelector (s.editPattern r) = true
  · have hloaded : ((s.memRead (s.editDst r) 1).1.memRead (s.editSourceAddr r disp) 1).1 = s.editByteLoaded r disp := by
      have hwrap : (s.memRead (s.editDst r) 1).1.wrap (s.editSourceAddr r disp) = s.editSourceAddr r disp :=
        s.wrap_editSourceAddr r disp
      have htail : s.accessor.tail.tail = s.accessor.drop 2 := by rw [← List.drop_one, ← List.drop_one, List.drop_drop]
      rw [hload2, hwrap, hload, s.wrap_editDst r, State.editByteLoaded, State.editByteLoads, if_pos hselector]
      simp [htail]
    rw [if_pos hselector, if_neg (Nat.not_le.2 (hvalid hselector)), hloaded]
    exact State.editCommit_of_passes (hloaded ▸ hp2)
  · have hloaded : (s.memRead (s.editDst r) 1).1 = s.editByteLoaded r disp := by
      rw [hload, s.wrap_editDst r, State.editByteLoaded, State.editByteLoads, if_neg hselector]
      simp
    have hp1' : (s.memRead (s.editDst r) 1).1.passes 1 :=
      ⟨hp1.1, fun v hv => hp1.2 v (List.take_subset_take_left _ one_le_two hv)⟩
    rw [if_neg hselector, hloaded]
    exact State.editCommit_of_passes (hloaded ▸ hp1')

/-! ## The progress written back -/

/-- The registers after EBS has written its progress back: count and pattern address in x[R1], and below that the source address in
x[R]; what an earlier write left in an address field or in the count is gone. -/
theorem State.reg_editWriteBack (s : State) (r : RegNum) (w : EditWork) (j : RegNum) :
    (s.editWriteBack r w).reg j =
      if j = pairLow r then withTopByte (s.withAddrField (s.reg (pairLow r)) w.dst) (BitVec.ofNat 8 w.count)
      else if j = r then s.withAddrField (s.reg r) w.sbase
      else s.reg j := by
  have hconfig (v : Word) : (s.writeReg r v).withAddrField = s.withAddrField := rfl
  rw [State.editWriteBack, State.reg_writeReg, State.reg_writeReg, State.reg_writeReg, hconfig]
  by_cases hpair : pairLow r = r
  · rw [if_pos hpair, hpair, State.withAddrField_withAddrField]
  · rw [if_neg hpair]

/-- A mark is gone from any register whose address field is written after it. -/
theorem State.withAddrField_reg_editMark (s : State) (mark : Option Nat) (j : RegNum) (a : Nat) :
    s.withAddrField ((s.editMark mark).reg j) a = s.withAddrField (s.reg j) a := by
  cases mark with
  | none => rfl
  | some b =>
    rw [State.editMark, State.reg_writeReg]
    split
    · rename_i hj
      rw [hj, State.withAddrField_withAddrField]
    · rfl

/-- The registers of the state EBS has reached, as the mark and two writes after it. -/
theorem State.editedByte_regs_eq (s : State) (r : RegNum) (disp : Int) :
    ∃ u : State, u.regs = (s.editByteDone r disp).regs ∧
      (s.editedByte r disp).regs =
        ((u.pokeReg r (s.placeAddr (s.reg r) (s.editWorkAfter r disp).sbase)).pokeReg (pairLow r)
          (BitVec.ofNat 32 ((s.editWorkAfter r disp).count * 2 ^ 24 +
            (s.placeAddr (s.reg (pairLow r)) (s.editWorkAfter r disp).dst).toNat % 2 ^ 24))).regs := by
  refine ⟨_, ?_, rfl⟩
  rw [State.editByteDone]
  cases hmark : (s.editEffect r disp).mark with
  | none => rfl
  | some a =>
    dsimp only
    rw [State.placeAddr_eq s _ (State.editEffect_mark_lt hmark)]
    rfl

theorem State.editCount_lt (s : State) (r : RegNum) : s.editCount r < 256 := by
  have := (s.reg (r ||| 1)).isLt
  rw [State.editCount]
  omega

theorem State.editWorkAfter_sbase_lt (s : State) (r : RegNum) (disp : Int) :
    (s.editWorkAfter r disp).sbase < 2 ^ s.config.addrBits := by
  simp only [State.editWorkAfter, EditWork.advance, EditWork.after]
  split
  · exact s.wrap_lt _
  · exact s.wrap_lt _

theorem State.editWorkAfter_dst_lt (s : State) (r : RegNum) (disp : Int) :
    (s.editWorkAfter r disp).dst < 2 ^ s.config.addrBits := s.wrap_lt _

theorem State.editWorkAfter_count (s : State) (r : RegNum) (disp : Int) : (s.editWorkAfter r disp).count = s.editCount r - 1 := rfl

/-- The statement's word with a count is the model's. -/
theorem ofNat_eq_withTopByte (n : Nat) (w : Word) :
    BitVec.ofNat 32 (n * 2 ^ 24 + w.toNat % 2 ^ 24) = withTopByte w (BitVec.ofNat 8 n) := by
  apply BitVec.eq_of_toNat_eq
  rw [withTopByte_toNat, BitVec.toNat_ofNat, BitVec.toNat_ofNat]
  omega

/-- The registers once the progress after the pattern byte is written back: those of the state EBS has reached (R207). -/
theorem State.editedByte_regs (s : State) (r : RegNum) (disp : Int) :
    (s.editedByte r disp).regs = ((s.editByteDone r disp).editWriteBack r (s.editWorkAfter r disp)).regs := by
  have hdone (j : RegNum) (a : Nat) : (s.editByteDone r disp).withAddrField ((s.editByteDone r disp).reg j) a =
      s.withAddrField (s.reg j) a := s.withAddrField_reg_editMark (s.editEffect r disp).mark j a
  obtain ⟨u, hu, hregs⟩ := s.editedByte_regs_eq r disp
  refine regs_ext fun j => ?_
  change (s.editedByte r disp).reg j = (State.editWriteBack _ r _).reg j
  rw [State.reg_editWriteBack, hdone, hdone, State.reg_congr hregs, State.reg_pokeReg, State.reg_pokeReg, State.reg_congr hu,
    State.placeAddr_eq s _ (s.editWorkAfter_sbase_lt r disp), State.placeAddr_eq s _ (s.editWorkAfter_dst_lt r disp),
    ofNat_eq_withTopByte]

/-- Two states that EBS's progress written back makes alike in their registers. -/
def WrittenBackAlike (r : RegNum) (s t : State) : Prop := ∀ w j, (t.editWriteBack r w).reg j = (s.editWriteBack r w).reg j

theorem WrittenBackAlike.reg {r : RegNum} {s t : State} (h : WrittenBackAlike r s t) {j : RegNum} (hj : j ≠ pairLow r) (hr : j ≠ r) :
    t.reg j = s.reg j := by
  have hback := h (s.editWork r) j
  rwa [State.reg_editWriteBack, State.reg_editWriteBack, if_neg hj, if_neg hr, if_neg hj, if_neg hr] at hback

/-- A mark is gone from the registers written back, and other registers are alike. -/
theorem WrittenBackAlike.editMark {r : RegNum} {s t : State} (h : WrittenBackAlike r s t) (hc : t.config = s.config) (mark : Option Nat) :
    WrittenBackAlike r (s.editMark mark) (t.editMark mark) := by
  have hmarked (u : State) (x : Word) (a : Nat) : (u.editMark mark).withAddrField x a = u.withAddrField x a := by
    cases mark <;> rfl
  intro w j
  have hback := h w j
  rw [State.reg_editWriteBack, State.reg_editWriteBack] at hback ⊢
  simp only [hmarked, State.withAddrField_reg_editMark]
  split_ifs at hback ⊢ with hj hr
  · exact hback
  · exact hback
  · cases mark with
    | none => exact hback
    | some a =>
      rw [State.editMark, State.editMark, State.reg_writeReg, State.reg_writeReg, State.withAddrField_congr hc]
      split_ifs with h1
      · rw [← h1, hback]
      · exact hback

/-- Progress written back twice is the later progress where R is even (R207). -/
theorem WrittenBackAlike.of_editWriteBack {r : RegNum} (heven : r.toNat % 2 = 0) {s t : State} {w : EditWork}
    (hc : t.config = s.config) (ht : t.regs = (s.editWriteBack r w).regs) : WrittenBackAlike r s t := by
  have hpair : r ≠ pairLow r := (pairLow_ne heven).symm
  have hlow : t.reg (pairLow r) = withTopByte (s.withAddrField (s.reg (pairLow r)) w.dst) (BitVec.ofNat 8 w.count) := by
    rw [State.reg_congr ht, State.reg_editWriteBack, if_pos rfl]
  have hhigh : t.reg r = s.withAddrField (s.reg r) w.sbase := by
    rw [State.reg_congr ht, State.reg_editWriteBack, if_neg hpair, if_pos rfl]
  intro w' j
  rw [State.reg_editWriteBack, State.reg_editWriteBack, State.withAddrField_congr hc, State.withAddrField_congr hc, hlow, hhigh,
    State.withTopByte_withAddrField_withTopByte, State.withAddrField_withAddrField, State.withAddrField_withAddrField,
    State.reg_congr ht, State.reg_editWriteBack]
  split_ifs <;> rfl

/-! ## What EBS's loop does not look at -/

/-- One load of a byte and its poll: the turn ends, or goes on with the byte (R206). -/
def State.polledLoad (s : State) (a : Nat) (k : State → Byte → State × EditStep) : State × EditStep :=
  let u := (s.memRead a 1).1
  if u.trapFlag then (u, .trapPending) else k u (s.mem.read (s.wrap a))

/-- The address of the source byte in a turn (R203). -/
def State.sourceAddr (s : State) (disp : Int) (w : EditWork) : Nat := ((w.sbase + disp) % ((2 ^ s.config.addrBits : Nat) : Int)).toNat

/-- A turn of the loop, by its polled loads and its commit. -/
theorem State.editStep_polled (s : State) (fill : Byte) (disp : Int) (w : EditWork) :
    s.editStep fill disp w = s.polledLoad w.dst fun u p =>
      if takesDigit p then
        u.polledLoad (u.sourceAddr disp w) fun v sb =>
          if 10 ≤ (if w.right then digitOf sb else zoneOf sb : Nibble).toNat then (v, .invalid)
          else v.editCommit w (editDigit v fill p sb (if w.right then digitOf sb else zoneOf sb) w)
      else u.editCommit w (editOther fill p w) := rfl

/-- A relation of states that EBS's loop does not see: the loop looks at memory, TRAPFLAG and the parameters, and of its operations only
the mark depends on a register. (`Unseen` asks for more, all that a whole command looks at.) -/
structure LoopUnseen (R : State → State → Prop) : Prop where
  view : ∀ {s t}, R s t → t.config = s.config ∧ t.mem = s.mem ∧ t.trapFlag = s.trapFlag
  memRead : ∀ {s t}, R s t → ∀ a n, R (s.memRead a n).1 (t.memRead a n).1
  memWrite : ∀ {s t}, R s t → ∀ a bytes, R (s.memWrite a bytes) (t.memWrite a bytes)
  editMark : ∀ {s t}, R s t → ∀ mark, R (s.editMark mark) (t.editMark mark)

/-- Two outcomes of the loop or of a turn: states in a relation, and the same report. -/
def SameReport {α : Type} (R : State → State → Prop) (x y : State × α) : Prop := R x.1 y.1 ∧ y.2 = x.2

namespace LoopUnseen

variable {R : State → State → Prop} (hR : LoopUnseen R) {s t : State} (h : R s t)
include hR h

theorem editCommit (w : EditWork) (act : EditAction) : SameReport R (s.editCommit w act) (t.editCommit w act) := by
  have hstore : R (s.editStore w.dst act.store) (t.editStore w.dst act.store) := by
    cases act.store with
    | none => exact h
    | some b => exact hR.memWrite h _ _
  rw [State.editCommit_eq, State.editCommit_eq, (hR.view hstore).2.2, EditWork.advance_congr (hR.view h).1]
  split
  · exact ⟨hstore, rfl⟩
  · exact ⟨hR.editMark hstore _, rfl⟩

theorem polledLoad (a : Nat) {k k' : State → Byte → State × EditStep} (hk : ∀ {u v}, R u v → ∀ b, SameReport R (k u b) (k' v b)) :
    SameReport R (s.polledLoad a k) (t.polledLoad a k') := by
  obtain ⟨hconfig, hmem, -⟩ := hR.view h
  have hload := hR.memRead h a 1
  rw [State.polledLoad, State.polledLoad, (hR.view hload).2.2, hmem, State.wrap_congr hconfig]
  split
  · exact ⟨hload, rfl⟩
  · exact hk hload _

theorem editStep (fill : Byte) (disp : Int) (w : EditWork) : SameReport R (s.editStep fill disp w) (t.editStep fill disp w) := by
  rw [State.editStep_polled, State.editStep_polled]
  refine hR.polledLoad h w.dst fun {u v} huv p => ?_
  rw [State.sourceAddr, State.sourceAddr, (hR.view huv).1]
  split
  · refine hR.polledLoad huv _ fun {u v} huv sb => ?_
    rw [editDigit_congr (hR.view huv).1]
    generalize (if w.right = true then digitOf sb else zoneOf sb : Nibble) = d
    split
    · exact ⟨huv, rfl⟩
    · exact hR.editCommit huv _ _
  · exact hR.editCommit huv _ _

/-- States that the loop does not tell apart come to such states, with the same work and ending. -/
theorem editLoop (fill : Byte) (disp : Int) (n : Nat) (w : EditWork) :
    SameReport R (State.editLoop fill disp n s w) (State.editLoop fill disp n t w) := by
  induction n generalizing s t w with
  | zero => exact ⟨h, rfl⟩
  | succ n ih =>
    obtain ⟨hturn, hreport⟩ := hR.editStep h fill disp w
    rw [State.editLoop, State.editLoop]
    generalize s.editStep fill disp w = x, t.editStep fill disp w = y at hturn hreport ⊢
    obtain ⟨s1, e⟩ := x
    obtain ⟨t1, e'⟩ := y
    obtain rfl : e' = e := hreport
    cases e' with
    | committed w1 => exact ih hturn w1
    | invalid | trapPending => exact ⟨hturn, rfl⟩

end LoopUnseen

/-- States alike in all but registers, the condition code and the record; the progress written back makes the registers alike, and the
memory transactions made since two given records are the same. -/
structure SameLoop (r : RegNum) (since since' : List PortEvent) (s t : State) : Prop where
  rest : ∃ regs cc ports, t = { s with regs := regs, psd := { s.psd with cc := cc }, ports := ports }
  regs : WrittenBackAlike r s t
  accesses : ∃ made, s.ports.filter PortEvent.isMemory = made ++ since ∧ t.ports.filter PortEvent.isMemory = made ++ since'

/-- The loop does not see what `SameLoop` leaves unsaid. -/
theorem SameLoop.unseen (r : RegNum) (since since' : List PortEvent) : LoopUnseen (SameLoop r since since') where
  view := by
    rintro s _ ⟨⟨regs, cc, ports, rfl⟩, -, -⟩
    exact ⟨rfl, rfl, rfl⟩
  memRead := by
    rintro s _ ⟨⟨regs, cc, ports, rfl⟩, hregs, made, hs, ht⟩ a n
    exact ⟨⟨regs, cc, .load (s.wrap a) n :: ports, rfl⟩, hregs, .load (s.wrap a) n :: made, congrArg (PortEvent.load _ _ :: ·) hs,
      congrArg (PortEvent.load _ _ :: ·) ht⟩
  memWrite := by
    rintro s _ ⟨⟨regs, cc, ports, rfl⟩, hregs, made, hs, ht⟩ a bytes
    exact ⟨⟨regs, cc, .store (s.wrap a) bytes :: ports, rfl⟩, hregs, .store (s.wrap a) bytes :: made,
      congrArg (PortEvent.store _ _ :: ·) hs, congrArg (PortEvent.store _ _ :: ·) ht⟩
  editMark := by
    rintro s t ⟨⟨regs, cc, ports, rfl⟩, hregs, made, hs, ht⟩ mark
    refine ⟨?_, hregs.editMark rfl mark, made, ?_⟩
    · cases mark with
      | none => exact ⟨regs, cc, ports, rfl⟩
      | some a => exact ⟨_, cc, _, rfl⟩
    · cases mark with
      | none => exact ⟨hs, ht⟩
      | some a => exact ⟨hs, ht⟩

theorem sameButPorts_of_regs {s t : State} (hrest : t = { s with regs := t.regs, ports := t.ports }) (hregs : t.regs = s.regs) :
    SameButPorts s t := by
  rw [hregs] at hrest
  rw [hrest]
  rfl

/-- What the end of EBS makes of states that the loop did not tell apart. -/
theorem SameLoop.editFinish {r : RegNum} {since since' : List PortEvent} {s t : State} (h : SameLoop r since since' s t) (w : EditWork)
    (dm : Bool) (ending : EditEnding) :
    ∃ s' t', s.editFinish r w dm ending = .next s' ∧ t.editFinish r w dm ending = .next t' ∧ SameButPorts s' t' ∧
      ∃ made, s'.ports.filter PortEvent.isMemory = made ++ since ∧ t'.ports.filter PortEvent.isMemory = made ++ since' := by
  obtain ⟨⟨regs, cc, ports, rfl⟩, hregs, made, hs, ht⟩ := h
  have hback := regs_ext (hregs w)
  cases ending with
  | exhausted | trapPending => exact ⟨_, _, rfl, rfl, sameButPorts_of_regs rfl hback, made, hs, ht⟩
  | invalidDigit =>
    cases dm with
    | false | true => exact ⟨_, _, rfl, rfl, sameButPorts_of_regs rfl hback, made, hs, ht⟩

/-! ## EBS of one byte, and byte by byte -/

/-- EBS's reads at its start change the record alone. -/
def State.editReads (s : State) (r : RegNum) : State :=
  { s with ports := .psdRead :: .regRead (pairLow r) :: .regRead r :: s.ports }

theorem State.editReads_regs (s : State) (r : RegNum) : (s.editReads r).regs = s.regs := rfl

theorem State.editReads_config (s : State) (r : RegNum) : (s.editReads r).config = s.config := rfl

/-- The fill character as the statements name it (R203). -/
theorem State.topByte_reg (s : State) (r : RegNum) : topByte (s.reg r) = s.editFill r := by
  apply BitVec.eq_of_toNat_eq
  have := (s.reg r).isLt
  rw [topByte_toNat, State.editFill, BitVec.toNat_ofNat]
  omega

/-- EBS, from its reads: the loop from the work they start it with, then the ending. -/
theorem execEbs_editReads (r : RegNum) (disp : Int) (s : State) :
    execEbs r disp s =
      let out := State.editLoop (s.editFill r) disp (s.editCount r) (s.editReads r) (s.editWork r)
      out.1.editFinish r out.2.1 s.psd.dm out.2.2 := by
  rw [execEbs_eq, State.topByte_reg]
  dsimp only
  rw [State.editStart_congr (s := s) (t := ((s.regRead r).1.regRead (pairLow r)).1.psdRead.1) rfl, State.editStart_eq]
  rfl

/-- The reads at the start only come before the events of the byte. -/
theorem State.editByteDone_editReads (s : State) (r : RegNum) (disp : Int) :
    (s.editReads r).editByteDone r disp =
      { s.editByteDone r disp with ports := (s.editByteEvents r disp).reverse ++ (s.editReads r).ports } := by
  have hregs (mark : Option Nat) : ((s.editReads r).editMark mark).regs = (s.editMark mark).regs := by
    cases mark <;> rfl
  rw [State.editByteDone, hregs]
  rfl

/-- The loop's first turn of EBS, from its reads. -/
def State.editFirstByte (s : State) (r : RegNum) (disp : Int) : State :=
  { s.editByteDone r disp with ports := (s.editByteEvents r disp).reverse ++ (s.editReads r).ports }

/-- EBS with a byte left to process: that byte, then the rest of the loop (R206). -/
theorem execEbs_of_passes {r : RegNum} {disp : Int} {s : State} {n : Nat} (hp : s.passes 3) (hvalid : s.editValid r disp)
    (hcount : s.editCount r = n + 1) :
    execEbs r disp s =
      let out := State.editLoop (s.editFill r) disp n (s.editFirstByte r disp) (s.editWorkAfter r disp)
      out.1.editFinish r out.2.1 s.psd.dm out.2.2 := by
  have hstep : (s.editReads r).editStep (s.editFill r) disp (s.editWork r) =
      (s.editFirstByte r disp, .committed (s.editWorkAfter r disp)) := by
    rw [State.editFirstByte, ← State.editByteDone_editReads]
    exact State.editStep_of_passes (s := s.editReads r) hp hvalid
  rw [execEbs_editReads, hcount]
  dsimp only
  rw [((s.editReads r).editLoop_succ (s.editFill r) disp n (s.editWork r)).1 _ (by rw [hstep]), hstep]

/-- The byte edited changes registers, the condition code, memory and the accessor alone. -/
theorem State.editedByte_eq (s : State) (r : RegNum) (disp : Int) :
    s.editedByte r disp =
      { s with
        regs := (s.editedByte r disp).regs
        psd := { s.psd with cc := (s.editedByte r disp).psd.cc }
        mem := (s.editedByte r disp).mem
        accessor := (s.editedByte r disp).accessor } := by
  rw [State.editedByte]
  cases (s.editEffect r disp).mark with
  | none => rfl
  | some a => rfl

theorem State.editedByte_ports (s : State) (r : RegNum) (disp : Int) : (s.editedByte r disp).ports = s.ports := by
  rw [State.editedByte_eq]

theorem State.editedByte_config (s : State) (r : RegNum) (disp : Int) : (s.editedByte r disp).config = s.config := by
  rw [State.editedByte_eq]

/-- The registers that the byte edited leaves: those of EBS with its progress after the byte, and the mark. -/
theorem State.reg_editedByte (s : State) (r : RegNum) (disp : Int) (j : RegNum) :
    (s.editedByte r disp).reg j =
      if j = pairLow r then
        withTopByte (s.withAddrField (s.reg (pairLow r)) (s.editWorkAfter r disp).dst) (BitVec.ofNat 8 (s.editWorkAfter r disp).count)
      else if j = r then s.withAddrField (s.reg r) (s.editWorkAfter r disp).sbase
      else (s.editMark (s.editEffect r disp).mark).reg j := by
  have hdone (j : RegNum) (a : Nat) : (s.editByteDone r disp).withAddrField ((s.editByteDone r disp).reg j) a =
      s.withAddrField (s.reg j) a := s.withAddrField_reg_editMark (s.editEffect r disp).mark j a
  rw [State.reg_congr (s.editedByte_regs r disp), State.reg_editWriteBack, hdone, hdone]
  rfl

theorem State.editWriteBack_regs_congr (s : State) (ports : List PortEvent) (r : RegNum) (w : EditWork) :
    (State.editWriteBack { s with ports := ports } r w).regs = (s.editWriteBack r w).regs := rfl

/-- The two register writes of the progress, x[R] first (R207). -/
theorem State.editWriteBack_ports (s : State) (r : RegNum) (w : EditWork) :
    (s.editWriteBack r w).ports = .regWrite (pairLow r) ((s.editWriteBack r w).reg (pairLow r)) ::
      .regWrite r (s.withAddrField (s.reg r) w.sbase) :: s.ports := by
  rw [State.editWriteBack, State.reg_writeReg_self]
  rfl

theorem State.editFirstByte_regs (s : State) (r : RegNum) (disp : Int) :
    (s.editedByte r disp).regs = ((s.editFirstByte r disp).editWriteBack r (s.editWorkAfter r disp)).regs :=
  (s.editedByte_regs r disp).trans ((s.editByteDone r disp).editWriteBack_regs_congr _ r _).symm

/-- Settles O46: one turn of the loop, then the progress written back. -/
theorem editOfOnePatternByte : Obligations.EditOfOnePatternByte := by
  intro r disp s hp hcount hvalid
  have hregs := s.editFirstByte_regs r disp
  obtain ⟨t, ht, htregs, hmem, hports, hdone⟩ :
      ∃ t, exec (.ebs r disp) s = .next t ∧ t.regs = (s.editedByte r disp).regs ∧ t.mem = (s.editedByte r disp).mem ∧
        t.ports = .ccWrite (s.editedByte r disp).psd.cc ::
          ((s.editFirstByte r disp).editWriteBack r (s.editWorkAfter r disp)).ports ∧
        EndsDone s t (s.editedByte r disp).psd.cc :=
    ⟨_, execEbs_of_passes hp hvalid hcount, hregs.symm, rfl, rfl, ⟨rfl, rfl, rfl, rfl, rfl⟩, rfl, rfl, rfl, rfl⟩
  refine ⟨t, ht, htregs, hmem, hdone, s.withAddrField (s.reg r) (s.editWorkAfter r disp).sbase, fun heven => ?_, ?_⟩
  · rw [State.reg_congr htregs, State.reg_editedByte, if_neg (pairLow_ne heven).symm, if_pos rfl]
  · have hhigh : (s.editFirstByte r disp).withAddrField ((s.editFirstByte r disp).reg r) (s.editWorkAfter r disp).sbase =
        s.withAddrField (s.reg r) (s.editWorkAfter r disp).sbase :=
      s.withAddrField_reg_editMark (s.editEffect r disp).mark r _
    rw [hports, hdone.psd, State.editWriteBack_ports, hhigh, State.reg_congr (htregs.trans hregs)]
    rfl

/-- The state bits, read back from the condition code that holds them (R203). -/
theorem ccBit_append (right sig nz neg : Bool) :
    ccBit (BitVec.ofBool right ++ BitVec.ofBool sig ++ BitVec.ofBool nz ++ BitVec.ofBool neg) 1 = right ∧
      ccBit (BitVec.ofBool right ++ BitVec.ofBool sig ++ BitVec.ofBool nz ++ BitVec.ofBool neg) 2 = sig ∧
      ccBit (BitVec.ofBool right ++ BitVec.ofBool sig ++ BitVec.ofBool nz ++ BitVec.ofBool neg) 3 = nz ∧
      ccBit (BitVec.ofBool right ++ BitVec.ofBool sig ++ BitVec.ofBool nz ++ BitVec.ofBool neg) 4 = neg := by
  revert right sig nz neg
  decide

theorem State.addrField_congr {s t : State} (h : t.config = s.config) (w : Word) : t.addrField w = s.addrField w :=
  State.wrap_congr h _

/-- Presented at the state that the byte leaves, EBS starts with the work that was left (R even; R203, R207). -/
theorem State.editWork_editedByte {r : RegNum} (heven : r.toNat % 2 = 0) (s : State) (disp : Int) :
    (s.editedByte r disp).editWork r = s.editWorkAfter r disp := by
  have hconfig := s.editedByte_config r disp
  have hhigh : (s.editedByte r disp).reg r = s.withAddrField (s.reg r) (s.editWorkAfter r disp).sbase := by
    rw [State.reg_editedByte, if_neg (pairLow_ne heven).symm, if_pos rfl]
  have hlow : (s.editedByte r disp).reg (pairLow r) =
      withTopByte (s.withAddrField (s.reg (pairLow r)) (s.editWorkAfter r disp).dst) (BitVec.ofNat 8 (s.editWorkAfter r disp).count) := by
    rw [State.reg_editedByte, if_pos rfl]
  have hsbase : (s.editedByte r disp).editBase r = (s.editWorkAfter r disp).sbase := by
    change (s.editedByte r disp).addrField ((s.editedByte r disp).reg r) = _
    rw [State.addrField_congr hconfig, hhigh, State.addrField_withAddrField]
    exact Nat.mod_eq_of_lt (s.editWorkAfter_sbase_lt r disp)
  have hdst : (s.editedByte r disp).editDst r = (s.editWorkAfter r disp).dst := by
    change (s.editedByte r disp).addrField ((s.editedByte r disp).reg (pairLow r)) = _
    rw [State.addrField_congr hconfig, hlow, State.addrField_withTopByte, State.addrField_withAddrField]
    exact Nat.mod_eq_of_lt (s.editWorkAfter_dst_lt r disp)
  have hcount : (s.editedByte r disp).editCount r = (s.editWorkAfter r disp).count := by
    have hlt : (s.editWorkAfter r disp).count < 256 := (Nat.sub_le _ _).trans_lt (s.editCount_lt r)
    change ((s.editedByte r disp).reg (pairLow r)).toNat / 2 ^ 24 = _
    rw [← topByte_toNat, hlow, topByte_withTopByte, BitVec.toNat_ofNat, Nat.mod_eq_of_lt hlt]
  obtain ⟨hright, hsig, hnz, hneg⟩ := ccBit_append (s.editEffect r disp).right (s.editEffect r disp).sig (s.editEffect r disp).nz
    (s.editEffect r disp).neg
  have hcc : (s.editedByte r disp).psd.cc = BitVec.ofBool (s.editEffect r disp).right ++ BitVec.ofBool (s.editEffect r disp).sig ++
      BitVec.ofBool (s.editEffect r disp).nz ++ BitVec.ofBool (s.editEffect r disp).neg := rfl
  rw [State.editWork, hsbase, hdst, hcount, hcc, hright, hsig, hnz, hneg]
  rfl

/-- The fill character stays (R203). -/
theorem State.editFill_editedByte {r : RegNum} (heven : r.toNat % 2 = 0) (s : State) (disp : Int) :
    (s.editedByte r disp).editFill r = s.editFill r := by
  rw [← State.topByte_reg, ← State.topByte_reg, State.reg_editedByte, if_neg (pairLow_ne heven).symm, if_pos rfl,
    State.topByte_withAddrField]

/-- The loop after the first byte, and the loop of EBS presented at the state that byte leaves, start from states that EBS's loop does
not tell apart (R even; R206, R207). -/
theorem sameLoop_editFirstByte {r : RegNum} (heven : r.toNat % 2 = 0) (s : State) (disp : Int) :
    SameLoop r (((s.editByteEvents r disp).filter PortEvent.isMemory).reverse ++ s.ports.filter PortEvent.isMemory)
      (s.ports.filter PortEvent.isMemory) (s.editFirstByte r disp) ((s.editedByte r disp).editReads r) where
  rest := ⟨(s.editedByte r disp).regs, (s.editedByte r disp).psd.cc, ((s.editedByte r disp).editReads r).ports,
    congrArg (fun u : State => { u with ports := ((s.editedByte r disp).editReads r).ports }) (s.editedByte_eq r disp)⟩
  regs := .of_editWriteBack (s := s.editFirstByte r disp) heven
    ((State.editReads_config _ r).trans (s.editedByte_config r disp))
    ((State.editReads_regs _ r).trans (s.editFirstByte_regs r disp))
  accesses := by
    refine ⟨[], ?_, ?_⟩
    · rw [State.editFirstByte, List.nil_append, List.filter_append, List.filter_reverse]
      rfl
    · rw [State.editReads, State.editedByte_ports]
      rfl

/-- Settles O47: the rest of the loop does not tell apart the state the byte leaves inside it and the state EBS has reached. -/
theorem editIsByteSerial : Obligations.EditIsByteSerial := by
  intro r disp s heven hp hcount hvalid
  obtain ⟨n, hn⟩ := Nat.exists_eq_succ_of_ne_zero hcount
  have hwork := s.editWork_editedByte heven disp
  have hleft : (s.editedByte r disp).editCount r = n :=
    (congrArg EditWork.count hwork).trans (by rw [State.editWorkAfter_count, hn, Nat.succ_sub_one])
  have hfirst := execEbs_of_passes hp hvalid hn
  have hrest := execEbs_editReads r disp (s.editedByte r disp)
  rw [hwork, s.editFill_editedByte heven, hleft] at hrest
  dsimp only at hfirst hrest
  obtain ⟨hout, hreport⟩ := (SameLoop.unseen r _ _).editLoop (sameLoop_editFirstByte heven s disp) (s.editFill r) disp n
    (s.editWorkAfter r disp)
  rw [hreport] at hrest
  generalize State.editLoop (s.editFill r) disp n (s.editFirstByte r disp) (s.editWorkAfter r disp) = out at hfirst hrest hout
  obtain ⟨t, u, ht, hu, hsame, made, hmade, hmade'⟩ := hout.editFinish out.2.1 s.psd.dm out.2.2
  have ht' : exec (.ebs r disp) s = .next t := hfirst.trans ht
  have hu' : exec (.ebs r disp) (s.editedByte r disp) = .next u := hrest.trans hu
  refine ⟨?_, t, u, made, ht', hu', hmade', hmade⟩
  rw [ht', hu']
  exact hsame

end Sys2Proof.Machine
end

