-- ==== Sys2Proof/Proofs/Encoding.lean ====
section
/-! The decoder against the encoder and against the opcode table; what a command's ignored fields and ports are to its instruction. -/

namespace Sys2Proof

/-! ## Decoding what was encoded -/

/-- A format-M word's fields, applied to a constructor, are those it was written with (R72). -/
theorem formatM_wordM (mk : Bool → BitVec 4 → BitVec 3 → BitVec 17 → Instr) (op : BitVec 7) (ind : Bool) (rl : BitVec 4)
    (x : BitVec 3) (addr : BitVec 17) : formatM mk (wordM op ind rl x addr) = mk ind rl x addr := by
  rw [formatM, fieldI_wordM, fieldRL_wordM, fieldX_wordM, fieldAddr_wordM]

theorem Instr.wellFormed_ebs_iff (r : RegNum) (disp : Int) :
    (Instr.ebs r disp).wellFormed = true ↔ -524288 ≤ disp ∧ disp ≤ 524287 := by
  rw [Instr.wellFormed, Bool.and_eq_true, decide_eq_true_iff, decide_eq_true_iff]

/-- Settles O1: the operation code selects the row, and each field is read where it was written. -/
theorem decodeReadsBackEncodedInstruction : Obligations.DecodeReadsBackEncodedInstruction := by
  intro i hwf
  cases i with
  | ebs r disp =>
    obtain ⟨hlow, hhigh⟩ := (Instr.wellFormed_ebs_iff r disp).mp hwf
    rw [encode, decode, fieldOp_wordD, fieldI_wordD, fieldRL_wordD, fieldDisp_wordD _ _ _ hlow hhigh]
    rfl
  | _ =>
    rw [encode, decode, fieldOp_wordM]
    exact congrArg Except.ok (formatM_wordM _ _ _ _ _ _)

/-! ## Everything decoding can come to -/

/-- The operation codes of the opcode table (R78). -/
def listedCodes : List Nat :=
  [0x1C, 0x1D, 0x1E, 0x1F, 0x3C, 0x3D, 0x3E, 0x3F, 0x63, 0x76, 0x77, 0x78, 0x79, 0x7A, 0x7B, 0x7C, 0x7D, 0x7E, 0x7F]

/-- A word spells an instruction: its operation code is listed, and bit 31 is clear where the code is EBS's (R73, R83). -/
def Spells (cw : Word) : Prop := (fieldOp cw).toNat ∈ listedCodes ∧ ((fieldOp cw).toNat = 0x63 → fieldI cw = false)

/-- EBS's displacement field holds a displacement in range (R77). -/
theorem wellFormed_ebs_fieldDisp (r : RegNum) (cw : Word) : (Instr.ebs r (fieldDisp cw)).wellFormed = true := by
  have hlow := BitVec.le_toInt (cw.extractLsb' 0 20)
  have hhigh := BitVec.toInt_lt (x := cw.extractLsb' 0 20)
  refine (Instr.wellFormed_ebs_iff r _).mpr ⟨?_, ?_⟩ <;> rw [fieldDisp] <;> omega

/-- A word with the operation code of a format-M row is what the row's constructor, applied to the word's fields, is encoded as. -/
theorem encode_formatM_fields {cw : Word} {op : Nat} {mk : Bool → BitVec 4 → BitVec 3 → BitVec 17 → Instr} (hop : (fieldOp cw).toNat = op)
    (hmk : ∀ ind rl x addr, (mk ind rl x addr).wellFormed = true ∧ encode (mk ind rl x addr) = wordM (BitVec.ofNat 7 op) ind rl x addr)
    (hlisted : op ∈ listedCodes ∧ op ≠ 0x63) :
    (formatM mk cw).wellFormed = true ∧ encode (formatM mk cw) = cw ∧ Spells cw := by
  obtain ⟨hwf, hencode⟩ := hmk (fieldI cw) (fieldRL cw) (fieldX cw) (fieldAddr cw)
  have hcode : BitVec.ofNat 7 op = fieldOp cw := by rw [← hop, BitVec.ofNat_toNat, BitVec.setWidth_eq]
  refine ⟨hwf, ?_, hop ▸ hlisted.1, fun h => absurd (hop.symm.trans h) hlisted.2⟩
  rw [formatM, hencode, hcode, wordM_fields]

/-- A word decodes to a well-formed instruction whose encoding it is, and then it spells one; or it is refused, and then it spells
none. -/
theorem decode_cases (cw : Word) :
    (∃ i, decode cw = .ok i ∧ i.wellFormed = true ∧ encode i = cw ∧ Spells cw) ∨ ((∃ why, decode cw = .error why) ∧ ¬ Spells cw) := by
  rw [decode]
  split
  case h_9 hop => -- EBS's operation code
    by_cases hbit : fieldI cw = true
    · rw [if_pos hbit]
      exact .inr ⟨⟨_, rfl⟩, fun hspells => Bool.noConfusion (hbit.symm.trans (hspells.2 hop))⟩
    · rw [if_neg hbit]
      rw [Bool.not_eq_true] at hbit
      have hcode : fieldOp cw = 0x63 := BitVec.eq_of_toNat_eq hop
      refine .inl ⟨_, rfl, wellFormed_ebs_fieldDisp _ cw, ?_, ?_, fun _ => hbit⟩
      · rw [encode, ← hcode, wordD_fields cw hbit]
      · rw [hop]
        decide
  case h_20 => -- an operation code of no row
    refine .inr ⟨⟨_, rfl⟩, fun hspells => ?_⟩
    have hlisted := hspells.1
    simp only [listedCodes, List.mem_cons, List.not_mem_nil, or_false] at hlisted
    tauto
  -- the rows of format M
  all_goals exact .inl ⟨_, rfl, encode_formatM_fields ‹_› (fun _ _ _ _ => ⟨rfl, rfl⟩) (by decide)⟩

/-- Settles O2: of what decoding can come to, only the first case answers an instruction. -/
theorem encodeRestoresDecodedWord : Obligations.EncodeRestoresDecodedWord := by
  intro cw i hdecode
  obtain ⟨j, hj, hwf, hencode, -⟩ | ⟨⟨why, hwhy⟩, -⟩ := decode_cases cw
  · obtain rfl : j = i := Except.ok.inj (hj.symm.trans hdecode)
    exact ⟨hwf, hencode⟩
  · exact nomatch hwhy.symm.trans hdecode

theorem decode_error_iff (cw : Word) : (∃ why, decode cw = .error why) ↔ ¬ Spells cw := by
  obtain ⟨i, hi, -, -, hspells⟩ | ⟨herror, hnot⟩ := decode_cases cw
  · exact ⟨fun ⟨why, hwhy⟩ => (nomatch hwhy.symm.trans hi), fun hnot => absurd hspells hnot⟩
  · exact ⟨fun _ => hnot, fun _ => herror⟩

/-- Settles O4: the words refused are those that spell nothing. -/
theorem decodeRefusesExactlyUnlistedCodes : Obligations.DecodeRefusesExactlyUnlistedCodes := by
  intro cw
  rw [decode_error_iff, Spells, not_and_or, Classical.not_imp, Bool.not_eq_false]
  rfl

/-! ## The opcode table -/

/-- Every row's mask covers the operation code (R78). -/
theorem Instr.fieldOp_mask (i : Instr) : fieldOp i.row.2 = BitVec.allOnes 7 := by
  cases i <;> rw [Instr.row] <;> rfl

/-- A word that agrees with a row has the row's operation code. -/
theorem fieldOp_of_agrees {cw : Word} {i : Instr} (h : cw &&& i.row.2 = i.row.1) : fieldOp cw = fieldOp i.row.1 := by
  have hand : fieldOp (cw &&& i.row.2) = fieldOp cw &&& fieldOp i.row.2 := BitVec.extractLsb'_and
  rw [← h, hand, i.fieldOp_mask, BitVec.and_allOnes]

/-- A word that agrees with EBS's row has bit 31 clear (R73). -/
theorem fieldI_of_agrees_ebs {cw : Word} {r : RegNum} {disp : Int} (h : cw &&& (Instr.ebs r disp).row.2 = (Instr.ebs r disp).row.1) :
    fieldI cw = false := by
  have hbit : (cw &&& (0xFF000000 : Word)).getLsbD 31 = (0x63000000 : Word).getLsbD 31 := congrArg (·.getLsbD 31) h
  rw [BitVec.getLsbD_and] at hbit
  exact (Bool.and_true _).symm.trans hbit

/-- A word that agrees with a row decodes to an instruction of the row. -/
theorem decode_of_agrees {cw : Word} {i : Instr} (h : cw &&& i.row.2 = i.row.1) : ∃ j, decode cw = .ok j ∧ j.row = i.row := by
  have hop := fieldOp_of_agrees h
  cases i with
  | ebs r disp =>
    rw [Instr.row] at hop
    rw [decode, hop, fieldI_of_agrees_ebs h]
    exact ⟨.ebs (fieldRL cw) (fieldDisp cw), rfl, rfl⟩
  | _ =>
    rw [Instr.row] at hop
    rw [decode, hop]
    exact ⟨formatM _ cw, rfl, rfl⟩

/-- The word that spells a well-formed instruction agrees with the instruction's row. -/
theorem encode_agrees {i : Instr} (hwf : i.wellFormed = true) : encode i &&& i.row.2 = i.row.1 := by
  cases i with
  | fsl => exact Laws.EncodeMatchesRow.fsl _ _ _ _ hwf
  | fal => exact Laws.EncodeMatchesRow.fal _ _ _ _ hwf
  | fdl => exact Laws.EncodeMatchesRow.fdl _ _ _ _ hwf
  | fml => exact Laws.EncodeMatchesRow.fml _ _ _ _ hwf
  | fss => exact Laws.EncodeMatchesRow.fss _ _ _ _ hwf
  | fas => exact Laws.EncodeMatchesRow.fas _ _ _ _ hwf
  | fds => exact Laws.EncodeMatchesRow.fds _ _ _ _ hwf
  | fms => exact Laws.EncodeMatchesRow.fms _ _ _ _ hwf
  | ebs => exact Laws.EncodeMatchesRow.ebs _ _ hwf
  | pack => exact Laws.EncodeMatchesRow.pack _ _ _ _ hwf
  | unpk => exact Laws.EncodeMatchesRow.unpk _ _ _ _ hwf
  | ds => exact Laws.EncodeMatchesRow.ds _ _ _ _ hwf
  | da => exact Laws.EncodeMatchesRow.da _ _ _ _ hwf
  | dd => exact Laws.EncodeMatchesRow.dd _ _ _ _ hwf
  | dm => exact Laws.EncodeMatchesRow.dm _ _ _ _ hwf
  | dsa => exact Laws.EncodeMatchesRow.dsa _ _ _ _ hwf
  | dc => exact Laws.EncodeMatchesRow.dc _ _ _ _ hwf
  | dl => exact Laws.EncodeMatchesRow.dl _ _ _ _ hwf
  | dst => exact Laws.EncodeMatchesRow.dst _ _ _ _ hwf

/-- Settles O3: a word that agrees has the row's operation code; a word that decodes is the encoding of what it decodes to, which
agrees. -/
theorem decodeFollowsMatchAndMask : Obligations.DecodeFollowsMatchAndMask := by
  refine ⟨fun cw i h => decode_of_agrees h, fun cw i hdecode => ?_⟩
  obtain ⟨hwf, hencode⟩ := encodeRestoresDecodedWord cw i hdecode
  rw [← hencode]
  exact encode_agrees hwf

/-- Settles O5, by evaluating the decoder. -/
theorem exampleWordsDecode : Obligations.ExampleWordsDecode := by
  unfold Obligations.ExampleWordsDecode
  decide

end Sys2Proof

namespace Sys2Proof.Machine

/-! ## Ignored fields and ports -/

/-- The arms of `exec` take only the fields that are not ignored (R81). -/
theorem exec_withoutIgnoredFields (i : Sys2Proof.Instr) (s : State) : exec i s = exec i.withoutIgnoredFields s := by
  cases i <;> rfl

/-- The second state is the first, with a given command on its port, changed to another. -/
def CommandChanged (old new : Command) (s t : State) : Prop := s.command = old ∧ t = { s with command := new }

/-- A change of the command that keeps what the instruction takes from the port is not seen. -/
theorem unseen_commandChanged {i : Sys2Proof.Instr} {old new : Command} (hea : i.usesEa = true → new.ea = old.ea)
    (hopnd : i.usesOpnd = true → new.opnd = old.opnd) : Unseen i (CommandChanged old new) where
  view := by
    rintro s _ ⟨rfl, rfl⟩
    exact ⟨rfl, rfl, rfl, hea, hopnd, rfl, fun _ => rfl, fun _ => rfl, fun _ _ => rfl⟩
  regRead := by rintro s _ ⟨hc, rfl⟩ k -; exact ⟨hc, rfl⟩
  psdRead := by rintro s _ ⟨hc, rfl⟩; exact ⟨hc, rfl⟩
  memRead := by rintro s _ ⟨hc, rfl⟩ a n; exact ⟨hc, rfl⟩
  memWrite := by rintro s _ ⟨hc, rfl⟩ a bytes; exact ⟨hc, rfl⟩
  writeReg := by rintro s _ ⟨hc, rfl⟩ k - v; exact ⟨hc, rfl⟩
  editMark := by
    rintro s _ ⟨hc, rfl⟩ - mark
    cases mark with
    | none => exact ⟨hc, rfl⟩
    | some a => exact ⟨hc, rfl⟩
  writeCC := by rintro s _ ⟨hc, rfl⟩ cc; exact ⟨hc, rfl⟩
  postTrap := by rintro s _ ⟨hc, rfl⟩ a; exact ⟨hc, rfl⟩
  report := by rintro s _ ⟨hc, rfl⟩ c; exact ⟨hc, rfl⟩

/-- An instruction that takes the effective address is neither DSA nor EBS. -/
theorem ne_of_usesEa {i : Sys2Proof.Instr} (h : i.usesEa = true) :
    (∀ ind rl x addr, i ≠ .dsa ind rl x addr) ∧ ∀ r disp, i ≠ .ebs r disp :=
  ⟨(by rintro ind rl x addr rfl; cases h), (by rintro r disp rfl; cases h)⟩

/-- An instruction that takes OPND is an indirect DSA. -/
theorem eq_dsa_of_usesOpnd {i : Sys2Proof.Instr} (h : i.usesOpnd = true) : ∃ rl x addr, i = .dsa true rl x addr := by
  cases i with
  | dsa ind rl x addr =>
    obtain rfl : ind = true := h
    exact ⟨rl, x, addr, rfl⟩
  | _ => cases h

/-- Settles O6: the arms of `exec` for the fields, and for the ports a change of the command that is not seen. -/
theorem ignoredCommandFieldsDoNotMatter : Obligations.IgnoredCommandFieldsDoNotMatter := by
  refine ⟨exec_withoutIgnoredFields, fun i s c hea hopnd => ?_⟩
  have hunseen : Unseen i (CommandChanged s.command c) :=
    unseen_commandChanged (fun h => hea (ne_of_usesEa h).1 (ne_of_usesEa h).2) fun h => hopnd (eq_dsa_of_usesOpnd h)
  exact (exec_unseen hunseen ⟨rfl, rfl⟩).eq_mapNext fun _ _ h => h.2

/-! ## The refusal -/

/-- Settles O8: the tests of a step, each decided by a hypothesis. -/
theorem undecodableCommandIsRefused : Obligations.UndecodableCommandIsRefused := by
  intro s c rest why hrunning hprogram hidle hdecode
  simp only [step, hrunning, hprogram, hidle, hdecode, if_true, reduceCtorEq, if_false]

end Sys2Proof.Machine
end

