-- ==== Sys2Proof/Proofs/WideInt.lean ====
section
/-! The wide-integer primitives (R103 to R117): each value, read as the rule reads it, and each flag. -/

namespace Sys2Proof.Machine

namespace W

/-! ## The ends of the signed range -/

/-- The least signed value is the string with the top bit alone. -/
theorem toInt_eq_least_iff (a : W128) : a.toInt = -(2 ^ 127) ↔ a = BitVec.intMin 128 := by
  have hleast : (BitVec.intMin 128).toInt = -(2 ^ 127) := by decide
  rw [← hleast, BitVec.toInt_inj]

/-- The signed value -1 is the string of ones. -/
theorem toInt_eq_neg_one_iff (a : W128) : a.toInt = -1 ↔ a = -1#128 := by
  have hones : (-1#128).toInt = -1 := by decide
  rw [← hones, BitVec.toInt_inj]

theorem outOfSigned_eq_false_iff (v : Int) : outOfSigned v = false ↔ -(2 ^ 127) ≤ v ∧ v ≤ 2 ^ 127 - 1 := by
  simp [outOfSigned]

/-- The signed overflow flag is clear exactly where the wrapped value is the true one. -/
theorem outOfSigned_eq_false_iff_bmod (v : Int) : outOfSigned v = false ↔ v.bmod (2 ^ 128) = v := by
  rw [outOfSigned_eq_false_iff, Int.bmod_eq_iff (by decide)]
  omega

/-! ## Division -/

/-- No quotient by a zero divisor (R116). -/
theorem div_by_zero_eq_none (a : W128) : divU a 0 = none ∧ divS a 0 = none := ⟨rfl, rfl⟩

theorem divU_of_ne_zero (a : W128) {b : W128} (h : b ≠ 0) :
    divU a b = some { quotient := a / b, remainder := a % b, ovf := false } := if_neg h

theorem divS_of_ne_zero (a : W128) {b : W128} (h : b ≠ 0) :
    divS a b = some { quotient := a.sdiv b, remainder := a.srem b
                      ovf := decide (a.toInt = -(2 ^ 127)) && decide (b.toInt = -1) } := if_neg h

/-- The overflow flag of W.DIVS is set in the single case of R115. -/
theorem divS_ovf_iff {a b : W128} {e : DivResult} (h : divS a b = some e) :
    e.ovf = true ↔ a.toInt = -(2 ^ 127) ∧ b.toInt = -1 := by
  have hb : b ≠ 0 := by rintro rfl; cases h
  rw [divS_of_ne_zero a hb] at h
  obtain rfl := Option.some.inj h
  rw [Bool.and_eq_true, decide_eq_true_iff, decide_eq_true_iff]

/-- The signed quotient that fits is the one chopped toward zero. -/
theorem toInt_sdiv_of_fits {a b : W128} (h : ¬ (a.toInt = -(2 ^ 127) ∧ b.toInt = -1)) :
    (a.sdiv b).toInt = a.toInt.tdiv b.toInt := by
  rw [toInt_eq_least_iff, toInt_eq_neg_one_iff, not_and_or] at h
  exact BitVec.toInt_sdiv_of_ne_or_ne a b h

/-- The one overflow of W.DIVS leaves the dividend and 0. -/
theorem sdiv_srem_of_overflow {a b : W128} (ha : a.toInt = -(2 ^ 127)) (hb : b.toInt = -1) :
    a.sdiv b = a ∧ a.srem b = 0 := by
  have hrem : (a.srem b).toInt = (0 : W128).toInt := by
    rw [BitVec.toInt_srem, ha, hb]
    rfl
  rw [toInt_eq_least_iff] at ha
  rw [toInt_eq_neg_one_iff] at hb
  refine ⟨?_, BitVec.toInt_inj.mp hrem⟩
  rw [ha, hb, BitVec.intMin_sdiv_neg_one]

/-- The remainder of W.DIVS is smaller in magnitude than the divisor. -/
theorem natAbs_toInt_srem_lt (a : W128) {b : W128} (h : b ≠ 0) : (a.srem b).toInt.natAbs < b.toInt.natAbs := by
  have hb : b.toInt ≠ 0 := fun hzero => h (BitVec.toInt_inj.mp hzero)
  rw [BitVec.toInt_srem, Int.natAbs_tmod]
  exact Nat.mod_lt _ (Int.natAbs_pos.mpr hb)

/-- The remainder of W.DIVS is zero or has the dividend's sign. -/
theorem toInt_srem_eq_zero_or_sign_eq (a b : W128) :
    (a.srem b).toInt = 0 ∨ (a.srem b).toInt.sign = a.toInt.sign := by
  rw [BitVec.toInt_srem]
  by_cases h : b.toInt ∣ a.toInt
  · exact .inl (Int.tmod_eq_zero_of_dvd h)
  · exact .inr (by rw [Int.sign_tmod, if_neg h])

end W

/-- Settles O43: the zero divisor, the unsigned division, and the signed one with its overflow apart. -/
theorem wideDivision : Obligations.WideDivision := by
  intro a b
  refine ⟨fun hb => hb ▸ W.div_by_zero_eq_none a, fun hb => ?_⟩
  have hovf := W.divS_ovf_iff (W.divS_of_ne_zero a hb)
  refine ⟨_, _, W.divU_of_ne_zero a hb, W.divS_of_ne_zero a hb, BitVec.toNat_udiv, BitVec.toNat_umod, rfl,
    fun hfits => ?_, fun hover => ?_⟩
  · have hquotient := W.toInt_sdiv_of_fits hfits
    have hremainder : (a.srem b).toInt = a.toInt - (a.sdiv b).toInt * b.toInt := by
      rw [hquotient, BitVec.toInt_srem, Int.tmod_def, Int.mul_comm]
    exact ⟨hquotient, hremainder, W.natAbs_toInt_srem_lt a hb, W.toInt_srem_eq_zero_or_sign_eq a b,
      Bool.eq_false_iff.mpr (mt hovf.mp hfits)⟩
  · obtain ⟨hquotient, hremainder⟩ := W.sdiv_srem_of_overflow hover.1 hover.2
    exact ⟨hquotient, hremainder, hovf.mpr hover⟩

namespace W

/-! ## Conversions and tests -/

theorem fromU64_toNat (v : BitVec 64) : (fromU64 v).toNat = v.toNat := BitVec.toNat_setWidth_of_le (by decide)

/-- A zero-extended string is not negative (R103). -/
theorem fromU64_toInt (v : BitVec 64) : (fromU64 v).toInt = (v.toNat : Int) := by
  have hv := v.isLt
  rw [BitVec.toInt_eq_toNat_of_lt (by rw [fromU64_toNat]; omega), fromU64_toNat]

theorem fromS64_toInt (v : BitVec 64) : (fromS64 v).toInt = v.toInt := BitVec.toInt_signExtend_of_le (by decide)

theorem toU64_toNat (a : W128) : (toU64 a).1.toNat = a.toNat % 2 ^ 64 := by
  rw [toU64, BitVec.extractLsb'_toNat, Nat.shiftRight_zero]

/-- W.TOU64's flag: a bit above the low 64 is set where the high half, the quotient by `2^64`, is not zero (R105). -/
theorem toU64_ovf_iff (a : W128) : (toU64 a).2 = true ↔ 2 ^ 64 ≤ a.toNat := by
  have hhigh : (a.extractLsb' 64 64).toNat = a.toNat / 2 ^ 64 := by
    have ha := a.isLt
    rw [BitVec.extractLsb'_toNat, Nat.shiftRight_eq_div_pow]
    omega
  have hset : (toU64 a).2 = true ↔ a.toNat / 2 ^ 64 ≠ 0 := by
    rw [toU64, bne_iff_ne, ne_eq, ← BitVec.toNat_inj, hhigh]
    rfl
  rw [hset]
  omega

theorem isZero_iff (a : W128) : isZero a = true ↔ a.toNat = 0 := by
  rw [isZero, beq_iff_eq, ← BitVec.toNat_inj]
  rfl

theorem msb_iff_toInt_neg (a : W128) : a.msb = true ↔ a.toInt < 0 := by
  rw [BitVec.msb_eq_toInt, decide_eq_true_iff]

theorem isNeg_iff (a : W128) : isNeg a = true ↔ a.toInt < 0 := msb_iff_toInt_neg a

/-! ## Comparisons -/

/-- The two readings of a string differ by `2^128` where its top bit is set (R100). -/
theorem toNat_eq_toInt_add (a : W128) : (a.toNat : Int) = a.toInt + if a.msb then 2 ^ 128 else 0 := by
  rw [BitVec.toInt_eq_msb_cond]
  split <;> omega

/-- Strings with the same top bit are ordered alike by both readings. -/
theorem cmpU_eq_cmpS {a b : W128} (h : a.msb = b.msb) : cmpU a b = cmpS a b := by
  have ha := toNat_eq_toInt_add a
  have hb := toNat_eq_toInt_add b
  rw [h] at ha
  have hlt : a.toNat < b.toNat ↔ a.toInt < b.toInt := by omega
  have heq : a.toNat = b.toNat ↔ a.toInt = b.toInt := by omega
  have hgt : b.toNat < a.toNat ↔ b.toInt < a.toInt := by omega
  cases hcmp : cmpS a b with
  | lt => exact compare_lt_iff_lt.mpr (hlt.mpr (compare_lt_iff_lt.mp hcmp))
  | eq => exact compare_eq_iff_eq.mpr (heq.mpr (compare_eq_iff_eq.mp hcmp))
  | gt => exact compare_gt_iff_gt.mpr (hgt.mpr (compare_gt_iff_gt.mp hcmp))

/-- A string with the top bit set is above one without it unsigned, and below it signed. -/
theorem toNat_lt_and_toInt_lt_of_msb {a b : W128} (ha : a.msb = true) (hb : b.msb = false) :
    b.toNat < a.toNat ∧ a.toInt < b.toInt := by
  have hhigh : 2 ^ 127 ≤ a.toNat := BitVec.le_toNat_of_msb_true ha
  have hlow : b.toNat < 2 ^ 127 := BitVec.toNat_lt_of_msb_false hb
  have hneg : a.toInt < 0 := (msb_iff_toInt_neg a).mp ha
  have hnonneg : ¬ b.toInt < 0 := mt (msb_iff_toInt_neg b).mpr (Bool.eq_false_iff.mp hb)
  omega

/-- The two comparisons differ exactly where the top bits do (R117). -/
theorem cmpU_ne_cmpS_iff (a b : W128) : cmpU a b ≠ cmpS a b ↔ a.msb ≠ b.msb := by
  refine ⟨mt cmpU_eq_cmpS, fun hne => ?_⟩
  cases ha : a.msb with
  | true =>
    have hb : b.msb = false := by simpa [ha] using hne
    obtain ⟨hunsigned, hsigned⟩ := toNat_lt_and_toInt_lt_of_msb ha hb
    rw [cmpU, cmpS, compare_gt_iff_gt.mpr hunsigned, compare_lt_iff_lt.mpr hsigned]
    decide
  | false =>
    have hb : b.msb = true := by simpa [ha] using hne
    obtain ⟨hunsigned, hsigned⟩ := toNat_lt_and_toInt_lt_of_msb hb ha
    rw [cmpU, cmpS, compare_lt_iff_lt.mpr hunsigned, compare_gt_iff_gt.mpr hsigned]
    decide

/-! ## Sums, negate, magnitude -/

theorem add_toNat (a b : W128) : (add a b).value.toNat = (a.toNat + b.toNat) % 2 ^ 128 := BitVec.toNat_add a b

theorem add_carry_iff (a b : W128) : (add a b).carry = true ↔ 2 ^ 128 ≤ a.toNat + b.toNat := decide_eq_true_iff

theorem add_ovf_eq_false_iff (a b : W128) : (add a b).ovf = false ↔ (add a b).value.toInt = a.toInt + b.toInt := by
  rw [add, BitVec.toInt_add, outOfSigned_eq_false_iff_bmod]

theorem sub_toNat (a b : W128) : (sub a b).value.toNat = (2 ^ 128 + a.toNat - b.toNat) % 2 ^ 128 := by
  have hb := b.isLt
  rw [sub, BitVec.toNat_sub, Nat.sub_add_comm hb.le]

/-- W.SUB's carry is the borrow (R107). -/
theorem sub_carry_iff (a b : W128) : (sub a b).carry = true ↔ a.toNat < b.toNat := decide_eq_true_iff

theorem sub_ovf_eq_false_iff (a b : W128) : (sub a b).ovf = false ↔ (sub a b).value.toInt = a.toInt - b.toInt := by
  rw [sub, BitVec.toInt_sub, outOfSigned_eq_false_iff_bmod]

theorem neg_toNat (a : W128) : (neg a).value.toNat = (2 ^ 128 - a.toNat) % 2 ^ 128 := BitVec.toNat_neg a

theorem neg_ovf_iff (a : W128) : (neg a).ovf = true ↔ a.toInt = -(2 ^ 127) := decide_eq_true_iff

theorem abs_neg_iff (a : W128) : (abs a).2 = true ↔ a.toInt < 0 := msb_iff_toInt_neg a

/-! ## Products and the digit step -/

theorem mulU_toNat (a b : W128) : (mulU a b).value.toNat = a.toNat * b.toNat % 2 ^ 128 := BitVec.toNat_mul a b

theorem mulU_ovf_iff (a b : W128) : (mulU a b).ovf = true ↔ 2 ^ 128 ≤ a.toNat * b.toNat := decide_eq_true_iff

theorem mulS_ovf_eq_false_iff (a b : W128) : (mulS a b).ovf = false ↔ (mulS a b).value.toInt = a.toInt * b.toInt := by
  rw [mulS, BitVec.toInt_mul, outOfSigned_eq_false_iff_bmod]

theorem mul10add_ovf_iff (a : W128) (d : Nibble) : (mul10add a d).ovf = true ↔ 2 ^ 128 ≤ a.toNat * 10 + d.toNat :=
  decide_eq_true_iff

/-- A digit joined to a value of at most 30 digits makes one of one digit more, without overflow (R113). -/
theorem mul10add_of_lt {a : W128} {d : Nibble} (hd : d.toNat < 10) {k : Nat} (hk : k ≤ 30) (ha : a.toNat < 10 ^ k) :
    (mul10add a d).ovf = false ∧ (mul10add a d).value.toNat < 10 ^ (k + 1) := by
  have hsum : a.toNat * 10 + d.toNat < 10 ^ (k + 1) := by rw [pow_succ]; omega
  have hfits : a.toNat * 10 + d.toNat < 2 ^ 128 :=
    calc a.toNat * 10 + d.toNat < 10 ^ (k + 1) := hsum
      _ ≤ 10 ^ 31 := Nat.pow_le_pow_right (by decide) (by omega)
      _ < 2 ^ 128 := by decide
  refine ⟨Bool.eq_false_iff.mpr (mt (mul10add_ovf_iff a d).mp hfits.not_ge), ?_⟩
  rwa [mul10add_toNat, Nat.mod_eq_of_lt hfits]

end W

/-- Settles O44, from what each primitive's value and flags are. -/
theorem wideArithmeticWraps : Obligations.WideArithmeticWraps := by
  intro a b d v
  exact ⟨W.fromU64_toNat v, W.fromU64_toInt v, W.fromS64_toInt v, W.toU64_toNat a, W.toU64_ovf_iff a,
    W.isZero_iff a, W.isNeg_iff a,
    compare_lt_iff_lt, compare_eq_iff_eq, compare_gt_iff_gt, compare_lt_iff_lt, compare_eq_iff_eq, compare_gt_iff_gt,
    W.cmpU_ne_cmpS_iff a b,
    W.add_toNat a b, W.add_carry_iff a b, W.add_ovf_eq_false_iff a b,
    W.sub_toNat a b, W.sub_carry_iff a b, W.sub_ovf_eq_false_iff a b,
    W.neg_toNat a, W.neg_ovf_iff a, abs_toNat a, W.abs_neg_iff a,
    W.mulU_toNat a b, W.mulU_ovf_iff a b, rfl, W.mulS_ovf_eq_false_iff a b,
    fun hd => ⟨mul10add_toNat a d, W.mul10add_ovf_iff a d, fun _ hk ha => W.mul10add_of_lt hd hk ha⟩⟩

end Sys2Proof.Machine
end

