-- ==== Sys2Proof/Proofs/DecimalMask.lean ====
section
/-! The maskable decimal trap (R152): a decimal command ends with the trap call only where PSD.DM is 1. -/

namespace Sys2Proof.Machine

/-- A result that reports a trap call only where the mask is 1. -/
def TrapsOnlyIf (dm : Bool) (r : Result) : Prop := ∀ t a, r = .next t → t.completion = some (.trapped a) → dm = true

namespace TrapsOnlyIf

variable {s : State} {dm : Bool}

/-! ## Ends -/

theorem complete {c : Completion} (h : ∀ a, c ≠ .trapped a) : TrapsOnlyIf dm (s.complete c) := by
  rintro t a ⟨⟩ hc
  exact absurd (Option.some.inj hc) (h a)

theorem done : TrapsOnlyIf dm (s.complete .done) := complete nofun

theorem abort : TrapsOnlyIf dm s.abort := complete nofun

theorem finishDecimal (pair : BitVec 2) : TrapsOnlyIf dm (s.finishDecimal pair) := done

theorem decimalTrap : TrapsOnlyIf dm (s.decimalTrap dm) := by
  cases dm with
  | false => exact done
  | true => exact fun _ _ _ _ => rfl

theorem decimalEnd (cc : Psd → BitVec 4) : TrapsOnlyIf s.psd.dm (s.decimalEnd cc) := decimalTrap

theorem decimalFault (kind : DecimalFault) : TrapsOnlyIf s.psd.dm (s.decimalFault kind) := decimalEnd _

theorem setResult (v : Int) : TrapsOnlyIf s.psd.dm (s.setResult v) := by
  rw [State.setResult]
  split
  · exact decimalFault _
  · exact finishDecimal _

theorem storeResult (bytes : List Byte) (v : Int) : TrapsOnlyIf dm (s.storeResult bytes v) := by
  rw [State.storeResult_eq]
  split
  · exact finishDecimal _
  · exact abort

theorem editFinish (r : RegNum) (w : EditWork) (ending : EditEnding) : TrapsOnlyIf dm (s.editFinish r w dm ending) := by
  cases ending with
  | exhausted => exact done
  | invalidDigit => exact decimalTrap
  | trapPending => exact abort

/-! ## Operands -/

theorem checkOrFault {c : CheckResult} {r : Result} (h : TrapsOnlyIf s.psd.dm r) :
    TrapsOnlyIf s.psd.dm (if c.ok then r else s.decimalFault .invalidDigit) := by
  split
  · exact h
  · exact decimalFault _

theorem withOperand {m : Nat} {k : State → List Byte → Result} (hk : ∀ u bytes, TrapsOnlyIf u.psd.dm (k u bytes)) :
    TrapsOnlyIf s.psd.dm (s.withOperand m k) := by
  have hpsd := (Progress.readOperand (reads := []) (writes := []) s s.ea m).1.psd
  rw [State.withOperand_eq, ← hpsd]
  cases (s.readOperand s.ea m).2 with
  | none => exact abort
  | some bytes => exact hk _ bytes

theorem withPacked {l : BitVec 4} {k : State → W128 → Result} (hk : ∀ u m, TrapsOnlyIf u.psd.dm (k u m)) :
    TrapsOnlyIf s.psd.dm (s.withPacked l k) := withOperand fun _ _ => checkOrFault (hk _ _)

theorem withAcc {k : State → W128 → Result} (hk : ∀ u a, TrapsOnlyIf u.psd.dm (k u a)) : TrapsOnlyIf s.psd.dm (s.withAcc k) := by
  rw [State.withAcc_eq]
  exact checkOrFault (s := s.afterDeca) (hk _ _)

/-! ## Instructions -/

/-- The common rule of DST and UNPK: check the accumulator, test its size, store an image of it. -/
theorem storeImage (z : Nat) (image : W128 → List Byte) : TrapsOnlyIf s.psd.dm
    (s.withAcc fun u v => if 10 ^ z ≤ v.toInt.natAbs then u.decimalFault .overflow else u.storeResult (image v) v.toInt) := by
  refine withAcc fun u v => ?_
  split
  · exact decimalFault _
  · exact storeResult _ _

theorem execDl (l : BitVec 4) : TrapsOnlyIf s.psd.dm (execDl l s) := withPacked fun _ _ => setResult _

theorem execDst (l : BitVec 4) : TrapsOnlyIf s.psd.dm (execDst l s) := storeImage _ _

theorem execDa (l : BitVec 4) : TrapsOnlyIf s.psd.dm (execDa l s) := withPacked fun _ _ => withAcc fun _ _ => setResult _

theorem execDs (l : BitVec 4) : TrapsOnlyIf s.psd.dm (execDs l s) := withPacked fun _ _ => withAcc fun _ _ => setResult _

theorem execDc (l : BitVec 4) : TrapsOnlyIf s.psd.dm (execDc l s) := withPacked fun _ _ => withAcc fun _ _ => finishDecimal _

theorem execDm (l : BitVec 4) : TrapsOnlyIf s.psd.dm (execDm l s) := withPacked fun _ _ => withAcc fun _ _ => finishDecimal _

theorem execDd (l : BitVec 4) : TrapsOnlyIf s.psd.dm (execDd l s) := by
  refine withPacked fun u m => withAcc fun u a => ?_
  split
  · exact decimalFault _
  · obtain ⟨d, hd⟩ := divS_isSome (a := a) ‹_›
    rw [hd]
    dsimp only
    split
    · exact decimalFault _
    · exact finishDecimal _

theorem execDsa (ind : Bool) (x : BitVec 3) (addr : BitVec 17) : TrapsOnlyIf s.psd.dm (execDsa ind x addr s) := by
  have hpsd : (s.readIndex x).1.psd = s.psd := by
    rw [State.readIndex]
    split <;> rfl
  rw [← hpsd, Machine.execDsa]
  refine withAcc fun u a => ?_
  dsimp only
  split
  · exact decimalEnd (s := u.decSetLow31 _) _
  · exact finishDecimal _

theorem execPack (l : BitVec 4) : TrapsOnlyIf s.psd.dm (execPack l s) := withOperand fun _ _ => checkOrFault (setResult _)

theorem execUnpk (l : BitVec 4) : TrapsOnlyIf s.psd.dm (execUnpk l s) := storeImage _ _

theorem execEbs (r : RegNum) (disp : Int) : TrapsOnlyIf s.psd.dm (execEbs r disp s) := editFinish r _ _

/-- An instruction of the decimal unit calls the trap only where PSD.DM is 1 (R152, R282). -/
theorem exec {i : Sys2Proof.Instr} (hi : i.isFloat = false) : TrapsOnlyIf s.psd.dm (exec i s) := by
  cases i with
  | fsl | fal | fdl | fml | fss | fas | fds | fms => cases hi
  | ebs r disp => exact execEbs r disp
  | pack _ l => exact execPack l
  | unpk _ l => exact execUnpk l
  | ds _ l => exact execDs l
  | da _ l => exact execDa l
  | dd _ l => exact execDd l
  | dm _ l => exact execDm l
  | dsa ind _ x addr => exact execDsa ind x addr
  | dc _ l => exact execDc l
  | dl _ l => exact execDl l
  | dst _ l => exact execDst l

end TrapsOnlyIf

/-- Settles O21: of the endings of a command the one with the trap call asks for PSD.DM = 1. -/
theorem unarmedDecimalUnitNeverTraps : Obligations.UnarmedDecimalUnitNeverTraps := by
  intro i s t hi hdm ht
  obtain ⟨u, c, hend, rfl⟩ := ending_of_exec ht
  obtain ⟨hrecord, hreport⟩ | ⟨-, -, rfl⟩ := hend.trapRecord
  · exact ⟨hreport, hrecord⟩
  · have harmed := TrapsOnlyIf.exec hi _ _ ht rfl
    exact absurd (hdm.symm.trans harmed) Bool.false_ne_true

end Sys2Proof.Machine
end

