-- ==== Sys2Proof/Proofs/DecimalScan.lean ====
section
/-! The two scans of packed decimal strings (R136, R137) and the round trip of the accumulator (R143). -/

namespace Sys2Proof.Machine

/-! ## The fixed-length scan -/

/-- The sign codes that are plus and unsigned (R131). -/
theorem signUnsigned_iff (sg : Nibble) : signUnsigned sg = true ↔ sg.toNat ∈ [0xA, 0xE, 0xF] := by
  revert sg; decide

theorem signedNumber_isSome_iff (ds : List Nat) (sg : Nat) :
    (signedNumber ds sg).isSome = true ↔ (∀ d ∈ ds, d < 10) ∧ 10 ≤ sg := by
  rw [signedNumber]
  split <;> rename_i h
  · exact iff_of_true rfl h
  · exact iff_of_false Bool.false_ne_true h

/-- A packed string as the digits and the sign code that the fixed-length scan takes from it (R130, R136). -/
theorem packedNumber_eq_signedNumber (bytes : List Byte) :
    packedNumber bytes = signedNumber ((nibbles bytes).dropLast.map BitVec.toNat) ((nibbles bytes).getLastD 0).toNat := by
  obtain ⟨hdigits, hsign⟩ := map_dropLast_getLastD (nibbles bytes)
  rw [← hdigits, ← hsign]
  rfl

theorem decCheckFixed_ok_iff (bytes : List Byte) (requireSigned : Bool) :
    (decCheckFixed bytes requireSigned).ok = true ↔ (packedNumber bytes).isSome = true ∧
      ¬ (requireSigned = true ∧ ((nibbles bytes).getLastD 0).toNat ∈ [0xA, 0xE, 0xF]) := by
  rw [packedNumber_eq_signedNumber, signedNumber_isSome_iff, and_comm (a := requireSigned = true), ← signUnsigned_iff, and_assoc]
  exact checkSigned_ok_iff _ _ _

theorem decCheckFixed_of_ok {bytes : List Byte} {requireSigned : Bool} (hl : bytes.length ≤ 16)
    (h : (decCheckFixed bytes requireSigned).ok = true) :
    packedNumber bytes = some (decCheckFixed bytes requireSigned).value.toInt ∧
      ((decCheckFixed bytes requireSigned).unsigned = true ↔ ((nibbles bytes).getLastD 0).toNat ∈ [0xA, 0xE, 0xF]) := by
  have hdigits : (nibbles bytes).dropLast.length ≤ 38 := by
    rw [List.length_dropLast, nibbles_length]
    omega
  obtain ⟨hunsigned, hvalue⟩ := checkSigned_of_ok h hdigits
  rw [packedNumber_eq_signedNumber, ← signUnsigned_iff]
  exact ⟨hvalue, iff_of_eq (congrArg (· = true) hunsigned)⟩

/-- Settles O41. -/
theorem fixedScanReadsPackedNumber : Obligations.FixedScanReadsPackedNumber := by
  intro bytes requireSigned _ hl
  exact ⟨decCheckFixed_ok_iff bytes requireSigned, decCheckFixed_of_ok hl⟩

/-! ## A packed number followed by other bytes -/

/-- The nibbles of a packed number: digits, then a sign code (R130, R131). -/
theorem nibbles_of_packedNumber {bytes : List Byte} {v : Int} (h : packedNumber bytes = some v) :
    ∃ ds sg, nibbles bytes = ds ++ [sg] ∧ (∀ d ∈ ds.map BitVec.toNat, d < 10) ∧ 10 ≤ sg.toNat ∧
      signedNumber (ds.map BitVec.toNat) sg.toNat = some v := by
  rw [packedNumber_eq_signedNumber] at h
  have hform := (signedNumber_isSome_iff _ _).mp (Option.isSome_of_eq_some h)
  obtain hnil | ⟨ds, sg, hnibbles⟩ := List.eq_nil_or_concat (nibbles bytes)
  · rw [hnil] at hform
    exact absurd hform.2 (by decide)
  · rw [List.concat_eq_append] at hnibbles
    rw [hnibbles, List.dropLast_concat, List.getLastD_concat] at h hform
    exact ⟨ds, sg, hnibbles, hform.1, hform.2, h⟩

/-- A number followed by other bytes is no number, for its sign code stands where a digit must (R130). -/
theorem packedNumber_append_eq_none {hi lo : List Byte} {v : Int} (h : packedNumber hi = some v) (hlo : lo ≠ []) :
    packedNumber (hi ++ lo) = none := by
  obtain ⟨ds, sg, hnibbles, -, hsg, -⟩ := nibbles_of_packedNumber h
  have hrest : nibbles lo ≠ [] := fun hnil => hlo (by simpa [hnil, packNibbles] using (packNibbles_nibbles lo).symm)
  have hmem : sg ∈ (nibbles (hi ++ lo)).dropLast := by
    rw [nibbles_append, List.dropLast_append_of_ne_nil hrest, hnibbles]
    simp
  rw [packedNumber_eq_signedNumber, ← Option.not_isSome_iff_eq_none, signedNumber_isSome_iff]
  exact fun hform => (hform.1 _ (List.mem_map_of_mem hmem)).not_ge hsg

/-- The variable-length scan stops at the first sign code (R137). -/
theorem decCheckVariable_of_nibbles {bytes : List Byte} {ds rest : List Nibble} {sg : Nibble} (h : nibbles bytes = ds ++ sg :: rest)
    (hds : ∀ d ∈ ds.map BitVec.toNat, d < 10) (hsg : 10 ≤ sg.toNat) (requireSigned : Bool) :
    decCheckVariable bytes requireSigned = checkSigned ds sg requireSigned := by
  have hdigits : ∀ d ∈ ds, isDigit d = true := List.all_eq_true.mp ((all_isDigit_iff ds).mpr hds)
  have hsign : ¬ isDigit sg = true := by simpa [isDigit] using hsg
  simp only [decCheckVariable, h, List.dropWhile_append_of_pos hdigits, List.takeWhile_append_of_pos hdigits,
    List.dropWhile_cons_of_neg hsign, List.takeWhile_cons_of_neg hsign, List.head?_cons, List.append_nil]

/-- The variable-length scan of a number followed by other bytes reads the number alone (R137). -/
theorem decCheckVariable_append {hi : List Byte} {v : Int} (h : packedNumber hi = some v) (hl : hi.length ≤ 16) (lo : List Byte) :
    (decCheckVariable (hi ++ lo) false).ok = true ∧ (decCheckVariable (hi ++ lo) false).value.toInt = v := by
  obtain ⟨ds, sg, hnibbles, hds, hsg, hnumber⟩ := nibbles_of_packedNumber h
  have hlength : ds.length ≤ 38 := by
    have := congrArg List.length hnibbles
    rw [nibbles_length, List.length_append, List.length_singleton] at this
    omega
  have hscan : nibbles (hi ++ lo) = ds ++ sg :: nibbles lo := by rw [nibbles_append, hnibbles, List.append_assoc, List.singleton_append]
  have hok : (checkSigned ds sg false).ok = true := (checkSigned_ok_iff ds sg false).mpr ⟨hds, hsg, fun hc => Bool.false_ne_true hc.2⟩
  rw [decCheckVariable_of_nibbles hscan hds hsg]
  exact ⟨hok, Option.some.inj ((checkSigned_of_ok hok hlength).2.symm.trans hnumber)⟩

/-! ## DecSet, then CheckAcc -/

/-- A sign code the block generates is none of the unsigned ones (R131, R133). -/
theorem writtenSign_notMem_unsigned (v : Int) : writtenSign v ∉ [0xA, 0xE, 0xF] := by
  rw [writtenSign]
  split <;> decide

/-- CheckAcc reads what the accumulator holds in generated form, as a signed operand (R133, R140). -/
theorem checkAcc_of_holdsPacked {s : State} {v : Int} (h : HoldsPacked s.deca v) :
    s.checkAcc.ok = true ∧ s.checkAcc.unsigned = false ∧ s.checkAcc.value.toInt = v := by
  obtain ⟨hnumber, hsign⟩ := h
  have hok : s.checkAcc.ok = true :=
    (decCheckFixed_ok_iff s.deca decRequireSigned).mpr ⟨by rw [hnumber]; rfl, fun hc => Bool.false_ne_true hc.1⟩
  obtain ⟨hvalue, hunsigned⟩ := decCheckFixed_of_ok (s.deca_length.le) hok
  rw [hsign] at hunsigned
  exact ⟨hok, Bool.eq_false_iff.mpr (mt hunsigned.mp (writtenSign_notMem_unsigned v)),
    Option.some.inj (hvalue.symm.trans hnumber)⟩

/-- DecSet without suppression, of a 128-bit value: overflow from `10^31` on, else the value in generated form (R142). -/
theorem decSet_unsuppressed (s : State) {v : Int} (hv : v.natAbs < 2 ^ 127) :
    if 10 ^ 31 ≤ v.natAbs then s.decSet v false = none
    else ∃ t, s.decSet v false = some t ∧ HoldsPacked t.deca v := by
  have hset : s.decSet v false = (decImage (BitVec.ofInt 128 v)).map s.writeDeca := rfl
  split <;> rename_i hlarge
  · rw [hset, decImage_eq hv, if_pos hlarge]
    rfl
  · obtain ⟨bytes, himage, hlength, hholds⟩ := decImage_holdsPacked (Nat.lt_of_not_le hlarge)
    rw [hset, himage]
    refine ⟨s.writeDeca bytes, rfl, ?_⟩
    rwa [State.deca_writeDeca s bytes hlength]

/-- Settles O42: below `10^31`, and always with suppression, DecSet leaves a value in generated form, which CheckAcc reads. -/
theorem accumulatorSetAndCheckRoundTrip : Obligations.AccumulatorSetAndCheckRoundTrip := by
  intro s v
  refine ⟨fun hv => ?_, s.decSetLow31 v, rfl, checkAcc_of_holdsPacked (s.decSetLow31_spec v).1⟩
  have hset := decSet_unsuppressed s hv
  split at hset <;> rename_i hlarge
  · refine ⟨iff_of_true hset hlarge, fun t ht => ?_⟩
    rw [hset] at ht
    cases ht
  · obtain ⟨u, hu, hholds⟩ := hset
    refine ⟨iff_of_false (by simp [hu]) hlarge, fun t ht => ?_⟩
    obtain rfl := Option.some.inj (hu.symm.trans ht)
    exact checkAcc_of_holdsPacked hholds

end Sys2Proof.Machine
end

