-- ==== Sys2Proof/Proofs/DecimalDivide.lean ====
section
/-! DD where the quotient and the remainder fit (R181), and what DECA then is (R184). -/

namespace Sys2Proof.Machine

/-- A memory operand that is a number goes on. -/
theorem State.withPacked_of_some {s : State} {l : BitVec 4} {m : Int} (hp : s.passes (operandLength l))
    (h : packedNumber (s.bytesAt s.ea (operandLength l)) = some m) (k : State → W128 → Result) :
    ∃ v : W128, v.toInt = m ∧ s.withPacked l k = k (s.afterLoads s.ea (operandLength l)) v := by
  have hok : (decCheckFixed (s.bytesAt s.ea (operandLength l)) decRequireSigned).ok = true :=
    (decCheckFixed_ok_iff _ _).mpr ⟨Option.isSome_of_eq_some h, fun hc => Bool.false_ne_true hc.1⟩
  have hvalue := (decCheckFixed_of_ok (by simpa using operandLength_le l) hok).1
  exact ⟨_, Option.some.inj (hvalue.symm.trans h), by rw [State.withPacked_of_passes hp, h]; rfl⟩

/-- Eight bytes of fifteen digits and a generated sign, from a wide value that fits (R141, R181). -/
theorem digits_abs_holdsPacked {v : W128} (h : v.toInt.natAbs < 10 ^ 15) :
    (digits (W.toU64 (W.abs v).1).1 8 (some (generatedSign v.toInt))).length = 8 ∧
      HoldsPacked (digits (W.toU64 (W.abs v).1).1 8 (some (generatedSign v.toInt))) v.toInt := by
  have hmagnitude : (W.toU64 (W.abs v).1).1.toNat = v.toInt.natAbs := by
    rw [W.toU64_toNat, abs_toNat, Nat.mod_eq_of_lt (by omega)]
  simp only [digits, hmagnitude]
  exact ⟨packNibbles_length 8 _ (by simp), holdsPacked_packNibbles 7 v.toInt h⟩

/-- The wide division of a value of at most 31 digits: toward zero, with its remainder (R115). -/
theorem divS_of_natAbs_lt {a m : W128} (ha : a.toInt.natAbs < 10 ^ 31) (hm : m.toInt ≠ 0) :
    ∃ d, W.divS a m = some d ∧ d.quotient.toInt = a.toInt.tdiv m.toInt ∧ d.remainder.toInt = a.toInt.tmod m.toInt := by
  have hne : m ≠ 0 := by
    rintro rfl
    exact hm rfl
  exact ⟨_, W.divS_of_ne_zero a hne, W.toInt_sdiv_of_fits (by omega), BitVec.toInt_srem a m⟩

/-- DD of two numbers where quotient and remainder fit: the remainder goes into the first half of DECA, the quotient into the second
(R181). -/
theorem execDd_of_fits {s : State} {l : BitVec 4} {a m : Int} (hp : s.passes (operandLength l))
    (hm : packedNumber (s.bytesAt s.ea (operandLength l)) = some m) (ha : packedNumber s.deca = some a) (hzero : m ≠ 0)
    (hquotient : (a.tdiv m).natAbs < 10 ^ 15) (hremainder : (a.tmod m).natAbs < 10 ^ 15) :
    ∃ hi lo : List Byte, hi.length = 8 ∧ lo.length = 8 ∧ HoldsPacked hi (a.tmod m) ∧ HoldsPacked lo (a.tdiv m) ∧
      execDd l s =
        ((s.afterLoads s.ea (operandLength l)).afterDeca.writeDeca (hi ++ lo)).finishDecimal (signCC (a.tdiv m)) := by
  obtain ⟨mv, rfl, hpacked⟩ := State.withPacked_of_some hp hm _
  obtain ⟨hacc, rfl, hlt⟩ := State.withAcc_of_some (s := s.afterLoads s.ea (operandLength l)) ha _
  obtain ⟨d, hdiv, hq, hr⟩ := divS_of_natAbs_lt hlt hzero
  rw [← hq] at hquotient
  rw [← hr] at hremainder
  obtain ⟨hhi, hhiHolds⟩ := digits_abs_holdsPacked hremainder
  obtain ⟨hlo, hloHolds⟩ := digits_abs_holdsPacked hquotient
  rw [← hq, ← hr]
  refine ⟨_, _, hhi, hlo, hhiHolds, hloHolds, ?_⟩
  have hisZero : ¬ W.isZero mv = true := fun h => hzero (by rw [eq_of_beq h]; rfl)
  have hfits : ¬ (10 ^ 15 ≤ d.quotient.toInt.natAbs ∨ 10 ^ 15 ≤ d.remainder.toInt.natAbs) := by omega
  rw [execDd, hpacked, hacc, if_neg hisZero, hdiv]
  dsimp only
  rw [if_neg hfits, divisionImage]

/-- Settles O36: DECA is the remainder, a number, followed by the bytes of the quotient. -/
theorem accumulatorAfterDivideIsNoNumber : Obligations.AccumulatorAfterDivideIsNoNumber := by
  intro ind l x addr s t a m hp hm ha hzero hquotient hremainder ht
  obtain ⟨hi, lo, hhi, hlo, ⟨hnumber, -⟩, -, hexec⟩ := execDd_of_fits hp hm ha hzero hquotient hremainder
  obtain ⟨u, hu, hregs, -⟩ := ((s.afterLoads s.ea (operandLength l)).afterDeca.writeDeca (hi ++ lo)).finishDecimal_spec
    (signCC (a.tdiv m))
  obtain rfl : u = t := Host.Outcome.next.inj ((hexec.trans hu).symm.trans ht)
  have hdeca : u.deca = hi ++ lo := by
    rw [State.deca_congr hregs]
    exact State.deca_writeDeca _ _ (by rw [List.length_append, hhi, hlo])
  have hnone : packedNumber (hi ++ lo) = none := packedNumber_append_eq_none hnumber (List.ne_nil_of_length_eq_add_one hlo)
  have hbad : u.checkAcc.ok = false := by
    rw [← hdeca, packedNumber_deca] at hnone
    simpa using hnone
  rw [hdeca]
  exact ⟨hnone, hbad, decCheckVariable_append hnumber (by omega) lo⟩

end Sys2Proof.Machine
end

