-- ==== Sys2Proof/Proofs/DecimalArith.lean ====
section
/-! DL, DA, DS, DC (R160, R162 to R164): what a command that has only read can end in, and the frame of a rule
with one or two operands. -/

namespace Sys2Proof.Machine

/-! ## A command that so far has only read -/

/-- The state of a command that so far has made reads that passed: the same to the command's end, registers and memory untouched. -/
structure OnlyRead (s u : State) : Prop extends SameFront s u where
  regs : u.regs = s.regs
  mem : u.mem = s.mem

namespace OnlyRead

variable {s u w : State}

theorem refl (s : State) : OnlyRead s s := ⟨⟨rfl, rfl, rfl, rfl, rfl, rfl, rfl⟩, rfl, rfl⟩

theorem trans (h : OnlyRead s u) (k : OnlyRead u w) : OnlyRead s w where
  config := k.config.trans h.config
  command := k.command.trans h.command
  program := k.program.trans h.program
  presented := k.presented.trans h.presented
  psd := k.psd.trans h.psd
  trapFlag := k.trapFlag.trans h.trapFlag
  trapRecord := k.trapRecord.trans h.trapRecord
  regs := k.regs.trans h.regs
  mem := k.mem.trans h.mem

theorem afterLoads (s : State) (a n : Nat) : OnlyRead s (s.afterLoads a n) := ⟨s.sameFront_afterLoads a n, rfl, rfl⟩

theorem afterDeca (s : State) : OnlyRead s s.afterDeca := ⟨s.sameFront_ports _, rfl, rfl⟩

/-! What ends a command after its reads, seen from where it started. -/

theorem invalidDigit (h : OnlyRead s u) : ∃ t, u.decimalFault .invalidDigit = .next t ∧ FaultsInvalidDigit s t := by
  obtain ⟨t, ht, -, hregs, hmem, hends⟩ := u.decimalFault_invalidDigit_spec
  rw [h.psd] at hends
  exact ⟨t, ht, hregs.trans h.regs, hmem.trans h.mem, h.endsMaskable hends⟩

theorem faultsOverflow (h : OnlyRead s u) (k : FaultsOverflow u w) : FaultsOverflow s w := by
  obtain ⟨hregs, hmem, hends⟩ := k
  rw [h.psd] at hends
  exact ⟨hregs.trans h.regs, hmem.trans h.mem, h.endsMaskable hends⟩

theorem overflow (h : OnlyRead s u) : ∃ t, u.decimalFault .overflow = .next t ∧ FaultsOverflow s t := by
  obtain ⟨t, ht, -, hfaults⟩ := u.decimalFault_overflow_spec
  exact ⟨t, ht, h.faultsOverflow hfaults⟩

theorem setsAccumulator (h : OnlyRead s u) {v : Int} (k : SetsAccumulator u w v) : SetsAccumulator s w v := by
  obtain ⟨hholds, hkeeps, hmem, hends⟩ := k
  exact ⟨hholds, fun j hj => (hkeeps j hj).trans (State.reg_congr h.regs j), hmem.trans h.mem, h.endsDone hends⟩

theorem setResult (h : OnlyRead s u) {v : Int} (hv : v.natAbs < 2 ^ 127) :
    ∃ t, u.setResult v = .next t ∧ if 10 ^ 31 ≤ v.natAbs then FaultsOverflow s t else SetsAccumulator s t v := by
  obtain ⟨t, ht, -, hend⟩ := u.setResult_spec hv
  refine ⟨t, ht, ?_⟩
  split_ifs at hend ⊢
  · exact h.faultsOverflow hend
  · exact h.setsAccumulator hend

theorem finishDecimal (h : OnlyRead s u) (pair : BitVec 2) :
    ∃ t, u.finishDecimal pair = .next t ∧ t.regs = s.regs ∧ t.mem = s.mem ∧ EndsDone s t (decimalCC false pair) := by
  obtain ⟨t, ht, hregs, hmem, -, -, hends⟩ := u.finishDecimal_spec pair
  exact ⟨t, ht, hregs.trans h.regs, hmem.trans h.mem, h.endsDone hends⟩

end OnlyRead

/-! ## The operands -/

/-- The frame of a rule with a packed memory operand: the abort, InvalidDigit, or what the rule makes of the number (R139, R150). -/
theorem State.withPacked_ends (s : State) (l : BitVec 4) {k : State → W128 → Result} (Q : State → Int → Prop)
    (hk : ∀ u v, OnlyRead s u → v.toInt.natAbs < 10 ^ 31 → ∃ t, k u v = .next t ∧ Q t v.toInt) :
    ∃ t, s.withPacked l k = .next t ∧
      if s.passes (operandLength l) then
        match packedNumber (s.bytesAt s.ea (operandLength l)) with
        | none => FaultsInvalidDigit s t
        | some m => Q t m
      else AbortsUnchanged s t := by
  by_cases hp : s.passes (operandLength l)
  · have hread := OnlyRead.afterLoads s s.ea (operandLength l)
    simp only [if_pos hp]
    cases hm : packedNumber (s.bytesAt s.ea (operandLength l)) with
    | none =>
      rw [State.withPacked_of_passes hp, hm]
      exact hread.invalidDigit
    | some m =>
      have hlt : m.natAbs < 10 ^ 31 := by
        have hdigits := packedNumber_natAbs_lt hm
        have hlength := operandLength_le l
        rw [State.bytesAt_length] at hdigits
        exact hdigits.trans_le (Nat.pow_le_pow_right (by decide) (by omega))
      obtain ⟨v, rfl, hpacked⟩ := State.withPacked_of_some hp hm k
      rw [hpacked]
      exact hk _ v hread hlt
  · simp only [if_neg hp]
    exact State.withPacked_of_not_passes hp k

/-- The frame of a rule with the accumulator as operand: InvalidDigit, or what the rule makes of the number (R140, R150). -/
theorem OnlyRead.withAcc_ends {s u : State} (h : OnlyRead s u) {k : State → W128 → Result} (Q : State → Int → Prop)
    (hk : ∀ v, OnlyRead s u.afterDeca → v.toInt.natAbs < 10 ^ 31 → ∃ t, k u.afterDeca v = .next t ∧ Q t v.toInt) :
    ∃ t, u.withAcc k = .next t ∧
      match packedNumber s.deca with
      | none => FaultsInvalidDigit s t
      | some a => Q t a := by
  have hread : OnlyRead s u.afterDeca := h.trans (.afterDeca u)
  rw [← State.deca_congr h.regs]
  cases ha : packedNumber u.deca with
  | none =>
    rw [State.withAcc_of_none ha]
    exact hread.invalidDigit
  | some a =>
    obtain ⟨hacc, rfl, hlt⟩ := State.withAcc_of_some ha k
    rw [hacc]
    exact hk _ hread hlt

/-- The frame of a rule with two operands: the memory operand is checked, then the accumulator (R154, R162). -/
theorem State.withPacked_withAcc_ends (s : State) (l : BitVec 4) {k : State → W128 → W128 → Result} (Q : State → Int → Int → Prop)
    (hk : ∀ u m a, OnlyRead s u → m.toInt.natAbs < 10 ^ 31 → a.toInt.natAbs < 10 ^ 31 →
      ∃ t, k u m a = .next t ∧ Q t m.toInt a.toInt) :
    ∃ t, (s.withPacked l fun u m => u.withAcc fun u' a => k u' m a) = .next t ∧
      if s.passes (operandLength l) then
        match packedNumber (s.bytesAt s.ea (operandLength l)), packedNumber s.deca with
        | some m, some a => Q t m a
        | none, _ | some _, none => FaultsInvalidDigit s t
      else AbortsUnchanged s t := by
  obtain ⟨t, ht, hend⟩ := s.withPacked_ends l (k := fun u m => u.withAcc fun u' a => k u' m a)
    (fun t m => match packedNumber s.deca with | none => FaultsInvalidDigit s t | some a => Q t m a)
    fun u m hu hm => hu.withAcc_ends (fun t a => Q t m.toInt a) fun a hread ha =>
      hk u.afterDeca m a hread hm ha
  refine ⟨t, ht, ?_⟩
  split_ifs at hend ⊢
  · cases hm : packedNumber (s.bytesAt s.ea (operandLength l)) <;> rw [hm] at hend
    · exact hend
    · cases ha : packedNumber s.deca <;> rw [ha] at hend <;> exact hend
  · exact hend

/-! ## DL, DA, DS, DC -/

section

variable (ind : Bool) (l : BitVec 4) (x : BitVec 3) (addr : BitVec 17) (s : State)

theorem exec_dl : exec (.dl ind l x addr) s = s.withPacked l fun u m => u.setResult m.toInt := rfl

theorem exec_da : exec (.da ind l x addr) s =
    s.withPacked l fun u m => u.withAcc fun u' a => u'.setResult (W.add a m).value.toInt := rfl

theorem exec_ds : exec (.ds ind l x addr) s =
    s.withPacked l fun u m => u.withAcc fun u' a => u'.setResult (W.sub a m).value.toInt := rfl

theorem exec_dc : exec (.dc ind l x addr) s =
    s.withPacked l fun u m => u.withAcc fun u' a => u'.finishDecimal (compareCC (W.cmpS a m)) := rfl

end

/-- Settles O28: the operand of at most 31 digits always fits the accumulator. -/
theorem decimalLoad : Obligations.DecimalLoad := by
  refine ⟨fun cw h => by rw [decode, fieldOp_of_agrees (i := .dl false 0 0 0) h]; rfl, fun ind l x addr s => ?_⟩
  simp only [exec_dl]
  refine s.withPacked_ends l (SetsAccumulator s) fun u v hu hv => ?_
  obtain ⟨t, ht, hend⟩ := hu.setResult (v := v.toInt) (by omega)
  rw [if_neg (by omega)] at hend
  exact ⟨t, ht, hend⟩

/-- The sum of two values of at most 31 digits is exact in 128 bits (R106, R118). -/
theorem W.add_toInt_of_lt {a m : W128} (ha : a.toInt.natAbs < 10 ^ 31) (hm : m.toInt.natAbs < 10 ^ 31) :
    (W.add a m).value.toInt = a.toInt + m.toInt := by
  rw [← W.add_ovf_eq_false_iff]
  exact (W.outOfSigned_eq_false_iff _).mpr (by omega)

/-- The difference of two values of at most 31 digits is exact in 128 bits (R107, R118). -/
theorem W.sub_toInt_of_lt {a m : W128} (ha : a.toInt.natAbs < 10 ^ 31) (hm : m.toInt.natAbs < 10 ^ 31) :
    (W.sub a m).value.toInt = a.toInt - m.toInt := by
  rw [← W.sub_ovf_eq_false_iff]
  exact (W.outOfSigned_eq_false_iff _).mpr (by omega)

/-- Settles O30: the wide sum of two operands is exact, and goes where `setResult` puts it. -/
theorem decimalAdd : Obligations.DecimalAdd := by
  refine ⟨fun cw h => by rw [decode, fieldOp_of_agrees (i := .da false 0 0 0) h]; rfl, fun ind l x addr s => ?_⟩
  simp only [exec_da]
  refine s.withPacked_withAcc_ends l (fun t m a => if 10 ^ 31 ≤ (a + m).natAbs then FaultsOverflow s t else SetsAccumulator s t (a + m))
    fun u m a hu hm ha => ?_
  rw [W.add_toInt_of_lt ha hm]
  exact hu.setResult (by omega)

/-- Settles O31: as for DA, with the wide difference. -/
theorem decimalSubtract : Obligations.DecimalSubtract := by
  refine ⟨fun cw h => by rw [decode, fieldOp_of_agrees (i := .ds false 0 0 0) h]; rfl, fun ind l x addr s => ?_⟩
  simp only [exec_ds]
  refine s.withPacked_withAcc_ends l (fun t m a => if 10 ^ 31 ≤ (a - m).natAbs then FaultsOverflow s t else SetsAccumulator s t (a - m))
    fun u m a hu hm ha => ?_
  rw [W.sub_toInt_of_lt ha hm]
  exact hu.setResult (by omega)

/-- The code of DC is the code of the order of the two integers (R146, R164). -/
theorem decimalCC_compareCC (a m : W128) : decimalCC false (compareCC (W.cmpS a m)) = relationCode a.toInt m.toInt := by
  rw [W.cmpS, relationCode]
  obtain hlt | heq | hgt := lt_trichotomy a.toInt m.toInt
  · rw [compare_lt_iff_lt.mpr hlt, if_neg hlt.ne, if_pos hlt]
    rfl
  · rw [compare_eq_iff_eq.mpr heq, if_pos heq]
    rfl
  · rw [compare_gt_iff_gt.mpr hgt, if_neg hgt.ne', if_neg hgt.not_gt]
    rfl

/-- Settles O32: after its reads the command only writes the code of the comparison. -/
theorem decimalCompare : Obligations.DecimalCompare := by
  refine ⟨fun cw h => by rw [decode, fieldOp_of_agrees (i := .dc false 0 0 0) h]; rfl, fun ind l x addr s => ?_⟩
  simp only [exec_dc]
  refine s.withPacked_withAcc_ends l (fun t m a => t.regs = s.regs ∧ t.mem = s.mem ∧ EndsDone s t (relationCode a m))
    fun u m a hu _ _ => ?_
  rw [← decimalCC_compareCC]
  exact hu.finishDecimal _

end Sys2Proof.Machine
end

