-- ==== Sys2Proof/Proofs/DecimalStore.lean ====
section
/-! DST (R161): what one-byte stores that pass, or that end at a flag, leave in memory; the common rule of DST and UNPK. -/

namespace Sys2Proof.Machine

/-! ## Addresses of a byte string -/

/-- The address space has at least `2^16` bytes (R50). -/
theorem State.le_addressSpace (s : State) : 2 ^ 16 ≤ 2 ^ s.config.addrBits :=
  Nat.pow_le_pow_right (by decide) (Nat.le_add_right _ _)

/-- The bytes of a string no longer than the address space stand at different addresses (R60). -/
theorem State.wrap_add_ne (s : State) (a : Nat) {i j : Nat} (hi : i < 2 ^ s.config.addrBits) (hj : j < 2 ^ s.config.addrBits)
    (hne : i ≠ j) : s.wrap (a + i) ≠ s.wrap (a + j) := fun heq =>
  hne ((Nat.ModEq.add_left_cancel' a heq).eq_of_lt_of_lt hi hj)

/-! ## Memory after the first bytes of a string -/

section

variable {s t : State} {a j : Nat} {out : List Byte}

/-- A byte that was written reads as it was written. -/
theorem State.read_of_written (hmem : t.mem = Memory.writeBytes s.config.addrBits s.mem a (out.take j))
    (hwf : s.mem.wf s.config.addrBits = true) (hlen : out.length ≤ 2 ^ s.config.addrBits) {i : Nat} (hi : i < out.length) (hij : i < j) :
    t.mem.read (s.wrap (a + i)) = out.getD i 0 := by
  have htake : i < (out.take j).length := by
    rw [List.length_take]
    omega
  rw [hmem, State.wrap, Memory.read_writeBytes hwf a (out.take j) ((List.length_take_le' j out).trans hlen) i htake,
    List.getElem_take, List.getD_eq_getElem _ _ hi]

/-- A byte that was not written yet reads as before. -/
theorem State.read_of_unwritten (hmem : t.mem = Memory.writeBytes s.config.addrBits s.mem a (out.take j))
    (hlen : out.length ≤ 2 ^ s.config.addrBits) {i : Nat} (hi : i < out.length) (hij : j ≤ i) :
    t.mem.read (s.wrap (a + i)) = s.mem.read (s.wrap (a + i)) := by
  rw [hmem]
  refine Memory.read_writeBytes_ne _ _ _ _ _ fun k hk => ?_
  rw [List.length_take] at hk
  exact s.wrap_add_ne a (by omega) (by omega) (by omega)

/-- No byte outside the string changes. -/
theorem State.keepsMemoryBut_of_written (hmem : t.mem = Memory.writeBytes s.config.addrBits s.mem a (out.take j)) :
    KeepsMemoryBut s t a out.length := by
  intro b hb
  rw [hmem]
  exact Memory.read_writeBytes_ne _ _ _ _ _ fun k hk => hb k (hk.trans_le (List.length_take_le' j out))

end

/-! ## The flagged transaction -/

/-- Transactions that do not all pass end with the first that does not: those before it pass (R56). -/
theorem State.made_of_not_passes {s : State} {n : Nat} (h : ¬ s.passes n) (hn : 0 < n) :
    ∃ k, s.made n = k + 1 ∧ (k = 0 ∨ s.passes k) ∧ ¬ s.passes (k + 1) := by
  induction n generalizing s with
  | zero => exact absurd hn (Nat.lt_irrefl 0)
  | succ n ih =>
    cases hf : (s.memRead 0 0).1.trapFlag with
    | true =>
      refine ⟨0, State.made_of_flagged hf n, .inl rfl, fun hp => ?_⟩
      have hclear := ((s.passes_succ 0 0 0).mp hp).2.2.1
      exact Bool.false_ne_true (hclear.symm.trans hf)
    | false =>
      obtain ⟨hclear, hverdict⟩ : s.trapFlag = false ∧ s.verdict.raises = false := by simpa using hf
      have hsucc (m : Nat) : s.passes (m + 1) ↔ (s.memRead 0 0).1.passes m := by
        simp only [s.passes_succ 0 m 0, hclear, hverdict, true_and]
      have hnone : (s.memRead 0 0).1.passes 0 := ⟨hf, by simp⟩
      rw [hsucc] at h
      have hpos : 0 < n := Nat.pos_of_ne_zero fun hzero => h (hzero ▸ hnone)
      obtain ⟨k, hmade, hbefore, hflag⟩ := ih h hpos
      refine ⟨k + 1, by rw [State.made_of_clear hf, hmade], .inr ((hsucc k).mpr ?_), (hsucc (k + 1)).not.mpr hflag⟩
      obtain rfl | hbefore := hbefore
      · exact hnone
      · exact hbefore

/-! ## Stores and what they end in -/

/-- What one-byte stores at EA of an image of a value, and the value's condition code, come to: the image and `done`, or its bytes up to
the flagged store and an abort (R57, R161, R201). -/
def StoresNumber (s t : State) (n : Nat) (IsImage : List Byte → Int → Prop) (v : Int) : Prop :=
  ∃ out : List Byte, out.length = n ∧ IsImage out v ∧ t.regs = s.regs ∧ KeepsMemoryBut s t s.ea n ∧
    if s.passes n then t.bytesAt s.ea n = out ∧ EndsDone s t (signCode v)
    else EndsAborted s t ∧ StoredUpToFlag s t s.ea out

theorem State.storeResult_of_passes {s : State} {out : List Byte} (hp : s.passes out.length)
    (hwf : s.mem.wf s.config.addrBits = true) (hlen : out.length ≤ 2 ^ s.config.addrBits) (v : Int) :
    ∃ t, s.storeResult out v = .next t ∧ t.regs = s.regs ∧ KeepsMemoryBut s t s.ea out.length ∧
      t.bytesAt s.ea out.length = out ∧ EndsDone s t (signCode v) := by
  rw [State.storeResult_eq, State.storeOperand_of_passes hp, ← decimalCC_signCC]
  obtain ⟨t, ht, hregs, hmem, -, -, hends⟩ := (s.afterStores s.ea out.length out.length out).finishDecimal_spec (signCC v)
  have hfront : SameFront s (s.afterStores s.ea out.length out.length out) := ⟨rfl, rfl, rfl, rfl, rfl, rfl, rfl⟩
  refine ⟨t, ht, hregs, State.keepsMemoryBut_of_written hmem, ?_, hfront.endsDone hends⟩
  refine List.ext_getElem (State.bytesAt_length _ _ _) fun i _ hi => ?_
  rw [State.getElem_bytesAt, State.wrap_congr hends.context.config]
  exact (State.read_of_written hmem hwf hlen hi hi).trans (List.getD_eq_getElem _ _ hi)

theorem State.storeResult_of_not_passes {s : State} {out : List Byte} (hp : ¬ s.passes out.length) (hne : out ≠ [])
    (hwf : s.mem.wf s.config.addrBits = true) (hlen : out.length ≤ 2 ^ s.config.addrBits) (v : Int) :
    ∃ t, s.storeResult out v = .next t ∧ t.regs = s.regs ∧ KeepsMemoryBut s t s.ea out.length ∧
      EndsAborted s t ∧ StoredUpToFlag s t s.ea out := by
  obtain ⟨-, hle, j, hj, hstores⟩ := State.storeOperand_of_not_passes hp hne s.ea
  obtain ⟨k, hmade, hbefore, hflag⟩ := State.made_of_not_passes hp (List.length_pos_of_ne_nil hne)
  rw [hmade] at hj hle
  rw [State.storeResult_eq, hstores]
  refine ⟨_, State.abort_eq _, rfl, State.keepsMemoryBut_of_written rfl, ⟨⟨rfl, rfl, rfl, rfl, rfl⟩, rfl, rfl, rfl, rfl⟩,
    k, hle, hbefore, hflag, fun i hi => State.read_of_written rfl hwf hlen (by omega) (by omega),
    fun i hi hki => State.read_of_unwritten rfl hlen hi (by omega), ?_⟩
  obtain hstored | hlost := hj
  · exact .inl (State.read_of_written rfl hwf hlen hle (by omega))
  · exact .inr (State.read_of_unwritten rfl hlen hle (by omega))

theorem State.storeResult_spec {s : State} (hwf : s.mem.wf s.config.addrBits = true) {out : List Byte} (hne : out ≠ [])
    (hlen : out.length ≤ 2 ^ s.config.addrBits) {IsImage : List Byte → Int → Prop} {v : Int} (his : IsImage out v) :
    ∃ t, s.storeResult out v = .next t ∧ StoresNumber s t out.length IsImage v := by
  by_cases hp : s.passes out.length
  · obtain ⟨t, ht, hregs, hkeeps, hend⟩ := State.storeResult_of_passes hp hwf hlen v
    exact ⟨t, ht, out, rfl, his, hregs, hkeeps, by rwa [if_pos hp]⟩
  · obtain ⟨t, ht, hregs, hkeeps, hend⟩ := State.storeResult_of_not_passes hp hne hwf hlen v
    exact ⟨t, ht, out, rfl, his, hregs, hkeeps, by rwa [if_neg hp]⟩

theorem SameFront.endsAborted {s s' t : State} (h : SameFront s s') (k : EndsAborted s' t) : EndsAborted s t :=
  ⟨h.sameContext k.context, k.psd.trans h.psd, k.completion, k.trapFlag, k.trapRecord.trans h.trapRecord⟩

/-- The four reads of the accumulator before the stores do not matter to what they come to. -/
theorem StoresNumber.of_afterDeca {s t : State} {n : Nat} {IsImage : List Byte → Int → Prop} {v : Int}
    (h : StoresNumber s.afterDeca t n IsImage v) : StoresNumber s t n IsImage v := by
  have hfront := (OnlyRead.afterDeca s).toSameFront
  obtain ⟨out, hlength, his, hregs, hkeeps, hend⟩ := h
  refine ⟨out, hlength, his, hregs, hkeeps, ?_⟩
  by_cases hp : s.passes n
  · rw [if_pos (show s.afterDeca.passes n from hp)] at hend
    rw [if_pos hp]
    exact ⟨hend.1, hfront.endsDone hend.2⟩
  · rw [if_neg (show ¬ s.afterDeca.passes n from hp)] at hend
    rw [if_neg hp]
    exact ⟨hfront.endsAborted hend.1, hend.2⟩

/-- The common rule of DST and UNPK: the accumulator is checked, then its size, then an image of it is stored (R161, R201). -/
theorem State.withAcc_storeImage_ends {s : State} (hwf : s.mem.wf s.config.addrBits = true) (z : Nat) {n : Nat} (hpos : 0 < n)
    (hspace : n ≤ 2 ^ s.config.addrBits) {image : W128 → List Byte} (IsImage : List Byte → Int → Prop)
    (himage : ∀ v : W128, v.toInt.natAbs < 10 ^ 31 → v.toInt.natAbs < 10 ^ z → (image v).length = n ∧ IsImage (image v) v.toInt) :
    ∃ t, (s.withAcc fun u v =>
        if 10 ^ z ≤ v.toInt.natAbs then u.decimalFault .overflow else u.storeResult (image v) v.toInt) = .next t ∧
      match packedNumber s.deca with
      | none => FaultsInvalidDigit s t
      | some v => if 10 ^ z ≤ v.natAbs then FaultsOverflow s t else StoresNumber s t n IsImage v := by
  refine (OnlyRead.refl s).withAcc_ends (fun t v => if 10 ^ z ≤ v.natAbs then FaultsOverflow s t else StoresNumber s t n IsImage v)
    fun v hread hlt => ?_
  by_cases hlarge : 10 ^ z ≤ v.toInt.natAbs
  · simp only [if_pos hlarge]
    exact hread.overflow
  · simp only [if_neg hlarge]
    obtain ⟨rfl, his⟩ := himage v hlt (Nat.lt_of_not_le hlarge)
    obtain ⟨t, ht, hend⟩ := State.storeResult_spec (s := s.afterDeca) hwf (List.ne_nil_of_length_pos hpos) hspace his
    exact ⟨t, ht, hend.of_afterDeca⟩

/-! ## DST -/

/-- `EncodePacked` of a value that fits `n` bytes is the value in generated form (R144, R161). -/
theorem encodePacked_holdsPacked {v : W128} (h : v.toInt.natAbs < 10 ^ 31) {n : Nat} (hpos : 0 < n) (hle : n ≤ 16)
    (hfits : v.toInt.natAbs < 10 ^ (2 * n - 1)) : (encodePacked v n).length = n ∧ HoldsPacked (encodePacked v n) v.toInt := by
  obtain ⟨d, rfl⟩ := Nat.exists_eq_add_one_of_ne_zero hpos.ne'
  rw [encodePacked_eq h hpos hle]
  exact ⟨packNibbles_length _ _ (by simp; omega), holdsPacked_packNibbles d v.toInt hfits⟩

/-- Settles O29: the image of a value that fits is stored by the common rule. -/
theorem decimalStore : Obligations.DecimalStore := by
  refine ⟨fun cw h => by rw [decode, fieldOp_of_agrees (i := .dst false 0 0 0) h]; rfl, fun ind l x addr s hwf => ?_⟩
  have hpos := operandLength_pos l
  have hle := operandLength_le l
  have hspace := s.le_addressSpace
  exact State.withAcc_storeImage_ends hwf (2 * operandLength l - 1) hpos (by omega) HoldsPacked fun v hv hfits =>
    encodePacked_holdsPacked hv hpos hle hfits

end Sys2Proof.Machine
end

