-- ==== Sys2Proof/Proofs/DecimalMulDiv.lean ====
section
/-! DM and DD (R180, R181): a command that has only read, then writes the accumulator and ends. -/

namespace Sys2Proof.Machine

/-! ## The accumulator written after the reads -/

namespace OnlyRead

variable {s u w : State}

theorem sameFront_writeDeca (h : OnlyRead s u) (bytes : List Byte) : SameFront s (u.writeDeca bytes) :=
  ⟨h.config, h.command, h.program, h.presented, h.psd, h.trapFlag, h.trapRecord⟩

theorem keepsRegsBut_writeDeca (h : OnlyRead s u) {bytes : List Byte} (hregs : w.regs = (u.writeDeca bytes).regs) :
    KeepsRegsBut s w decaRegs := fun j hj =>
  (State.reg_congr hregs j).trans ((u.reg_writeDeca bytes j hj).trans (State.reg_congr h.regs j))

/-- The accumulator written, then the code and `done`. -/
theorem writeDeca_finishDecimal (h : OnlyRead s u) (bytes : List Byte) (v : Int) :
    ∃ t, (u.writeDeca bytes).finishDecimal (signCC v) = .next t ∧ t.deca = (u.writeDeca bytes).deca ∧
      KeepsRegsBut s t decaRegs ∧ t.mem = s.mem ∧ EndsDone s t (signCode v) := by
  obtain ⟨t, ht, hregs, hmem, -, -, hends⟩ := (u.writeDeca bytes).finishDecimal_spec (signCC v)
  rw [decimalCC_signCC] at hends
  exact ⟨t, ht, State.deca_congr hregs, h.keepsRegsBut_writeDeca hregs, hmem.trans h.mem,
    (h.sameFront_writeDeca bytes).endsDone hends⟩

/-- The low 31 digits of a value put into the accumulator, with their code (R142, R180). -/
theorem setsLow31 (h : OnlyRead s u) (v : Int) :
    ∃ t, (u.decSetLow31 v).finishDecimal (signCC (low31 v)) = .next t ∧ SetsAccumulator s t (low31 v) := by
  obtain ⟨t, ht, hdeca, hkeeps, hmem, hends⟩ := h.writeDeca_finishDecimal _ (low31 v)
  exact ⟨t, ht, by rw [hdeca]; exact (u.decSetLow31_spec v).1, hkeeps, hmem, hends⟩

end OnlyRead

/-! ## DM -/

theorem exec_dm (ind : Bool) (l : BitVec 4) (x : BitVec 3) (addr : BitVec 17) (s : State) :
    exec (.dm ind l x addr) s = s.withPacked l fun u m => u.withAcc fun u' a =>
      (u'.decSetLow31 (a.toInt * m.toInt)).finishDecimal (signCC (low31 (a.toInt * m.toInt))) := rfl

/-- Settles O33: whatever its size, the product goes through `DecSet` with suppression. -/
theorem decimalMultiply : Obligations.DecimalMultiply := by
  refine ⟨fun cw h => by rw [decode, fieldOp_of_agrees (i := .dm false 0 0 0) h]; rfl, fun ind l x addr s => ?_⟩
  simp only [exec_dm]
  exact s.withPacked_withAcc_ends l (fun t m a => SetsAccumulator s t (low31 (a * m))) fun u m a hu _ _ => hu.setsLow31 _

/-! ## DD -/

theorem exec_dd (ind : Bool) (l : BitVec 4) (x : BitVec 3) (addr : BitVec 17) (s : State) :
    exec (.dd ind l x addr) s = execDd l s := rfl

/-- What DD of two numbers ends in: Overflow, or remainder and quotient in the two halves of the accumulator (R181). -/
def DivideEnds (s t : State) (m a : Int) : Prop :=
  if m = 0 ∨ 10 ^ 15 ≤ (a.tdiv m).natAbs ∨ 10 ^ 15 ≤ (a - a.tdiv m * m).natAbs then FaultsOverflow s t
  else HoldsPacked (t.deca.take 8) (a - a.tdiv m * m) ∧ HoldsPacked (t.deca.drop 8) (a.tdiv m) ∧
    KeepsRegsBut s t decaRegs ∧ t.mem = s.mem ∧ EndsDone s t (signCode (a.tdiv m))

theorem sub_tdiv_mul_eq_tmod (a m : Int) : a - a.tdiv m * m = a.tmod m := by
  rw [Int.tmod_def, Int.mul_comm]

theorem W.isZero_iff_toInt (a : W128) : W.isZero a = true ↔ a.toInt = 0 := by
  rw [W.isZero, beq_iff_eq, ← BitVec.toInt_inj]
  rfl

/-- The image of a division is the remainder in its first half and the quotient in its second. -/
theorem divisionImage_holdsPacked {rem q : W128} (hrem : rem.toInt.natAbs < 10 ^ 15) (hq : q.toInt.natAbs < 10 ^ 15) :
    (divisionImage rem q).length = 16 ∧ HoldsPacked ((divisionImage rem q).take 8) rem.toInt ∧
      HoldsPacked ((divisionImage rem q).drop 8) q.toInt := by
  obtain ⟨hhi, hhiHolds⟩ := digits_abs_holdsPacked hrem
  obtain ⟨hlo, hloHolds⟩ := digits_abs_holdsPacked hq
  rw [divisionImage, List.length_append, hhi, hlo, List.take_left' hhi, List.drop_left' hhi]
  exact ⟨rfl, hhiHolds, hloHolds⟩

/-- Settles O34: a zero divisor is caught before the wide division, which then has a result whose sizes are tested. -/
theorem decimalDivide : Obligations.DecimalDivide := by
  refine ⟨fun cw h => by rw [decode, fieldOp_of_agrees (i := .dd false 0 0 0) h]; rfl, fun ind l x addr s => ?_⟩
  simp only [exec_dd, execDd]
  refine s.withPacked_withAcc_ends l (DivideEnds s) fun u m a hu _ ha => ?_
  by_cases hm : m.toInt = 0
  · simp only [DivideEnds, W.isZero_iff_toInt, hm, true_or, if_true]
    exact hu.overflow
  obtain ⟨d, hdiv, hq, hr⟩ := divS_of_natAbs_lt ha hm
  rw [← sub_tdiv_mul_eq_tmod] at hr
  unfold DivideEnds
  rw [← hr, ← hq]
  simp only [W.isZero_iff_toInt, hdiv, hm, false_or, if_false]
  split_ifs with hlarge
  · exact hu.overflow
  · obtain ⟨hlength, hrem, hquot⟩ := divisionImage_holdsPacked (rem := d.remainder) (q := d.quotient) (by omega) (by omega)
    obtain ⟨t, ht, hdeca, hends⟩ := hu.writeDeca_finishDecimal (divisionImage d.remainder d.quotient) d.quotient.toInt
    rw [State.deca_writeDeca u _ hlength] at hdeca
    rw [← hdeca] at hrem hquot
    exact ⟨t, ht, hrem, hquot, hends⟩

end Sys2Proof.Machine
end

