-- ==== Sys2Proof/Proofs/DecimalShift.lean ====
section
/-! DSA (R76, R182, R183): the shifted value, the end of the command, and the digit nibbles before and after. -/

namespace Sys2Proof.Machine

/-! ## The shifted value -/

section

variable (v : Int) {c : Int}

theorem decimalShift_of_31_le (h : 31 ≤ c) : decimalShift v c = (0, decide (v ≠ 0)) := by
  rw [decimalShift, if_pos (by omega), if_pos h]

theorem decimalShift_left (hpos : 0 < c) (h : c < 31) :
    decimalShift v c =
      (v.sign * ((v.natAbs * 10 ^ c.toNat % 10 ^ 31 : Nat) : Int), decide (10 ^ 31 ≤ v.natAbs * 10 ^ c.toNat)) := by
  rw [decimalShift, if_pos hpos, if_neg (by omega)]

theorem decimalShift_zero : decimalShift v 0 = (v, false) := rfl

theorem decimalShift_right (hneg : c < 0) (h : -31 < c) :
    decimalShift v c = (v.sign * ((v.natAbs / 10 ^ (-c).toNat : Nat) : Int), false) := by
  rw [decimalShift, if_neg (by omega), if_pos hneg, if_neg (by omega)]

theorem decimalShift_of_le_neg_31 (h : c ≤ -31) : decimalShift v c = (0, false) := by
  rw [decimalShift, if_neg (by omega), if_pos (by omega), if_pos (by omega)]

end

/-- The shift computes what the pseudocode of R182 says. -/
theorem shiftRule_decimalShift (v c : Int) : ShiftRule v c (decimalShift v c).1 ((decimalShift v c).2 = true) := by
  unfold ShiftRule
  split_ifs with hall hleft hzero hright
  · rw [decimalShift_of_31_le v hall]
    exact ⟨rfl, decide_eq_true_iff⟩
  · rw [decimalShift_left v hleft (by omega)]
    exact ⟨rfl, decide_eq_true_iff⟩
  · rw [hzero, decimalShift_zero]
    exact ⟨rfl, Bool.false_ne_true⟩
  · rw [decimalShift_right v (by omega) hright]
    exact ⟨rfl, Bool.false_ne_true⟩
  · rw [decimalShift_of_le_neg_31 v (by omega)]
    exact ⟨rfl, Bool.false_ne_true⟩

/-- The rule of R182 has one result for every value and count. -/
theorem ShiftRule.unique {v c r r' : Int} {lost lost' : Prop} (h : ShiftRule v c r lost) (h' : ShiftRule v c r' lost') :
    r = r' ∧ (lost ↔ lost') := by
  unfold ShiftRule at h h'
  split_ifs at h h' <;> exact ⟨h.1.trans h'.1.symm, by tauto⟩

theorem natAbs_sign_mul {v : Int} {n : Nat} (h : v.natAbs = 0 → n = 0) : (v.sign * (n : Int)).natAbs = n := by
  rw [Int.natAbs_mul, Int.natAbs_sign, Int.natAbs_natCast]
  split_ifs with hv
  · rw [h (by rw [hv, Int.natAbs_zero]), Nat.zero_mul]
  · rw [Nat.one_mul]

theorem natAbs_decimalShift_left {v : Int} (hv : v.natAbs < 10 ^ 31) {c : Nat} (hc : c < 31) :
    (decimalShift v c).1.natAbs = v.natAbs * 10 ^ c % 10 ^ 31 := by
  obtain rfl | hpos := c.eq_zero_or_pos
  · rw [Nat.pow_zero, Nat.mul_one, Nat.mod_eq_of_lt hv]
    rfl
  · rw [decimalShift_left v (by omega) (by omega), Int.toNat_natCast]
    exact natAbs_sign_mul fun h => by rw [h, Nat.zero_mul, Nat.zero_mod]

theorem natAbs_decimalShift_right (v : Int) {c : Nat} (hc : c < 31) :
    (decimalShift v (-(c : Int))).1.natAbs = v.natAbs / 10 ^ c := by
  obtain rfl | hpos := c.eq_zero_or_pos
  · rw [Nat.pow_zero, Nat.div_one]
    rfl
  · rw [decimalShift_right v (by omega) (by omega), Int.neg_neg, Int.toNat_natCast]
    exact natAbs_sign_mul fun h => by rw [h, Nat.zero_div]

/-- What a shift leaves has at most 31 digits. -/
theorem natAbs_decimalShift_lt {v : Int} (hv : v.natAbs < 10 ^ 31) (c : Int) : (decimalShift v c).1.natAbs < 10 ^ 31 := by
  obtain ⟨n, rfl | rfl⟩ := c.eq_nat_or_neg
  · by_cases hn : n < 31
    · rw [natAbs_decimalShift_left hv hn]
      exact Nat.mod_lt _ (by decide)
    · rw [decimalShift_of_31_le v (by omega)]
      exact Nat.pow_pos (by decide)
  · by_cases hn : n < 31
    · rw [natAbs_decimalShift_right v hn]
      exact (Nat.div_le_self _ _).trans_lt hv
    · rw [decimalShift_of_le_neg_31 v (by omega)]
      exact Nat.pow_pos (by decide)

/-! ## The command -/

/-- What DSA does with a shifted value and whether it lost a digit (R182). -/
def State.finishShift (s : State) (p : Int × Bool) : Result :=
  if p.2 then (s.decSetLow31 p.1).decimalEnd fun _ => decimalCC true (signCC p.1)
  else (s.decSetLow31 p.1).finishDecimal (signCC p.1)

theorem exec_dsa (ind : Bool) (rl : BitVec 4) (x : BitVec 3) (addr : BitVec 17) (s : State) :
    exec (.dsa ind rl x addr) s = (s.readIndex x).1.withAcc fun u a =>
      u.finishShift (decimalShift a.toInt (shiftCount (dsaOperand ind addr s) (dsaIndex x s))) := rfl

theorem OnlyRead.readIndex (s : State) (x : BitVec 3) : OnlyRead s (s.readIndex x).1 := by
  rw [State.readIndex]
  split
  · exact .refl s
  · exact ⟨s.sameFront_ports _, rfl, rfl⟩

theorem dsaIndex_eq (x : BitVec 3) (s : State) : dsaIndex x s = if x = 0 then 0 else s.reg (x.setWidth 4) := by
  rw [dsaIndex, State.readIndex]
  split <;> rfl

/-- The count in the words of R76. -/
theorem shiftCount_dsa (ind : Bool) (x : BitVec 3) (addr : BitVec 17) (s : State) :
    shiftCount (dsaOperand ind addr s) (dsaIndex x s) =
      (((if ind then s.command.opnd else addr.setWidth 32) +
        (if x = 0 then 0 else s.reg (x.setWidth 4))).extractLsb' 0 16).toInt := by
  rw [dsaIndex_eq]
  rfl

/-- What DSA of a number ends in, from the shifted value and whether a digit was lost (R182). -/
def ShiftEnds (s t : State) (p : Int × Bool) : Prop :=
  HoldsPacked t.deca p.1 ∧ KeepsRegsBut s t decaRegs ∧ t.mem = s.mem ∧
    (p.2 = true → EndsMaskable s t (signCode p.1 ||| 0b0100)) ∧ (¬ p.2 = true → EndsDone s t (signCode p.1))

theorem low31_of_natAbs_lt {v : Int} (h : v.natAbs < 10 ^ 31) : low31 v = v := by
  rw [low31, decaDigits, Nat.mod_eq_of_lt h, Int.sign_mul_natAbs]

theorem decimalCC_true_signCC (v : Int) : decimalCC true (signCC v) = signCode v ||| 0b0100 := by
  rw [signCC, signCode]
  split_ifs <;> rfl

theorem OnlyRead.finishShift {s u : State} (h : OnlyRead s u) {p : Int × Bool} (hp : p.1.natAbs < 10 ^ 31) :
    ∃ t, u.finishShift p = .next t ∧ ShiftEnds s t p := by
  obtain ⟨r, lost⟩ := p
  have hholds := (u.decSetLow31_spec r).1
  rw [low31_of_natAbs_lt hp] at hholds
  cases lost with
  | true =>
    obtain ⟨t, ht, hregs, hmem, -, -, hends⟩ := (u.decSetLow31 r).decimalEnd_spec fun _ => decimalCC true (signCC r)
    rw [decimalCC_true_signCC] at hends
    exact ⟨t, ht, by rwa [State.deca_congr hregs], h.keepsRegsBut_writeDeca hregs, hmem.trans h.mem,
      fun _ => (h.sameFront_writeDeca _).endsMaskable hends, fun hn => absurd rfl hn⟩
  | false =>
    obtain ⟨t, ht, hdeca, hkeeps, hmem, hends⟩ := h.writeDeca_finishDecimal _ r
    exact ⟨t, ht, by rw [hdeca]; exact hholds, hkeeps, hmem, nofun, fun _ => hends⟩

theorem exec_dsa_ends (ind : Bool) (rl : BitVec 4) (x : BitVec 3) (addr : BitVec 17) (s : State) :
    ∃ t, exec (.dsa ind rl x addr) s = .next t ∧
      match packedNumber s.deca with
      | none => FaultsInvalidDigit s t
      | some v => ShiftEnds s t (decimalShift v (shiftCount (dsaOperand ind addr s) (dsaIndex x s))) := by
  simp only [exec_dsa]
  exact (OnlyRead.readIndex s x).withAcc_ends
    (fun t v => ShiftEnds s t (decimalShift v (shiftCount (dsaOperand ind addr s) (dsaIndex x s))))
    fun v hread hv => hread.finishShift (natAbs_decimalShift_lt hv _)

/-- DSA makes no memory transaction (R54, R182). -/
theorem exec_dsa_no_access {ind : Bool} {rl : BitVec 4} {x : BitVec 3} {addr : BitVec 17} {s t : State}
    (ht : exec (.dsa ind rl x addr) s = .next t) :
    t.accessor = s.accessor ∧ ∃ events, t.ports = events ++ s.ports ∧ ∀ e ∈ events, e.isMemory = false := by
  obtain ⟨after, hafter, hports, haccessor, -⟩ := (Accesses.execDsa ind rl x addr s).makes ht
  rw [List.length_nil, State.made_zero] at haccessor
  rw [List.take_nil, List.reverse_nil, List.nil_append, ← List.append_assoc] at hports
  refine ⟨haccessor, _, hports, fun e he => ?_⟩
  obtain he | he := List.mem_append.mp he
  · exact hafter e he
  · exact isMemory_eq_false_of_isRead (readsFirst_isRead _ e (List.mem_reverse.mp he))

/-- Settles O35: the shift is the only result the rule allows, and the command ends as it says. (`decimalShift` is the model's
function.) -/
theorem dsaDecimalShift : Obligations.DecimalShift := by
  refine ⟨fun cw h => by rw [decode, fieldOp_of_agrees (i := .dsa false 0 0 0) h]; rfl, fun ind rl x addr s => ?_⟩
  obtain ⟨t, ht, hend⟩ := exec_dsa_ends ind rl x addr s
  obtain ⟨haccessor, hports⟩ := exec_dsa_no_access ht
  refine ⟨t, ht, haccessor, hports, ?_⟩
  cases hv : packedNumber s.deca with
  | none =>
    rw [hv] at hend
    exact hend
  | some v =>
    rw [hv] at hend
    intro c r lost hc hrule
    rw [← shiftCount_dsa] at hc
    subst hc
    obtain ⟨rfl, hlost⟩ := hrule.unique (shiftRule_decimalShift v _)
    obtain ⟨hholds, hkeeps, hmem, hmaskable, hdone⟩ := hend
    exact ⟨hholds, hkeeps, hmem, fun h => hmaskable (hlost.mp h), fun h => hdone (mt hlost.mpr h)⟩

/-! ## The digit nibbles -/

/-- A digit of a sequence, from the value of the sequence (R132). -/
theorem digitSum_digit {ds : List Nat} (h : ∀ d ∈ ds, d < 10) {k : Nat} (hk : k < ds.length) :
    digitSum ds / 10 ^ (ds.length - (k + 1)) % 10 = ds.getD k 0 := by
  have hsplit : ds = ds.take k ++ ds[k] :: ds.drop (k + 1) := by
    rw [← List.drop_eq_getElem_cons, List.take_append_drop]
  have hsum : digitSum ds = digitSum (ds.drop (k + 1)) + (digitSum (ds.take k) * 10 + ds[k]) * 10 ^ (ds.drop (k + 1)).length := by
    conv_lhs => rw [hsplit, digitSum_append, digitSum, List.length_cons]
    ring
  have hlow : digitSum (ds.drop (k + 1)) < 10 ^ (ds.drop (k + 1)).length := digitSum_lt _ fun d hd => h d (List.mem_of_mem_drop hd)
  have hdigit : ds[k] < 10 := h _ (List.getElem_mem hk)
  rw [hsum, ← List.length_drop, Nat.add_mul_div_right _ _ (by positivity), Nat.div_eq_of_lt hlow, List.getD_eq_getElem _ _ hk]
  omega

theorem natAbs_of_signedNumber {ds : List Nat} {sg : Nat} {v : Int} (h : signedNumber ds sg = some v) :
    v.natAbs = digitSum ds := by
  rw [signedNumber] at h
  split_ifs at h <;> obtain rfl := Option.some.inj h <;> simp

/-- Nibble `k` of an accumulator that is a number is its decimal digit of weight `10^(30-k)` (R130, R132). -/
theorem nibble_deca {s : State} {v : Int} (h : packedNumber s.deca = some v) {k : Nat} (hk : k < 31) :
    ((nibbles s.deca).getD k 0).toNat = v.natAbs / 10 ^ (30 - k) % 10 := by
  obtain ⟨ds, sg, hnibbles, hds, -, hnumber⟩ := nibbles_of_packedNumber h
  have hlength : ds.length = 31 := by
    have := congrArg List.length hnibbles
    rw [nibbles_length, State.deca_length, List.length_append, List.length_singleton] at this
    omega
  have hdigit := digitSum_digit hds (k := k) (by rw [List.length_map]; omega)
  rw [List.length_map, hlength, ← natAbs_of_signedNumber hnumber] at hdigit
  rw [hnibbles, List.getD_append _ _ _ _ (by omega), show 30 - k = 31 - (k + 1) by omega, hdigit]
  exact (List.getD_map ds 0 BitVec.toNat).symm

/-- A digit below the `m`-th does not change with the digits above. -/
theorem mod_pow_digit (n : Nat) {m j : Nat} (h : j < m) : n % 10 ^ m / 10 ^ j % 10 = n / 10 ^ j % 10 := by
  obtain ⟨i, rfl⟩ := Nat.exists_eq_add_of_lt h
  rw [Nat.add_assoc, Nat.pow_add, Nat.mod_mul_right_div_self, Nat.mod_mod_of_dvd _ (dvd_pow_self 10 i.succ_ne_zero)]

theorem mul_pow_digit_of_le (n : Nat) {c j : Nat} (h : c ≤ j) : n * 10 ^ c / 10 ^ j % 10 = n / 10 ^ (j - c) % 10 := by
  obtain ⟨i, rfl⟩ := Nat.exists_eq_add_of_le' h
  rw [Nat.pow_add, Nat.mul_div_mul_right _ _ (by positivity), Nat.add_sub_cancel]

theorem mul_pow_digit_of_lt (n : Nat) {c j : Nat} (h : j < c) : n * 10 ^ c / 10 ^ j % 10 = 0 := by
  obtain ⟨i, rfl⟩ := Nat.exists_eq_add_of_lt h
  have hfactor : n * 10 ^ (j + i + 1) = n * 10 ^ i * 10 * 10 ^ j := by ring
  rw [hfactor, Nat.mul_div_cancel _ (by positivity), Nat.mul_mod_left]

/-- Settles O37: digit by digit, from the magnitude the shift leaves. -/
theorem decimalShiftMovesDigits : Obligations.DecimalShiftMovesDigits := by
  intro ind rl x addr s t v c hv hc ht k hk
  obtain ⟨u, hu, hend⟩ := exec_dsa_ends ind rl x addr s
  obtain rfl : u = t := Host.Outcome.next.inj (hu.symm.trans ht)
  rw [hv] at hend
  obtain ⟨⟨hnumber, -⟩, -⟩ := hend
  have hlt : v.natAbs < 10 ^ 31 := packedNumber_natAbs_lt hv
  have hdigit := nibble_deca hnumber hk
  constructor <;> intro hcount <;> apply BitVec.eq_of_toNat_eq
  · rw [hdigit, hcount, natAbs_decimalShift_left hlt hc, mod_pow_digit _ (by omega)]
    split_ifs with hin
    · rw [nibble_deca hv hin, mul_pow_digit_of_le _ (by omega), Nat.sub_sub]
    · exact mul_pow_digit_of_lt _ (by omega)
  · rw [hdigit, hcount, natAbs_decimalShift_right v hc, Nat.div_div_eq_div_mul, ← Nat.pow_add]
    split_ifs with hin
    · rw [nibble_deca hv (by omega), show 30 - (k - c) = c + (30 - k) by omega]
    · rw [Nat.div_eq_of_lt (hlt.trans_le (Nat.pow_le_pow_right (by decide) (by omega)))]
      rfl

end Sys2Proof.Machine
end

