-- ==== Sys2Proof/Proofs/PackUnpack.lean ====
section
/-! PACK and UNPK (R200 to R202): the frame of each rule, and that a zoned string is determined by its digits and its zones. -/

namespace Sys2Proof.Machine

/-! ## PACK -/

/-- A zoned operand of PACK or UNPK has at most 31 bytes (R74). -/
theorem zonedLength_le (l : BitVec 4) : 2 * operandLength l - 1 ≤ 31 := by
  have := operandLength_le l
  omega

theorem zonedLength_pos (l : BitVec 4) : 0 < 2 * operandLength l - 1 := by
  have := operandLength_pos l
  omega

/-- PACK whose loads pass: InvalidDigit or the number in the accumulator, and one verdict used up for each load (R200). -/
theorem execPack_of_passes {l : BitVec 4} {s : State} (hp : s.passes (2 * operandLength l - 1)) :
    ∃ t, execPack l s = .next t ∧ t.accessor = s.accessor.drop (2 * operandLength l - 1) ∧
      match zonedNumber (s.bytesAt s.ea (2 * operandLength l - 1)) with
      | none => FaultsInvalidDigit s t
      | some v => SetsAccumulator s t v := by
  have hle := zonedLength_le l
  have hnumber := zonedNumber_eq (s.bytesAt s.ea (2 * operandLength l - 1)) (by rw [State.bytesAt_length]; omega)
  rw [execPack, State.withOperand_of_passes hp]
  dsimp only
  by_cases hok : (zonedCheck (s.bytesAt s.ea (2 * operandLength l - 1))).ok = true
  · rw [if_pos hok] at hnumber ⊢
    have hlt : (zonedCheck (s.bytesAt s.ea (2 * operandLength l - 1))).value.toInt.natAbs < 10 ^ 31 := by
      have hdigits := zonedNumber_natAbs_lt hnumber
      rw [State.bytesAt_length] at hdigits
      exact hdigits.trans_le (Nat.pow_le_pow_right (by decide) hle)
    obtain ⟨t, ht, haccessor, hend⟩ := (s.afterLoads s.ea (2 * operandLength l - 1)).setResult_spec (hlt.trans (by norm_num))
    rw [if_neg (Nat.not_le.mpr hlt)] at hend
    simp only [hnumber]
    exact ⟨t, ht, haccessor, State.setsAccumulator_afterLoads hend⟩
  · rw [if_neg hok] at hnumber ⊢
    obtain ⟨t, ht, haccessor, hend⟩ := (s.afterLoads s.ea (2 * operandLength l - 1)).decimalFault_invalidDigit_spec
    simp only [hnumber]
    exact ⟨t, ht, haccessor, State.faultsInvalidDigit_afterLoads hend⟩

/-- Settles O38: the loads pass and the string is checked, or the command aborts. -/
theorem packZoned : Obligations.PackZoned := by
  refine ⟨fun cw h => by rw [decode, fieldOp_of_agrees (i := .pack false 0 0 0) h]; rfl, fun ind l x addr s => ?_⟩
  by_cases hp : s.passes (2 * operandLength l - 1)
  · obtain ⟨t, ht, -, hend⟩ := execPack_of_passes hp
    simp only [if_pos hp]
    exact ⟨t, ht, hend⟩
  · simp only [if_neg hp]
    exact State.withOperand_of_not_passes hp (zonedLength_pos l) _

/-! ## UNPK -/

/-- Settles O39: the zoned image of a value that fits is stored by the rule common with DST. -/
theorem unpackToZoned : Obligations.UnpackToZoned := by
  refine ⟨fun cw h => by rw [decode, fieldOp_of_agrees (i := .unpk false 0 0 0) h]; rfl, fun ind l x addr s hwf => ?_⟩
  have hpos := zonedLength_pos l
  have hle := zonedLength_le l
  have hspace := s.le_addressSpace
  exact State.withAcc_storeImage_ends hwf (2 * operandLength l - 1) hpos (by omega) HoldsZoned fun v _ hfits =>
    ⟨by rw [zonedBytes_length, decimalDigits_length], holdsZoned_zonedBytes _ hpos v.toInt hfits⟩

/-! ## A zoned string, from its digits and zones -/

/-- Digits of the same number and value are the same digits (R132). -/
theorem digits_eq_of_digitSum_eq {ds es : List Nat} (hd : ∀ d ∈ ds, d < 10) (he : ∀ e ∈ es, e < 10)
    (hlength : ds.length = es.length) (hsum : digitSum ds = digitSum es) : ds = es := by
  refine List.ext_getElem hlength fun k hk hk' => ?_
  have hdigit := digitSum_digit hd hk
  rw [hsum, hlength, digitSum_digit he hk', List.getD_eq_getElem _ _ hk, List.getD_eq_getElem _ _ hk'] at hdigit
  exact hdigit.symm

theorem lt_ten_of_signedNumber {ds : List Nat} {sg : Nat} {v : Int} (h : signedNumber ds sg = some v) : ∀ d ∈ ds, d < 10 := by
  rw [signedNumber] at h
  split_ifs at h with hc <;> exact hc.1

/-- Zoned strings of the same length and value have the same digits. -/
theorem zonedDigits_eq {a b : List Byte} {v : Int} (ha : zonedNumber a = some v) (hb : zonedNumber b = some v)
    (hlength : a.length = b.length) : a.map digitOf = b.map digitOf := by
  have hdigits : (a.map fun x => (digitOf x).toNat) = b.map fun x => (digitOf x).toNat :=
    digits_eq_of_digitSum_eq (lt_ten_of_signedNumber ha) (lt_ten_of_signedNumber hb) (by simpa using hlength)
      (by rw [← natAbs_of_signedNumber ha, ← natAbs_of_signedNumber hb])
  have hinjective : Function.Injective (BitVec.toNat (w := 4)) := fun _ _ => BitVec.eq_of_toNat_eq
  rw [← (List.map_injective_iff.mpr hinjective).eq_iff, List.map_map, List.map_map]
  exact hdigits

/-- A zoned string whose zones but the last are 0xF is the zoned string of its digits and its last zone (R134). -/
theorem zonedBytes_map_digitOf {bytes : List Byte} (h : ∀ b ∈ bytes.dropLast, zoneOf b = 0xF) :
    zonedBytes (bytes.map digitOf) (zoneOf (bytes.getLastD 0)) = bytes := by
  induction bytes with
  | nil => rfl
  | cons b bs ih => cases bs with
    | nil => exact congrArg (· :: []) (byte_of_nibbles b)
    | cons c cs =>
      have hrest := ih fun x hx => h x (List.mem_cons_of_mem b hx)
      have hzone : zoneOf b = 0xF#4 := h b List.mem_cons_self
      have hbyte : (0xF#4 ++ digitOf b : Byte) = b := by rw [← hzone]; exact byte_of_nibbles b
      exact congrArg₂ List.cons hbyte hrest

/-- A value has one zoned string of each length in generated form. -/
theorem holdsZoned_unique {a b : List Byte} {v : Int} (ha : HoldsZoned a v) (hb : HoldsZoned b v) (hlength : a.length = b.length) :
    a = b := by
  obtain ⟨hnumber, hzones, hsign⟩ := ha
  obtain ⟨hnumber', hzones', hsign'⟩ := hb
  have hlast : zoneOf (a.getLastD 0) = zoneOf (b.getLastD 0) := BitVec.eq_of_toNat_eq (hsign.trans hsign'.symm)
  rw [← zonedBytes_map_digitOf hzones, ← zonedBytes_map_digitOf hzones', zonedDigits_eq hnumber hnumber' hlength, hlast]

/-! ## PACK, then UNPK -/

/-- Transactions that pass leave the next ones to pass. -/
theorem State.passes_of_drop {s t : State} {m n : Nat} (h : s.passes (m + n)) (hflag : t.trapFlag = s.trapFlag)
    (haccessor : t.accessor = s.accessor.drop m) : t.passes n := by
  refine ⟨hflag.trans h.1, fun v hv => h.2 v ?_⟩
  rw [haccessor] at hv
  rw [List.take_add]
  exact List.mem_append_right _ hv

/-- The state with another effective address on the command port. -/
def State.withEa (s : State) (ea : BitVec 24) : State := { s with command := { s.command with ea := ea } }

/-- The bytes at the effective address are those at the address given. -/
theorem State.bytesAt_ea_withEa {s u : State} (h : u.config = s.config) (ea : BitVec 24) (n : Nat) :
    u.bytesAt (s.withEa ea).ea n = u.bytesAt ea.toNat n := by
  refine List.ext_getElem (by simp) fun k _ _ => ?_
  rw [State.getElem_bytesAt, State.getElem_bytesAt, State.wrap_congr h, State.wrap_congr h]
  exact congrArg u.mem.read (Nat.mod_add_mod _ _ _)

/-- Settles O40: PACK leaves the value in the accumulator, and UNPK stores it in generated form; a value has one string of digits. -/
theorem packThenUnpackRestoresDigits : Obligations.PackThenUnpackRestoresDigits := by
  intro ind l x addr s v ea hwf hp hnumber
  set z := 2 * operandLength l - 1 with hz
  have hfirst : s.passes z := ⟨hp.1, fun w hw => hp.2 w (List.take_subset_take_left _ (by omega) hw)⟩
  obtain ⟨t, ht, haccessor, hend⟩ := execPack_of_passes hfirst
  simp only [← hz, hnumber] at hend
  obtain ⟨hholds, -, hmem, hdone⟩ := hend
  have hsize : v.natAbs < 10 ^ z := by
    have hdigits := zonedNumber_natAbs_lt hnumber
    rwa [State.bytesAt_length] at hdigits
  have hconfig : (t.withEa ea).config = s.config := hdone.context.config
  have hpasses : (t.withEa ea).passes z := State.passes_of_drop (m := z) (by rwa [← Nat.two_mul]) hdone.trapFlag haccessor
  obtain ⟨u, hu, hend⟩ := unpackToZoned.2 ind l x addr (t.withEa ea) (by rw [hconfig]; exact hmem ▸ hwf)
  rw [show packedNumber (t.withEa ea).deca = some v from hholds.1] at hend
  simp only [← hz, if_neg (Nat.not_le.mpr hsize), if_pos hpasses] at hend
  obtain ⟨out, hlength, hzoned, -, -, hstored, hdone'⟩ := hend
  have hconfig' : u.config = s.config := hdone'.context.config.trans hconfig
  rw [State.bytesAt_ea_withEa (s := t) hdone'.context.config] at hstored
  have hout : HoldsZoned (u.bytesAt ea.toNat z) v := hstored ▸ hzoned
  refine ⟨t, u, ht, hu, fun k hk => ?_, hout, fun heq => heq ▸ hout, fun h => holdsZoned_unique hout h (by simp)⟩
  have hdigits := zonedDigits_eq hout.1 hnumber (by simp)
  have hdigit := congrArg (·[k]?) hdigits
  simpa [hk, State.getElem_bytesAt, State.wrap_congr hconfig'] using hdigit

end Sys2Proof.Machine
end

