-- ==== Sys2Proof/Proofs/EditEnds.lean ====
section
/-! EBS that edits nothing (R207, R208): a count of 0 and an invalid digit at the first byte leave the work as it was read, and written
back it is what the registers held. -/

namespace Sys2Proof.Machine

/-! ## Progress that is none -/

/-- A word with its own address field put back is the word. -/
theorem State.withAddrField_addrField (s : State) (w : Word) : s.withAddrField w (s.addrField w) = w := by
  apply BitVec.eq_of_toNat_eq
  rw [State.withAddrField_toNat, State.addrField, State.wrap_wrap, State.wrap, Nat.div_add_mod']

/-- A word with its own top byte put back is the word. -/
theorem withTopByte_topByte (w : Word) : withTopByte w (topByte w) = w := by
  apply BitVec.eq_of_toNat_eq
  rw [withTopByte_toNat, topByte_toNat, Nat.div_add_mod']

theorem State.ofNat_editCount (s : State) (r : RegNum) : BitVec.ofNat 8 (s.editCount r) = topByte (s.reg (pairLow r)) := by
  apply BitVec.eq_of_toNat_eq
  rw [BitVec.toNat_ofNat, Nat.mod_eq_of_lt (s.editCount_lt r), topByte_toNat]
  rfl

/-- The count and the pattern address that EBS starts with are those in x[R1]. -/
theorem State.pairLow_editWork (s : State) (r : RegNum) :
    withTopByte (s.withAddrField (s.reg (pairLow r)) (s.editWork r).dst) (BitVec.ofNat 8 (s.editWork r).count) = s.reg (pairLow r) := by
  have haddr : s.withAddrField (s.reg (pairLow r)) (s.editWork r).dst = s.reg (pairLow r) := s.withAddrField_addrField _
  rw [haddr, show (s.editWork r).count = s.editCount r from rfl, State.ofNat_editCount, withTopByte_topByte]

/-- The source address that EBS starts with is that in x[R]. -/
theorem State.high_editWork (s : State) (r : RegNum) : s.withAddrField (s.reg r) (s.editWork r).sbase = s.reg r :=
  s.withAddrField_addrField _

/-- The work EBS starts with, written back, changes no register (R208). -/
theorem State.editWriteBack_editWork {s u : State} (hconfig : u.config = s.config) (hregs : u.regs = s.regs) (r : RegNum) :
    (u.editWriteBack r (s.editWork r)).regs = s.regs := by
  refine regs_ext fun j => ?_
  change (u.editWriteBack r (s.editWork r)).reg j = s.reg j
  rw [State.reg_editWriteBack, State.withAddrField_congr hconfig, State.withAddrField_congr hconfig, State.reg_congr hregs,
    State.reg_congr hregs, State.reg_congr hregs, State.pairLow_editWork, State.high_editWork]
  split_ifs with hlow hhigh
  · rw [hlow]
  · rw [hhigh]
  · rfl

/-- The condition code of the state bits it holds (R203). -/
theorem ccOf_ccBit (cc : BitVec 4) : ccOf (ccBit cc 1) (ccBit cc 2) (ccBit cc 3) (ccBit cc 4) = cc := by
  revert cc
  decide

theorem ccOf_invalid_ccBit (cc : BitVec 4) : ccOf true false (ccBit cc 3) (ccBit cc 4) = keepsCC34 0b10 cc := by
  revert cc
  decide

/-! ## A count of 0 -/

/-- Settles O45: the loop makes no turn, and the work as it was read is written back. -/
theorem editOfNothingChangesNothing : Obligations.EditOfNothingChangesNothing := by
  intro r disp s hcount
  have hcc : ccOf (s.editWork r).right (s.editWork r).sig (s.editWork r).nz (s.editWork r).neg = s.psd.cc := ccOf_ccBit s.psd.cc
  have hregs : ((s.editReads r).editWriteBack r (s.editWork r)).regs = s.regs := State.editWriteBack_editWork rfl rfl r
  have hrun : exec (.ebs r disp) s = (((s.editReads r).editWriteBack r (s.editWork r)).writeCC s.psd.cc).complete .done := by
    rw [← hcc]
    exact (execEbs_editReads r disp s).trans (by rw [hcount]; rfl)
  obtain ⟨t, ht, htregs, hmem, haccessor, hports, hdone⟩ :=
    ((s.editReads r).editWriteBack r (s.editWork r)).writeCC_complete_spec s.psd.cc
  have hfront : SameFront s ((s.editReads r).editWriteBack r (s.editWork r)) := ⟨rfl, rfl, rfl, rfl, rfl, rfl, rfl⟩
  refine ⟨t, hrun.trans ht, htregs.trans hregs, hmem, haccessor, hfront.endsDone hdone, ?_⟩
  have hhigh : (s.editReads r).withAddrField ((s.editReads r).reg r) (s.editWork r).sbase = s.reg r := s.high_editWork r
  rw [hports, State.editWriteBack_ports, State.reg_congr hregs, hhigh]
  rfl

/-! ## An invalid digit at the first byte -/

/-- The state after the two loads of a selector have passed. -/
def State.editTwoLoads (s : State) (r : RegNum) (disp : Int) : State :=
  { s with
    accessor := s.accessor.tail.tail
    ports := .load (s.editSourceAddr r disp) 1 :: .load (s.editDst r) 1 :: s.ports }

/-- One turn on a source nibble that is no digit, when its loads pass: two loads, and the step is not committed (R206). -/
theorem State.editStep_of_not_valid {s : State} {r : RegNum} {disp : Int} (hp : s.passes 2) (hvalid : ¬ s.editValid r disp) :
    s.editStep (s.editFill r) disp (s.editWork r) = (s.editTwoLoads r disp, .invalid) := by
  obtain ⟨hselector, hdigit⟩ : isSelector (s.editPattern r) = true ∧ 10 ≤ sourceDigit (ccBit s.psd.cc 1) (s.editSource r disp) := by
    simpa [State.editValid] using hvalid
  obtain ⟨hload, hp1⟩ := State.memRead_of_passes hp (s.editDst r) 1
  obtain ⟨hload2, hp2⟩ := State.memRead_of_passes hp1 (s.editSourceAddr r disp) 1
  have hwrap : (s.memRead (s.editDst r) 1).1.wrap (s.editSourceAddr r disp) = s.editSourceAddr r disp := s.wrap_editSourceAddr r disp
  rw [State.editStep_eq]
  dsimp only
  rw [if_neg (Bool.eq_false_iff.1 hp1.1), if_pos hselector, if_neg (Bool.eq_false_iff.1 hp2.1), if_pos hdigit, hload2, hwrap, hload,
    s.wrap_editDst r, State.editTwoLoads]

/-- EBS on a source nibble that is no digit, with a byte left to process: the two loads, then the ending (R207). -/
theorem execEbs_of_not_valid {r : RegNum} {disp : Int} {s : State} (hp : s.passes 2) (hcount : s.editCount r ≠ 0)
    (hvalid : ¬ s.editValid r disp) :
    execEbs r disp s = ((s.editReads r).editTwoLoads r disp).editFinish r (s.editWork r) s.psd.dm .invalidDigit := by
  obtain ⟨n, hn⟩ := Nat.exists_eq_succ_of_ne_zero hcount
  have hstep : (s.editReads r).editStep (s.editFill r) disp (s.editWork r) = ((s.editReads r).editTwoLoads r disp, .invalid) :=
    State.editStep_of_not_valid (s := s.editReads r) hp hvalid
  rw [execEbs_editReads, hn]
  dsimp only
  rw [((s.editReads r).editLoop_succ (s.editFill r) disp n (s.editWork r)).2.1 (by rw [hstep]), hstep]

/-- Settles O48: the loop ends in its first turn, and the work as it was read is written back. -/
theorem editInvalidDigitEndsEarly : Obligations.EditInvalidDigitEndsEarly := by
  intro r disp s hp hcount hvalid
  have hregs : (((s.editReads r).editTwoLoads r disp).editWriteBack r (s.editWork r)).regs = s.regs :=
    State.editWriteBack_editWork rfl rfl r
  have hrun : exec (.ebs r disp) s =
      ((((s.editReads r).editTwoLoads r disp).editWriteBack r (s.editWork r)).writeCC (keepsCC34 0b10 s.psd.cc)).decimalTrap
        s.psd.dm := by
    rw [← ccOf_invalid_ccBit]
    exact execEbs_of_not_valid hp hcount hvalid
  obtain ⟨t, ht, htregs, hmem, -, hports, hends⟩ :=
    (((s.editReads r).editTwoLoads r disp).editWriteBack r (s.editWork r)).writeCC_decimalTrap_spec (keepsCC34 0b10 s.psd.cc)
  have hfront : SameFront s (((s.editReads r).editTwoLoads r disp).editWriteBack r (s.editWork r)) :=
    ⟨rfl, rfl, rfl, rfl, rfl, rfl, rfl⟩
  refine ⟨t, hrun.trans ht, htregs.trans hregs, hmem, hfront.endsMaskable hends, ?_⟩
  rw [hports, State.editWriteBack_ports, List.filter_append]
  split <;> rfl

end Sys2Proof.Machine
end

