-- ==== Sys2Proof/Proofs/EditOperands.lean ====
section
/-! EBS sees of its registers the two operand words alone (R203, R208): a relation of states, each with its own R, that the loop and the
ending keep. -/

namespace Sys2Proof.Machine

/-- States that EBS with `r` and EBS with `q` do not tell apart: alike in all but registers, the condition code, the record and how the
last command ended; the words of the two pairs alike up to the address fields and the count that EBS writes over; and the registers of
`kept` the same. (`SameLoop` is about one R, and keeps account of the accesses.) -/
structure EditAlike (r q : RegNum) (kept : RegNum → Prop) (s t : State) : Prop where
  rest : ∃ regs cc ports status completion,
    t = { s with regs := regs, psd := { s.psd with cc := cc }, ports := ports, status := status, completion := completion }
  low : ∀ a b, withTopByte (s.withAddrField (t.reg (pairLow q)) a) b = withTopByte (s.withAddrField (s.reg (pairLow r)) a) b
  high : r.toNat % 2 = 0 → ∀ a, s.withAddrField (t.reg q) a = s.withAddrField (s.reg r) a
  regs : ∀ j, kept j → t.reg j = s.reg j

theorem EditAlike.config {r q : RegNum} {kept : RegNum → Prop} {s t : State} (h : EditAlike r q kept s t) : t.config = s.config := by
  obtain ⟨⟨regs, cc, ports, status, completion, rfl⟩, -, -, -⟩ := h
  rfl

/-- A mark is gone from an operand word once its address field is written, and it is the same mark in a register that was the same. -/
theorem EditAlike.editMark {r q : RegNum} {kept : RegNum → Prop} {s t : State} (h : EditAlike r q kept s t) (mark : Option Nat) :
    EditAlike r q kept (s.editMark mark) (t.editMark mark) := by
  have hmarked (x : Word) (a : Nat) : (s.editMark mark).withAddrField x a = s.withAddrField x a := by
    cases mark <;> rfl
  have hword (j : RegNum) (a : Nat) : s.withAddrField ((t.editMark mark).reg j) a = s.withAddrField (t.reg j) a := by
    rw [← State.withAddrField_congr h.config, ← State.withAddrField_congr h.config, State.withAddrField_reg_editMark]
  refine ⟨?_, fun a b => ?_, fun heven a => ?_, fun j hj => ?_⟩
  · obtain ⟨regs, cc, ports, status, completion, rfl⟩ := h.rest
    cases mark with
    | none => exact ⟨regs, cc, ports, status, completion, rfl⟩
    | some a => exact ⟨_, cc, _, status, completion, rfl⟩
  · rw [hmarked, hmarked, hword, State.withAddrField_reg_editMark, h.low]
  · rw [hmarked, hmarked, hword, State.withAddrField_reg_editMark, h.high heven]
  · have hreg := h.regs j hj
    cases mark with
    | none => exact hreg
    | some a =>
      rw [State.editMark, State.editMark, State.reg_writeReg, State.reg_writeReg, State.withAddrField_congr h.config]
      split_ifs with h1
      · rw [← h1, hreg]
      · exact hreg

/-- The loop does not see what `EditAlike` leaves unsaid. -/
theorem EditAlike.unseen (r q : RegNum) (kept : RegNum → Prop) : LoopUnseen (EditAlike r q kept) where
  view := by
    rintro s _ ⟨⟨regs, cc, ports, status, completion, rfl⟩, -, -, -⟩
    exact ⟨rfl, rfl, rfl⟩
  memRead := by
    rintro s _ ⟨⟨regs, cc, ports, status, completion, rfl⟩, hlow, hhigh, hregs⟩ a n
    exact ⟨⟨regs, cc, _, status, completion, rfl⟩, hlow, hhigh, hregs⟩
  memWrite := by
    rintro s _ ⟨⟨regs, cc, ports, status, completion, rfl⟩, hlow, hhigh, hregs⟩ a bytes
    exact ⟨⟨regs, cc, _, status, completion, rfl⟩, hlow, hhigh, hregs⟩
  editMark h mark := h.editMark mark

/-- Two states in which EBS with `r` and EBS with `q` have ended alike: the same but for registers and the record, with the same words in
their pairs and in the registers of `kept`. -/
structure EndsAlike (r q : RegNum) (kept : RegNum → Prop) (s t : State) : Prop where
  rest : t = { s with regs := t.regs, ports := t.ports }
  low : t.reg (pairLow q) = s.reg (pairLow r)
  high : r.toNat % 2 = 0 → t.reg q = s.reg r
  regs : ∀ j, kept j → t.reg j = s.reg j

/-- Registers that are in neither pair. -/
def OutsidePairs (r q j : RegNum) : Prop := (j ≠ r ∧ j ≠ pairLow r) ∧ j ≠ q ∧ j ≠ pairLow q

/-- The same work written back gives the two pairs the same words. -/
theorem EditAlike.reg_editWriteBack {r q : RegNum} {kept : RegNum → Prop} {s t : State} (h : EditAlike r q kept s t)
    (hq : q.toNat % 2 = 0) (hkept : ∀ j, kept j → OutsidePairs r q j) (w : EditWork) :
    (t.editWriteBack q w).reg (pairLow q) = (s.editWriteBack r w).reg (pairLow r) ∧
      (r.toNat % 2 = 0 → (t.editWriteBack q w).reg q = (s.editWriteBack r w).reg r) ∧
      ∀ j, kept j → (t.editWriteBack q w).reg j = (s.editWriteBack r w).reg j := by
  refine ⟨?_, fun heven => ?_, fun j hj => ?_⟩
  · rw [State.reg_editWriteBack, State.reg_editWriteBack, if_pos rfl, if_pos rfl, State.withAddrField_congr h.config, h.low]
  · rw [State.reg_editWriteBack, State.reg_editWriteBack, if_neg (pairLow_ne hq).symm, if_pos rfl, if_neg (pairLow_ne heven).symm,
      if_pos rfl, State.withAddrField_congr h.config, h.high heven]
  · obtain ⟨⟨hr, hr1⟩, hq0, hq1⟩ := hkept j hj
    rw [State.reg_editWriteBack, State.reg_editWriteBack, if_neg hq1, if_neg hq0, if_neg hr1, if_neg hr, h.regs j hj]

/-- What the end of EBS makes of states that the loop did not tell apart. -/
theorem EditAlike.editFinish {r q : RegNum} {kept : RegNum → Prop} {s t : State} (h : EditAlike r q kept s t)
    (hq : q.toNat % 2 = 0) (hkept : ∀ j, kept j → OutsidePairs r q j) (w : EditWork) (dm : Bool) (ending : EditEnding) :
    ∃ s' t', s.editFinish r w dm ending = .next s' ∧ t.editFinish q w dm ending = .next t' ∧ EndsAlike r q kept s' t' := by
  obtain ⟨hlow, hhigh, hregs⟩ := h.reg_editWriteBack hq hkept w
  obtain ⟨regs, cc, ports, status, completion, rfl⟩ := h.rest
  cases ending with
  | exhausted | trapPending => exact ⟨_, _, rfl, rfl, rfl, hlow, hhigh, hregs⟩
  | invalidDigit =>
    cases dm with
    | false | true => exact ⟨_, _, rfl, rfl, rfl, hlow, hhigh, hregs⟩

/-! ## From the operand words to the work -/

section

variable {s t : State} {r q : RegNum} (hconfig : t.config = s.config) (hhigh : t.reg q = s.reg r)
  (hlow : t.reg (pairLow q) = s.reg (pairLow r))
include hhigh

theorem State.editFill_congr : t.editFill q = s.editFill r := by
  rw [← State.topByte_reg, ← State.topByte_reg, hhigh]

include hlow hconfig

/-- EBS starts with the same work from the same operand words and the same condition code (R203). -/
theorem State.editWork_congr (hcc : t.psd.cc = s.psd.cc) : t.editWork q = s.editWork r := by
  rw [← State.editStart_eq, ← State.editStart_eq, hhigh, hlow, hcc, State.editStart_congr hconfig]

end

/-- EBS from some work on: the loop and its ending. -/
def State.editRun (s : State) (fill : Byte) (disp : Int) (r : RegNum) (dm : Bool) (w : EditWork) : Result :=
  let out := State.editLoop fill disp w.count s w
  out.1.editFinish r out.2.1 dm out.2.2

theorem execEbs_editRun (r : RegNum) (disp : Int) (s : State) :
    execEbs r disp s = (s.editReads r).editRun (s.editFill r) disp r s.psd.dm (s.editWork r) := execEbs_editReads r disp s

/-- EBS from the same work on, on states that it does not tell apart. -/
theorem EditAlike.editRun {r q : RegNum} {kept : RegNum → Prop} {s t : State} (h : EditAlike r q kept s t) (hq : q.toNat % 2 = 0)
    (hkept : ∀ j, kept j → OutsidePairs r q j) (fill : Byte) (disp : Int) (dm : Bool) (w : EditWork) :
    ∃ s' t', s.editRun fill disp r dm w = .next s' ∧ t.editRun fill disp q dm w = .next t' ∧ EndsAlike r q kept s' t' := by
  obtain ⟨hout, hreport⟩ := (EditAlike.unseen r q kept).editLoop h fill disp w.count w
  rw [State.editRun, State.editRun, hreport]
  exact hout.editFinish hq hkept _ _ _

/-! ## Any R and an even R above 0 -/

/-- The state whose pair of `q` holds the operand words of `r`. -/
def State.movedPair (s : State) (r q : RegNum) : State := (s.pokeReg q (s.reg r)).pokeReg (pairLow q) (s.reg (pairLow r))

theorem State.reg_movedPair (s : State) (r q j : RegNum) :
    (s.movedPair r q).reg j = if j = pairLow q then s.reg (pairLow r) else if j = q then s.reg r else s.reg j := by
  rw [State.movedPair, State.reg_pokeReg, State.reg_pokeReg]

/-- x[1] is in no pair of an R above 1. -/
theorem one_outsidePairs {r q : RegNum} (hr : 1 < r.toNat) (hq : 1 < q.toNat) : OutsidePairs r q 1 := by
  have hpair (k : RegNum) (hk : 1 < k.toNat) : 1 ≠ k ∧ 1 ≠ pairLow k := by
    revert k
    decide
  exact ⟨hpair r hr, hpair q hq⟩

/-- Settles O49: the loop and the ending see the operand words alone, and the mark is the same in an x[1] that is no operand. -/
theorem editUsesOnlyItsOperandWords : Obligations.EditUsesOnlyItsOperandWords := by
  intro r q disp s heven hzero
  have hq : 1 < q.toNat := by
    have hpos : q.toNat ≠ 0 := fun h => hzero (BitVec.eq_of_toNat_eq h)
    omega
  have hhigh : (s.movedPair r q).reg q = s.reg r := by
    rw [State.reg_movedPair, if_neg (pairLow_ne heven).symm, if_pos rfl]
  have hlow : (s.movedPair r q).reg (pairLow q) = s.reg (pairLow r) := by
    rw [State.reg_movedPair, if_pos rfl]
  have hkept : ∀ j, (1 < r.toNat ∧ j = 1) → OutsidePairs r q j := by
    rintro j ⟨hr, rfl⟩
    exact one_outsidePairs hr hq
  have halike : EditAlike r q (fun j => 1 < r.toNat ∧ j = 1) (s.editReads r) ((s.movedPair r q).editReads q) := by
    refine ⟨⟨_, _, _, _, _, rfl⟩, fun a b => ?_, fun _ a => ?_, fun j hj => ?_⟩
    · exact congrArg (fun x => withTopByte ((s.editReads r).withAddrField x a) b) hlow
    · exact congrArg (fun x => (s.editReads r).withAddrField x a) hhigh
    · obtain ⟨-, hq0, hq1⟩ := hkept j hj
      change (s.movedPair r q).reg j = s.reg j
      rw [State.reg_movedPair, if_neg hq1, if_neg hq0]
  have hwork : (s.movedPair r q).editWork q = s.editWork r := State.editWork_congr rfl hhigh hlow rfl
  have hrun : execEbs q disp (s.movedPair r q) =
      ((s.movedPair r q).editReads q).editRun (s.editFill r) disp q s.psd.dm (s.editWork r) := by
    rw [execEbs_editRun, State.editFill_congr hhigh, hwork]
    rfl
  obtain ⟨t, u, ht, hu, hrest, hendLow, hendHigh, hendRegs⟩ :=
    halike.editRun heven hkept (s.editFill r) disp s.psd.dm (s.editWork r)
  have ht' : exec (.ebs r disp) s = .next t := (execEbs_editRun r disp s).trans ht
  have hu' : exec (.ebs q disp) (s.movedPair r q) = .next u := hrun.trans hu
  refine ⟨t, u, ht', hu', ?_, ?_, ?_, ?_, ?_, ?_, hendLow.symm, fun hr => (hendHigh hr).symm,
    fun hr => (hendRegs 1 ⟨hr, rfl⟩).symm⟩ <;> rw [hrest]

end Sys2Proof.Machine
end

