-- ==== Sys2Proof/Proofs/EditResume.lean ====
section
/-! An EBS that a pending trap ended and that is presented again (R207, R286): up to the flagged transaction the loop goes as without
verdicts, the turn it ends in has done nothing, and the work written back is the work read again. -/

namespace Sys2Proof.Machine

/-! ## One flag, the last verdict -/

/-- TRAPFLAG is clear, and the accessor's verdicts raise it once, by the last of them; a store so flagged writes nothing. -/
def State.FlaggedLast (s : State) : Prop := s.trapFlag = false ∧ ∃ n, s.accessor = List.replicate n .pass ++ [.flag false]

/-- The state with TRAPFLAG clear and an accessor that never raises it. -/
def State.unflagged (s : State) : State := { s with trapFlag := false, accessor := [] }

theorem State.unflagged_trapFlag (s : State) : s.unflagged.trapFlag = false := rfl

/-- A transaction or a turn that met the flag: the verdicts are used up, and without the flag nothing but the record has changed. -/
def MeetsFlag (s u : State) : Prop := u.accessor = [] ∧ s.unflagged = { u.unflagged with ports := s.ports }

/-- A load from a state with one flag to come: it meets the flag, or it passes and is the load made without verdicts. -/
theorem State.FlaggedLast.memRead {s : State} (h : s.FlaggedLast) (a n : Nat) :
    s.unflagged = { (s.memRead a n).1.unflagged with ports := s.ports } ∧
      if (s.memRead a n).1.trapFlag then (s.memRead a n).1.accessor = []
      else (s.memRead a n).1.FlaggedLast ∧ (s.unflagged.memRead a n).1 = (s.memRead a n).1.unflagged := by
  obtain ⟨hclear, m, haccessor⟩ := h
  refine ⟨rfl, ?_⟩
  rw [State.memRead_trapFlag, State.memRead_accessor, State.verdict, hclear, haccessor]
  cases m with
  | zero => rfl
  | succ m => exact ⟨⟨by simp [hclear, State.verdict, haccessor, List.replicate_succ, Verdict.raises], m,
      by simp [haccessor, List.replicate_succ]⟩, rfl⟩

/-- A store from a state with one flag to come: it meets the flag and writes nothing, or it passes and is the store made without
verdicts. -/
theorem State.FlaggedLast.memWrite {s : State} (h : s.FlaggedLast) (a : Nat) (bytes : List Byte) :
    if (s.memWrite a bytes).trapFlag then MeetsFlag s (s.memWrite a bytes)
    else (s.memWrite a bytes).FlaggedLast ∧ s.unflagged.memWrite a bytes = (s.memWrite a bytes).unflagged := by
  obtain ⟨hclear, m, haccessor⟩ := h
  cases m with
  | zero =>
    have hverdict : s.verdict = .flag false := by rw [State.verdict, haccessor]; rfl
    rw [State.memWrite_trapFlag, hverdict, Verdict.raises, Bool.or_true, if_pos rfl]
    refine ⟨by rw [State.memWrite_accessor, haccessor]; rfl, ?_⟩
    simp [State.unflagged, State.memWrite, hverdict, Verdict.stores]
  | succ m =>
    have hverdict : s.verdict = .pass := by rw [State.verdict, haccessor]; rfl
    have hflag : (s.memWrite a bytes).trapFlag = false := by rw [State.memWrite_trapFlag, hverdict, hclear]; rfl
    rw [hflag]
    refine ⟨⟨hflag, m, by rw [State.memWrite_accessor, haccessor]; rfl⟩, ?_⟩
    have hnone : s.unflagged.verdict = .pass := rfl
    rw [State.memWrite, hnone, State.memWrite, hverdict]
    rfl

/-! ## One turn with the flag to come -/

/-- A turn `x` with the flag to come, beside the turn `y` made without verdicts: it met the flag, or it went as the other and the flag is
still to come. -/
def TurnResumes (s : State) (x y : State × EditStep) : Prop :=
  (x.2 = .trapPending ∧ MeetsFlag s x.1) ∨ (x.2 ≠ .trapPending ∧ x.1.FlaggedLast ∧ y = (x.1.unflagged, x.2))

namespace State.FlaggedLast

variable {s : State} (h : s.FlaggedLast)
include h

theorem polledLoad (a : Nat) {k k' : State → Byte → State × EditStep}
    (hk : ∀ {u : State}, u.FlaggedLast → u.config = s.config → ∀ b, TurnResumes u (k u b) (k' u.unflagged b)) :
    TurnResumes s (s.polledLoad a k) (s.unflagged.polledLoad a k') := by
  obtain ⟨hsame, hload⟩ := h.memRead a 1
  rw [State.polledLoad, State.polledLoad]
  by_cases hflag : (s.memRead a 1).1.trapFlag = true
  · rw [if_pos hflag] at hload ⊢
    exact .inl ⟨rfl, hload, hsame⟩
  · rw [if_neg hflag] at hload ⊢
    obtain ⟨hlast, hother⟩ := hload
    rw [hother, State.unflagged_trapFlag, if_neg Bool.false_ne_true]
    obtain ⟨hend, hused, hnone⟩ | hgoes := hk hlast rfl (s.mem.read (s.wrap a))
    · exact .inl ⟨hend, hused, by rw [hsame, hnone]⟩
    · exact .inr hgoes

theorem editMark (mark : Option Nat) : (s.editMark mark).FlaggedLast ∧ s.unflagged.editMark mark = (s.editMark mark).unflagged := by
  cases mark with
  | none => exact ⟨h, rfl⟩
  | some a => exact ⟨h, rfl⟩

theorem editCommit (w : EditWork) (act : EditAction) : TurnResumes s (s.editCommit w act) (s.unflagged.editCommit w act) := by
  have hadvance : act.work.advance s.unflagged = act.work.advance s := rfl
  rw [State.editCommit_eq, State.editCommit_eq, hadvance]
  cases act.store with
  | none =>
    obtain ⟨hlast, hother⟩ := h.editMark act.mark
    refine .inr ⟨EditStep.noConfusion, hlast, ?_⟩
    exact congrArg (·, EditStep.committed (act.work.advance s)) hother
  | some b =>
    have hstore := h.memWrite w.dst [b]
    simp only [State.editStore, Option.isSome_some, Bool.true_and]
    by_cases hflag : (s.memWrite w.dst [b]).trapFlag = true
    · rw [if_pos hflag] at hstore ⊢
      exact .inl ⟨rfl, hstore⟩
    · rw [if_neg hflag] at hstore ⊢
      obtain ⟨hlast, hother⟩ := hstore
      obtain ⟨hmarked, hsame⟩ := hlast.editMark act.mark
      rw [hother, State.unflagged_trapFlag, if_neg Bool.false_ne_true, hsame]
      exact .inr ⟨EditStep.noConfusion, hmarked, rfl⟩

theorem editStep (fill : Byte) (disp : Int) (w : EditWork) :
    TurnResumes s (s.editStep fill disp w) (s.unflagged.editStep fill disp w) := by
  rw [State.editStep_polled, State.editStep_polled]
  refine h.polledLoad w.dst fun {u} hu _ p => ?_
  split
  · refine hu.polledLoad _ fun {v} hv _ sb => ?_
    have hdigit (d : Nibble) : editDigit v.unflagged fill p sb d w = editDigit v fill p sb d w := rfl
    rw [hdigit]
    generalize (if w.right = true then digitOf sb else zoneOf sb : Nibble) = d
    split
    · exact .inr ⟨EditStep.noConfusion, hv, rfl⟩
    · exact hv.editCommit _ _
  · exact hu.editCommit _ _

end State.FlaggedLast

/-! ## The loop with the flag to come -/

theorem State.editStep_count {s : State} {fill : Byte} {disp : Int} {w w1 : EditWork}
    (h : (s.editStep fill disp w).2 = .committed w1) : w1.count = w.count - 1 :=
  ((s.editStep_spec fill disp w).committed w1 h).2.2

/-- A loop that the flag ended has done what the loop without verdicts does up to where it goes on from the work that is left (R206). -/
theorem State.FlaggedLast.editLoop {s : State} (h : s.FlaggedLast) (fill : Byte) (disp : Int) {n : Nat} {w : EditWork} (hn : w.count = n)
    (hend : (State.editLoop fill disp n s w).2.2 = .trapPending) :
    (State.editLoop fill disp n s w).1.accessor = [] ∧
      ∃ ports, State.editLoop fill disp n s.unflagged w =
        State.editLoop fill disp (State.editLoop fill disp n s w).2.1.count
          { (State.editLoop fill disp n s w).1.unflagged with ports := ports } (State.editLoop fill disp n s w).2.1 := by
  induction n generalizing s w with
  | zero => cases hend
  | succ n ih =>
    have hturn := h.editStep fill disp w
    obtain ⟨hcommitted, hinvalid, htrap⟩ := State.editLoop_succ fill disp n s w
    obtain ⟨hstop, hused, hnone⟩ | ⟨hgoes, hlast, hother⟩ := hturn
    · rw [htrap hstop]
      exact ⟨hused, s.ports, by rw [hn, ← hnone]⟩
    · cases hstep : (s.editStep fill disp w).2 with
      | trapPending => exact absurd hstep hgoes
      | invalid =>
        rw [hinvalid hstep] at hend
        cases hend
      | committed w1 =>
        have hcount : w1.count = n := by rw [State.editStep_count hstep, hn, Nat.add_sub_cancel]
        rw [hstep] at hother
        rw [hcommitted w1 hstep] at hend ⊢
        rw [(s.unflagged.editLoop_succ fill disp n w).1 w1 (by rw [hother]), hother]
        exact ih hlast hcount hend

/-! ## The work stays within its fields -/

/-- The work fits the fields of the registers it is written to (R203). -/
structure EditWork.Fits (w : EditWork) (bits : Nat) : Prop where
  sbase : w.sbase < 2 ^ bits
  dst : w.dst < 2 ^ bits
  count : w.count < 256

theorem State.editWork_fits (s : State) (r : RegNum) : (s.editWork r).Fits s.config.addrBits :=
  ⟨s.wrap_lt _, s.wrap_lt _, s.editCount_lt r⟩

theorem EditWork.after_sbase_lt {w : EditWork} {s : State} (h : w.sbase < 2 ^ s.config.addrBits) (e : EditEffect) :
    (w.after s e).sbase < 2 ^ s.config.addrBits := by
  rw [EditWork.after]
  dsimp only
  split
  · exact s.wrap_lt _
  · exact h

/-- A committed step goes on with the work that its pattern byte asked for. -/
theorem State.editCommit_committed {s : State} {w w1 : EditWork} {act : EditAction} (h : (s.editCommit w act).2 = .committed w1) :
    w1 = act.work.advance s := by
  rw [State.editCommit_eq] at h
  split at h
  · cases h
  · exact (EditStep.committed.inj h).symm

theorem State.editStep_sbase_lt {s : State} {fill : Byte} {disp : Int} {w w1 : EditWork} (hw : w.sbase < 2 ^ s.config.addrBits)
    (h : (s.editStep fill disp w).2 = .committed w1) : w1.sbase < 2 ^ s.config.addrBits := by
  rw [State.editStep_polled, State.polledLoad] at h
  split at h
  · cases h
  split at h
  · rw [State.polledLoad] at h
    split at h
    · cases h
    generalize hd : (if w.right = true then digitOf _ else zoneOf _ : Nibble) = d at h
    split at h
    · cases h
    rw [State.editCommit_committed h, ← hd, editDigit_eq]
    exact EditWork.after_sbase_lt hw _
  · rw [State.editCommit_committed h, editOther_eq s]
    exact EditWork.after_sbase_lt hw _

theorem State.editStep_fits {s : State} {fill : Byte} {disp : Int} {w w1 : EditWork} (hw : w.Fits s.config.addrBits)
    (h : (s.editStep fill disp w).2 = .committed w1) : w1.Fits s.config.addrBits := by
  obtain ⟨-, hdst, hcount⟩ := (s.editStep_spec fill disp w).committed w1 h
  exact ⟨State.editStep_sbase_lt hw.sbase h, hdst ▸ s.wrap_lt _, hcount ▸ (Nat.sub_le _ _).trans_lt hw.count⟩

theorem State.editLoop_fits (fill : Byte) (disp : Int) (n : Nat) {s : State} {w : EditWork} (hw : w.Fits s.config.addrBits) :
    (State.editLoop fill disp n s w).2.1.Fits s.config.addrBits := by
  induction n generalizing s w with
  | zero => exact hw
  | succ n ih =>
    obtain ⟨hcommitted, hinvalid, htrap⟩ := State.editLoop_succ fill disp n s w
    cases hstep : (s.editStep fill disp w).2 with
    | trapPending => rwa [htrap hstep]
    | invalid => rwa [hinvalid hstep]
    | committed w1 =>
      have hconfig : (s.editStep fill disp w).1.config = s.config := (s.editStep_spec fill disp w).keeps.config
      rw [hcommitted w1 hstep, ← hconfig]
      exact ih (hconfig ▸ State.editStep_fits hw hstep)

/-! ## The work written back and read again -/

theorem State.pairLow_of_writtenBack {u t : State} {r : RegNum} {w : EditWork} (hregs : t.regs = (u.editWriteBack r w).regs) :
    t.reg (pairLow r) = withTopByte (u.withAddrField (u.reg (pairLow r)) w.dst) (BitVec.ofNat 8 w.count) := by
  rw [State.reg_congr hregs, State.reg_editWriteBack, if_pos rfl]

section

variable {u t : State} {r : RegNum} {w : EditWork} (heven : r.toNat % 2 = 0) (hconfig : t.config = u.config)
  (hregs : t.regs = (u.editWriteBack r w).regs)
include heven hregs

theorem State.reg_of_writtenBack : t.reg r = u.withAddrField (u.reg r) w.sbase := by
  rw [State.reg_congr hregs, State.reg_editWriteBack, if_neg (pairLow_ne heven).symm, if_pos rfl]

/-- The fill character stays (R203). -/
theorem State.editFill_of_writtenBack : t.editFill r = u.editFill r := by
  rw [← State.topByte_reg, ← State.topByte_reg, State.reg_of_writtenBack heven hregs, State.topByte_withAddrField]

include hconfig

/-- EBS starts with the work that was written back (R even; R203, R207). -/
theorem State.editWork_of_writtenBack (hcc : t.psd.cc = ccOf w.right w.sig w.nz w.neg) (hw : w.Fits u.config.addrBits) :
    t.editWork r = w := by
  obtain ⟨hright, hsig, hnz, hneg⟩ := ccBit_append w.right w.sig w.nz w.neg
  have hhigh := State.reg_of_writtenBack heven hregs
  have hlow := State.pairLow_of_writtenBack hregs
  have hsbase : t.editBase r = w.sbase := by
    change t.addrField (t.reg r) = _
    rw [State.addrField_congr hconfig, hhigh, State.addrField_withAddrField]
    exact Nat.mod_eq_of_lt hw.sbase
  have hdst : t.editDst r = w.dst := by
    change t.addrField (t.reg (pairLow r)) = _
    rw [State.addrField_congr hconfig, hlow, State.addrField_withTopByte, State.addrField_withAddrField]
    exact Nat.mod_eq_of_lt hw.dst
  have hcount : t.editCount r = w.count := by
    change (t.reg (pairLow r)).toNat / 2 ^ 24 = _
    rw [← topByte_toNat, hlow, topByte_withTopByte, BitVec.toNat_ofNat, Nat.mod_eq_of_lt hw.count]
  rw [State.editWork, hsbase, hdst, hcount, hcc, ccOf, hright, hsig, hnz, hneg]

end

/-! ## Presented again -/

/-- The state in which EBS presented again starts: the progress and the condition code written back, the block idle after the abort,
TRAPFLAG cleared (R207, R286). -/
def State.resumed (u : State) (r : RegNum) (w : EditWork) : State :=
  { (u.editWriteBack r w).writeCC (ccOf w.right w.sig w.nz w.neg) with
    status := .idle
    completion := some .aborted
    trapFlag := false }

/-- EBS does not tell the state it stopped in from the one it starts in again. -/
theorem editAlike_resumed {u : State} {r : RegNum} (heven : r.toNat % 2 = 0) (w : EditWork) (hused : u.accessor = [])
    (ports : List PortEvent) :
    EditAlike r r (fun j => j ≠ r ∧ j ≠ pairLow r) { u.unflagged with ports := ports } ((u.resumed r w).editReads r) where
  rest := by
    refine ⟨(u.editWriteBack r w).regs, ccOf w.right w.sig w.nz w.neg, ((u.resumed r w).editReads r).ports, .idle, some .aborted, ?_⟩
    rw [State.unflagged, ← hused]
    rfl
  low a b := by
    have hlow : ((u.resumed r w).editReads r).reg (pairLow r) = _ := State.pairLow_of_writtenBack (u := u) (w := w) rfl
    rw [hlow]
    exact (u.withTopByte_withAddrField_withTopByte _ _ _ _).trans (by rw [State.withAddrField_withAddrField]; rfl)
  high _ a := by
    have hhigh : ((u.resumed r w).editReads r).reg r = _ := State.reg_of_writtenBack (u := u) (w := w) heven rfl
    rw [hhigh]
    exact u.withAddrField_withAddrField _ _ _
  regs j hj := by
    change (u.editWriteBack r w).reg j = u.reg j
    rw [State.reg_editWriteBack, if_neg hj.2, if_neg hj.1]

/-- EBS presented again goes on from the work that was written back (R207). -/
theorem execEbs_resumed {s u : State} {r : RegNum} {w : EditWork} (heven : r.toNat % 2 = 0) (hkeeps : EditKeeps (s.editReads r) u)
    (hfits : w.Fits s.config.addrBits) (disp : Int) :
    execEbs r disp (u.resumed r w) = ((u.resumed r w).editReads r).editRun (s.editFill r) disp r s.psd.dm w := by
  have hwork : (u.resumed r w).editWork r = w :=
    State.editWork_of_writtenBack (u := u) heven rfl rfl rfl (by rw [hkeeps.config]; exact hfits)
  have hne : r ≠ 1 := by
    rintro rfl
    exact absurd heven (by decide)
  have hfill : (u.resumed r w).editFill r = s.editFill r := by
    rw [State.editFill_of_writtenBack (u := u) (t := u.resumed r w) heven rfl, State.editFill_congr (s := s) (hkeeps.regs r hne)]
  have hmask : (u.resumed r w).psd.dm = s.psd.dm := (congrArg Psd.dm hkeeps.psd :)
  rw [execEbs_editRun, hwork, hfill, hmask]

/-- EBS that has ended aborted was ended by a pending trap, and has written its progress back (R207). -/
theorem State.editFinish_aborted {u t : State} {r : RegNum} {w : EditWork} {dm : Bool} {ending : EditEnding}
    (h : u.editFinish r w dm ending = .next t) (ha : t.completion = some .aborted) :
    ending = .trapPending ∧ { t with trapFlag := false } = u.resumed r w := by
  cases ending with
  | trapPending =>
    cases h
    exact ⟨rfl, rfl⟩
  | exhausted =>
    cases h
    cases ha
  | invalidDigit =>
    cases dm with
    | false | true =>
      cases h
      cases ha

/-- Registers alike in the pair and outside it are alike. -/
theorem EndsAlike.sameButPorts {r : RegNum} (heven : r.toNat % 2 = 0) {s t : State}
    (h : EndsAlike r r (fun j => j ≠ r ∧ j ≠ pairLow r) s t) : SameButPorts s t := by
  refine sameButPorts_of_regs h.rest (regs_ext fun j => ?_)
  change t.reg j = s.reg j
  by_cases hr : j = r
  · rw [hr, h.high heven]
  · by_cases hlow : j = pairLow r
    · rw [hlow, h.low]
    · exact h.regs j ⟨hr, hlow⟩

/-- Settles O50: without verdicts the loop comes to where the flag stopped it and goes on from there, and EBS presented again starts from
the same work in a state that the loop does not tell apart. -/
theorem abortedEditCanBeResumed : Obligations.AbortedEditCanBeResumed := by
  intro r disp s t n heven hclear haccessor ht haborted
  have hlast : (s.editReads r).FlaggedLast := ⟨hclear, n, haccessor⟩
  have hrun : (s.editReads r).editRun (s.editFill r) disp r s.psd.dm (s.editWork r) = .next t := (execEbs_editRun r disp s).symm.trans ht
  have hfits := State.editLoop_fits (s.editFill r) disp (s.editWork r).count (s := s.editReads r) (s.editWork_fits r)
  obtain ⟨hkeeps, -, -⟩ := State.editLoop_spec (s.editFill r) disp (s.editWork r).count (s.editReads r) (s.editWork r) (.inr hclear)
  obtain ⟨hending, hresumed⟩ := State.editFinish_aborted hrun haborted
  obtain ⟨hused, ports, hloop⟩ := hlast.editLoop (s.editFill r) disp rfl hending
  generalize State.editLoop (s.editFill r) disp (s.editWork r).count (s.editReads r) (s.editWork r) = out at *
  obtain ⟨u, w, ending⟩ := out
  have hagain : exec (.ebs r disp) { t with trapFlag := false } =
      ((u.resumed r w).editReads r).editRun (s.editFill r) disp r s.psd.dm w := by
    rw [hresumed]
    exact execEbs_resumed heven hkeeps hfits disp
  have hwhole : exec (.ebs r disp) { s with accessor := [] } =
      State.editRun { u.unflagged with ports := ports } (s.editFill r) disp r s.psd.dm w := by
    have hstart : State.editReads { s with accessor := [] } r = (s.editReads r).unflagged := by
      rw [State.unflagged, ← hclear]
      rfl
    refine (execEbs_editRun r disp _).trans ?_
    rw [hstart]
    exact congrArg (fun out : State × EditWork × EditEnding => out.1.editFinish r out.2.1 s.psd.dm out.2.2) hloop
  obtain ⟨s', t', hs', ht', hends⟩ := (editAlike_resumed heven w hused ports).editRun heven (fun j hj => ⟨hj, hj⟩) (s.editFill r) disp
    s.psd.dm w
  rw [hagain, hwhole, hs', ht']
  exact (hends.sameButPorts heven).symm

end Sys2Proof.Machine
end

