-- ==== Sys2Proof/Proofs/FloatWord.lean ====
section
/-! What both converters work with: `floorShift` as the floor of a number scaled by a power of two, known by what it is at least; and the
fields of a floating word, read from its magnitude and put together again (R220 to R223, R235). -/

namespace Sys2Proof.Machine

/-! ## Comparisons with powers of two -/

/-- `m * 2^e` is at least `2^n` exactly when its leading bit stands at `n` or above. -/
theorem two_zpow_le_iff {m : Nat} (hm : 0 < m) (e n : Int) : (2 : ℚ) ^ n ≤ (m : ℚ) * 2 ^ e ↔ n ≤ e + (m.log2 : Int) := by
  obtain ⟨hlow, hhigh⟩ := log2_bounds hm e
  constructor
  · intro h
    have := (zpow_lt_zpow_iff_right₀ (one_lt_two (α := ℚ))).mp (h.trans_lt hhigh)
    omega
  · exact fun h => (zpow_le_zpow_right₀ one_le_two h).trans hlow

theorem sixteen_zpow_le_iff {m : Nat} (hm : 0 < m) (e n : Int) : (16 : ℚ) ^ n ≤ (m : ℚ) * 2 ^ e ↔ 4 * n ≤ e + (m.log2 : Int) := by
  rw [← two_zpow_le_iff hm, zpow_mul]
  norm_num

/-! ## The floor of a scaled number -/

/-- A natural number is at most the floor when it is at most the number. -/
theorem le_floorShift_iff (n m : Nat) (k : Int) : n ≤ floorShift m k ↔ (n : ℚ) ≤ (m : ℚ) * 2 ^ k := by
  obtain ⟨hlow, hhigh⟩ := floorShift_spec m k
  constructor
  · exact fun h => (Nat.cast_le.mpr h).trans hlow
  · intro h
    have hlt : (n : ℚ) < ((floorShift m k + 1 : Nat) : ℚ) := by push_cast; exact h.trans_lt hhigh
    exact Nat.lt_succ_iff.mp (Nat.cast_lt.mp hlt)

theorem two_pow_le_floorShift_iff {m : Nat} (hm : 0 < m) (n : Nat) (k : Int) : 2 ^ n ≤ floorShift m k ↔ (n : Int) ≤ k + (m.log2 : Int) := by
  rw [le_floorShift_iff, ← two_zpow_le_iff hm, zpow_natCast]
  push_cast
  rfl

theorem floorShift_eq_zero_iff {m : Nat} (hm : 0 < m) (k : Int) : floorShift m k = 0 ↔ k + (m.log2 : Int) < 0 := by
  have := two_pow_le_floorShift_iff hm 0 k
  omega

theorem floorShift_pos_and_lt {m : Nat} (hm : 0 < m) {k : Int} {n : Nat} (hlow : 0 ≤ k + (m.log2 : Int)) (hhigh : k + (m.log2 : Int) < n) :
    0 < floorShift m k ∧ floorShift m k < 2 ^ n := by
  have hpos := two_pow_le_floorShift_iff hm 0 k
  have hlt := two_pow_le_floorShift_iff hm n k
  omega

/-- A shift that keeps the leading bit moves it by the shift. -/
theorem log2_floorShift {m : Nat} (hm : 0 < m) {k : Int} (hk : 0 ≤ k + (m.log2 : Int)) : ((floorShift m k).log2 : Int) = k + m.log2 := by
  have hne : floorShift m k ≠ 0 := by
    rw [Ne, floorShift_eq_zero_iff hm]
    omega
  have hlog : (floorShift m k).log2 = (k + m.log2).toNat := by
    rw [Nat.log2_eq_iff hne, ← not_le, two_pow_le_floorShift_iff hm, two_pow_le_floorShift_iff hm]
    omega
  omega

theorem floorShift_zero (m : Nat) : floorShift m 0 = m := by
  simp [floorShift]

/-- A shift to the left loses nothing. -/
theorem floorShift_of_nonneg (m : Nat) {k : Int} (hk : 0 ≤ k) : (floorShift m k : ℚ) = (m : ℚ) * 2 ^ k := by
  rw [floorShift, if_pos hk, zpow_toNat hk]
  push_cast
  rfl

/-- A shift that follows one to the left acts on the number itself. -/
theorem floorShift_floorShift (m : Nat) {j : Int} (hj : 0 ≤ j) (k : Int) : floorShift (floorShift m j) k = floorShift m (j + k) := by
  refine eq_of_forall_le_iff fun c => ?_
  rw [le_floorShift_iff, le_floorShift_iff, floorShift_of_nonneg m hj, zpow_add₀ two_ne_zero, mul_assoc]

/-- Bits dropped after the floor was taken are dropped as by one floor. -/
theorem floorShift_div (m n : Nat) (k : Int) : floorShift m k / 2 ^ n = floorShift m (k - n) := by
  refine eq_of_forall_le_iff fun c => ?_
  have hpos : (0 : ℚ) < 2 ^ n := by positivity
  rw [Nat.le_div_iff_mul_le (by positivity), le_floorShift_iff, le_floorShift_iff, zpow_sub₀ two_ne_zero, zpow_natCast, ← mul_div_assoc,
    le_div_iff₀ hpos]
  push_cast
  rfl

/-- The chopped value: `m * 2^e` less the bits below position `e - k`. -/
theorem floorShift_chops (m : Nat) (k e : Int) :
    (floorShift m k : ℚ) * 2 ^ (e - k) ≤ (m : ℚ) * 2 ^ e ∧ (m : ℚ) * 2 ^ e < ((floorShift m k : ℚ) + 1) * 2 ^ (e - k) := by
  obtain ⟨hlow, hhigh⟩ := floorShift_spec m k
  have hpos : (0 : ℚ) < 2 ^ (e - k) := by positivity
  have hscale : (m : ℚ) * 2 ^ e = m * 2 ^ k * 2 ^ (e - k) := by
    rw [mul_assoc, ← zpow_add₀ two_ne_zero, add_sub_cancel]
  rw [hscale]
  exact ⟨mul_le_mul_of_nonneg_right hlow hpos.le, mul_lt_mul_of_pos_right hhigh hpos⟩

/-! ## The fields of a word -/

section
variable {width : Nat}

/-- The magnitude word is the absolute value of the word as a two's-complement integer (R222). -/
theorem magnitudeWord_eq_magnitudeOf (w : BitVec width) : magnitudeWord w = magnitudeOf w := by
  have hlt := w.isLt
  rw [magnitudeWord, magnitudeOf, BitVec.toInt_eq_msb_cond]
  split <;> omega

theorem fractionField_eq_fraction (w : BitVec width) : fractionField w = fraction w := by
  rw [fractionField, fraction, magnitudeWord_eq_magnitudeOf, fractionBits]

theorem characteristicField_eq_characteristic (w : BitVec width) : characteristicField w = characteristic w := by
  rw [characteristicField, characteristic, magnitudeWord_eq_magnitudeOf, fractionBits]

theorem natCast_fractionBits (hw : 8 < width) : (fractionBits width : Int) = (width : Int) - 8 := by
  rw [fractionBits]
  omega

theorem wordMagnitude_eq (hw : 8 < width) (w : BitVec width) :
    wordMagnitude w = (fraction w : ℚ) * 2 ^ (4 * ((characteristic w : Int) - 64) - (fractionBits width : Int)) := by
  rw [wordMagnitude, fractionField_eq_fraction, characteristicField_eq_characteristic, natCast_fractionBits hw]

theorem fraction_lt (w : BitVec width) : fraction w < 2 ^ fractionBits width := Nat.mod_lt _ (by positivity)

theorem two_pow_pred_width (hw : 8 < width) : 2 ^ (width - 1) = 128 * 2 ^ fractionBits width := by
  rw [show width - 1 = 7 + fractionBits width by rw [fractionBits]; omega, pow_add]
  rfl

/-- The most negative word is a dirty zero. -/
theorem fraction_intMin (hw : 8 < width) : fraction (BitVec.intMin width) = 0 := by
  have hlt : 2 ^ (width - 1) < 2 ^ width := Nat.pow_lt_pow_right (by omega) (by omega)
  rw [fraction, magnitudeWord_eq_magnitudeOf, magnitudeOf, BitVec.toInt_intMin, Nat.mod_eq_of_lt hlt, Int.natAbs_neg, Int.natAbs_natCast,
    two_pow_pred_width hw, Nat.mul_mod_left]

/-- A magnitude with a fraction fits in the 7 bits of the characteristic and the bits of the fraction. -/
theorem magnitudeWord_lt (hw : 8 < width) {w : BitVec width} (hfr : fraction w ≠ 0) : magnitudeWord w < 128 * 2 ^ fractionBits width := by
  have hle : magnitudeWord w ≤ 2 ^ (width - 1) := by
    have hhalf := Nat.two_pow_pred_mul_two (w := width) (by omega)
    simp only [magnitudeWord, BitVec.msb_eq_decide, decide_eq_true_eq]
    split <;> omega
  rw [two_pow_pred_width hw] at hle
  refine lt_of_le_of_ne hle fun heq => hfr ?_
  rw [fraction, heq, Nat.mul_mod_left]

/-- A word is its characteristic, its fraction and its sign. -/
theorem assemble_fields (hw : 8 < width) {w : BitVec width} (hfr : fraction w ≠ 0) :
    assemble width w.msb ((characteristic w : Int) - 64) (fraction w) = w := by
  have hmagnitude : characteristic w * 2 ^ fractionBits width + fraction w = magnitudeWord w := by
    rw [characteristic, Nat.mod_eq_of_lt (Nat.div_lt_of_lt_mul (by rw [mul_comm]; exact magnitudeWord_lt hw hfr)), fraction, mul_comm,
      Nat.div_add_mod]
  rw [assemble, sub_add_cancel, Int.toNat_natCast, hmagnitude, magnitudeWord]
  cases w.msb with
  | false => simp
  | true =>
    have hneg : BitVec.ofNat width (2 ^ width - w.toNat) = -w := BitVec.eq_of_toNat_eq (by simp)
    simp [hneg]

theorem neg_fields (hw : 8 < width) {w : BitVec width} (hfr : fraction w ≠ 0) :
    (-w).msb = (!w.msb) ∧ characteristic (-w) = characteristic w ∧ fraction (-w) = fraction w := by
  have hzero : w ≠ 0#width := by
    rintro rfl
    exact hfr (by simp [fraction, magnitudeWord_eq_magnitudeOf, magnitudeOf])
  have hmin : w ≠ BitVec.intMin width := by
    rintro rfl
    exact hfr (fraction_intMin hw)
  have hmagnitude : magnitudeWord (-w) = magnitudeWord w := by
    rw [magnitudeWord_eq_magnitudeOf, magnitudeWord_eq_magnitudeOf, magnitudeOf, BitVec.toInt_neg_of_ne_intMin hmin, Int.natAbs_neg, magnitudeOf]
  refine ⟨?_, ?_, ?_⟩
  · rw [BitVec.msb_neg, bne_iff_ne.mpr hzero, bne_iff_ne.mpr hmin, Bool.and_self, Bool.true_xor]
  · rw [characteristic, hmagnitude, characteristic]
  · rw [fraction, hmagnitude, fraction]

end

end Sys2Proof.Machine
end

