-- ==== Sys2Proof/Proofs/FloatConvert.lean ====
section
/-! The two converters of 45_float_convert, each said in terms of `floorShift` and the fields of a word, and their statements O51 to O54:
what each gives, and that each undoes the other where no bit is dropped (R220 to R239). -/

namespace Sys2Proof.Machine

/-! ## SigmaToDouble -/

section
variable {width : Nat}

theorem sigmaToDouble_of_fraction_eq_zero {w : BitVec width} (hfr : fraction w = 0) : sigmaToDouble w = .zero false := by
  rw [sigmaToDouble, if_pos hfr]

/-- The significand is the fraction shifted until its leading bit is the 53rd (R226). -/
theorem sigmaToDouble_of_fraction_ne_zero {w : BitVec width} (hfr : fraction w ≠ 0) :
    sigmaToDouble w = .finite w.msb (floorShift (fraction w) (52 - ((fraction w).log2 : Int)))
      (4 * ((characteristic w : Int) - 64) - fractionBits width + (fraction w).log2 - 52) := by
  rw [sigmaToDouble, if_neg hfr, floorShift]
  have hleft : (52 - ((fraction w).log2 : Int)).toNat = 52 - (fraction w).log2 := by omega
  have hright : (-(52 - ((fraction w).log2 : Int))).toNat = (fraction w).log2 - 52 := by omega
  have hiff : 0 ≤ 52 - ((fraction w).log2 : Int) ↔ (fraction w).log2 ≤ 52 := by omega
  simp only [hleft, hright, hiff]

/-- Whatever its length, a number is brought to 53 bits. -/
theorem normalSig_floorShift {m : Nat} (hm : 0 < m) : NormalSig (floorShift m (52 - (m.log2 : Int))) := by
  rw [NormalSig, ← not_le, two_pow_le_floorShift_iff hm, two_pow_le_floorShift_iff hm]
  omega

theorem sigmaToDouble_neg (hw : 8 < width) {w : BitVec width} (hfr : fraction w ≠ 0) : sigmaToDouble (-w) = (sigmaToDouble w).negate := by
  obtain ⟨hmsb, hch, hfraction⟩ := neg_fields hw hfr
  rw [sigmaToDouble_of_fraction_ne_zero hfr, sigmaToDouble_of_fraction_ne_zero (hfraction ▸ hfr), hmsb, hch, hfraction, Double.negate]

end

/-- Settles O51: the significand is the fraction shifted to 53 bits, which drops bits of a long fraction alone. -/
theorem sigmaToDoubleReadsTheFormat : Obligations.SigmaToDoubleReadsTheFormat := by
  intro width w hwidth
  have hw : 8 < width := by omega
  rw [fractionField_eq_fraction, wordMagnitude_eq hw]
  refine ⟨sigmaToDouble_of_fraction_eq_zero, fun hfr => ⟨sigmaToDouble_neg hw hfr, _, _, sigmaToDouble_of_fraction_ne_zero hfr,
    normalSig_floorShift (Nat.pos_of_ne_zero hfr), ?_⟩, by decide⟩
  generalize 4 * ((characteristic w : Int) - 64) - (fractionBits width : Int) = e
  rw [show e + ((fraction w).log2 : Int) - 52 = e - (52 - ((fraction w).log2 : Int)) by ring]
  obtain ⟨hlow, hhigh⟩ := floorShift_chops (fraction w) (52 - ((fraction w).log2 : Int)) e
  refine ⟨hlow, hhigh, ?_⟩
  rintro rfl
  have hlog : (fraction w).log2 < 24 := (Nat.log2_lt hfr).mpr (fraction_lt w)
  rw [floorShift_of_nonneg _ (by omega), mul_assoc, ← zpow_add₀ two_ne_zero, add_sub_cancel]

/-! ## DoubleToSigma -/

section
variable {width : Nat} {sig : Nat} {e : Int} (policy : UflowPolicy) (neg : Bool)

theorem signedSentinel_eq (hw : 8 < width) :
    signedSentinel width neg = BitVec.ofNat width (if neg then 2 ^ (width - 1) + 1 else 2 ^ (width - 1) - 1) := by
  cases neg with
  | false => rfl
  | true =>
    have hhalf := Nat.two_pow_pred_mul_two (w := width) (by omega)
    have hpos : 1 < 2 ^ (width - 1) := Nat.one_lt_two_pow (by omega)
    refine BitVec.eq_of_toNat_eq ?_
    simp only [signedSentinel, sentinel, if_true, BitVec.toNat_neg, BitVec.toNat_ofNat]
    rw [Nat.mod_eq_of_lt (show 2 ^ (width - 1) - 1 < 2 ^ width by omega)]
    congr 1
    omega

theorem signedSentinel_toNat (hw : 8 < width) :
    (signedSentinel width neg).toNat = if neg then 2 ^ (width - 1) + 1 else 2 ^ (width - 1) - 1 := by
  have hhalf := Nat.two_pow_pred_mul_two (w := width) (by omega)
  have hpos : 1 < 2 ^ (width - 1) := Nat.one_lt_two_pow (by omega)
  rw [signedSentinel_eq neg hw, BitVec.toNat_ofNat, Nat.mod_eq_of_lt]
  split <;> omega

/-- From 16^63 on (R233). -/
theorem doubleToSigma_overflow (h : 252 ≤ e + (sig.log2 : Int)) :
    doubleToSigma width policy (.finite neg sig e) = (signedSentinel width neg, .overflow) := by
  have hover : 63 < hexExponent sig e := by rw [hexExponent]; omega
  simp only [doubleToSigma, if_pos hover]

/-- From 16^-65 on, with the `E` of `16^(E-1) ≤ sig * 2^e < 16^E`: the characteristic is that of `E` (R232, R235). -/
theorem doubleToSigma_normalized {E : Int} (hlow : 4 * E - 4 ≤ e + (sig.log2 : Int)) (hhigh : e + (sig.log2 : Int) < 4 * E)
    (hmin : -64 ≤ E) (hmax : E ≤ 63) :
    doubleToSigma width policy (.finite neg sig e) = (assemble width neg E (floorShift sig (e + fractionBits width - 4 * E)), .ok) := by
  have hexp : hexExponent sig e = E := by rw [hexExponent]; omega
  simp only [doubleToSigma, hexp, if_neg (not_lt.mpr hmin), if_neg (not_lt.mpr hmax)]

/-- Every number lies between two successive powers of 16. -/
theorem exists_hexadecimal_exponent (p : Int) : ∃ E : Int, 4 * E - 4 ≤ p ∧ p < 4 * E := ⟨p / 4 + 1, by omega⟩

/-- Dropping a digit for each step of exponent leaves the fraction that belongs to characteristic 0 (R234). -/
theorem resuscitate_floorShift (m n : Nat) (k : Int) : resuscitate n (floorShift m k) = floorShift m (k - 4 * n) := by
  rw [resuscitate_eq, show 16 ^ n = 2 ^ (4 * n) by rw [pow_mul]; norm_num, floorShift_div]
  push_cast
  rfl

/-- Below 16^-65, while a bit of the fraction is left, the word has characteristic 0 and is not normalized; else it is the zero word,
reported as the policy says (R234, R236). -/
theorem doubleToSigma_below (h : e + (sig.log2 : Int) < -260) {left : Nat} (hleft : floorShift sig (e + fractionBits width + 256) = left) :
    (left ≠ 0 → doubleToSigma width policy (.finite neg sig e) = (assemble width neg (-64) left, .ok)) ∧
      (left = 0 → doubleToSigma width .trueZero (.finite neg sig e) = (0, .ok) ∧
        doubleToSigma width .zeroWithFlag (.finite neg sig e) = (0, .underflow)) := by
  have hunder : hexExponent sig e < -64 := by rw [hexExponent]; omega
  have hover : ¬ 63 < hexExponent sig e := by omega
  have hdrop : resuscitate (-64 - hexExponent sig e).toNat (floorShift sig (e + fractionBits width - 4 * hexExponent sig e)) = left := by
    rw [resuscitate_floorShift, ← hleft]
    congr 1
    omega
  simp only [doubleToSigma, if_neg hover, if_pos hunder, hdrop]
  exact ⟨fun hne => if_neg hne, fun hzero => ⟨if_pos hzero, if_pos hzero⟩⟩

/-- What SigmaToDouble reads in an assembled word. -/
theorem sigmaToDouble_assemble (hw : 8 < width) {E : Int} (hmin : -64 ≤ E) (hmax : E ≤ 63) {frac : Nat} (hpos : 0 < frac)
    (hlt : frac < 2 ^ fractionBits width) :
    sigmaToDouble (assemble width neg E frac) =
      .finite neg (floorShift frac (52 - (frac.log2 : Int))) (4 * E - fractionBits width + frac.log2 - 52) := by
  obtain ⟨-, hmsb⟩ := magnitudeWord_assemble width hw neg E frac hmin hmax hpos hlt
  obtain ⟨hch, hfr⟩ := fields_assemble width hw neg E frac hmin hmax hpos hlt
  rw [sigmaToDouble_of_fraction_ne_zero (by omega), hmsb, hfr, hch, add_sub_cancel_right]

/-- A word assembled from a chopped fraction has the fields it was assembled from, and the value less the bits below the fraction. -/
theorem assemble_chops (hw : 8 < width) (hsig : 0 < sig) {E : Int} (hmin : -64 ≤ E) (hmax : E ≤ 63)
    (hlow : 4 * E - fractionBits width ≤ e + (sig.log2 : Int)) (hhigh : e + (sig.log2 : Int) < 4 * E) {w : BitVec width}
    (h : w = assemble width neg E (floorShift sig (e + fractionBits width - 4 * E))) :
    w.msb = neg ∧ (characteristicField w : Int) = E + 64 ∧ fractionField w = floorShift sig (e + fractionBits width - 4 * E) ∧
      wordMagnitude w ≤ (sig : ℚ) * 2 ^ e ∧ (sig : ℚ) * 2 ^ e < wordMagnitude w + 2 ^ (4 * E - (fractionBits width : Int)) := by
  obtain ⟨hpos, hlt⟩ := floorShift_pos_and_lt hsig (k := e + fractionBits width - 4 * E) (n := fractionBits width) (by omega) (by omega)
  obtain ⟨-, hmsb⟩ := magnitudeWord_assemble width hw neg E _ hmin hmax hpos hlt
  obtain ⟨hch, hfr⟩ := fields_assemble width hw neg E _ hmin hmax hpos hlt
  obtain ⟨hle, hgt⟩ := floorShift_chops sig (e + fractionBits width - 4 * E) e
  rw [show e - (e + fractionBits width - 4 * E) = 4 * E - (fractionBits width : Int) by ring] at hle hgt
  rw [characteristicField_eq_characteristic, fractionField_eq_fraction, wordMagnitude_eq hw, h, hch, hfr, add_sub_cancel_right]
  exact ⟨hmsb, rfl, rfl, hle, by linarith⟩

end

/-- Settles O52: the four ranges are those of the leading bit's position, and each word made is assembled from a chopped fraction. -/
theorem doubleToSigmaChops : Obligations.DoubleToSigmaChops := by
  refine ⟨fun width policy hwidth => ⟨rfl, fun neg => ⟨rfl, ?_⟩⟩, ?_⟩
  · rw [doubleToSigma, signedSentinel_eq neg (by omega)]
  intro width policy neg sig e w st hwidth hsig h
  have hw : 8 < width := by omega
  have hfb := natCast_fractionBits hw
  simp only [two_zpow_le_iff hsig, sixteen_zpow_le_iff hsig, ← hfb]
  by_cases hover : 4 * 63 ≤ e + (sig.log2 : Int)
  · rw [if_pos hover]
    rw [doubleToSigma_overflow policy neg hover] at h
    cases h
    exact ⟨rfl, signedSentinel_toNat neg hw⟩
  rw [if_neg hover]
  by_cases hnormal : 4 * -65 ≤ e + (sig.log2 : Int)
  · rw [if_pos hnormal]
    obtain ⟨E, hlow, hhigh⟩ := exists_hexadecimal_exponent (e + sig.log2)
    rw [doubleToSigma_normalized policy neg hlow hhigh (by omega) (by omega)] at h
    obtain ⟨hword, rfl⟩ := Prod.mk.inj h
    obtain ⟨hmsb, hch, hfr, hle, hgt⟩ := assemble_chops neg hw hsig (by omega) (by omega) (by omega) hhigh hword.symm
    refine ⟨rfl, hmsb, ?_, hle, ?_⟩
    · rw [hfr, two_pow_le_floorShift_iff hsig]
      omega
    · rwa [hch, add_sub_cancel_right]
  rw [if_neg hnormal]
  obtain ⟨hkept, hlost⟩ := doubleToSigma_below (width := width) policy neg (not_le.mp hnormal) rfl
  rw [Ne, floorShift_eq_zero_iff hsig] at hkept
  rw [floorShift_eq_zero_iff hsig] at hlost
  by_cases hleft : -256 - (fractionBits width : Int) ≤ e + (sig.log2 : Int)
  · rw [if_pos hleft]
    obtain ⟨hword, rfl⟩ := Prod.mk.inj ((hkept (by omega)).symm.trans h)
    obtain ⟨hmsb, hch, hfr, hle, hgt⟩ := assemble_chops neg hw hsig (by omega) (by omega) (by omega) (by omega) hword.symm
    refine ⟨rfl, hmsb, by omega, ?_, hle, hgt⟩
    rw [hfr, Ne, floorShift_eq_zero_iff hsig]
    omega
  rw [if_neg hleft]
  obtain ⟨htrueZero, hflagged⟩ := hlost (by omega)
  cases policy with
  | trueZero =>
    cases htrueZero.symm.trans h
    exact ⟨rfl, rfl⟩
  | zeroWithFlag =>
    cases hflagged.symm.trans h
    exact ⟨rfl, rfl⟩

/-! ## There and back -/

theorem NormalSig.log2_eq {sig : Nat} (h : NormalSig sig) : sig.log2 = 52 :=
  (Nat.log2_eq_iff (by have := h.1; omega)).mpr h

/-- Settles O53: the 56 fraction bits hold all 53 of the significand, shifted left by 0 to 3, and shifting back gives it again. -/
theorem longFormatRoundTripsDoubles : Obligations.LongFormatRoundTripsDoubles := by
  intro policy neg sig e hnormal hlower hupper
  have hsig : 0 < sig := by have := hnormal.1; omega
  have hlog := hnormal.log2_eq
  rw [two_zpow_le_iff hsig] at hlower
  rw [← not_le, two_zpow_le_iff hsig] at hupper
  obtain ⟨E, hlow, hhigh⟩ := exists_hexadecimal_exponent (e + sig.log2)
  have hmin : -64 ≤ E := by omega
  have hmax : E ≤ 63 := by omega
  rw [doubleToSigma_normalized policy neg hlow hhigh hmin hmax]
  refine ⟨rfl, ?_⟩
  generalize hk : e + (fractionBits 64 : Int) - 4 * E = k
  have hfb : (fractionBits 64 : Int) = 56 := rfl
  have hlogFraction := log2_floorShift hsig (show 0 ≤ k + (sig.log2 : Int) by omega)
  obtain ⟨hpos, hlt⟩ := floorShift_pos_and_lt hsig (k := k) (n := fractionBits 64) (by omega) (by omega)
  rw [sigmaToDouble_assemble neg (by decide) hmin hmax hpos hlt, hlogFraction,
    floorShift_floorShift sig (by omega), show k + (52 - (k + (sig.log2 : Int))) = 0 by omega, floorShift_zero]
  congr 1
  omega

/-- Settles O54: the significand is the fraction shifted left, and the converter shifts it back by as much. -/
theorem shortWordRoundTripsThroughDouble : Obligations.ShortWordRoundTripsThroughDouble := by
  intro policy w
  rw [fractionField_eq_fraction]
  refine ⟨fun hnormal => ?_, fun hfr => by rw [sigmaToDouble_of_fraction_eq_zero hfr]; rfl⟩
  have hfr : fraction w ≠ 0 := by omega
  have hlow : 20 ≤ (fraction w).log2 := (Nat.le_log2 hfr).mpr hnormal
  have hhigh : (fraction w).log2 < 24 := (Nat.log2_lt hfr).mpr (fraction_lt w)
  have hch : characteristic w < 128 := Nat.mod_lt _ (by decide)
  have hlog := (normalSig_floorShift (Nat.pos_of_ne_zero hfr)).log2_eq
  have hfb : (fractionBits 32 : Int) = 24 := rfl
  rw [sigmaToDouble_of_fraction_ne_zero hfr,
    doubleToSigma_normalized (E := (characteristic w : Int) - 64) policy _ (by omega) (by omega) (by omega) (by omega),
    floorShift_floorShift _ (by omega)]
  have hback : 52 - ((fraction w).log2 : Int) + (4 * ((characteristic w : Int) - 64) - fractionBits 32 + (fraction w).log2 - 52 +
      fractionBits 32 - 4 * ((characteristic w : Int) - 64)) = 0 := by ring
  rw [hback, floorShift_zero, assemble_fields (by decide) hfr]

end Sys2Proof.Machine
end

