-- ==== Sys2Proof/Proofs/FloatRound.lean ====
section
/-! The rounding of exact values to binary64 (R252): what makes an integer the rounding of a scaled value, and that the double `roundDouble`
packs from it is the IEEE rounding of every exact value it stands for. -/

namespace Sys2Proof.Machine

/-! ## Rounding to an integer -/

/-- `n` is a nearest integer to `y`, and the even one of two. -/
structure NearestEven (y : ℚ) (n : Nat) : Prop where
  le : 2 * (n : ℚ) ≤ 2 * y + 1
  ge : 2 * y ≤ 2 * (n : ℚ) + 1
  even : 2 * (n : ℚ) = 2 * y + 1 ∨ 2 * y = 2 * (n : ℚ) + 1 → n % 2 = 0

/-- Two values compare alike with every half-integer. -/
structure HalvesAlike (y' y : ℚ) : Prop where
  le : ∀ j : Int, (j : ℚ) ≤ 2 * y' ↔ (j : ℚ) ≤ 2 * y
  ge : ∀ j : Int, 2 * y' ≤ (j : ℚ) ↔ 2 * y ≤ (j : ℚ)

theorem HalvesAlike.intCast_le {y' y : ℚ} (h : HalvesAlike y' y) (j : Int) : (j : ℚ) ≤ y' ↔ (j : ℚ) ≤ y := by
  have := h.le (2 * j)
  push_cast at this
  rwa [mul_le_mul_iff_right₀ two_pos, mul_le_mul_iff_right₀ two_pos] at this

/-- Between the two even neighbours of an odd number every value compares as that number does with multiples of 2, hence with half-integers
once both are divided by 4 or a higher power of two. -/
theorem halvesAlike_of_odd {m : Nat} (hodd : m % 2 = 1) {v : ℚ} (hv : |v - m| < 1) {k : Int} (hk : k ≤ -2) :
    HalvesAlike (v * 2 ^ k) (m * 2 ^ k) := by
  obtain ⟨hlow, hhigh⟩ := abs_lt.mp hv
  have heven (i : Int) : (((2 * i : Int) : ℚ) ≤ v ↔ ((2 * i : Int) : ℚ) ≤ m) ∧ (v ≤ ((2 * i : Int) : ℚ) ↔ (m : ℚ) ≤ ((2 * i : Int) : ℚ)) := by
    obtain hlt | hgt := lt_or_gt_of_ne (show 2 * i ≠ (m : Int) by omega)
    · have hi : ((2 * i : Int) : ℚ) + 1 ≤ m := by exact_mod_cast hlt
      exact ⟨iff_of_true (by linarith) (by linarith), iff_of_false (by linarith) (by linarith)⟩
    · have hi : (m : ℚ) + 1 ≤ ((2 * i : Int) : ℚ) := by exact_mod_cast hgt
      exact ⟨iff_of_false (by linarith) (by linarith), iff_of_true (by linarith) (by linarith)⟩
  obtain ⟨j, rfl⟩ : ∃ j : Nat, k = -((j + 2 : Nat) : Int) := ⟨(-k - 2).toNat, by omega⟩
  have hscale (u : ℚ) : 2 * (u * 2 ^ (-((j + 2 : Nat) : Int))) = u / (2 * 2 ^ j) := by
    rw [zpow_neg, zpow_natCast, pow_add]
    field_simp
  have hpos : (0 : ℚ) < 2 * 2 ^ j := by positivity
  have hmul (i : Int) : (i : ℚ) * (2 * 2 ^ j) = ((2 * (i * 2 ^ j) : Int) : ℚ) := by push_cast; ring
  constructor <;> intro i <;> rw [hscale, hscale]
  · rw [le_div_iff₀ hpos, le_div_iff₀ hpos, hmul]
    exact (heven _).1
  · rw [div_le_iff₀ hpos, div_le_iff₀ hpos, hmul]
    exact (heven _).2

namespace NearestEven

variable {y y' : ℚ} {n : Nat}

theorem natCast (n : Nat) : NearestEven n n :=
  ⟨by linarith, by linarith, by rintro (h | h) <;> linarith⟩

/-- No integer is nearer, and where another is as near, `n` is even. -/
theorem nearest (h : NearestEven y n) (j : Int) :
    |(n : ℚ) - y| ≤ |(j : ℚ) - y| ∧ (|(n : ℚ) - y| = |(j : ℚ) - y| → (n : ℚ) = j ∨ n % 2 = 0) := by
  have hle := h.le
  have hge := h.ge
  have habs : |(n : ℚ) - y| ≤ 1 / 2 := abs_le.mpr ⟨by linarith, by linarith⟩
  obtain hlt | rfl | hgt := lt_trichotomy j (n : Int)
  · have hj : (j : ℚ) + 1 ≤ n := by exact_mod_cast hlt
    have hfar : y - j ≤ |(j : ℚ) - y| := by rw [abs_sub_comm]; exact le_abs_self _
    exact ⟨by linarith, fun heq => .inr (h.even (.inl (by linarith)))⟩
  · rw [Int.cast_natCast]
    exact ⟨le_rfl, fun _ => .inl rfl⟩
  · have hj : (n : ℚ) + 1 ≤ j := by exact_mod_cast hgt
    have hfar : j - y ≤ |(j : ℚ) - y| := le_abs_self _
    exact ⟨by linarith, fun heq => .inr (h.even (.inr (by linarith)))⟩

/-- A value below an integer that `y` has reached is farther from `y`. -/
theorem nearer_than_below (h : NearestEven y n) {j : Int} (hj : (j : ℚ) ≤ y) {z : ℚ} (hz : z < j) : |(n : ℚ) - y| < |z - y| :=
  calc |(n : ℚ) - y| ≤ |(j : ℚ) - y| := (h.nearest j).1
    _ = y - j := by rw [abs_sub_comm]; exact abs_of_nonneg (by linarith)
    _ < y - z := by linarith
    _ ≤ |z - y| := by rw [abs_sub_comm]; exact le_abs_self _

theorem of_halvesAlike (h : NearestEven y n) (halike : HalvesAlike y' y) : NearestEven y' n := by
  have hlow := halike.le (2 * (n : Int) - 1)
  have hlow' := halike.ge (2 * (n : Int) - 1)
  have hhigh := halike.ge (2 * (n : Int) + 1)
  have hhigh' := halike.le (2 * (n : Int) + 1)
  push_cast at hlow hlow' hhigh hhigh'
  refine ⟨?_, hhigh.mpr h.ge, fun htie => h.even ?_⟩
  · linarith [hlow.mpr (by linarith [h.le])]
  · obtain htie | htie := htie
    · exact .inl (by linarith [h.le, hlow'.mp (by linarith)])
    · exact .inr (by linarith [h.ge, hhigh'.mp (by linarith)])

theorem le_of_lt (h : NearestEven y n) {k : Nat} (hy : y < k) : n ≤ k := by
  have hlt : ((2 * n : Nat) : ℚ) < ((2 * k + 1 : Nat) : ℚ) := by push_cast; linarith [h.le]
  have := Nat.cast_lt.mp hlt
  omega

theorem ge_of_le (h : NearestEven y n) {k : Nat} (hy : (k : ℚ) ≤ y) : k ≤ n := by
  have hle : ((2 * k : Nat) : ℚ) ≤ ((2 * n + 1 : Nat) : ℚ) := by push_cast; linarith [h.ge]
  have := Nat.cast_le.mp hle
  omega

/-- From the midpoint above an odd number on, a value is rounded to a greater one. -/
theorem ge_of_midpoint (h : NearestEven y n) {k : Nat} (hk : k % 2 = 1) (hy : 2 * (k : ℚ) + 1 ≤ 2 * y) : k + 1 ≤ n := by
  have hle := h.ge_of_le (k := k) (by linarith)
  refine Nat.lt_of_le_of_ne hle ?_
  rintro rfl
  have := h.even (.inr (le_antisymm h.ge hy))
  omega

end NearestEven

/-- `roundShift` divides by the power of two and rounds. -/
theorem nearestEven_roundShift (m : Nat) {k : Nat} (hk : 0 < k) : NearestEven ((m : ℚ) / 2 ^ k) (roundShift m k) := by
  obtain ⟨hle, hge, heven⟩ := roundShift_spec m k hk
  have hpos : (0 : ℚ) < 2 ^ k := by positivity
  have hscale : (m : ℚ) / 2 ^ k * 2 ^ k = m := div_mul_cancel₀ _ hpos.ne'
  generalize (m : ℚ) / 2 ^ k = y at *
  have hle' : 2 * (roundShift m k : ℚ) * 2 ^ k ≤ 2 * m + 2 ^ k := by exact_mod_cast hle
  have hge' : 2 * (m : ℚ) ≤ 2 * roundShift m k * 2 ^ k + 2 ^ k := by exact_mod_cast hge
  refine ⟨le_of_mul_le_mul_right ?_ hpos, le_of_mul_le_mul_right ?_ hpos, fun htie => heven ?_⟩
  · linarith
  · linarith
  · obtain htie | htie := htie
    · right
      have : 2 * (roundShift m k : ℚ) * 2 ^ k = 2 * m + 2 ^ k := by rw [htie, ← hscale]; ring
      exact_mod_cast this
    · left
      have : 2 * (m : ℚ) = 2 * roundShift m k * 2 ^ k + 2 ^ k := by rw [← hscale, ← mul_assoc, htie]; ring
      exact_mod_cast this

/-! ## The two parts of `roundDouble` -/

/-- The integer significand at the exponent of `roundExponent`, before it is packed. -/
def roundedSig (m : Nat) (e : Int) : Nat :=
  if roundExponent m e ≤ e then m * 2 ^ (e - roundExponent m e).toNat else roundShift m (roundExponent m e - e).toNat

/-- `± sig * 2^e` as a double, for a significand of at most 53 bits or 2^53: a carry into the 54th bit moves to the exponent. -/
def packDouble (neg : Bool) (sig : Nat) (e : Int) : Double :=
  if sig = 2 ^ 53 then (if 971 < e + 1 then .inf neg else .finite neg (2 ^ 52) (e + 1))
  else if sig = 0 then .zero neg
  else if 971 < e then .inf neg
  else .finite neg sig e

theorem roundDouble_eq (neg : Bool) {m : Nat} (hm : 0 < m) (e : Int) :
    roundDouble neg m e = packDouble neg (roundedSig m e) (roundExponent m e) := by
  rw [roundDouble, if_neg hm.ne', packDouble, roundedSig]
  dsimp only
  generalize (if roundExponent m e ≤ e then m * 2 ^ (e - roundExponent m e).toNat else roundShift m (roundExponent m e - e).toNat) = sig
  by_cases hcarry : sig = 2 ^ 53
  · rw [if_pos hcarry, if_pos hcarry]
    rfl
  · rw [if_neg hcarry, if_neg hcarry]

theorem nearestEven_roundedSig (m : Nat) (e : Int) : NearestEven ((m : ℚ) * 2 ^ (e - roundExponent m e)) (roundedSig m e) := by
  rw [roundedSig]
  generalize roundExponent m e = e2
  split_ifs with hle
  · have hexact := NearestEven.natCast (m * 2 ^ (e - e2).toNat)
    rw [zpow_toNat (by omega)]
    push_cast at hexact
    exact hexact
  · have hshift := nearestEven_roundShift m (k := (e2 - e).toNat) (by omega)
    rwa [← zpow_toNat (by omega), div_eq_mul_inv, ← zpow_neg, neg_sub] at hshift

/-- The scaled value has 53 bits, or fewer in the subnormal range. -/
theorem scaled_bounds {m : Nat} (hm : 0 < m) (e : Int) :
    -1074 ≤ roundExponent m e ∧ (m : ℚ) * 2 ^ (e - roundExponent m e) < 2 ^ 53 ∧
      (roundExponent m e = -1074 ∨ 2 ^ 52 ≤ (m : ℚ) * 2 ^ (e - roundExponent m e)) := by
  have hlow : (2 : ℚ) ^ 52 ≤ (m : ℚ) * 2 ^ (e - roundExponent m e) ↔ 52 ≤ e - roundExponent m e + (m.log2 : Int) :=
    two_zpow_le_iff hm _ 52
  have hhigh : (2 : ℚ) ^ 53 ≤ (m : ℚ) * 2 ^ (e - roundExponent m e) ↔ 53 ≤ e - roundExponent m e + (m.log2 : Int) :=
    two_zpow_le_iff hm _ 53
  rw [← not_le, hlow, hhigh, roundExponent]
  omega

/-! ## Packing is rounding -/

theorem midpoint_eq : ((2 : ℚ) ^ 54 - 1) * 2 ^ 970 = (2 ^ 54 - 1) * 2 ^ (970 : Int) := rfl

theorem lt_midpoint_of_le {x : ℚ} (h : x ≤ 2 ^ (1023 : Int)) : x < ((2 : ℚ) ^ 54 - 1) * 2 ^ 970 := by
  refine h.trans_lt ?_
  rw [midpoint_eq, show (1023 : Int) = 53 + 970 by norm_num, zpow_add₀ two_ne_zero]
  exact mul_lt_mul_of_pos_right (by norm_num) (by positivity)

section
variable {y : ℚ} {sig : Nat} {e : Int} (neg : Bool)

theorem abs_doubleValue_finite (m : Nat) (k : Int) : |doubleValue (.finite neg m k)| = (m : ℚ) * 2 ^ k := by
  rw [doubleValue, abs_mul, abs_mul, abs_of_pos (show (0 : ℚ) < 2 ^ k by positivity), Nat.abs_cast]
  cases neg <;> simp

/-- The midpoint above the largest number is where packing overflows. -/
theorem midpoint_le_iff (h : NearestEven y sig) (hlt : y < 2 ^ 53) (hge : e = -1074 ∨ 2 ^ 52 ≤ y) :
    ((2 : ℚ) ^ 54 - 1) * 2 ^ 970 ≤ y * 2 ^ e ↔ 971 < e ∨ (e = 971 ∧ sig = 2 ^ 53) := by
  have hstep : (2 : ℚ) ^ (971 : Int) = 2 * 2 ^ (970 : Int) := zpow_add_one₀ two_ne_zero 970 |>.trans (mul_comm _ _)
  have hpos : (0 : ℚ) < 2 ^ (970 : Int) := by positivity
  rw [midpoint_eq]
  obtain hsmall | rfl | hlarge := lt_trichotomy e 971
  · have hpow : (2 : ℚ) ^ e ≤ 2 ^ (970 : Int) := zpow_le_zpow_right₀ one_le_two (by omega)
    have hbelow : y * 2 ^ e < (2 ^ 54 - 1) * 2 ^ (970 : Int) :=
      calc y * 2 ^ e ≤ 2 ^ 53 * 2 ^ e := mul_le_mul_of_nonneg_right hlt.le (by positivity)
        _ ≤ 2 ^ 53 * 2 ^ (970 : Int) := mul_le_mul_of_nonneg_left hpow (by positivity)
        _ < (2 ^ 54 - 1) * 2 ^ (970 : Int) := mul_lt_mul_of_pos_right (by norm_num) hpos
    exact iff_of_false hbelow.not_ge (by omega)
  · have hscaled : ((2 : ℚ) ^ 54 - 1) * 2 ^ (970 : Int) ≤ y * 2 ^ (971 : Int) ↔ 2 * ((2 ^ 53 - 1 : Nat) : ℚ) + 1 ≤ 2 * y := by
      rw [hstep, ← mul_assoc, mul_le_mul_iff_left₀ hpos]
      norm_num [mul_comm]
    rw [hscaled]
    constructor
    · intro hmid
      have := h.ge_of_midpoint (by norm_num) hmid
      have := h.le_of_lt (k := 2 ^ 53) (by exact_mod_cast hlt)
      omega
    · rintro (habsurd | ⟨-, rfl⟩)
      · omega
      · have := h.le
        push_cast at this ⊢
        norm_num at this ⊢
        linarith
  · have hnormal : (2 : ℚ) ^ 52 ≤ y := hge.resolve_left (by omega)
    have hpow : (2 : ℚ) ^ (972 : Int) ≤ 2 ^ e := zpow_le_zpow_right₀ one_le_two (by omega)
    have hfour : (2 : ℚ) ^ (972 : Int) = 4 * 2 ^ (970 : Int) := by
      rw [show (972 : Int) = 2 + 970 by norm_num, zpow_add₀ two_ne_zero]
      norm_num
    refine iff_of_true ?_ (.inl hlarge)
    calc ((2 : ℚ) ^ 54 - 1) * 2 ^ (970 : Int) ≤ 2 ^ 52 * (4 * 2 ^ (970 : Int)) := by
          rw [← mul_assoc]
          exact mul_le_mul_of_nonneg_right (by norm_num) hpos.le
      _ ≤ y * 2 ^ e := by
          rw [← hfour]
          exact mul_le_mul hnormal hpow (by positivity) (le_trans (by positivity) hnormal)

theorem packDouble_of_overflow (hsig : sig ≠ 0) (h : 971 < e ∨ (e = 971 ∧ sig = 2 ^ 53)) : packDouble neg sig e = .inf neg := by
  rw [packDouble]
  split_ifs
  · rfl
  · omega
  · rfl
  · omega

/-- Below overflow the packed double is a number of the value packed, with an even significand where that packed was even. -/
theorem packDouble_of_fits (he : -1074 ≤ e) (hle : sig ≤ 2 ^ 53) (hge : e = -1074 ∨ 2 ^ 52 ≤ sig)
    (h : ¬ (971 < e ∨ (e = 971 ∧ sig = 2 ^ 53))) :
    IsNumber (packDouble neg sig e) ∧ (packDouble neg sig e).isNegative = neg ∧ |doubleValue (packDouble neg sig e)| = (sig : ℚ) * 2 ^ e ∧
      (sig % 2 = 0 → (packDouble neg sig e).significand % 2 = 0) := by
  rw [packDouble]
  split_ifs with hcarry hover hzero hover
  · omega
  · refine ⟨.inl ⟨by norm_num [NormalSig], by omega, by omega⟩, rfl, ?_, fun _ => by norm_num [Double.significand]⟩
    rw [abs_doubleValue_finite, hcarry, zpow_add_one₀ two_ne_zero]
    push_cast
    ring
  · refine ⟨trivial, rfl, ?_, fun _ => rfl⟩
    simp [doubleValue, hzero]
  · omega
  · refine ⟨?_, rfl, abs_doubleValue_finite neg sig e, id⟩
    rw [IsNumber, NormalSig]
    omega

/-- The double packed from the rounded scaled value is the rounding of the value. -/
theorem isRounding_packDouble (h : NearestEven y sig) (he : -1074 ≤ e) (hlt : y < 2 ^ 53) (hge : e = -1074 ∨ 2 ^ 52 ≤ y) :
    IsRounding neg (y * 2 ^ e) (packDouble neg sig e) := by
  have hle : sig ≤ 2 ^ 53 := h.le_of_lt (by exact_mod_cast hlt)
  have hge' : e = -1074 ∨ 2 ^ 52 ≤ sig := hge.imp_right fun hy => h.ge_of_le (by exact_mod_cast hy)
  have hpos : (0 : ℚ) < 2 ^ e := by positivity
  rw [IsRounding]
  split_ifs with hover <;> rw [midpoint_le_iff h hlt hge] at hover
  · exact packDouble_of_overflow neg (by omega) hover
  obtain ⟨hnumber, hneg, hvalue, heven⟩ := packDouble_of_fits neg he hle hge' hover
  refine ⟨hnumber, hneg, fun sig2 e2 hsig2 he2 => ?_⟩
  have hscale : (sig2 : ℚ) * 2 ^ e2 = sig2 * 2 ^ (e2 - e) * 2 ^ e := by rw [mul_assoc, ← zpow_add₀ two_ne_zero, sub_add_cancel]
  rw [hvalue, hscale, ← sub_mul, ← sub_mul, abs_mul, abs_mul, abs_of_pos hpos, mul_le_mul_iff_left₀ hpos, mul_left_inj' hpos.ne',
    mul_left_inj' hpos.ne']
  obtain hint | hfine := le_or_gt e e2
  · -- the other number is an integer on the scale of the significand
    have hcast : (sig2 : ℚ) * 2 ^ (e2 - e) = ((sig2 * 2 ^ (e2 - e).toNat : Int) : ℚ) := by
      rw [zpow_toNat (by omega)]
      push_cast
      rfl
    obtain ⟨hnear, htie⟩ := h.nearest (sig2 * 2 ^ (e2 - e).toNat : Int)
    rw [hcast]
    exact ⟨hnear, fun heq => (htie heq).imp_right heven⟩
  · -- the other number is below 2^52 on that scale, and the value is not
    have hbelow : (sig2 : ℚ) * 2 ^ (e2 - e) < ((2 ^ 52 : Int) : ℚ) := by
      have hpow : (2 : ℚ) ^ (e2 - e) ≤ 2 ^ (-1 : Int) := zpow_le_zpow_right₀ one_le_two (by omega)
      have hsig2' : (sig2 : ℚ) < 2 ^ 53 := by exact_mod_cast hsig2
      calc (sig2 : ℚ) * 2 ^ (e2 - e) ≤ sig2 * 2 ^ (-1 : Int) := mul_le_mul_of_nonneg_left hpow (Nat.cast_nonneg _)
        _ < 2 ^ 53 * 2 ^ (-1 : Int) := mul_lt_mul_of_pos_right hsig2' (by positivity)
        _ = ((2 ^ 52 : Int) : ℚ) := by norm_num
    have hnormal : ((2 ^ 52 : Int) : ℚ) ≤ y := by
      have := hge.resolve_left (by omega)
      exact_mod_cast this
    have hnear := h.nearer_than_below hnormal hbelow
    exact ⟨hnear.le, fun heq => absurd heq hnear.ne⟩

end

/-! ## What a rounding is at least -/

namespace IsRounding

variable {neg : Bool} {x : ℚ} {d : Double}

/-- A rounding is at least every number that the exact value is at least, unless it is an infinity. -/
theorem le_abs_doubleValue (h : IsRounding neg x d) (hx : x < ((2 : ℚ) ^ 54 - 1) * 2 ^ 970) {sig : Nat} {e : Int} (hsig : sig < 2 ^ 53)
    (he : -1074 ≤ e) (hle : (sig : ℚ) * 2 ^ e ≤ x) : (sig : ℚ) * 2 ^ e ≤ |doubleValue d| := by
  rw [IsRounding, if_neg hx.not_ge] at h
  obtain ⟨-, -, hnear⟩ := h
  have hdist := (hnear sig e hsig he).1
  by_contra hlt
  rw [abs_of_nonpos (show (sig : ℚ) * 2 ^ e - x ≤ 0 by linarith)] at hdist
  linarith [neg_abs_le (|doubleValue d| - x)]

/-- From 2^-1022 up to 2^1023 a rounding is a normal double. -/
theorem normal (h : IsRounding neg x d) (hlow : (2 : ℚ) ^ (-1022 : Int) ≤ x) (hhigh : x ≤ 2 ^ (1023 : Int)) :
    ∃ sig e, d = .finite neg sig e ∧ NormalSig sig := by
  have hleast : (2 : ℚ) ^ (-1022 : Int) = ((2 ^ 52 : Nat) : ℚ) * 2 ^ (-1074 : Int) := by
    rw [show (-1022 : Int) = 52 + -1074 by norm_num, zpow_add₀ two_ne_zero]
    norm_num
  have hmid := lt_midpoint_of_le hhigh
  rw [hleast] at hlow
  have hvalue := h.le_abs_doubleValue hmid (by norm_num) le_rfl hlow
  have hpos : (0 : ℚ) < 2 ^ (-1074 : Int) := by positivity
  rw [IsRounding, if_neg hmid.not_ge] at h
  obtain ⟨hnumber, rfl, -⟩ := h
  cases d with
  | nan => exact hnumber.elim
  | inf neg => exact hnumber.elim
  | zero neg =>
    rw [doubleValue, abs_zero] at hvalue
    exact absurd hvalue (not_le.mpr (by positivity))
  | finite neg sig e =>
    refine ⟨sig, e, rfl, ?_⟩
    obtain ⟨hnormal, -⟩ | ⟨-, hsub, rfl⟩ := hnumber
    · exact hnormal
    · rw [abs_doubleValue_finite, mul_le_mul_iff_left₀ hpos, Nat.cast_le] at hvalue
      omega

end IsRounding

/-! ## Every exact value -/

/-- Rounding an integer significand rounds every value that the integer stands for: the integer itself, or, where it is odd and has more
than 54 bits, a value within 1 of it. -/
theorem isRounding_roundDouble (neg : Bool) {m : Nat} (hm : 0 < m) (e : Int) {v : ℚ}
    (hv : v = m ∨ (2 ^ 54 ≤ m ∧ m % 2 = 1 ∧ |v - m| < 1)) : IsRounding neg (v * 2 ^ e) (roundDouble neg m e) := by
  obtain ⟨he2, hlt, hge⟩ := scaled_bounds hm e
  have hround := nearestEven_roundedSig m e
  have hscale : v * 2 ^ e = v * 2 ^ (e - roundExponent m e) * 2 ^ roundExponent m e := by
    rw [mul_assoc, ← zpow_add₀ two_ne_zero, sub_add_cancel]
  rw [roundDouble_eq neg hm, hscale]
  obtain rfl | ⟨hbits, hodd, hnear⟩ := hv
  · exact isRounding_packDouble neg hround he2 hlt hge
  have hlog : 54 ≤ m.log2 := (Nat.le_log2 hm.ne').mpr hbits
  have halike := halvesAlike_of_odd hodd hnear (k := e - roundExponent m e) (by rw [roundExponent]; omega)
  have hlt' := halike.intCast_le (2 ^ 53)
  have hge' := halike.intCast_le (2 ^ 52)
  push_cast at hlt' hge'
  exact isRounding_packDouble neg (hround.of_halvesAlike halike) he2 (not_le.mp (hlt'.not.mpr hlt.not_ge)) (hge.imp_right hge'.mpr)

/-- The value 0 rounds to a zero of either sign. -/
theorem isRounding_zero (neg : Bool) : IsRounding neg 0 (.zero neg) := by
  have hmid : (0 : ℚ) < ((2 : ℚ) ^ 54 - 1) * 2 ^ 970 := mul_pos (by norm_num) (by positivity)
  rw [IsRounding, if_neg hmid.not_ge]
  refine ⟨trivial, rfl, fun sig2 e2 _ _ => ⟨?_, fun _ => .inr rfl⟩⟩
  rw [doubleValue, abs_zero, sub_zero, abs_zero]
  exact abs_nonneg _

/-- Settles O58: 0 rounds to a zero, and every other value is scaled, rounded to an integer and packed. -/
theorem roundingIsNearestTiesToEven : Obligations.RoundingIsNearestTiesToEven := by
  intro neg m e
  have hround : IsRounding neg ((m : ℚ) * 2 ^ e) (roundDouble neg m e) := by
    obtain rfl | hm := Nat.eq_zero_or_pos m
    · rw [Nat.cast_zero, zero_mul]
      exact isRounding_zero neg
    · exact isRounding_roundDouble neg hm e (.inl rfl)
  exact ⟨hround, hround.normal⟩

end Sys2Proof.Machine
end

