-- ==== Sys2Proof/Proofs/FloatOps.lean ====
section
/-! The four operations on doubles as exact results rounded (R250, R252). -/

namespace Sys2Proof.Machine

/-! ## The exact value of a double -/

/-- A number is its own rounding. -/
theorem IsNumber.isRounding {neg : Bool} {sig : Nat} {e : Int} (h : IsNumber (.finite neg sig e)) :
    IsRounding neg ((sig : ℚ) * 2 ^ e) (.finite neg sig e) := by
  have hbounds : sig < 2 ^ 53 ∧ e ≤ 971 := by
    rw [IsNumber, NormalSig] at h
    omega
  have hmid : (sig : ℚ) * 2 ^ e < ((2 : ℚ) ^ 54 - 1) * 2 ^ 970 := by
    have hsig : (sig : ℚ) ≤ 2 ^ 53 - 1 := by
      have : sig + 1 ≤ 2 ^ 53 := hbounds.1
      rw [le_sub_iff_add_le]
      exact_mod_cast this
    have hpow : (2 : ℚ) ^ e ≤ 2 * 2 ^ (970 : Int) := by
      rw [← zpow_one_add₀ two_ne_zero]
      exact zpow_le_zpow_right₀ one_le_two hbounds.2
    have hpos : (0 : ℚ) < 2 ^ (970 : Int) := by positivity
    calc (sig : ℚ) * 2 ^ e ≤ (2 ^ 53 - 1) * (2 * 2 ^ (970 : Int)) := mul_le_mul hsig hpow (by positivity) (by norm_num)
      _ < (2 ^ 54 - 1) * 2 ^ (970 : Int) := by
        rw [← mul_assoc]
        exact mul_lt_mul_of_pos_right (by norm_num) hpos
      _ = (2 ^ 54 - 1) * 2 ^ 970 := midpoint_eq.symm
  rw [IsRounding, if_neg hmid.not_ge, abs_doubleValue_finite, sub_self, abs_zero]
  exact ⟨h, rfl, fun sig2 e2 _ _ => ⟨abs_nonneg _, fun htie => .inl (sub_eq_zero.mp (abs_eq_zero.mp htie.symm)).symm⟩⟩

theorem IsNumber.significand_pos {neg : Bool} {sig : Nat} {e : Int} (h : IsNumber (.finite neg sig e)) : 0 < sig := by
  rw [IsNumber, NormalSig] at h
  omega

/-- The numbers: the two zeros, and finite values with a significand above 0. -/
theorem IsNumber.cases {d : Double} (h : IsNumber d) :
    (∃ neg, d = .zero neg) ∨ ∃ neg sig e, d = .finite neg sig e ∧ 0 < sig := by
  cases d with
  | nan => exact h.elim
  | inf neg => exact h.elim
  | zero neg => exact .inl ⟨neg, rfl⟩
  | finite neg sig e => exact .inr ⟨neg, sig, e, rfl, h.significand_pos⟩

@[simp] theorem doubleValue_zero (neg : Bool) : doubleValue (.zero neg) = 0 := rfl

theorem doubleValue_finite (neg : Bool) (sig : Nat) (e : Int) :
    doubleValue (.finite neg sig e) = (if neg then -1 else 1) * ((sig : ℚ) * 2 ^ e) := mul_assoc _ _ _

theorem doubleValue_finite_eq_signedSig (neg : Bool) (sig : Nat) (e : Int) :
    doubleValue (.finite neg sig e) = (signedSig neg sig : ℚ) * 2 ^ e := by
  cases neg <;> simp [doubleValue, signedSig]

/-- An integer significand on the scale of a smaller exponent. -/
theorem intCast_rescale {g e : Int} (h : g ≤ e) (n : Int) : (n : ℚ) * 2 ^ e = ((n * 2 ^ (e - g).toNat : Int) : ℚ) * 2 ^ g := by
  push_cast
  rw [← zpow_toNat (by omega), mul_assoc, ← zpow_add₀ two_ne_zero, sub_add_cancel]

/-- The sign of a product is negative where the signs of its factors differ. -/
theorem signs_mul (na nb : Bool) (u v : ℚ) :
    (if na then -1 else 1) * u * ((if nb then -1 else 1) * v) = (if na != nb then -1 else 1) * (u * v) := by
  cases na <;> cases nb <;> simp

/-- So is the sign of a quotient. -/
theorem signs_div (na nb : Bool) (u v : ℚ) :
    (if na then -1 else 1) * u / ((if nb then -1 else 1) * v) = (if na != nb then -1 else 1) * (u / v) := by
  cases na <;> cases nb <;> simp [neg_div, div_neg]

theorem IsNumber.negate {d : Double} (h : IsNumber d) :
    IsNumber d.negate ∧ doubleValue d.negate = -doubleValue d ∧ d.negate.isNegative = !d.isNegative := by
  obtain ⟨neg, rfl⟩ | ⟨neg, sig, e, rfl, -⟩ := h.cases
  · exact ⟨trivial, neg_zero.symm, rfl⟩
  · refine ⟨h, ?_, rfl⟩
    cases neg <;> simp [Double.negate, doubleValue]

/-! ## Results -/

/-- A double is the exact value `x` rounded, with the sign of `x`; an exact zero has the sign given (R252). -/
def RoundsExact (x : ℚ) (zeroNeg : Bool) (d : Double) : Prop :=
  if x = 0 then d = .zero zeroNeg else IsRounding (decide (x < 0)) |x| d

namespace RoundsExact

variable {x : ℚ} {d : Double} {neg zeroNeg : Bool}

theorem of_zero : RoundsExact 0 neg (.zero neg) := by
  rw [RoundsExact, if_pos rfl]

/-- The rounding of a positive magnitude, with a sign. -/
theorem of_magnitude {v : ℚ} (hv : 0 < v) (h : IsRounding neg v d) : RoundsExact ((if neg then -1 else 1) * v) zeroNeg d := by
  cases neg with
  | false =>
    rw [if_neg (by decide), one_mul, RoundsExact, if_neg hv.ne', decide_eq_false hv.not_gt, abs_of_pos hv]
    exact h
  | true =>
    rw [if_pos rfl, neg_one_mul, RoundsExact, if_neg (neg_ne_zero.mpr hv.ne'), decide_eq_true (neg_neg_iff_pos.mpr hv), abs_neg, abs_of_pos hv]
    exact h

/-- A number other than a zero is its own exact value rounded. -/
theorem of_finite {sig : Nat} {e : Int} (h : IsNumber (.finite neg sig e)) :
    RoundsExact (doubleValue (.finite neg sig e)) zeroNeg (.finite neg sig e) := by
  have hsig : (0 : ℚ) < sig := Nat.cast_pos.mpr h.significand_pos
  rw [doubleValue_finite]
  exact of_magnitude (by positivity) h.isRounding

/-- A signed integer significand, rounded. -/
theorem of_int {n : Int} (e : Int) (hzero : n = 0 → zeroNeg = false) :
    RoundsExact ((n : ℚ) * 2 ^ e) zeroNeg (if n = 0 then .zero false else roundDouble (decide (n < 0)) n.natAbs e) := by
  split_ifs with hn
  · rw [hn, hzero hn, Int.cast_zero, zero_mul]
    exact of_zero
  · have hpos : 0 < n.natAbs := Int.natAbs_pos.mpr hn
    have hsign : (n : ℚ) * 2 ^ e = (if decide (n < 0) then -1 else 1) * ((n.natAbs : ℚ) * 2 ^ e) := by
      rw [← mul_assoc, Nat.cast_natAbs, Int.cast_abs]
      by_cases hneg : n < 0
      · rw [if_pos (decide_eq_true hneg), abs_of_neg (Int.cast_lt_zero.mpr hneg), neg_one_mul, neg_neg]
      · rw [if_neg (by rwa [decide_eq_true_eq]), abs_of_nonneg (Int.cast_nonneg (not_lt.mp hneg)), one_mul]
    rw [hsign]
    exact of_magnitude (by positivity) (isRounding_roundDouble _ hpos e (.inl rfl))

/-- In range the rounded result is a normal double. -/
theorem normal (h : RoundsExact x zeroNeg d) (hlow : (2 : ℚ) ^ (-1022 : Int) ≤ |x|) (hhigh : |x| ≤ 2 ^ (1023 : Int)) :
    ∃ sig e, d = .finite (decide (x < 0)) sig e ∧ NormalSig sig := by
  have hx : x ≠ 0 := by
    rintro rfl
    rw [abs_zero] at hlow
    exact absurd hlow (not_le.mpr (by positivity))
  rw [RoundsExact, if_neg hx] at h
  exact h.normal hlow hhigh

end RoundsExact

/-! ## The four operations -/

section
variable {a b : Double}

/-- The sum of two finite values is rounded once, from integers on the scale of the smaller exponent. -/
theorem roundsExact_add_finite (na nb : Bool) {ma mb : Nat} (ea eb : Int) (hma : 0 < ma) (hmb : 0 < mb) :
    RoundsExact (doubleValue (.finite na ma ea) + doubleValue (.finite nb mb eb)) (na && nb)
      (Double.add (.finite na ma ea) (.finite nb mb eb)) := by
  rw [Double.add]
  generalize hsum : signedSig na ma * 2 ^ (ea - min ea eb).toNat + signedSig nb mb * 2 ^ (eb - min ea eb).toNat = sum
  rw [doubleValue_finite_eq_signedSig, doubleValue_finite_eq_signedSig, intCast_rescale (min_le_left ea eb), intCast_rescale (min_le_right ea eb),
    ← add_mul, ← Int.cast_add, hsum]
  refine .of_int _ fun hzero => ?_
  rw [Bool.and_eq_false_iff]
  by_contra hboth
  have hposA : (0 : Int) < ma * 2 ^ (ea - min ea eb).toNat := by positivity
  have hposB : (0 : Int) < mb * 2 ^ (eb - min ea eb).toNat := by positivity
  simp only [not_or, Bool.not_eq_false] at hboth
  simp only [hboth, signedSig, if_true, neg_mul] at hsum
  omega

/-- The exact sum, rounded. -/
theorem roundsExact_add (ha : IsNumber a) (hb : IsNumber b) :
    RoundsExact (doubleValue a + doubleValue b) (a.isNegative && b.isNegative) (a.add b) := by
  obtain ⟨na, rfl⟩ | ⟨na, ma, ea, rfl, hma⟩ := ha.cases <;> obtain ⟨nb, rfl⟩ | ⟨nb, mb, eb, rfl, hmb⟩ := hb.cases
  · rw [doubleValue_zero, doubleValue_zero, add_zero]
    exact .of_zero
  · rw [doubleValue_zero, zero_add]
    exact .of_finite hb
  · rw [doubleValue_zero, add_zero]
    exact .of_finite ha
  · exact roundsExact_add_finite na nb ea eb hma hmb

/-- The exact difference, rounded: the sum with the other operand's sign changed. -/
theorem roundsExact_sub (ha : IsNumber a) (hb : IsNumber b) :
    RoundsExact (doubleValue a - doubleValue b) (a.isNegative && !b.isNegative) (a.sub b) := by
  obtain ⟨hnumber, hvalue, hneg⟩ := hb.negate
  have hsum := roundsExact_add ha hnumber
  rwa [hvalue, ← sub_eq_add_neg, hneg] at hsum

/-- The exact product, rounded. -/
theorem roundsExact_mul (ha : IsNumber a) (hb : IsNumber b) :
    RoundsExact (doubleValue a * doubleValue b) (a.isNegative != b.isNegative) (a.mul b) := by
  obtain ⟨na, rfl⟩ | ⟨na, ma, ea, rfl, hma⟩ := ha.cases <;> obtain ⟨nb, rfl⟩ | ⟨nb, mb, eb, rfl, hmb⟩ := hb.cases
  · rw [doubleValue_zero, zero_mul]
    exact .of_zero
  · rw [doubleValue_zero, zero_mul]
    exact .of_zero
  · rw [doubleValue_zero, mul_zero]
    exact .of_zero
  · have hmagnitude : (ma : ℚ) * 2 ^ ea * (mb * 2 ^ eb) = ((ma * mb : Nat) : ℚ) * 2 ^ (ea + eb) := by
      rw [zpow_add₀ two_ne_zero]
      push_cast
      ring
    rw [doubleValue_finite, doubleValue_finite, signs_mul, hmagnitude]
    exact .of_magnitude (by positivity) (isRounding_roundDouble _ (Nat.mul_pos hma hmb) _ (.inl rfl))

/-- Twice the integer quotient, with the last bit set where the division leaves a remainder. -/
def stickyQuotient (n d : Nat) : Nat := 2 * (n / d) + if n % d = 0 then 0 else 1

/-- The sticky quotient is twice the exact quotient, or is odd and within 1 of it. -/
theorem stickyQuotient_spec (n : Nat) {d : Nat} (hd : 0 < d) :
    2 * (n : ℚ) / d = stickyQuotient n d ∨ (stickyQuotient n d % 2 = 1 ∧ |2 * (n : ℚ) / d - stickyQuotient n d| < 1) := by
  have hpos : (0 : ℚ) < d := Nat.cast_pos.mpr hd
  have hdivision : (d : ℚ) * (n / d : Nat) + (n % d : Nat) = n := by exact_mod_cast Nat.div_add_mod n d
  have hquotient : 2 * (n : ℚ) / d = 2 * (n / d : Nat) + 2 * (n % d : Nat) / d := by
    rw [← hdivision]
    field_simp
  rw [stickyQuotient, hquotient]
  split_ifs with hexact
  · left
    rw [hexact]
    simp
  · right
    have hlow : (0 : ℚ) < 2 * (n % d : Nat) / d := by
      have : (0 : ℚ) < (n % d : Nat) := Nat.cast_pos.mpr (Nat.pos_of_ne_zero hexact)
      positivity
    have hhigh : 2 * ((n % d : Nat) : ℚ) / d < 2 := by
      rw [div_lt_iff₀ hpos]
      have : ((n % d : Nat) : ℚ) < d := Nat.cast_lt.mpr (Nat.mod_lt n hd)
      linarith
    refine ⟨by omega, abs_lt.mpr ⟨?_, ?_⟩⟩ <;> push_cast <;> linarith

/-- The exact quotient of two finite values, rounded: the integer quotient has more bits than the significand by enough. -/
theorem isRounding_div (na nb : Bool) {ma mb : Nat} (ea eb : Int) (hma : 0 < ma) (hmb : 0 < mb) :
    IsRounding (na != nb) ((ma : ℚ) * 2 ^ ea / ((mb : ℚ) * 2 ^ eb)) (Double.div (.finite na ma ea) (.finite nb mb eb)) := by
  have hlog : mb < 2 ^ (mb.log2 + 1) := Nat.lt_log2_self
  have hbits : 2 ^ 56 ≤ ma * 2 ^ (mb.log2 + 57) / mb := by
    rw [Nat.le_div_iff_mul_le hmb]
    calc 2 ^ 56 * mb ≤ 2 ^ 56 * 2 ^ (mb.log2 + 1) := Nat.mul_le_mul_left _ hlog.le
      _ = 1 * 2 ^ (mb.log2 + 57) := by ring
      _ ≤ ma * 2 ^ (mb.log2 + 57) := Nat.mul_le_mul_right _ hma
  have hlarge : 2 ^ 54 ≤ stickyQuotient (ma * 2 ^ (mb.log2 + 57)) mb := by
    rw [stickyQuotient]
    omega
  have hquotient : (ma : ℚ) * 2 ^ ea / (mb * 2 ^ eb) =
      2 * ((ma * 2 ^ (mb.log2 + 57) : Nat) : ℚ) / mb * 2 ^ (ea - eb - (mb.log2 + 57 : Nat) - 1) := by
    rw [zpow_sub_one₀ two_ne_zero, zpow_sub₀ two_ne_zero, zpow_sub₀ two_ne_zero, zpow_natCast]
    push_cast
    field_simp
  rw [hquotient]
  exact isRounding_roundDouble _ (by omega) _ ((stickyQuotient_spec _ hmb).imp_right fun ⟨hodd, hnear⟩ => ⟨hlarge, hodd, hnear⟩)

/-- The exact quotient, rounded, where the divisor is not a zero. -/
theorem roundsExact_div (ha : IsNumber a) (hb : IsNumber b) (hdivisor : b.isZero = false) :
    RoundsExact (doubleValue a / doubleValue b) (a.isNegative != b.isNegative) (a.div b) := by
  obtain ⟨nb, rfl⟩ | ⟨nb, mb, eb, rfl, hmb⟩ := hb.cases
  · exact Bool.noConfusion hdivisor
  obtain ⟨na, rfl⟩ | ⟨na, ma, ea, rfl, hma⟩ := ha.cases
  · rw [doubleValue_zero, zero_div]
    exact .of_zero
  · rw [doubleValue_finite, doubleValue_finite, signs_div]
    exact .of_magnitude (by positivity) (isRounding_div na nb ea eb hma hmb)

/-- Every operation is the exact result rounded. -/
theorem roundsExact_apply (op : FloatOp) (ha : IsNumber a) (hb : IsNumber b) (hdivisor : op = .divide → b.isZero = false) :
    RoundsExact (exactResult op (doubleValue a) (doubleValue b)) (zeroSign op a.isNegative b.isNegative) (op.apply a b) := by
  cases op with
  | subtract => exact roundsExact_sub ha hb
  | add => exact roundsExact_add ha hb
  | divide => exact roundsExact_div ha hb (hdivisor rfl)
  | multiply => exact roundsExact_mul ha hb

end

/-- Settles O59: each operation rounds the exact result, and in range a rounding is normal. -/
theorem floatingOperationIsRoundedExactResult : Obligations.FloatingOperationIsRoundedExactResult := by
  refine ⟨fun op a b ha hb hdivisor => ?_, fun na nb ma mb ea eb hma hmb => isRounding_div na nb ea eb hma hmb⟩
  have hrounds := roundsExact_apply op ha hb hdivisor
  have hnormal := hrounds.normal
  dsimp only
  rw [RoundsExact] at hrounds
  split_ifs at hrounds ⊢ with hzero
  · exact hrounds
  · exact ⟨hrounds, hnormal⟩

end Sys2Proof.Machine
end

