-- ==== Sys2Proof/Proofs/FloatRange.lean ====
section
/-! The results of the floating unit: the values that words stand for lie on a grid within 2^252, so that results are zeros or normal doubles
and sums do not underflow (R252, R257, R260, R261, R264, R265). -/

namespace Sys2Proof.Machine

/-! ## The values of words -/

/-- A value that a word can stand for: a multiple of the least step `2^g`, below 2^252 = 16^63 in magnitude. -/
structure OnWordGrid (g : Int) (v : ℚ) : Prop where
  multiple : ∃ n : Int, v = n * 2 ^ g
  lt : |v| < 2 ^ (252 : Int)

theorem two_zpow_le_abs_of_multiple {g n : Int} {v : ℚ} (h : v = n * 2 ^ g) (hv : v ≠ 0) : (2 : ℚ) ^ g ≤ |v| := by
  have hpos : (0 : ℚ) < 2 ^ g := by positivity
  have hn : n ≠ 0 := by
    rintro rfl
    exact hv (by rw [h, Int.cast_zero, zero_mul])
  have hone : (1 : ℚ) ≤ |(n : ℚ)| := by exact_mod_cast Int.one_le_abs hn
  rw [h, abs_mul, abs_of_pos hpos]
  exact le_mul_of_one_le_left hpos.le hone

namespace OnWordGrid

variable {g : Int} {u v : ℚ}

theorem zero (g : Int) : OnWordGrid g 0 := ⟨⟨0, by rw [Int.cast_zero, zero_mul]⟩, by rw [abs_zero]; positivity⟩

theorem neg (h : OnWordGrid g v) : OnWordGrid g (-v) := by
  obtain ⟨⟨n, hn⟩, hlt⟩ := h
  exact ⟨⟨-n, by rw [hn, Int.cast_neg, neg_mul]⟩, by rwa [abs_neg]⟩

theorem least_le (h : OnWordGrid g v) (hv : v ≠ 0) : (2 : ℚ) ^ g ≤ |v| := by
  obtain ⟨n, hn⟩ := h.multiple
  exact two_zpow_le_abs_of_multiple hn hv

/-- A sum stays on the grid. -/
theorem add_range (hu : OnWordGrid g u) (hv : OnWordGrid g v) (hne : u + v ≠ 0) : (2 : ℚ) ^ g ≤ |u + v| ∧ |u + v| ≤ 2 ^ (253 : Int) := by
  obtain ⟨⟨n, hn⟩, hu252⟩ := hu
  obtain ⟨⟨k, hk⟩, hv252⟩ := hv
  have hsum : u + v = (n + k : Int) * 2 ^ g := by rw [hn, hk, Int.cast_add, add_mul]
  have hdouble : (2 : ℚ) ^ (253 : Int) = 2 ^ (252 : Int) + 2 ^ (252 : Int) := by
    rw [show (253 : Int) = 252 + 1 by norm_num, zpow_add_one₀ two_ne_zero, mul_two]
  exact ⟨two_zpow_le_abs_of_multiple hsum hne, by linarith [abs_add_le u v]⟩

theorem mul_range (hu : OnWordGrid g u) (hv : OnWordGrid g v) (hne : u * v ≠ 0) :
    (2 : ℚ) ^ (g + g) ≤ |u * v| ∧ |u * v| ≤ 2 ^ (504 : Int) := by
  have hleastU := hu.least_le (left_ne_zero_of_mul hne)
  have hleastV := hv.least_le (right_ne_zero_of_mul hne)
  rw [abs_mul, zpow_add₀ two_ne_zero, show (504 : Int) = 252 + 252 by norm_num, zpow_add₀ two_ne_zero]
  exact ⟨mul_le_mul hleastU hleastV (by positivity) (abs_nonneg _), mul_le_mul hu.lt.le hv.lt.le (abs_nonneg _) (by positivity)⟩

theorem div_range (hu : OnWordGrid g u) (hv : OnWordGrid g v) (hne : u / v ≠ 0) :
    (2 : ℚ) ^ (g - 252) ≤ |u / v| ∧ |u / v| ≤ 2 ^ (252 - g) := by
  obtain ⟨hu0, hv0⟩ := div_ne_zero_iff.mp hne
  have hleastU := hu.least_le hu0
  have hleastV := hv.least_le hv0
  rw [abs_div, zpow_sub₀ two_ne_zero, zpow_sub₀ two_ne_zero]
  exact ⟨div_le_div₀ (abs_nonneg _) hleastU (abs_pos.mpr hv0) hv.lt.le, div_le_div₀ (by positivity) hu.lt.le (by positivity) hleastV⟩

theorem least_le_sum (hu : OnWordGrid g u) (hv : OnWordGrid g v) {op : FloatOp} (hop : op = .add ∨ op = .subtract)
    (hne : exactResult op u v ≠ 0) : (2 : ℚ) ^ g ≤ |exactResult op u v| := by
  obtain rfl | rfl := hop
  · exact (hu.add_range hv hne).1
  · rw [exactResult, sub_eq_add_neg] at hne ⊢
    exact (hu.add_range hv.neg hne).1

/-- Nothing that the unit computes comes near the ends of the range of normal doubles. -/
theorem exactResult_range (hu : OnWordGrid g u) (hv : OnWordGrid g v) (hg : -312 ≤ g) (hg0 : g ≤ 0) (op : FloatOp)
    (hne : exactResult op u v ≠ 0) : (2 : ℚ) ^ (-1022 : Int) ≤ |exactResult op u v| ∧ |exactResult op u v| ≤ 2 ^ (1023 : Int) := by
  have widen {low high : Int} {x : ℚ} (h : (2 : ℚ) ^ low ≤ |x| ∧ |x| ≤ 2 ^ high) (hlow : -1022 ≤ low) (hhigh : high ≤ 1023) :
      (2 : ℚ) ^ (-1022 : Int) ≤ |x| ∧ |x| ≤ 2 ^ (1023 : Int) :=
    ⟨(zpow_le_zpow_right₀ one_le_two hlow).trans h.1, h.2.trans (zpow_le_zpow_right₀ one_le_two hhigh)⟩
  cases op with
  | subtract =>
    rw [exactResult, sub_eq_add_neg] at hne ⊢
    exact widen (hu.add_range hv.neg hne) (by omega) (by omega)
  | add => exact widen (hu.add_range hv hne) (by omega) (by omega)
  | divide => exact widen (hu.div_range hv hne) (by omega) (by omega)
  | multiply => exact widen (hu.mul_range hv hne) (by omega) (by omega)

end OnWordGrid

section
variable {width : Nat} {policy : UflowPolicy} {op : FloatOp}

/-- The step of a format: the least bit of the fraction at characteristic 0 (R220, R221). -/
def wordStep (width : Nat) : Int := -256 - ((width : Int) - 8)

/-- The double of a word is a number on the format's grid: the bits dropped from a long fraction are above the step (R226). -/
theorem sigmaToDouble_onWordGrid (hwidth : width = 32 ∨ width = 64) (w : BitVec width) :
    IsNumber (sigmaToDouble w) ∧ OnWordGrid (wordStep width) (doubleValue (sigmaToDouble w)) := by
  by_cases hfr : fraction w = 0
  · rw [sigmaToDouble_of_fraction_eq_zero hfr]
    exact ⟨trivial, .zero _⟩
  have hfb := natCast_fractionBits (width := width) (by omega)
  have hch : characteristic w < 128 := Nat.mod_lt _ (by decide)
  have hlog : (fraction w).log2 < fractionBits width := (Nat.log2_lt hfr).mpr (fraction_lt w)
  have hnormal := normalSig_floorShift (Nat.pos_of_ne_zero hfr)
  rw [sigmaToDouble_of_fraction_ne_zero hfr]
  refine ⟨.inl ⟨hnormal, by omega, by omega⟩, ?_, ?_⟩
  · suffices hmagnitude : ∃ n : Int, (floorShift (fraction w) (52 - ((fraction w).log2 : Int)) : ℚ) *
        2 ^ (4 * ((characteristic w : Int) - 64) - fractionBits width + (fraction w).log2 - 52) = n * 2 ^ wordStep width by
      obtain ⟨n, hn⟩ := hmagnitude
      refine ⟨if w.msb then -n else n, ?_⟩
      rw [doubleValue_finite, hn]
      cases w.msb <;> simp
    obtain hshort | hlong := le_or_gt (fraction w).log2 52
    · -- no bit is dropped
      rw [floorShift_of_nonneg _ (by omega), mul_assoc, ← zpow_add₀ two_ne_zero]
      exact ⟨_, intCast_rescale (by rw [wordStep]; omega) (fraction w)⟩
    · exact ⟨_, intCast_rescale (by rw [wordStep]; omega) (floorShift (fraction w) (52 - ((fraction w).log2 : Int)))⟩
  · rw [abs_doubleValue_finite, ← not_le, two_zpow_le_iff (by have := hnormal.1; omega), hnormal.log2_eq]
    omega

/-- A converted word is a zero exactly where its fraction is (R224). -/
theorem isZero_sigmaToDouble_iff (w : BitVec width) : (sigmaToDouble w).isZero = true ↔ fractionField w = 0 := by
  rw [fractionField_eq_fraction]
  by_cases hfr : fraction w = 0
  · rw [sigmaToDouble_of_fraction_eq_zero hfr]
    exact iff_of_true rfl hfr
  · rw [sigmaToDouble_of_fraction_ne_zero hfr]
    exact iff_of_false Bool.false_ne_true hfr

/-! ## Results and faults -/

/-- The word of a conversion, or the fault of its status with the sign of the result (R253, R255). -/
def wordOrFault (neg : Bool) : BitVec width × ConvertStatus → Except FloatFault (BitVec width)
  | (w, .ok) => .ok w
  | (_, .overflow) => .error (.overflow neg)
  | (_, .underflow) => .error (.underflow neg)
  | (_, .nan) => .error .nan

/-- The result of an operation on two converted words: the zero divisor first, then the conversion of the result (R253, R255, R256). -/
theorem floatResult_converted (a b : BitVec width) :
    floatResult width op policy (sigmaToDouble a) (sigmaToDouble b) =
      if op = .divide ∧ fractionField b = 0 then .error .divideByZero
      else wordOrFault (op.apply (sigmaToDouble a) (sigmaToDouble b)).isNegative
        (doubleToSigma width policy (op.apply (sigmaToDouble a) (sigmaToDouble b))) := by
  rw [floatResult]
  simp only [isZero_sigmaToDouble_iff]
  split_ifs
  · rfl
  · obtain ⟨w, st⟩ := doubleToSigma width policy (op.apply (sigmaToDouble a) (sigmaToDouble b))
    cases st <;> rfl

theorem status_of_wordOrFault_nan {neg : Bool} {c : BitVec width × ConvertStatus} (h : wordOrFault neg c = .error .nan) : c.2 = .nan := by
  obtain ⟨w, st⟩ := c
  cases st with
  | nan => rfl
  | ok | overflow | underflow => nomatch h

theorem status_of_wordOrFault_underflow {neg n : Bool} {c : BitVec width × ConvertStatus} (h : wordOrFault neg c = .error (.underflow n)) :
    c.2 = .underflow := by
  obtain ⟨w, st⟩ := c
  cases st with
  | underflow => rfl
  | ok | overflow | nan => nomatch h

/-- The rounded result of an operation on two converted words, the zero divisor taken out: a zero, or a normal double, of which a sum is at
least the format's step. -/
theorem apply_converted_cases (hwidth : width = 32 ∨ width = 64) (a b : BitVec width) (hdivisor : op = .divide → fractionField b ≠ 0) :
    (∃ neg, op.apply (sigmaToDouble a) (sigmaToDouble b) = .zero neg) ∨
      ∃ neg sig e, op.apply (sigmaToDouble a) (sigmaToDouble b) = .finite neg sig e ∧ NormalSig sig ∧
        (op = .add ∨ op = .subtract → (2 : ℚ) ^ wordStep width ≤ (sig : ℚ) * 2 ^ e) := by
  obtain ⟨hnumberA, hgridA⟩ := sigmaToDouble_onWordGrid hwidth a
  obtain ⟨hnumberB, hgridB⟩ := sigmaToDouble_onWordGrid hwidth b
  have hstep : -312 ≤ wordStep width ∧ wordStep width ≤ 0 := by
    rw [wordStep]
    omega
  have hrounds := roundsExact_apply op hnumberA hnumberB fun hop =>
    Bool.eq_false_iff.mpr ((isZero_sigmaToDouble_iff b).not.mpr (hdivisor hop))
  by_cases hzero : exactResult op (doubleValue (sigmaToDouble a)) (doubleValue (sigmaToDouble b)) = 0
  · rw [RoundsExact, if_pos hzero] at hrounds
    exact .inl ⟨_, hrounds⟩
  · obtain ⟨hlow, hhigh⟩ := hgridA.exactResult_range hgridB hstep.1 hstep.2 op hzero
    obtain ⟨sig, e, hresult, hnormal⟩ := hrounds.normal hlow hhigh
    refine .inr ⟨_, sig, e, hresult, hnormal, fun hop => ?_⟩
    rw [RoundsExact, if_neg hzero, hresult] at hrounds
    have hleast := hgridA.least_le_sum hgridB hop hzero
    have hvalue := hrounds.le_abs_doubleValue (lt_midpoint_of_le hhigh) (sig := 1) (by norm_num) (show -1074 ≤ wordStep width by omega)
      (by rwa [Nat.cast_one, one_mul])
    rwa [abs_doubleValue_finite, Nat.cast_one, one_mul] at hvalue

/-- A finite double never has the status of a NaN, nor, from the format's step on, that of underflow (R231, R234, R236). -/
theorem doubleToSigma_finite_status (hwidth : width = 32 ∨ width = 64) (neg : Bool) {sig : Nat} (e : Int) (hsig : 0 < sig) :
    (doubleToSigma width policy (.finite neg sig e)).2 ≠ .nan ∧
      ((2 : ℚ) ^ wordStep width ≤ (sig : ℚ) * 2 ^ e → (doubleToSigma width policy (.finite neg sig e)).2 ≠ .underflow) := by
  have hchops := fun w st => doubleToSigmaChops.2 width policy neg sig e w st hwidth hsig
  generalize doubleToSigma width policy (.finite neg sig e) = c at hchops ⊢
  obtain ⟨w, st⟩ := c
  specialize hchops w st rfl
  rw [wordStep]
  by_cases hkept : (2 : ℚ) ^ (-256 - ((width : Int) - 8)) ≤ (sig : ℚ) * 2 ^ e
  · rw [if_pos hkept] at hchops
    have hok : st = .overflow ∨ st = .ok := by
      split at hchops
      · exact .inl hchops.1
      · split at hchops <;> exact .inr hchops.1
    obtain rfl | rfl := hok <;> exact ⟨nofun, nofun⟩
  · rw [if_neg hkept] at hchops
    refine ⟨?_, fun h => absurd h hkept⟩
    rintro rfl
    split at hchops
    · exact nomatch hchops.1
    split at hchops
    · exact nomatch hchops.1
    · cases policy <;> exact nomatch hchops.2

/-- The status of the converted result is that of a NaN for no operation, and that of underflow for no sum. -/
theorem apply_converted_status (hwidth : width = 32 ∨ width = 64) (a b : BitVec width) (hdivisor : op = .divide → fractionField b ≠ 0) :
    (doubleToSigma width policy (op.apply (sigmaToDouble a) (sigmaToDouble b))).2 ≠ .nan ∧
      (op = .add ∨ op = .subtract → (doubleToSigma width policy (op.apply (sigmaToDouble a) (sigmaToDouble b))).2 ≠ .underflow) := by
  obtain ⟨neg, hresult⟩ | ⟨neg, sig, e, hresult, hnormal, hleast⟩ := apply_converted_cases hwidth a b hdivisor
  · rw [hresult]
    exact ⟨nofun, nofun⟩
  · obtain ⟨hnan, hunder⟩ := doubleToSigma_finite_status (policy := policy) hwidth neg e (Nat.lt_of_lt_of_le (by decide) hnormal.1)
    rw [hresult]
    exact ⟨hnan, fun hop => hunder (hleast hop)⟩

end

/-- Settles O57: an exact result is 0 or in the range of normal doubles, and the conversion of a zero or of a finite double never has the
status of a NaN. -/
theorem floatingResultsAreZeroOrNormal : Obligations.FloatingResultsAreZeroOrNormal := by
  intro width op policy a b hwidth
  refine ⟨fun hdivisor => ?_, fun hfault => ?_⟩
  · obtain hzero | ⟨neg, sig, e, hresult, hnormal, -⟩ := apply_converted_cases hwidth a b hdivisor
    · exact .inl hzero
    · exact .inr ⟨neg, sig, e, hresult, hnormal⟩
  · have hzero : ¬ (op = .divide ∧ fractionField b = 0) := fun hzero => by
      rw [floatResult_converted, if_pos hzero] at hfault
      exact nomatch Except.error.inj hfault
    rw [floatResult_converted, if_neg hzero] at hfault
    exact (apply_converted_status hwidth a b fun hop hfr => hzero ⟨hop, hfr⟩).1 (status_of_wordOrFault_nan hfault)

/-- Settles O60: a sum that is not 0 is at least the format's step, so its rounding is, and from the step on the converter drops nothing to
underflow. -/
theorem sumsNeverUnderflow : Obligations.SumsNeverUnderflow := by
  intro width op policy a b neg hwidth hop hfault
  have hdivisor : op ≠ .divide := by
    rintro rfl
    exact nomatch hop
  rw [floatResult_converted, if_neg fun h => hdivisor h.1] at hfault
  exact (apply_converted_status hwidth a b fun h => absurd h hdivisor).2 hop (status_of_wordOrFault_underflow hfault)

end Sys2Proof.Machine
end

