-- ==== Sys2Proof/Proofs/FloatCommand.lean ====
section
/-! The floating commands (R250 to R268): what the end of a command comes to, from the conversion of its result. -/

namespace Sys2Proof.Machine

/-- What a floating command comes to once its load passed and its divisor is not zero: its result written, or the fault of the status with
the sign of the result (R253 to R255). -/
def FloatOutcome {width : Nat} (s t : State) (neg : Bool) (Done : BitVec width → Prop) : BitVec width × ConvertStatus → Prop
  | (w, .ok) => Done w
  | (_, .overflow) => FaultsFloat s t (if neg then 0b0101 else 0b0110)
  | (_, .underflow) => FaultsFloat s t (if neg then 0b1101 else 0b1110)
  | (_, .nan) => FaultsFloat s t 0b0100

/-- Everything the end of a floating command can be: the abort, the fault of a zero divisor, or the outcome of the conversion; `Done` is what
a word written and its condition code leave. -/
theorem FloatEnds.outcome {width : Nat} {s t fetched : State} {write : State → BitVec width → State} {op : FloatOp} {policy : UflowPolicy}
    {a b : BitVec width} (h : FloatEnds s t fetched write (floatResult width op policy (sigmaToDouble a) (sigmaToDouble b)))
    {Done : BitVec width → Prop} (hdone : ∀ w, t.regs = (write fetched w).regs → t.mem = s.mem → EndsDone s t (wordCode w) → Done w) :
    if s.passes 1 then
      if op = .divide ∧ fractionField b = 0 then FaultsFloat s t 0b0100
      else FloatOutcome s t (op.apply (sigmaToDouble a) (sigmaToDouble b)).isNegative Done
        (doubleToSigma width policy (op.apply (sigmaToDouble a) (sigmaToDouble b)))
    else AbortsUnchanged s t := by
  rw [floatResult_converted] at h
  by_cases hpasses : s.passes 1
  · rw [if_pos hpasses]
    by_cases hzero : op = .divide ∧ fractionField b = 0
    · rw [if_pos hzero] at h ⊢
      exact (h.faults _ hpasses rfl).1
    · rw [if_neg hzero] at h ⊢
      generalize doubleToSigma width policy (op.apply (sigmaToDouble a) (sigmaToDouble b)) = c at h ⊢
      obtain ⟨w, st⟩ := c
      cases st with
      | ok =>
        obtain ⟨hregs, hmem, hends, -⟩ := h.completes w hpasses rfl
        exact hdone w hregs hmem hends
      | overflow => exact (h.faults _ hpasses rfl).1
      | underflow => exact (h.faults _ hpasses rfl).1
      | nan => exact (h.faults _ hpasses rfl).1
  · rw [if_neg hpasses]
    exact (h.aborts hpasses).1

/-- The rows of the floating instructions mask the operation code alone (R78). -/
theorem floatInstr_mask (op : FloatOp) :
    (shortInstr op false 0 0 0).row.2 = 0x7F000000 ∧ (longInstr op false 0 0 0).row.2 = 0x7F000000 := by
  cases op <;> exact ⟨rfl, rfl⟩

/-- A short result written and its code: x[R] and no other register changes (R253, R254). -/
def WritesShort (s t : State) (r : RegNum) (w : BitVec 32) : Prop :=
  t.reg r = w ∧ KeepsRegsBut s t [r] ∧ t.mem = s.mem ∧ EndsDone s t (wordCode w)

/-- A long result written and its code: the pair, of which an odd R keeps the high half (R253, R254). -/
def WritesLong (s t : State) (r : RegNum) (w : BitVec 64) : Prop :=
  t.reg r = w.extractLsb' 32 32 ∧ (r.toNat % 2 = 0 → t.reg (r ||| 1) = w.extractLsb' 0 32) ∧ KeepsRegsBut s t [r, r ||| 1] ∧
    t.mem = s.mem ∧ EndsDone s t (wordCode w)

section
variable {s t : State} {r : RegNum} {reads : List RegNum} {a n : Nat}

theorem writesShort_of_regs {w : BitVec 32} (hregs : t.regs = ((s.afterFetch reads a n).writeReg r w).regs) (hmem : t.mem = s.mem)
    (hdone : EndsDone s t (wordCode w)) : WritesShort s t r w := by
  refine ⟨?_, fun j hj => ?_, hmem, hdone⟩
  · rw [State.reg_congr hregs, State.reg_writeReg_self]
  · rw [State.reg_congr hregs, State.reg_writeReg, if_neg (mt List.mem_singleton.mpr hj)]
    rfl

/-- The low half is written first, so that with R odd the register keeps the high half (R253). -/
theorem writesLong_of_regs {w : BitVec 64} (hregs : t.regs = ((s.afterFetch reads a n).writeLong r w).regs) (hmem : t.mem = s.mem)
    (hdone : EndsDone s t (wordCode w)) : WritesLong s t r w := by
  have hreg (j : RegNum) : t.reg j = if j = r then w.extractLsb' 32 32 else if j = r ||| 1 then w.extractLsb' 0 32 else s.reg j := by
    rw [State.reg_congr hregs, State.writeLong, State.reg_writeReg, State.reg_writeReg]
    rfl
  refine ⟨?_, fun heven => ?_, fun j hj => ?_, hmem, hdone⟩
  · rw [hreg, if_pos rfl]
  · have hne : r ||| 1 ≠ r := pairLow_ne heven
    rw [hreg, if_neg hne, if_pos rfl]
  · obtain ⟨hhigh, hlow⟩ := List.ne_and_not_mem_of_not_mem_cons hj
    rw [hreg, if_neg hhigh, if_neg (mt List.mem_singleton.mpr hlow)]

end

/-! What the fetch of a floating command reads. -/

theorem State.uflow_policy (s : State) : s.uflow.2 = uflowPolicy s.config s.psd.fn s.psd.fz := rfl

theorem State.loadShort_word (s : State) : s.loadShort.2 = BitVec.ofNat 32 (bytesToNat (s.bytesAt (s.ea - s.ea % 4) 4)) := rfl

theorem State.loadLong_word (s : State) : s.loadLong.2 = BitVec.ofNat 64 (bytesToNat (s.bytesAt (s.ea - s.ea % 8) 8)) := rfl

theorem State.longReg_word (s : State) (r : RegNum) : (s.longReg r).2 = s.reg r ++ s.reg (r ||| 1) := rfl

/-- Settles O55: the end of the command by the status of the converted result. -/
theorem shortFloatingOperation : Obligations.ShortFloatingOperation := by
  refine ⟨fun op cw h => ?_, fun op ind r x addr s => ?_⟩
  · rw [← (floatInstr_mask op).1] at h
    rw [decode, fieldOp_of_agrees h]
    cases op <;> rfl
  · obtain ⟨t, ht, hends⟩ := floatShort_spec op r s
    have houtcome := hends.outcome (Done := WritesShort s t r) fun _ => writesShort_of_regs
    rw [State.uflow_policy, State.loadShort_word] at houtcome
    refine ⟨t, by cases op <;> exact ht, ?_⟩
    dsimp only
    generalize doubleToSigma 32 _ _ = c at houtcome ⊢
    obtain ⟨w, st⟩ := c
    cases st <;> exact houtcome

/-- Settles O56: as for the short forms, on the register pair and the doubleword. -/
theorem longFloatingOperation : Obligations.LongFloatingOperation := by
  refine ⟨fun op cw h => ?_, fun op ind r x addr s => ?_⟩
  · rw [← (floatInstr_mask op).2] at h
    rw [decode, fieldOp_of_agrees h]
    cases op <;> rfl
  · obtain ⟨t, ht, hends⟩ := floatLong_spec op r s
    have houtcome := hends.outcome (Done := WritesLong s t r) fun _ => writesLong_of_regs
    rw [State.uflow_policy, State.longReg_word, State.loadLong_word] at houtcome
    refine ⟨t, by cases op <;> exact ht, ?_⟩
    dsimp only
    generalize doubleToSigma 64 _ _ = c at houtcome ⊢
    obtain ⟨w, st⟩ := c
    cases st <;> exact houtcome

end Sys2Proof.Machine
end

