-- ==== Sys2Proof/Proofs/SequencerRun.lean ====
section
/-! The runs of the sequencer (R299): a stopped run stutters, and every step of one that goes on takes a command off its list. -/

namespace Sys2Proof.Machine

/-! ## A stopped run -/

theorem step_of_stopped {s : State} (h : s.running = false) : step s = .next s := by
  simp only [step, h, Bool.false_eq_true, if_false]

/-- Settles O9: the reports that stop a run are these two. -/
theorem stoppedRunPresentsNothing : Obligations.StoppedRunPresentsNothing := fun s h =>
  step_of_stopped ((running_eq_false_iff s).2 h)

/-! ## Runs -/

/-- A run of one step more, where the first step answers a next state. -/
theorem run_succ_of_step {s t : State} (h : step s = .next t) (n : Nat) : core.run (n + 1) s = core.run n t := by
  have hstep : core.step s = .next t := h
  simp only [Host.Core.run, hstep]

theorem run_of_stopped {s : State} (h : s.running = false) (n : Nat) : core.run n s = .next s := by
  induction n with
  | zero => rfl
  | succ n ih => rw [run_succ_of_step (step_of_stopped h), ih]

/-- A step that takes a decodable command answers an idle state with the rest of the list (R41, R299). -/
theorem step_takes_command {s : State} {c : Command} {rest : List Command} {i : Sys2Proof.Instr} (hrunning : s.running = true)
    (hprogram : s.program = c :: rest) (hidle : s.status = .idle) (hdecode : decode c.cw = .ok i) :
    ∃ t, step s = .next t ∧ t.program = rest ∧ t.status = .idle := by
  obtain ⟨t, ht, hstatus⟩ := everyInstructionLeavesBlockIdle i (s.present c rest)
  obtain ⟨hcontext, -⟩ := commandFrame i _ t ht
  exact ⟨t, (stepRunsDecodedCommand s c rest i hrunning hprogram hidle hdecode).trans ht, hcontext.program, hstatus⟩

/-- Settles O14, by induction on the list: a run that goes on uses up one command in each step, and one that has stopped stays so. -/
theorem programEndsWithinItsLength : Obligations.ProgramEndsWithinItsLength := by
  intro s hidle hdecodes
  generalize hprogram : s.program = program at hdecodes ⊢
  induction program generalizing s with
  | nil => exact ⟨s, rfl, .inl hprogram⟩
  | cons c rest ih =>
    cases hrunning : s.running with
    | false => exact ⟨s, run_of_stopped hrunning _, .inr hrunning⟩
    | true =>
      obtain ⟨i, hdecode⟩ := hdecodes c List.mem_cons_self
      obtain ⟨t, hstep, hrest, hidle'⟩ := step_takes_command hrunning hprogram hidle hdecode
      rw [List.length_cons, run_succ_of_step hstep]
      exact ih t hidle' hrest fun d hd => hdecodes d (List.mem_cons_of_mem c hd)

end Sys2Proof.Machine
end

