-- ==== Sys2Proof/Proofs/StoreAgain.lean ====
section
/-! DST and UNPK presented again after an abort (R286, R325): an aborted store changed no register and no byte outside its field, so that
the second presentation stores the same string over whatever the first one left of it. -/

namespace Sys2Proof.Machine

/-! ## The common rule of DST and UNPK -/

/-- The accumulator is checked, then its size, then an image of it is stored at EA (R161, R201). -/
def State.storeImage (s : State) (z : Nat) (image : W128 → List Byte) : Result :=
  s.withAcc fun u v => if 10 ^ z ≤ v.toInt.natAbs then u.decimalFault .overflow else u.storeResult (image v) v.toInt

theorem exec_dst_eq_storeImage (ind : Bool) (l : BitVec 4) (x : BitVec 3) (addr : BitVec 17) (s : State) :
    exec (.dst ind l x addr) s = s.storeImage (2 * operandLength l - 1) (encodePacked · (operandLength l)) := rfl

theorem exec_unpk_eq_storeImage (ind : Bool) (l : BitVec 4) (x : BitVec 3) (addr : BitVec 17) (s : State) :
    exec (.unpk ind l x addr) s = s.storeImage (2 * operandLength l - 1) fun v =>
      zonedBytes (decimalDigits (2 * operandLength l - 1) v.toInt.natAbs) (generatedSign v.toInt) := rfl

/-- The images of the values that fit `z` digits are all of `n` bytes, of which there is at least one and no more than the smallest
address space holds (R50). -/
structure ImagesOfLength (z n : Nat) (image : W128 → List Byte) : Prop where
  pos : 0 < n
  le : n ≤ 2 ^ 16
  length : ∀ v : W128, v.toInt.natAbs < 10 ^ 31 → v.toInt.natAbs < 10 ^ z → (image v).length = n

theorem imagesOfLength_dst (l : BitVec 4) :
    ImagesOfLength (2 * operandLength l - 1) (operandLength l) (encodePacked · (operandLength l)) where
  pos := operandLength_pos l
  le := (operandLength_le l).trans (by decide)
  length _ hv hfits := (encodePacked_holdsPacked hv (operandLength_pos l) (operandLength_le l) hfits).1

theorem imagesOfLength_unpk (l : BitVec 4) :
    ImagesOfLength (2 * operandLength l - 1) (2 * operandLength l - 1) fun v =>
      zonedBytes (decimalDigits (2 * operandLength l - 1) v.toInt.natAbs) (generatedSign v.toInt) where
  pos := zonedLength_pos l
  le := (zonedLength_le l).trans (by decide)
  length v _ _ := by rw [zonedBytes_length, decimalDigits_length]

/-- What the accumulator holds when the size test lets it through to the stores. -/
def State.FitsImage (s : State) (z : Nat) (v : Int) : Prop := packedNumber s.deca = some v ∧ v.natAbs < 10 ^ z

theorem State.unflagged_passes (s : State) (n : Nat) : s.unflagged.passes n := ⟨rfl, by simp [State.unflagged]⟩

/-- Where TRAPFLAG is clear, the verdicts are all that is taken from the state. -/
theorem State.unflagged_of_clear {s : State} (h : s.trapFlag = false) : s.unflagged = { s with accessor := [] } := by
  rw [State.unflagged, ← h]

theorem EndsMaskable.completion_ne_aborted {s t : State} {cc : BitVec 4} (h : EndsMaskable s t cc) : t.completion ≠ some .aborted := by
  rw [EndsMaskable] at h
  split at h <;> simp [h.completion]

/-! ## An aborted store, and one that passes -/

section

variable {s t : State} {z n : Nat} {image : W128 → List Byte}

/-- The string stored is the image of the value itself: it does not depend on memory, nor on what the accessor does. -/
theorem ImagesOfLength.storeImage_ends (h : ImagesOfLength z n image) (hwf : s.mem.wf s.config.addrBits = true) :
    ∃ t, s.storeImage z image = .next t ∧
      match packedNumber s.deca with
      | none => FaultsInvalidDigit s t
      | some v => if 10 ^ z ≤ v.natAbs then FaultsOverflow s t
        else StoresNumber s t n (fun out v => out = image (BitVec.ofInt 128 v)) v :=
  State.withAcc_storeImage_ends hwf z h.pos (h.le.trans s.le_addressSpace) _ fun v hv hfits =>
    ⟨h.length v hv hfits, by rw [BitVec.ofInt_toInt]⟩

/-- An abort comes only from the stores: the value fits, and of the state only bytes of the field may have changed (R57). -/
theorem ImagesOfLength.of_aborted (h : ImagesOfLength z n image) (hwf : s.mem.wf s.config.addrBits = true)
    (ht : s.storeImage z image = .next t) (haborted : t.completion = some .aborted) :
    ∃ v, s.FitsImage z v ∧ t.regs = s.regs ∧ KeepsMemoryBut s t s.ea n ∧ EndsAborted s t := by
  obtain ⟨t', ht', hend⟩ := h.storeImage_ends hwf
  obtain rfl := Host.Outcome.next.inj (ht.symm.trans ht')
  cases hnumber : packedNumber s.deca with
  | none =>
    rw [hnumber] at hend
    exact absurd haborted hend.2.2.completion_ne_aborted
  | some v =>
    simp only [hnumber] at hend
    split at hend <;> rename_i hsize
    · exact absurd haborted hend.2.2.completion_ne_aborted
    · obtain ⟨out, -, -, hregs, hkeeps, hend⟩ := hend
      split at hend
      · rw [hend.2.completion] at haborted
        cases haborted
      · exact ⟨v, ⟨hnumber, Nat.lt_of_not_le hsize⟩, hregs, hkeeps, hend.1⟩

/-- Stores that all pass put the image into the field and leave everything else of memory. -/
theorem ImagesOfLength.of_passes (h : ImagesOfLength z n image) (hwf : s.mem.wf s.config.addrBits = true) (hp : s.passes n) {v : Int}
    (hfits : s.FitsImage z v) :
    ∃ t, s.storeImage z image = .next t ∧ t.regs = s.regs ∧ KeepsMemoryBut s t s.ea n ∧
      t.bytesAt s.ea n = image (BitVec.ofInt 128 v) ∧ EndsDone s t (signCode v) := by
  obtain ⟨t, ht, hend⟩ := h.storeImage_ends hwf
  obtain ⟨hnumber, hsize⟩ := hfits
  simp only [hnumber, if_neg (Nat.not_le.2 hsize)] at hend
  obtain ⟨out, -, rfl, hregs, hkeeps, hend⟩ := hend
  rw [if_pos hp] at hend
  exact ⟨t, ht, hregs, hkeeps, hend⟩

/-! ## The same string over memories that differ in its field -/

theorem KeepsMemoryBut.trans {u : State} {a : Nat} (h : KeepsMemoryBut s t a n) (k : KeepsMemoryBut t u a n)
    (hconfig : t.config = s.config) : KeepsMemoryBut s u a n := fun b hb =>
  (k b fun i hi => State.wrap_congr hconfig _ ▸ hb i hi).trans (h b hb)

/-- Two memories that differ from a third only in a field, and hold the same string in it, read the same everywhere. -/
theorem KeepsMemoryBut.read_eq {u v : State} {a : Nat} (hu : KeepsMemoryBut s u a n) (hv : KeepsMemoryBut s v a n)
    (hconfigu : u.config = s.config) (hconfigv : v.config = s.config) (hbytes : u.bytesAt a n = v.bytesAt a n) (b : Nat) :
    u.mem.read b = v.mem.read b := by
  by_cases hb : ∃ k < n, b = s.wrap (a + k)
  · obtain ⟨k, hk, rfl⟩ := hb
    have hbyte : (u.bytesAt a n)[k]? = (v.bytesAt a n)[k]? := congrArg (·[k]?) hbytes
    simpa [hk, State.getElem_bytesAt, State.wrap_congr hconfigu, State.wrap_congr hconfigv] using hbyte
  · have houtside : ∀ k < n, b ≠ s.wrap (a + k) := fun k hk heq => hb ⟨k, hk, heq⟩
    exact (hu b houtside).trans (hv b houtside).symm

/-- An aborted store presented again, with TRAPFLAG cleared and every access passing, ends as the store that was not interrupted. -/
theorem ImagesOfLength.storeImage_again (h : ImagesOfLength z n image) (hwf : s.mem.wf s.config.addrBits = true)
    (hwf' : t.mem.wf s.config.addrBits = true) (ht : s.storeImage z image = .next t) (haborted : t.completion = some .aborted) :
    ∃ u v, t.unflagged.storeImage z image = .next u ∧ s.unflagged.storeImage z image = .next v ∧
      (∀ a, u.mem.read a = v.mem.read a) ∧ u.regs = v.regs ∧ u.psd = v.psd ∧ u.completion = v.completion := by
  obtain ⟨value, hfits, hregs, hkeeps, habort⟩ := h.of_aborted hwf ht haborted
  have hconfig : t.config = s.config := habort.context.config
  have hea : t.unflagged.ea = s.ea := State.ea_congr hconfig habort.context.command
  have hfits' : t.unflagged.FitsImage z value := ⟨(congrArg packedNumber (State.deca_congr hregs)).trans hfits.1, hfits.2⟩
  obtain ⟨u, hu, hregsu, hkeepsu, hbytesu, hdoneu⟩ := h.of_passes (s := t.unflagged) (hconfig ▸ hwf') (t.unflagged_passes n) hfits'
  obtain ⟨v, hv, hregsv, hkeepsv, hbytesv, hdonev⟩ := h.of_passes (s := s.unflagged) hwf (s.unflagged_passes n) hfits
  rw [hea] at hkeepsu hbytesu
  have hconfigu : u.config = s.config := hdoneu.context.config.trans hconfig
  have hreads := (hkeeps.trans hkeepsu hconfig).read_eq hkeepsv hconfigu hdonev.context.config (hbytesu.trans hbytesv.symm)
  have hpsd : t.unflagged.psd = s.unflagged.psd := habort.psd
  exact ⟨u, v, hu, hv, hreads, hregsu.trans (hregs.trans hregsv.symm), by rw [hdoneu.psd, hdonev.psd, hpsd],
    hdoneu.completion.trans hdonev.completion.symm⟩

end

/-- Settles O27: DST and UNPK are the common rule, each with its images. -/
theorem abortedStoreCanBePresentedAgain : Obligations.AbortedStoreCanBePresentedAgain := by
  intro i s t hi hwf hclear ht haborted
  have hwf' := exec_mem_wf ht hwf
  rw [← State.unflagged_of_clear hclear]
  obtain ⟨ind, l, x, addr, rfl⟩ | ⟨ind, l, x, addr, rfl⟩ := hi
  · simp only [exec_dst_eq_storeImage] at ht ⊢
    exact (imagesOfLength_dst l).storeImage_again hwf hwf' ht haborted
  · simp only [exec_unpk_eq_storeImage] at ht ⊢
    exact (imagesOfLength_unpk l).storeImage_again hwf hwf' ht haborted

end Sys2Proof.Machine
end
